-- ==== Sys2Proof/Word.lean ====
section
/-!
DEFINITION. Word.lean: the bit-vector types of the machine.
R3 fixes bit 0 as the least significant bit, R75 the register widths, R74 the 2 KiB row and R191 the 32,768-bit mask.
-/

namespace Sys2Proof

/-- A 64-bit register value (R75). -/
abbrev Word := BitVec 64

/-- One byte of memory. -/
abbrev Byte := BitVec 8

/-- A five-bit register field: s0-s31, f0-f31 or p0-p31 (R98). -/
abbrev Reg := BitVec 5

/-- A mask or stream register number, 0-7 (R98). -/
abbrev Reg3 := BitVec 3

/-- One row of a tile register: 2 KiB (R74). -/
abbrev TileRow := BitVec 16384

/-- A mask register: one bit per logical element (R191). -/
abbrev Mask := BitVec 32768

/-- A byte position in some storage with its value; the canonical memory list holds these (Host.Cell). -/
abbrev Cells := List Host.Cell

end Sys2Proof
end

