-- ==== Sys2Proof/Syntax.lean ====
section
/-!
DEFINITION. Syntax.lean: the instructions and device events of the opcode table, one constructor per row, and the data
the events carry. Instructions carry their encoded operand fields (R93-R98); a device event carries what the outside
world supplies for it (an input the spec leaves to Silven, the host, a peer or the silicon).
-/

namespace Sys2Proof

/-- The targets that check an access table (R38). -/
inductive Target where
  | memory | egress | dispatcher | silven
  deriving DecidableEq, Repr, Inhabited

/-- The requesting units a table is keyed by (R38; log 17). -/
inductive AccUnit where
  | hart | engine | host
  deriving DecidableEq, Repr, Inhabited

/-- One access-table entry granted at partition creation (R37, R38). -/
structure AccessGrant where
  target : Target
  accUnit : AccUnit
  rights : BitVec 8
  deriving DecidableEq, Repr, Inhabited

/-- A destination buffer granted to a partition: handle slot, home of its front, size (R335; log 18). -/
structure BufferGrant where
  slot : Nat
  base : Nat
  size : Nat
  deriving DecidableEq, Repr, Inhabited

/-- What Silven grants a new partition (R37). Frames are (pool, frame) pairs; fabric windows go by number. -/
structure Grant where
  part : Nat
  cores : List Nat
  frames : List (Nat × Nat)
  tables : List Nat
  windows : List Nat
  slots : Nat
  access : List AccessGrant
  buffers : List BufferGrant
  deriving DecidableEq, Repr, Inhabited

/-- A firmware image as taken in: its signature verdict, security version and digest (R423; log 19). -/
structure FirmwareImage where
  firstStage : Bool
  signatureOk : Bool
  version : Nat
  digest : BitVec 256
  deriving DecidableEq, Repr, Inhabited

/-- The outcome of the second and third run of a rechecked instruction (R395): the first differing logical index and
whether the first run was in the majority. -/
inductive RecheckOutcome where
  | agree
  | majority (element : Nat) (firstRunKept : Bool)
  | allDiffer (element lane : Nat)
  deriving DecidableEq, Repr, Inhabited

/-- Operations on a remote object (R339, R365), with the withdrawal of a waiting ACQ (R340), the loss of a tagged store (R329),
and the check of a barrier after a LEAVE from its group on another device (R349; log 27). -/
inductive ObjOp where
  | acq | rel | bind | arrive | wait | join | leave | claim | charge | discharge | withdraw | lost | recheck
  deriving DecidableEq, Repr, Inhabited

/-- A fabric packet (R365). Locations are home keys at the target: pool, frame and offset in one number. A REDUCE
contribution names the collective, its rank, and the header its members must agree in: LEN, ROP, FMT, PEER, N and the rank
table (R374-R376). A write tells whether its accesses may fill a receive slot (R65) and which of its bytes are poisoned
(R270). -/
inductive Packet where
  | read (loc len : Nat)
  | write (stores : List (Nat × List Byte)) (fills : Bool) (bad : List (Nat × Nat))
  | amo (op width loc : Nat) (operand : Word)
  | cas (width loc : Nat) (expected new : Word)
  | vstred (fmt : Nat) (scale : Option Word) (elems : List (Nat × Word))
  | vamo (op width : Nat) (elems : List (Nat × Word))
  | reduce (part group k rank : Nat) (header : List Nat) (offset : Nat) (data : List Byte)
  | slotMessage (table : Nat) (activation : Bool)
  | object (op : ObjOp) (loc : Nat) (args : List Word)
  | merged (width loc : Nat) (components : List (Nat × Nat × Word))
  deriving DecidableEq, Repr, Inhabited

/-- A reply to a request (R427): the bytes read or the old values, status words, and whether the data are poisoned. -/
structure Reply where
  bytes : List Byte
  words : List Word
  poison : Bool
  deriving DecidableEq, Repr, Inhabited

/-- Where a device register lies: the Silven register block, reached by the physical function or by a partition that needs
the SILV right (R38), or a virtual function's management region. -/
inductive RegSpace where
  | silven (master : Option Nat)
  | management (part : Nat)
  deriving DecidableEq, Repr, Inhabited

/-- A page the pager makes resident (R283): its address and size class, the frame it maps it to, its rights, kind, access
mode and threshold, and the peer and peer frame of a pool-15 page (R273). -/
structure PageMap where
  page : Nat
  large : Bool
  pool : Nat
  frame : Nat
  peer : Nat
  mode : Nat
  r : Bool
  w : Bool
  x : Bool
  sd : Bool
  wcls : Bool
  thr : Nat
  rframe : Nat
  deriving DecidableEq, Repr, Inhabited

/-- Where a page migrates to (R284): the home of the new frame's first byte, and for a frame of pool 15 the peer and the
frame there (R273). -/
structure MoveTarget where
  home : Nat
  peer : Nat
  rframe : Nat
  deriving DecidableEq, Repr, Inhabited

/-- An access to a device register: its offset in the space, and its size in bytes (R5). -/
structure RegAccess where
  offset : Nat
  width : Nat
  deriving DecidableEq, Repr, Inhabited

/-- The rows of spec/opcode_table.json: the encoded instructions in the table's order, then the device events. -/
inductive Instr where
  /-- R182: Does nothing. -/
  | nop
  /-- R182: Traps BREAK with the code in TVAL. -/
  | brk (code : Reg)
  /-- R182: Traps SYSCALL with the service number and the return address. -/
  | trap (service : Reg)
  /-- R183: Waits for any pending batch, then returns from the current trap level to TEPC. -/
  | tret
  /-- R185: Blocks the hart until a cancel is pending or the hart resumes. -/
  | idle
  /-- R186: Reads a system register into s[d]. -/
  | mfsr (rd : Reg) (number : BitVec 12)
  /-- R186: Writes a system register under its field map. -/
  | mtsr (ra : Reg) (number : BitVec 12)
  /-- R187: Invalidates every TLB entry of the address space and waits for accesses that used them. -/
  | tlbiAll
  /-- R187: Invalidates the TLB entries of one page and waits for accesses that used them. -/
  | tlbiVa (ra : Reg)
  /-- R170: s[d] := s[a] + s[b]. -/
  | add (rd ra rb : Reg)
  /-- R170: s[d] := s[a] − s[b]. -/
  | sub (rd ra rb : Reg)
  /-- R170: Bitwise AND. -/
  | and (rd ra rb : Reg)
  /-- R170: Bitwise OR. -/
  | or (rd ra rb : Reg)
  /-- R170: Bitwise XOR. -/
  | xor (rd ra rb : Reg)
  /-- R170: Shift left logical. -/
  | sll (rd ra rb : Reg)
  /-- R170: Shift right logical. -/
  | srl (rd ra rb : Reg)
  /-- R170: Shift right arithmetic. -/
  | sra (rd ra rb : Reg)
  /-- R170: Signed set-less-than. -/
  | slt (rd ra rb : Reg)
  /-- R170: Unsigned set-less-than. -/
  | sltu (rd ra rb : Reg)
  /-- R170: Unsigned minimum. -/
  | umin (rd ra rb : Reg)
  /-- R170: Unsigned maximum. -/
  | umax (rd ra rb : Reg)
  /-- R170: Signed minimum. -/
  | smin (rd ra rb : Reg)
  /-- R170: Signed maximum. -/
  | smax (rd ra rb : Reg)
  /-- R170: Low 64 bits of the product. -/
  | mul (rd ra rb : Reg)
  /-- R170: High 64 bits of the signed product. -/
  | mulh (rd ra rb : Reg)
  /-- R170: High 64 bits of the unsigned product. -/
  | mulhu (rd ra rb : Reg)
  /-- R171: Signed division with the edge cases and traps of R136. -/
  | div (rd ra rb : Reg)
  /-- R171: Unsigned division. -/
  | divu (rd ra rb : Reg)
  /-- R171: Signed remainder. -/
  | rem (rd ra rb : Reg)
  /-- R171: Unsigned remainder. -/
  | remu (rd ra rb : Reg)
  /-- R172: Adds an immediate. -/
  | addi (rd ra : Reg) (imm : Word)
  /-- R172: AND with an immediate. -/
  | andi (rd ra : Reg) (imm : Word)
  /-- R172: OR with an immediate. -/
  | ori (rd ra : Reg) (imm : Word)
  /-- R172: XOR with an immediate. -/
  | xori (rd ra : Reg) (imm : Word)
  /-- R172: Shift left by an immediate. -/
  | slli (rd ra : Reg) (count : BitVec 6)
  /-- R172: Logical shift right by an immediate. -/
  | srli (rd ra : Reg) (count : BitVec 6)
  /-- R172: Arithmetic shift right by an immediate. -/
  | srai (rd ra : Reg) (count : BitVec 6)
  /-- R172: Signed compare with an immediate. -/
  | slti (rd ra : Reg) (imm : Word)
  /-- R172: Unsigned compare with a sign-extended immediate. -/
  | sltiu (rd ra : Reg) (imm : Word)
  /-- R179: Branches if equal. -/
  | beq (ra rb : Reg) (imm : Word)
  /-- R179: Branches if not equal. -/
  | bne (ra rb : Reg) (imm : Word)
  /-- R179: Branches if less, signed. -/
  | blt (ra rb : Reg) (imm : Word)
  /-- R179: Branches if greater or equal, signed. -/
  | bge (ra rb : Reg) (imm : Word)
  /-- R179: Branches if less, unsigned. -/
  | bltu (ra rb : Reg) (imm : Word)
  /-- R179: Branches if greater or equal, unsigned. -/
  | bgeu (ra rb : Reg) (imm : Word)
  /-- R180: Jumps PC-relative and links. -/
  | jal (rd : Reg) (imm : Word)
  /-- R180: Jumps to a register plus an immediate and links. -/
  | jalr (rd ra : Reg) (imm : Word)
  /-- R181: Advances LOOPCNT, the stage bits, m4–m7 and the rotation base, and branches while a stage is valid. -/
  | loop (stages : Reg) (imm : Word)
  /-- R174: Loads a byte, sign-extended. -/
  | ldB (rd ra : Reg) (imm : Word)
  /-- R174: Loads a halfword, sign-extended. -/
  | ldH (rd ra : Reg) (imm : Word)
  /-- R174: Loads a word, sign-extended. -/
  | ldW (rd ra : Reg) (imm : Word)
  /-- R174: Loads a doubleword. -/
  | ldD (rd ra : Reg) (imm : Word)
  /-- R174: Loads a byte, zero-extended. -/
  | ldBu (rd ra : Reg) (imm : Word)
  /-- R174: Loads a halfword, zero-extended. -/
  | ldHu (rd ra : Reg) (imm : Word)
  /-- R174: Loads a word, zero-extended. -/
  | ldWu (rd ra : Reg) (imm : Word)
  /-- R174: Stores a byte. -/
  | stB (rd ra : Reg) (imm : Word)
  /-- R174: Stores a halfword. -/
  | stH (rd ra : Reg) (imm : Word)
  /-- R174: Stores a word. -/
  | stW (rd ra : Reg) (imm : Word)
  /-- R174: Stores a doubleword. -/
  | stD (rd ra : Reg) (imm : Word)
  /-- R176: Atomic 64-bit add, returning the old value. -/
  | amoAddD (rd rb ra : Reg)
  /-- R176: Atomic 64-bit exchange. -/
  | amoXchgD (rd rb ra : Reg)
  /-- R176: Atomic 64-bit unsigned minimum. -/
  | amoUminD (rd rb ra : Reg)
  /-- R176: Atomic 64-bit unsigned maximum. -/
  | amoUmaxD (rd rb ra : Reg)
  /-- R176: Atomic 64-bit signed minimum. -/
  | amoSminD (rd rb ra : Reg)
  /-- R176: Atomic 64-bit signed maximum. -/
  | amoSmaxD (rd rb ra : Reg)
  /-- R176: Atomic 64-bit AND. -/
  | amoAndD (rd rb ra : Reg)
  /-- R176: Atomic 64-bit OR. -/
  | amoOrD (rd rb ra : Reg)
  /-- R176: Atomic 64-bit XOR. -/
  | amoXorD (rd rb ra : Reg)
  /-- R176: Atomic 32-bit add. -/
  | amoAddW (rd rb ra : Reg)
  /-- R176: Atomic 32-bit exchange. -/
  | amoXchgW (rd rb ra : Reg)
  /-- R176: Atomic 32-bit unsigned minimum. -/
  | amoUminW (rd rb ra : Reg)
  /-- R176: Atomic 32-bit unsigned maximum. -/
  | amoUmaxW (rd rb ra : Reg)
  /-- R176: Atomic 32-bit signed minimum. -/
  | amoSminW (rd rb ra : Reg)
  /-- R176: Atomic 32-bit signed maximum. -/
  | amoSmaxW (rd rb ra : Reg)
  /-- R176: Atomic 32-bit AND. -/
  | amoAndW (rd rb ra : Reg)
  /-- R176: Atomic 32-bit OR. -/
  | amoOrW (rd rb ra : Reg)
  /-- R176: Atomic 32-bit XOR. -/
  | amoXorW (rd rb ra : Reg)
  /-- R177: 64-bit compare-and-swap. -/
  | casD (rd rb rc ra : Reg)
  /-- R177: 32-bit compare-and-swap. -/
  | casW (rd rb rc ra : Reg)
  /-- R201: VL := min(s[a], VLT). -/
  | setvl (rd ra : Reg)
  /-- R202: Sets RC to 1–16 and trims VL. -/
  | setrc (rd ra : Reg)
  /-- R203: Sets VTYPE, or rejects the request by setting VREJ. -/
  | setvt (rd : Reg) (request : Word)
  /-- R204: Sets DLENk and DSTEPk. -/
  | setdim (k : BitVec 2) (ra rb : Reg)
  /-- R205: Reads a register's shape tag after its earlier writers have retired. -/
  | getshape (rd ra : Reg)
  /-- R206: Releases a register or retags it, reallocating its storage, in queue order. -/
  | setshape (rd ra : Reg)
  /-- R208: Element-wise or function-mode addition. -/
  | vadd (fd fa fb : Reg) (mask : Reg3) (rm : Reg3) (lift : Bool)
  /-- R208: Element-wise or function-mode subtraction. -/
  | vsub (fd fa fb : Reg) (mask : Reg3) (rm : Reg3) (lift : Bool)
  /-- R208: Element-wise multiplication, or per-row scaling in function mode. -/
  | vmul (fd fa fb : Reg) (mask : Reg3) (rm : Reg3)
  /-- R208: Element-wise division. -/
  | vdiv (fd fa fb : Reg) (mask : Reg3) (rm : Reg3)
  /-- R208: Integer remainder. -/
  | vrem (fd fa fb : Reg) (mask : Reg3)
  /-- R208: Element-wise minimum. -/
  | vmin (fd fa fb : Reg) (mask : Reg3) (nan : Bool)
  /-- R208: Element-wise maximum. -/
  | vmax (fd fa fb : Reg) (mask : Reg3) (nan : Bool)
  /-- R208: Bitwise AND. -/
  | vand (fd fa fb : Reg) (mask : Reg3)
  /-- R208: Bitwise OR. -/
  | vor (fd fa fb : Reg) (mask : Reg3)
  /-- R208: Bitwise XOR. -/
  | vxor (fd fa fb : Reg) (mask : Reg3)
  /-- R208: Shift left. -/
  | vsll (fd fa fb : Reg) (mask : Reg3)
  /-- R208: Logical shift right. -/
  | vsrl (fd fa fb : Reg) (mask : Reg3)
  /-- R208: Arithmetic shift right. -/
  | vsra (fd fa fb : Reg) (mask : Reg3)
  /-- R208: Absolute value. -/
  | vabs (fd fa : Reg) (mask : Reg3)
  /-- R208: Negation. -/
  | vneg (fd fa : Reg) (mask : Reg3)
  /-- R208: Square root. -/
  | vsqrt (fd fa : Reg) (mask : Reg3) (rm : Reg3)
  /-- R208: Fused a × b + c. -/
  | vmadd (fd fa fb fc : Reg) (mask : Reg3) (rm : Reg3)
  /-- R208: Fused a × b − c. -/
  | vmsub (fd fa fb fc : Reg) (mask : Reg3) (rm : Reg3)
  /-- R208: Fused −(a × b) + c. -/
  | vnmadd (fd fa fb fc : Reg) (mask : Reg3) (rm : Reg3)
  /-- R208: Magnitude of a with the sign of b. -/
  | vsgnj (fd fa fb : Reg) (mask : Reg3)
  /-- R208: Copies bits. -/
  | vmv (fd fa : Reg) (mask : Reg3)
  /-- R208: Selects a or b per element by a mask. -/
  | vsel (fd fa fb : Reg) (mc mask : Reg3)
  /-- R213: Widening multiply-accumulate. -/
  | vwmac (fd fa fb fc : Reg) (mask : Reg3) (rm : Reg3)
  /-- R209: Writes a class word per element. -/
  | vclass (fd fa : Reg) (mask : Reg3)
  /-- R214: Converts each element to the target format named by the minor opcode. -/
  | vcvt (format : BitVec 4) (fd fa : Reg) (mask : Reg3) (rm : Reg3)
  /-- R215: Compares for equality into a mask. -/
  | vcmpEq (md : Reg3) (fa fb : Reg) (mask : Reg3)
  /-- R215: Compares for inequality into a mask. -/
  | vcmpNe (md : Reg3) (fa fb : Reg) (mask : Reg3)
  /-- R215: Less-than compare into a mask. -/
  | vcmpLt (md : Reg3) (fa fb : Reg) (mask : Reg3)
  /-- R215: Less-or-equal compare into a mask. -/
  | vcmpLe (md : Reg3) (fa fb : Reg) (mask : Reg3)
  /-- R215: Unsigned less-than compare into a mask. -/
  | vcmpLtu (md : Reg3) (fa fb : Reg) (mask : Reg3)
  /-- R215: Unsigned less-or-equal compare into a mask. -/
  | vcmpLeu (md : Reg3) (fa fb : Reg) (mask : Reg3)
  /-- R215: Unordered compare into a mask. -/
  | vcmpUnord (md : Reg3) (fa fb : Reg) (mask : Reg3)
  /-- R216: Mask AND. -/
  | vmand (md ma mb mask : Reg3)
  /-- R216: Mask OR. -/
  | vmor (md ma mb mask : Reg3)
  /-- R216: Mask XOR. -/
  | vmxor (md ma mb mask : Reg3)
  /-- R216: Mask AND-NOT. -/
  | vmandn (md ma mb mask : Reg3)
  /-- R216: Counts the active set bits of a mask into a scalar. -/
  | vmpop (rd : Reg) (ma mask : Reg3)
  /-- R217: 2^x. -/
  | vexp2 (fd fa : Reg) (mask : Reg3)
  /-- R217: log2 x. -/
  | vlog2 (fd fa : Reg) (mask : Reg3)
  /-- R217: sin(πx). -/
  | vsinpi (fd fa : Reg) (mask : Reg3)
  /-- R217: cos(πx). -/
  | vcospi (fd fa : Reg) (mask : Reg3)
  /-- R217: tanh x. -/
  | vtanh (fd fa : Reg) (mask : Reg3)
  /-- R217: 1/x. -/
  | vrcp (fd fa : Reg) (mask : Reg3)
  /-- R217: 1/√x. -/
  | vrsqrt (fd fa : Reg) (mask : Reg3)
  /-- R221: Reduces the tile through the fixed tree, or the double-word tree. -/
  | vred (op : Reg3) (nan dw : Bool) (fd fa fb : Reg) (mask : Reg3)
  /-- R222: Prefix reduction over logical indices. -/
  | vscan (op : Reg3) (nan dw : Bool) (fd fa fb : Reg) (mask : Reg3)
  /-- R223: Permutes within rows by an index tile. -/
  | vperm (fd fa fb : Reg) (mask : Reg3)
  /-- R223: Slides elements within rows by a scalar amount. -/
  | vslide (fd fa rb : Reg) (mask : Reg3)
  /-- R224: Packs the active non-zero elements with their indices and sets VL. -/
  | vcompress (fd fa fb : Reg) (mask : Reg3)
  /-- R225: Scatters packed elements to the active positions. -/
  | vexpand (fd fa : Reg) (mask : Reg3)
  /-- R223: Broadcasts a scalar. -/
  | vbcast (fd ra : Reg) (mask : Reg3)
  /-- R223: Transposes a square tile. -/
  | vtrans (fd fa : Reg) (mask : Reg3)
  /-- R223: Writes the prefix count of mask bits. -/
  | viota (fd : Reg) (ma mask : Reg3)
  /-- R230: Multiplies two functions under the VTYPE policy and cap. -/
  | fmul (fd fa fb : Reg) (mask : Reg3)
  /-- R231: Differentiates along an axis. -/
  | fdiff (fd fa : Reg) (axis : Reg) (mask : Reg3)
  /-- R231: Integrates along an axis from −1. -/
  | fint (fd fa : Reg) (axis : Reg) (mask : Reg3)
  /-- R231: Integrates over the whole element into one PLAIN value per row. -/
  | fintAll (fd fa : Reg) (zero : Reg) (mask : Reg3)
  /-- R232: Projects to a target basis and target degrees. -/
  | fproj (fd fa rb : Reg) (mask : Reg3)
  /-- R233: Evaluates the function on a face. -/
  | ftrace (fd fa : Reg) (face : Reg) (mask : Reg3)
  /-- R234: Evaluates the function at the points of each row. -/
  | feval (fd fa fb : Reg) (mask : Reg3)
  /-- R232: Converts between the modal and nodal bases. -/
  | fxform (fd fa : Reg) (zero : Reg) (mask : Reg3)
  /-- R232: Raises the first source to the degrees of the second. -/
  | flift (fd fa fb : Reg) (mask : Reg3)
  /-- R235: Applies the basis mass matrix. -/
  | fmass (fd fa : Reg) (zero : Reg) (mask : Reg3)
  /-- R239: Claims a Palette slot, waiting while another hart holds it. -/
  | mclaim (pd : Reg)
  /-- R240: Frees a held Palette slot. The slot is granted to the oldest waiting claim. -/
  | mrel (pa : Reg)
  /-- R241: Fills a slot from memory, all-or-nothing. -/
  | mload (pd ra : Reg) (disp : Word)
  /-- R241: Fills a slot transposed. -/
  | mloadT (pd ra : Reg) (disp : Word)
  /-- R241: Fills a slot with rows gathered by an index tile. -/
  | mloadG (pd ra fb : Reg) (disp : Word)
  /-- R242: Builds a dense slot from compressed sparse rows. -/
  | mloadCsr (pd ra : Reg) (disp : Word)
  /-- R244: Accumulates the product of two slots into a tile in the fixed group order. -/
  | mma (fd pa pb : Reg) (mask : Reg3)
  /-- R245: Stores a tile as DLEN1 rows, all-or-nothing. -/
  | mstore (fd ra : Reg) (disp : Word)
  /-- R296: Unit-stride vector load with batch faults. -/
  | vld (fd ra : Reg) (mask : Reg3) (disp : Word)
  /-- R299: Unit-stride vector store, all-or-nothing. -/
  | vst (fd ra : Reg) (mask : Reg3) (disp : Word)
  /-- R299: Multi-dimensional vector store. -/
  | vstD (fd ra : Reg) (mask : Reg3) (disp : Word)
  /-- R296: Indexed vector load. -/
  | vldx (fd ra fb : Reg) (mask : Reg3) (disp : Word)
  /-- R299: Indexed vector store. -/
  | vstx (fd ra fb : Reg) (mask : Reg3) (disp : Word)
  /-- R297: Fault-only-first load that trims RC and VL. -/
  | vldFf (fd ra : Reg) (mask : Reg3) (disp : Word)
  /-- R296: Multi-dimensional vector load over planes. -/
  | vldD (fd ra : Reg) (mask : Reg3) (disp : Word)
  /-- R300: Stores the tile as self-describing blocks. -/
  | vstSeg (fd ra fb : Reg) (disp : Word)
  /-- R301: Adds the elements into memory at their homes, packet by packet. -/
  | vstred (fd ra rb : Reg) (mask : Reg3) (disp : Word)
  /-- R302: One atomic per active element. -/
  | vamo (op : BitVec 4) (fd ra fb : Reg) (mask : Reg3) (disp : Word)
  /-- R298: Copies FEM into a mask register. -/
  | vldFem (md : Reg3)
  /-- R298: Copies a mask register into FEM. -/
  | vstFem (md : Reg3)
  /-- R310: Pops the next tile from a load-bound stream. -/
  | vmvPop (fd : Reg) (qa : Reg3)
  /-- R310: Pushes a tile into a store-bound stream. -/
  | vmvPush (qd : Reg3) (fa : Reg)
  /-- R303: Looks up the tag table and suggests a victim. -/
  | tlook (rd ra : Reg)
  /-- R303: Writes a tag entry and clears duplicates. -/
  | tins (rd ra rb : Reg)
  /-- R303: Reads and invalidates a tag entry. -/
  | tinv (rd ra : Reg)
  /-- R305: Queues a copy-channel transfer and returns its completion position. -/
  | cpy (rd ra rb rc : Reg) (channel : BitVec 2)
  /-- R306: Queues a transfer of a compressed buffer's expanded content. -/
  | cpyX (rd ra rb rc : Reg) (channel : BitVec 2) (offset : Word)
  /-- R307: Blocks until WPOS reaches the target position. -/
  | cwait (rd ra : Reg) (channel : BitVec 2)
  /-- R309: Binds a stream register to a pattern table. -/
  | qbind (qd : Reg3) (ra : Reg)
  /-- R311: Unbinds a stream, writing its last compressed block. -/
  | qrel (qd : Reg3)
  /-- R312: Submits engine commands and writes the mask of those accepted. -/
  | esub (md : Reg3) (fa rb : Reg) (mask : Reg3)
  /-- R315: XCOP.r code 0x01 reads 64 random bits. -/
  | xcopRandom (rd ra rb : Reg)
  /-- R386: XCOP code 0x08 writes STEP and ESC of MARGIN_SET. -/
  | xcopMarginSet (ra rb : Reg)
  /-- R387: XCOP code 0x09 writes REPLAY_LIMIT. -/
  | xcopReplayLimit (ra rb : Reg)
  /-- R388: XCOP code 0x0A clears REPLAY_COUNT. -/
  | xcopReplayCountClear (ra rb : Reg)
  /-- R316: XCOP.r code 0x10 reads a core counter. -/
  | xcopCounterRead (rd ra rb : Reg)
  /-- R316: XCOP code 0x11 clears a core counter. -/
  | xcopCounterClear (ra rb : Reg)
  /-- R315: XCOP.r code 0x20 reads the refusal reasons of the hart's last ESUB. -/
  | xcopEsubReasons (rd ra rb : Reg)
  /-- R328: Acquires a sync object, blocking while it is held. -/
  | acq (ra : Reg)
  /-- R329: Drains tagged stores and releases the object. -/
  | rel (ra : Reg)
  /-- R341: Binds a region to a sync object. -/
  | bind (ra rb : Reg)
  /-- R331: Waits for earlier accesses within the scope and writes the loss status. -/
  | fence (scope : Reg3) (rd : Reg)
  /-- R333: Fences at package scope and waits for clean data checks, or traps on poison. -/
  | efence (rd : Reg)
  /-- R348: Arrives at a barrier and waits for it. -/
  | bar (ra : Reg)
  /-- R346: Fences, charges undelivered copy bytes and counts the arrival. -/
  | arrive (ra rb : Reg)
  /-- R348: Blocks until the barrier phase completes or PENDING is 0. -/
  | wait (ra : Reg)
  /-- R349: Joins a group object. -/
  | join (rd ra : Reg)
  /-- R349: Leaves the group and checks barrier completion. -/
  | leave (rd : Reg)
  /-- R86: Claims elements from a work counter and sets VL. -/
  | claim (rd ra rb : Reg)
  /-- R351: Checks the handle and begins the publish of a buffer. -/
  | publish (rd ra : Reg)
  /-- R353: Creates a node from a record. -/
  | node (rd ra : Reg)
  /-- R354: Adds a predecessor edge, or releases a held node. -/
  | edge (rd ra rb : Reg)
  /-- R355: Ends the hart's part in its node and frees the hart. The last DONE retires the node or puts it in COMMIT_WAIT. -/
  | done
  /-- R356: Asks the dispatcher to pre-empt the node when another node is waiting. -/
  | yield
  /-- R357: Cancels a node, blocking until the outcome is decided. -/
  | cancel (rd ra : Reg)
  /-- R358: Reports a pending cancel and decides it as DELIVERED. -/
  | chkc (rd : Reg)
  /-- R359: Reads a word of the schedule entry that issued the node. -/
  | snext (rd : Reg) (k : BitVec 2)
  /-- R360: Empties a receive slot and sends a slot message to the neighbour. -/
  | slotfree (ra : Reg) (gradient : Bool)
  /-- R20: Core calibration and port training end. Failed ports are marked down, failed cores are quarantined, and the device either fails the stage or reaches stage 3. -/
  | stage2Complete (badCores badPorts floors : List Nat)
  /-- R37: Silven grants a new partition its cores, memory, fabric windows, schedule tables and virtual function. The request is refused with NOT_READY before stage 3. -/
  | partitionCreate (grant : Grant)
  /-- R425: A write to PART_TEARDOWN destroys the partition's window, stops its tables, cancels its idle nodes, and begins the wait for its running nodes. -/
  | partTeardown (part : Nat)
  /-- R425: The 10 ms teardown wait expires. Silven kills the nodes still running, then frees save slots, zeroes storage, clears the access tables and releases the grants. -/
  | teardownWaitExpiry (part : Nat)
  /-- R425: Every running node of the torn-down partition has ended within the wait, and Silven continues teardown from step 4. -/
  | teardownNodesEnded (part : Nat)
  /-- R41: A host write to the INSERT register is accepted or dropped, and counted in INSERT_CNT. -/
  | insert (part : Nat) (addr : Word)
  /-- R29: The dispatcher reads an accepted node record and checks it. It makes the node, or a FAILED node, or none, and writes RESULT and INSERT_LAST. -/
  | insertRecordRead (part : Nat)
  /-- R42: A write to WIN_CTL.ENABLE opens or closes the insert window. Inserts already accepted are kept. -/
  | winCtlWrite (part : Nat) (value : Word)
  /-- R48: A write to PART_MODE sets KEYSTONE and SPEC_MAX. DET changes only while the node table holds no node. -/
  | partModeWrite (part : Nat) (value : Word)
  /-- R45: A ready node's pass count reaches 4,096. Its level rises, or at level 7 it becomes the partition's reservation. -/
  | passCountReached (part slot : Nat)
  /-- R50: The COMMIT_WAIT node with the smallest timestamp publishes its shadows and retires. Overlapping later nodes are aborted. -/
  | nodeCommit (part : Nat)
  /-- R62: A write of SCHED_CTL.START checks the configuration and DET. If both pass, it latches the registers, clears the state and begins LOADING. -/
  | schedStart (part table : Nat) (value : Word)
  /-- R61: A write of SCHED_CTL.STOP moves a RUNNING table to STOPPING, or a LOADING table to IDLE, and drops the entries not yet issued. -/
  | schedStop (part table : Nat) (value : Word)
  /-- R61: Loading of the entry array and the seal homes ends. The table enters RUNNING, or enters FAULTED with ERR 0x01, 0x02, 0x09 or 0x06. -/
  | schedLoadComplete (table : Nat)
  /-- R70: Each cycle in RUNNING, the table applies retirements, checks the entry at HEAD, issues it if its conditions hold, and charges the cycle. -/
  | schedCycle (table : Nat)
  /-- R116: A vector-class instruction retires in program order and merges its flags into FFLAGS. -/
  | instructionRetire (hart : Nat)
  /-- R117: A queued instruction is re-run in idle slots. On a mismatch it runs a third time and retires by majority. -/
  | recheckRun (hart : Nat) (outcome : RecheckOutcome)
  /-- R385: Eight consecutive replays of one group or instruction fail. The hart traps precisely, and one escalation event is counted. -/
  | replayExhausted (hart : Nat) (vector : Bool) (element lane : Nat)
  /-- R391: A guarded operation's held effect leaves the core once its shadow window has closed, earlier instructions have retired and the node is no longer speculative. -/
  | guardedRelease (hart : Nat)
  /-- R324: The oldest store-buffer entry to its address drains. It writes its local home, or enters the fabric channel. -/
  | sbDrain (hart index : Nat)
  /-- R367: A sequenced packet arrives at its target. It is performed, held in the reorder buffer or discarded according to its number and E. -/
  | fabricPacketArrive (peer seq : Nat) (packet : Packet)
  /-- R427: A cumulative acknowledgement arrives, and the source frees its acknowledged packets. -/
  | ackArrive (peer ack : Nat)
  /-- R427: A reply arrives and acknowledges its request. A second reply is ignored. -/
  | replyArrive (peer seq : Nat) (reply : Reply)
  /-- R324: A die's cached copy of a MODE 2 peer line is filled from its home. -/
  | cacheFill (die peer line : Nat) (bytes : List Byte)
  /-- R324: An accepted engine command writes some of its bytes to the shadow of its buffer and counts them off the barrier. -/
  | engineWrite (command count : Nat)
  /-- R335: Once every command accepted for the buffer has ended, PUBLISH exchanges front and shadow in one step, or discards the shadow and writes its status. -/
  | publishExchange (hart : Nat)
  /-- R328: A waiting ACQ is granted at the object's home when HELD becomes 0. It sets OWNER, refreshes the binding view and drops cached copies. -/
  | acqGrant (object : Nat)
  /-- R260: A copy channel writes transfer bytes at their destination and advances WPOS. Barrier charges are counted off, and a satisfied CWAIT wakes. -/
  | copyChannelDeliver (core channel count : Nat)
  /-- R407: The pager's reply to a batch arrives. PEND and UNRES are set, in the saved frame if the node is saved, and a blocked TRET or TL 0 wait proceeds. -/
  | pagerReply (batch : Nat) (maps : List PageMap) (unresolved : List Nat)
  /-- R284: Silven sets MIG in the old entry and begins copying the page. -/
  | migrationStart (source : Nat) (target : MoveTarget)
  /-- R284: One 64-byte line is copied indivisibly, and its redirect bit is set at the old home. -/
  | migrationLineCopy (source : Nat)
  /-- R284: Once accesses that used the old translation are performed, Silven clears the redirect bits and frees the old frame. -/
  | migrationFinish (source : Nat)
  /-- R396: A load's data check ends with poison. The poison record is set, or, with rollback armed, the partition rolls back. -/
  | dataCheckPoison (hart : Nat) (addr : Word)
  /-- R4: A write to any other register takes effect under its field map, including W1C clears and writes that are reserved or ignored. -/
  | registerWrite (space : RegSpace) (access : RegAccess) (value : Word)
  /-- R396: A load's delayed data check ends without poison, so the load is known clean and a waiting EFENCE may complete. -/
  | dataCheckClean (hart : Nat)
  /-- R19: Silven finishes booting the ROM, verifying the first firmware stage and bringing PCIe up. The device fails the stage or moves to stage 1. -/
  | stage0Complete (signatureOk : Bool)
  /-- R20: Training of every HBM4E stack and LPDDR 6 channel ends. The stage is judged, and the device either fails it or moves to stage 2. -/
  | stage1Complete (hbm : BitVec 8) (lpOk : Bool)
  /-- R423: A firmware image is taken in. It is refused if its signature fails or its security version is below the fused minimum. -/
  | firmwareIntake (image : FirmwareImage)
  /-- R423: The device answers the SPDM CHALLENGE request with its fused P-256 identity key. -/
  | challenge (nonce : BitVec 256)
  /-- R423: The device programs an IDE stream key from an IDE_KM KEY_PROG message within the session. -/
  | keyProg (keySet : Nat) (key : BitVec 256)
  /-- R423: The device switches the IDE stream to a key set on an IDE_KM K_SET_GO message. -/
  | kSetGo (keySet : Nat)
  /-- R423: The device stops an IDE key set on an IDE_KM K_SET_STOP message. -/
  | kSetStop (keySet : Nat)
  /-- R113: The sequencer starts the next convoy of the first hart in round robin whose classes fit the free units. -/
  | convoyStart (core : Nat)
  /-- R390: The drain ends. The core becomes QUARANTINED, and CORES_IN falls by one. -/
  | quarantineComplete (core : Nat)
  /-- R388: A replay window of WINDOW × 1,024 cycles ends, and WINCNT is cleared. -/
  | replayWindowEnd (core : Nat)
  /-- R386: The 512-cycle settling gate after a change of STEP ends, and the core may issue again. -/
  | settleGateEnd (core : Nat)
  /-- R384: A shadow latch detects a late transition. The element group or scalar instruction is replayed, the counters advance and escalation is applied. -/
  | pentimentoReplay (core : Nat)
  /-- R422: At each 65,536-cycle boundary the power arbiter estimates power and grants every core a duty D. -/
  | arbitrationInterval (pfix pdyn : Nat)
  /-- R369: A flit with a bad check code is refused and resent from the retry buffer. The sixteenth retry in a row takes the port down. -/
  | linkRetry (port : Nat) (sameFlit : Bool)
  /-- R370: The deadlock timer of an unacknowledged packet expires, and the packet is resent with its number on another port. -/
  | deadlockResend (peer seq : Nat)
  /-- R371: A port's link is lost. The port goes DOWN, PORTS_IN falls, and the unacknowledged packets are resent over the other ports. -/
  | portDown (port : Nat)
  /-- R377: No port has reached the peer for FAILT ms while a packet to it is unacknowledged. The peer is declared failed and its outstanding work takes the fates of R378. -/
  | peerFailDeclare (peer : Nat)
  /-- R377: A peer's Silven reports a restart, and the peer is declared failed. -/
  | peerRestartReport (peer : Nat)
  /-- R377: A W1C write to PEER_FAIL clears a peer's bit, restarts both sequence numbers at 0 and sends one resynchronisation. -/
  | peerFailClear (index : Nat) (value : Word)
  /-- R377: A resynchronisation arrives. Packets to the sender take the fates of R378, held packets are discarded, the numbers restart, and a log record is written. -/
  | resyncReceive (peer : Nat)
  /-- R324: A die's cached copy of a peer line is dropped. -/
  | cacheDrop (die peer line : Nat)
  /-- R424: A memory part performs per-bank refresh or a refresh-management request. Delayed accesses count in CH_REFS. -/
  | refresh (channel : Nat) (delayed : Nat)
  /-- R424: Silven scrubs each frame in use once per 24 hours, rewriting corrected lines and logging them. -/
  | scrub (frame : Nat) (corrected uncorrectable : List Nat)
  /-- R275: A write to TR_ANCHOR, TR_POOLn or TR_POOL15C takes effect only while no partition exists. -/
  | tableRegisterWrite (offset : Nat) (value : Word)
  /-- R410: A write to CSA_BASE or CSA_SLOTS is ignored while the node table holds any node. -/
  | csaWrite (part offset : Nat) (value : Word)
  /-- R422: A write to PWR_CAP sets the budget, clamped to 600–2,800 W. -/
  | pwrCapWrite (value : Word)
  /-- R379: A write to FAB_CTL sets FAILT and DLT. A zero value is ignored. -/
  | fabCtlWrite (value : Word)
  /-- R278: A MODE 3 page's ACNT reaches 2^THR. MIGREQ is set, the entry is written back and the page is sent to the pager. -/
  | migrationRequest (die part vpn : Nat)
  /-- R278: Silven declines a migration request and clears MIGREQ in the page's entry. -/
  | migrationDeclined (frame : Nat)
  /-- R66: An arriving slot message raises FSC_DOWN or FSC_UP. It is dropped if the table is not RUNNING, and faults the table with ERR 0x07 if the count would exceed 64. -/
  | slotMessage (table : Nat) (activation : Bool)
  /-- R262: A channel of the resume core first has no transfer outstanding, and its POS is raised to the node's recorded mark. -/
  | channelMarkRaise (core channel : Nat)
  /-- R18: Power is applied. The device keeps only its boot ROM, its fused key and the flash images, and starts stage 0. -/
  | powerUp
  /-- R18: A fundamental reset returns the device to stage 0. The stages then run in order. -/
  | fundamentalReset
  /-- R21: The watchdog of stage 0, 1 or 2 expires, and the stage fails with code 0x05. -/
  | stageWatchdogExpiry
  /-- R24: A write of 1 to STAGE_CMD.RESTART returns the device to stage 0 and increments ATTEMPT. At stage 3 the write is ignored while any partition exists. -/
  | restart
  /-- R423: The device answers the SPDM GET_VERSION request over DOE. -/
  | getVersion
  /-- R423: The device answers the SPDM GET_CAPABILITIES request. -/
  | getCapabilities
  /-- R423: The device answers SPDM NEGOTIATE_ALGORITHMS with its fixed algorithm set: ECDSA P-256 with SHA-256, DHE secp256r1 and AES-256-GCM. -/
  | negotiateAlgorithms
  /-- R423: The device answers the SPDM GET_DIGESTS request. -/
  | getDigests
  /-- R423: The device answers the SPDM GET_CERTIFICATE request. -/
  | getCertificate
  /-- R423: The device returns its SHA-256 measurements at indices 1 to 4. -/
  | getMeasurements
  /-- R423: The device starts a secure session. Any session already open is ended. -/
  | keyExchange
  /-- R423: The SPDM FINISH request completes the establishment of the secure session. -/
  | finish
  /-- R423: The device updates the session keys within the session. -/
  | keyUpdate
  /-- R423: The device answers the SPDM HEARTBEAT request within the session. -/
  | heartbeat
  /-- R423: The device ends the secure session. -/
  | endSession
  /-- R423: The device answers the IDE_KM QUERY message, carried as a secured vendor-defined message within the session. -/
  | query
  /-- R423: The device answers an unlisted SPDM request, or IDE_KM outside a session, with an SPDM ERROR. -/
  | spdmUnsupportedRequest
  /-- R44: The dispatcher places at most one ready node per cycle on an eligible core. It claims the harts, joins the group and sets their initial or saved state. -/
  | placeNode
  /-- R18: Power is lost, ending whatever stage runs; only the boot ROM, fused key and flash images are retained. -/
  | powerLoss
  deriving DecidableEq, Repr

end Sys2Proof
end

