-- ==== Sys2Proof/Decode.lean ====
section
/-!
DEFINITION. Decode.lean: instruction lines, heads and tails (R90-R99), the opcode map with its kinds and unit classes
(R102, R104), the decoder with its named refusals (R106, R107), and the encoder.
-/

namespace Sys2Proof

/-- Why a bit pattern is no instruction; R107 numbers the reasons. -/
inductive Reject where
  | reservedMajor | kindTsz | reservedMinor | registerField | unusedField | modifier
  deriving DecidableEq, Repr

/-- The WHY code of R107. -/
def Reject.why : Reject → Nat
  | .reservedMajor => 1
  | .kindTsz => 2
  | .reservedMinor => 3
  | .registerField => 4
  | .unusedField => 5
  | .modifier => 6

/-- The three kinds of major opcode (R96). -/
inductive Kind where
  | z | r | i
  deriving DecidableEq, Repr

/-- Bytes of a tail by its size code (R94). -/
def tailBytes (tsz : Nat) : Nat :=
  match tsz with
  | 0 => 0 | 1 => 2 | 2 => 4 | 3 => 6 | 4 => 8 | 5 => 10 | 6 => 12 | _ => 16

/-- The kind of a major opcode and whether the map marks it W (R102). -/
def kindOf (maj : Nat) : Option (Kind × Bool) :=
  match maj with
  | 0x00 | 0x01 | 0x02 | 0x03 | 0x04 => some (.z, false)
  | 0x05 | 0x06 | 0x11 | 0x14 | 0x15 | 0x16 | 0x17 | 0x18 | 0x19 | 0x20 => some (.i, false)
  | 0x34 | 0x38 | 0x3B => some (.r, true)
  | 0x07 | 0x10 | 0x1A | 0x1B | 0x28 | 0x29 | 0x2A | 0x2C | 0x2D | 0x30 | 0x3A | 0x3C | 0x3D | 0x40 | 0x44 =>
    some (.r, false)
  | _ => none

/-- The pairings of kind and size code of R96. -/
def pairing (k : Kind) (w : Bool) (tsz : Nat) : Bool :=
  match k with
  | .z => tsz == 0
  | .r => tsz == 1 || tsz == 2 || (tsz == 7 && w)
  | .i => 1 ≤ tsz && tsz ≤ 6

/-- The highest minor opcode and the holes of each major's row (R102): whether the map lists the minor. -/
def minorListed (maj minor : Nat) : Bool :=
  match maj with
  | 0x00 | 0x01 | 0x02 | 0x03 | 0x04 => true
  | 0x05 | 0x06 | 0x15 | 0x16 | 0x17 | 0x3C => minor == 0
  | 0x07 | 0x1B | 0x3D => minor ≤ 1
  | 0x10 => minor ≤ 0x0D || (0x10 ≤ minor && minor ≤ 0x16)
  | 0x11 => minor ≤ 0x09 && minor != 1
  | 0x14 | 0x20 => minor ≤ 5
  | 0x18 => minor ≤ 6
  | 0x19 | 0x3B => minor ≤ 3
  | 0x1A => minor ≤ 8 || (0x10 ≤ minor && minor ≤ 0x18)
  | 0x28 => minor ≤ 0x17
  | 0x29 => minor ≤ 0x0A
  | 0x2A => minor ≤ 6 || (0x10 ≤ minor && minor ≤ 0x14)
  | 0x2C => minor ≤ 6
  | 0x2D | 0x30 | 0x38 => minor ≤ 8
  | 0x34 => minor ≤ 4
  | 0x3A => minor ≤ 2
  | 0x40 => minor ≤ 0x0B
  | 0x44 => minor ≤ 7
  | _ => false

/-- The unit class code of R104 of a listed opcode: 1 VA, 2 SF, 3 XL, 4 FN, 5 MX, 6 PL, 7 LD, 8 SD, 9 CS, 10 EN, and 0
for scalar and barrier instructions and for reserved opcodes. -/
def unitClass (maj minor : Nat) : Nat :=
  if !minorListed maj minor then 0 else
  match maj with
  | 0x28 | 0x29 | 0x2A => 1
  | 0x2C => 2
  | 0x2D => 3
  | 0x30 => 4
  | 0x34 => if minor == 3 then 5 else 6
  | 0x38 => if minor == 0 || minor == 2 || minor == 4 || minor == 5 then 7 else 8
  | 0x3A => 9
  | 0x3B => if minor == 3 then 0 else 9
  | 0x3C | 0x3D => 10
  | _ => 0

/-- Whether the map marks the opcode barrier (R102, R104). -/
def isBarrier (maj minor : Nat) : Bool :=
  minorListed maj minor &&
  match maj with
  | 0x01 | 0x02 | 0x03 | 0x04 | 0x05 | 0x06 | 0x07 | 0x14 | 0x15 | 0x16 | 0x17 | 0x20 | 0x40 | 0x44 => true
  | 0x3B => minor == 3
  | _ => false

/-- The most instructions of a class one convoy may hold, on an MC and on an FC (R104). -/
def classLimit (fc : Bool) (cls : Nat) : Nat :=
  match cls with
  | 1 => if fc then 4 else 2
  | 2 => if fc then 2 else 1
  | 3 => 1
  | 4 => if fc then 2 else 1
  | 5 => if fc then 0 else 1
  | 6 => if fc then 0 else 2
  | 7 => 2
  | 8 => 1
  | 9 => 1
  | _ => 1

/-! ## Heads and tails -/

/-- A head and tail with every part of R95 and R96 filled in; omitted parts are 0. `imm` is extended (R97). -/
structure Raw where
  maj : BitVec 7
  tsz : BitVec 3
  d : Reg
  minor : BitVec 6
  a : Reg
  b : Reg
  c : Reg
  modx : BitVec 11
  y : BitVec 16
  z : BitVec 16
  imm : Word
  deriving DecidableEq, Repr

/-- Majors whose immediate is zero-extended: MFSR and MTSR numbers (R186) and SETVT requests (R203). -/
def zeroExtends (maj minor : Nat) : Bool := maj == 5 || maj == 6 || (maj == 0x20 && minor == 2)

/-- An immediate of one, two or four 16-bit words, lowest first (R96, R97). -/
def immediate (zext : Bool) (ws : List (BitVec 16)) : Word :=
  match ws with
  | [w0] => if zext then w0.setWidth 64 else w0.signExtend 64
  | [w0, w1] => if zext then (w1 ++ w0).setWidth 64 else (w1 ++ w0).signExtend 64
  | [w0, w1, w2, w3] => w3 ++ w2 ++ w1 ++ w0
  | _ => 0

/-- The parts of a head and its tail words, by kind (R93, R95, R96). -/
def unpack (k : Kind) (head : BitVec 16) (tail : List (BitVec 16)) : Raw :=
  let maj := head.extractLsb' 8 7
  let tsz := head.extractLsb' 5 3
  let d := head.extractLsb' 0 5
  let w0 := tail.headD 0
  let minor := w0.extractLsb' 10 6
  let a := w0.extractLsb' 5 5
  let b := w0.extractLsb' 0 5
  let zx := zeroExtends maj.toNat minor.toNat
  let x := (tail.drop 1).headD 0
  let c := x.extractLsb' 11 5
  let modx := x.extractLsb' 0 11
  match k, tsz.toNat with
  | .z, _ => ⟨maj, tsz, d, 0, 0, 0, 0, 0, 0, 0, 0⟩
  | .r, 1 => ⟨maj, tsz, d, minor, a, b, 0, 0, 0, 0, 0⟩
  | .r, 2 => ⟨maj, tsz, d, minor, a, b, c, modx, 0, 0, 0⟩
  | .r, _ => ⟨maj, tsz, d, minor, a, b, c, modx, (tail.drop 2).headD 0, (tail.drop 3).headD 0,
      immediate zx (tail.drop 4)⟩
  | .i, 4 => ⟨maj, tsz, d, minor, a, b, c, modx, 0, 0, immediate zx (tail.drop 2)⟩
  | .i, 6 => ⟨maj, tsz, d, minor, a, b, c, modx, 0, 0, immediate zx (tail.drop 2)⟩
  | .i, _ => ⟨maj, tsz, d, minor, a, b, 0, 0, 0, 0, immediate zx (tail.drop 1)⟩

/-- A field that names a mask or stream register is below 8 (R98). -/
def small (x : Reg) : Bool := x.toNat < 8

/-- The checks of R98 on one form: its legal size codes, its register fields, its unused fields, its modifier bits and
its immediate. -/
def form (r : Raw) (tszs : List Nat) (regsOk : Bool) (unused : List Reg) (allowed : BitVec 11) (immOk : Bool)
    (i : Instr) : Except Reject Instr :=
  if !tszs.contains r.tsz.toNat then .error .kindTsz
  else if !regsOk then .error .registerField
  else if !(unused.all (· == 0) && r.y.extractLsb' 11 5 == 0 && r.z.extractLsb' 11 5 == 0) then .error .unusedField
  else if !(r.modx &&& ~~~allowed == 0 && r.y.extractLsb' 0 11 == 0 && r.z.extractLsb' 0 11 == 0 && immOk) then
    .error .modifier
  else .ok i

/-- Major 0x00 (R102). -/
def major00 (r : Raw) : Except Reject Instr :=
  form r [0] true [r.d] 0x000 true .nop

/-- Major 0x01 (R102). -/
def major01 (r : Raw) : Except Reject Instr :=
  form r [0] true [] 0x000 true (.brk r.d)

/-- Major 0x02 (R102). -/
def major02 (r : Raw) : Except Reject Instr :=
  form r [0] true [] 0x000 true (.trap r.d)

/-- Major 0x03 (R102). -/
def major03 (r : Raw) : Except Reject Instr :=
  form r [0] true [r.d] 0x000 true .tret

/-- Major 0x04 (R102). -/
def major04 (r : Raw) : Except Reject Instr :=
  form r [0] true [r.d] 0x000 true .idle

/-- Major 0x05 (R102). -/
def major05 (r : Raw) : Except Reject Instr :=
  match r.minor.toNat with
  | 0 => form r [1, 2, 3, 4, 5, 6] true [r.a, r.b, r.c] 0x000 (r.imm.toNat < 4096) (.mfsr r.d (r.imm.setWidth 12))
  | _ => .error .reservedMinor

/-- Major 0x06 (R102). -/
def major06 (r : Raw) : Except Reject Instr :=
  match r.minor.toNat with
  | 0 => form r [1, 2, 3, 4, 5, 6] true [r.d, r.b, r.c] 0x000 (r.imm.toNat < 4096) (.mtsr r.a (r.imm.setWidth 12))
  | _ => .error .reservedMinor

/-- Major 0x07 (R102). -/
def major07 (r : Raw) : Except Reject Instr :=
  match r.minor.toNat with
  | 0 => form r [1] true [r.d, r.a, r.b, r.c] 0x000 (r.imm == 0) .tlbiAll
  | 1 => form r [1] true [r.d, r.b, r.c] 0x000 (r.imm == 0) (.tlbiVa r.a)
  | _ => .error .reservedMinor

/-- Major 0x10 (R102). -/
def major10 (r : Raw) : Except Reject Instr :=
  match r.minor.toNat with
  | 0 => form r [1, 2] true [r.c] 0x000 (r.imm == 0) (.add r.d r.a r.b)
  | 1 => form r [1, 2] true [r.c] 0x000 (r.imm == 0) (.sub r.d r.a r.b)
  | 2 => form r [1, 2] true [r.c] 0x000 (r.imm == 0) (.and r.d r.a r.b)
  | 3 => form r [1, 2] true [r.c] 0x000 (r.imm == 0) (.or r.d r.a r.b)
  | 4 => form r [1, 2] true [r.c] 0x000 (r.imm == 0) (.xor r.d r.a r.b)
  | 5 => form r [1, 2] true [r.c] 0x000 (r.imm == 0) (.sll r.d r.a r.b)
  | 6 => form r [1, 2] true [r.c] 0x000 (r.imm == 0) (.srl r.d r.a r.b)
  | 7 => form r [1, 2] true [r.c] 0x000 (r.imm == 0) (.sra r.d r.a r.b)
  | 8 => form r [1, 2] true [r.c] 0x000 (r.imm == 0) (.slt r.d r.a r.b)
  | 9 => form r [1, 2] true [r.c] 0x000 (r.imm == 0) (.sltu r.d r.a r.b)
  | 10 => form r [1, 2] true [r.c] 0x000 (r.imm == 0) (.umin r.d r.a r.b)
  | 11 => form r [1, 2] true [r.c] 0x000 (r.imm == 0) (.umax r.d r.a r.b)
  | 12 => form r [1, 2] true [r.c] 0x000 (r.imm == 0) (.smin r.d r.a r.b)
  | 13 => form r [1, 2] true [r.c] 0x000 (r.imm == 0) (.smax r.d r.a r.b)
  | 16 => form r [1, 2] true [r.c] 0x000 (r.imm == 0) (.mul r.d r.a r.b)
  | 17 => form r [1, 2] true [r.c] 0x000 (r.imm == 0) (.mulh r.d r.a r.b)
  | 18 => form r [1, 2] true [r.c] 0x000 (r.imm == 0) (.mulhu r.d r.a r.b)
  | 19 => form r [1, 2] true [r.c] 0x000 (r.imm == 0) (.div r.d r.a r.b)
  | 20 => form r [1, 2] true [r.c] 0x000 (r.imm == 0) (.divu r.d r.a r.b)
  | 21 => form r [1, 2] true [r.c] 0x000 (r.imm == 0) (.rem r.d r.a r.b)
  | 22 => form r [1, 2] true [r.c] 0x000 (r.imm == 0) (.remu r.d r.a r.b)
  | _ => .error .reservedMinor

/-- Major 0x11 (R102). -/
def major11 (r : Raw) : Except Reject Instr :=
  match r.minor.toNat with
  | 0 => form r [1, 2, 3, 4, 5, 6] true [r.b, r.c] 0x000 true (.addi r.d r.a r.imm)
  | 2 => form r [1, 2, 3, 4, 5, 6] true [r.b, r.c] 0x000 true (.andi r.d r.a r.imm)
  | 3 => form r [1, 2, 3, 4, 5, 6] true [r.b, r.c] 0x000 true (.ori r.d r.a r.imm)
  | 4 => form r [1, 2, 3, 4, 5, 6] true [r.b, r.c] 0x000 true (.xori r.d r.a r.imm)
  | 5 => form r [1, 2, 3, 4, 5, 6] true [r.b, r.c] 0x000 (r.imm.toNat < 64) (.slli r.d r.a (r.imm.setWidth 6))
  | 6 => form r [1, 2, 3, 4, 5, 6] true [r.b, r.c] 0x000 (r.imm.toNat < 64) (.srli r.d r.a (r.imm.setWidth 6))
  | 7 => form r [1, 2, 3, 4, 5, 6] true [r.b, r.c] 0x000 (r.imm.toNat < 64) (.srai r.d r.a (r.imm.setWidth 6))
  | 8 => form r [1, 2, 3, 4, 5, 6] true [r.b, r.c] 0x000 true (.slti r.d r.a r.imm)
  | 9 => form r [1, 2, 3, 4, 5, 6] true [r.b, r.c] 0x000 true (.sltiu r.d r.a r.imm)
  | _ => .error .reservedMinor

/-- Major 0x14 (R102). -/
def major14 (r : Raw) : Except Reject Instr :=
  match r.minor.toNat with
  | 0 => form r [1, 2, 3, 4, 5, 6] true [r.d, r.c] 0x000 true (.beq r.a r.b r.imm)
  | 1 => form r [1, 2, 3, 4, 5, 6] true [r.d, r.c] 0x000 true (.bne r.a r.b r.imm)
  | 2 => form r [1, 2, 3, 4, 5, 6] true [r.d, r.c] 0x000 true (.blt r.a r.b r.imm)
  | 3 => form r [1, 2, 3, 4, 5, 6] true [r.d, r.c] 0x000 true (.bge r.a r.b r.imm)
  | 4 => form r [1, 2, 3, 4, 5, 6] true [r.d, r.c] 0x000 true (.bltu r.a r.b r.imm)
  | 5 => form r [1, 2, 3, 4, 5, 6] true [r.d, r.c] 0x000 true (.bgeu r.a r.b r.imm)
  | _ => .error .reservedMinor

/-- Major 0x15 (R102). -/
def major15 (r : Raw) : Except Reject Instr :=
  match r.minor.toNat with
  | 0 => form r [1, 2, 3, 4, 5, 6] true [r.a, r.b, r.c] 0x000 true (.jal r.d r.imm)
  | _ => .error .reservedMinor

/-- Major 0x16 (R102). -/
def major16 (r : Raw) : Except Reject Instr :=
  match r.minor.toNat with
  | 0 => form r [1, 2, 3, 4, 5, 6] true [r.b, r.c] 0x000 true (.jalr r.d r.a r.imm)
  | _ => .error .reservedMinor

/-- Major 0x17 (R102). -/
def major17 (r : Raw) : Except Reject Instr :=
  match r.minor.toNat with
  | 0 => form r [1, 2, 3, 4, 5, 6] ((1 ≤ r.d.toNat && r.d.toNat ≤ 4)) [r.a, r.b, r.c] 0x000 true (.loop r.d r.imm)
  | _ => .error .reservedMinor

/-- Major 0x18 (R102). -/
def major18 (r : Raw) : Except Reject Instr :=
  match r.minor.toNat with
  | 0 => form r [1, 2, 3, 4, 5, 6] true [r.b, r.c] 0x000 true (.ldB r.d r.a r.imm)
  | 1 => form r [1, 2, 3, 4, 5, 6] true [r.b, r.c] 0x000 true (.ldH r.d r.a r.imm)
  | 2 => form r [1, 2, 3, 4, 5, 6] true [r.b, r.c] 0x000 true (.ldW r.d r.a r.imm)
  | 3 => form r [1, 2, 3, 4, 5, 6] true [r.b, r.c] 0x000 true (.ldD r.d r.a r.imm)
  | 4 => form r [1, 2, 3, 4, 5, 6] true [r.b, r.c] 0x000 true (.ldBu r.d r.a r.imm)
  | 5 => form r [1, 2, 3, 4, 5, 6] true [r.b, r.c] 0x000 true (.ldHu r.d r.a r.imm)
  | 6 => form r [1, 2, 3, 4, 5, 6] true [r.b, r.c] 0x000 true (.ldWu r.d r.a r.imm)
  | _ => .error .reservedMinor

/-- Major 0x19 (R102). -/
def major19 (r : Raw) : Except Reject Instr :=
  match r.minor.toNat with
  | 0 => form r [1, 2, 3, 4, 5, 6] true [r.b, r.c] 0x000 true (.stB r.d r.a r.imm)
  | 1 => form r [1, 2, 3, 4, 5, 6] true [r.b, r.c] 0x000 true (.stH r.d r.a r.imm)
  | 2 => form r [1, 2, 3, 4, 5, 6] true [r.b, r.c] 0x000 true (.stW r.d r.a r.imm)
  | 3 => form r [1, 2, 3, 4, 5, 6] true [r.b, r.c] 0x000 true (.stD r.d r.a r.imm)
  | _ => .error .reservedMinor

/-- Major 0x1A (R102). A size code that R96 allows and the form does not use is WHY 2 (log 4). -/
def major1A (r : Raw) : Except Reject Instr :=
  match r.minor.toNat with
  | 0 => form r [1] true [r.c] 0x000 (r.imm == 0) (.amoAddD r.d r.b r.a)
  | 1 => form r [1] true [r.c] 0x000 (r.imm == 0) (.amoXchgD r.d r.b r.a)
  | 2 => form r [1] true [r.c] 0x000 (r.imm == 0) (.amoUminD r.d r.b r.a)
  | 3 => form r [1] true [r.c] 0x000 (r.imm == 0) (.amoUmaxD r.d r.b r.a)
  | 4 => form r [1] true [r.c] 0x000 (r.imm == 0) (.amoSminD r.d r.b r.a)
  | 5 => form r [1] true [r.c] 0x000 (r.imm == 0) (.amoSmaxD r.d r.b r.a)
  | 6 => form r [1] true [r.c] 0x000 (r.imm == 0) (.amoAndD r.d r.b r.a)
  | 7 => form r [1] true [r.c] 0x000 (r.imm == 0) (.amoOrD r.d r.b r.a)
  | 8 => form r [1] true [r.c] 0x000 (r.imm == 0) (.amoXorD r.d r.b r.a)
  | 16 => form r [1] true [r.c] 0x000 (r.imm == 0) (.amoAddW r.d r.b r.a)
  | 17 => form r [1] true [r.c] 0x000 (r.imm == 0) (.amoXchgW r.d r.b r.a)
  | 18 => form r [1] true [r.c] 0x000 (r.imm == 0) (.amoUminW r.d r.b r.a)
  | 19 => form r [1] true [r.c] 0x000 (r.imm == 0) (.amoUmaxW r.d r.b r.a)
  | 20 => form r [1] true [r.c] 0x000 (r.imm == 0) (.amoSminW r.d r.b r.a)
  | 21 => form r [1] true [r.c] 0x000 (r.imm == 0) (.amoSmaxW r.d r.b r.a)
  | 22 => form r [1] true [r.c] 0x000 (r.imm == 0) (.amoAndW r.d r.b r.a)
  | 23 => form r [1] true [r.c] 0x000 (r.imm == 0) (.amoOrW r.d r.b r.a)
  | 24 => form r [1] true [r.c] 0x000 (r.imm == 0) (.amoXorW r.d r.b r.a)
  | _ => .error .reservedMinor

/-- Major 0x1B (R102). -/
def major1B (r : Raw) : Except Reject Instr :=
  match r.minor.toNat with
  | 0 => form r [2] true [] 0x000 (r.imm == 0) (.casD r.d r.b r.c r.a)
  | 1 => form r [2] true [] 0x000 (r.imm == 0) (.casW r.d r.b r.c r.a)
  | _ => .error .reservedMinor

/-- Major 0x20 (R102). -/
def major20 (r : Raw) : Except Reject Instr :=
  match r.minor.toNat with
  | 0 => form r [1] true [r.b, r.c] 0x000 (r.imm == 0) (.setvl r.d r.a)
  | 1 => form r [1] true [r.b, r.c] 0x000 (r.imm == 0) (.setrc r.d r.a)
  | 2 => form r [1, 2, 3, 5] true [r.a, r.b, r.c] 0x000 true (.setvt r.d r.imm)
  | 3 => form r [1] true [r.c] 0x000 ((r.imm == 0 && r.d.toNat ≤ 2)) (.setdim (r.d.setWidth 2) r.a r.b)
  | 4 => form r [1] true [r.b, r.c] 0x000 (r.imm == 0) (.getshape r.d r.a)
  | 5 => form r [1] true [r.b, r.c] 0x000 (r.imm == 0) (.setshape r.d r.a)
  | _ => .error .reservedMinor

/-- Major 0x28 (R102). -/
def major28 (r : Raw) : Except Reject Instr :=
  match r.minor.toNat with
  | 0 => form r [1, 2] true [r.c] 0x717 ((r.imm == 0 && r.modx.extractLsb 2 0 != 7#3)) (.vadd r.d r.a r.b (r.modx.extractLsb' 8 3) (r.modx.extractLsb' 0 3) (r.modx.getLsbD 4))
  | 1 => form r [1, 2] true [r.c] 0x717 ((r.imm == 0 && r.modx.extractLsb 2 0 != 7#3)) (.vsub r.d r.a r.b (r.modx.extractLsb' 8 3) (r.modx.extractLsb' 0 3) (r.modx.getLsbD 4))
  | 2 => form r [1, 2] true [r.c] 0x707 ((r.imm == 0 && r.modx.extractLsb 2 0 != 7#3)) (.vmul r.d r.a r.b (r.modx.extractLsb' 8 3) (r.modx.extractLsb' 0 3))
  | 3 => form r [1, 2] true [r.c] 0x707 ((r.imm == 0 && r.modx.extractLsb 2 0 != 7#3)) (.vdiv r.d r.a r.b (r.modx.extractLsb' 8 3) (r.modx.extractLsb' 0 3))
  | 4 => form r [1, 2] true [r.c] 0x700 (r.imm == 0) (.vrem r.d r.a r.b (r.modx.extractLsb' 8 3))
  | 5 => form r [1, 2] true [r.c] 0x708 (r.imm == 0) (.vmin r.d r.a r.b (r.modx.extractLsb' 8 3) (r.modx.getLsbD 3))
  | 6 => form r [1, 2] true [r.c] 0x708 (r.imm == 0) (.vmax r.d r.a r.b (r.modx.extractLsb' 8 3) (r.modx.getLsbD 3))
  | 7 => form r [1, 2] true [r.c] 0x700 (r.imm == 0) (.vand r.d r.a r.b (r.modx.extractLsb' 8 3))
  | 8 => form r [1, 2] true [r.c] 0x700 (r.imm == 0) (.vor r.d r.a r.b (r.modx.extractLsb' 8 3))
  | 9 => form r [1, 2] true [r.c] 0x700 (r.imm == 0) (.vxor r.d r.a r.b (r.modx.extractLsb' 8 3))
  | 10 => form r [1, 2] true [r.c] 0x700 (r.imm == 0) (.vsll r.d r.a r.b (r.modx.extractLsb' 8 3))
  | 11 => form r [1, 2] true [r.c] 0x700 (r.imm == 0) (.vsrl r.d r.a r.b (r.modx.extractLsb' 8 3))
  | 12 => form r [1, 2] true [r.c] 0x700 (r.imm == 0) (.vsra r.d r.a r.b (r.modx.extractLsb' 8 3))
  | 13 => form r [1, 2] true [r.b, r.c] 0x700 (r.imm == 0) (.vabs r.d r.a (r.modx.extractLsb' 8 3))
  | 14 => form r [1, 2] true [r.b, r.c] 0x700 (r.imm == 0) (.vneg r.d r.a (r.modx.extractLsb' 8 3))
  | 15 => form r [1, 2] true [r.b, r.c] 0x707 ((r.imm == 0 && r.modx.extractLsb 2 0 != 7#3)) (.vsqrt r.d r.a (r.modx.extractLsb' 8 3) (r.modx.extractLsb' 0 3))
  | 16 => form r [1, 2] true [] 0x707 ((r.imm == 0 && r.modx.extractLsb 2 0 != 7#3)) (.vmadd r.d r.a r.b r.c (r.modx.extractLsb' 8 3) (r.modx.extractLsb' 0 3))
  | 17 => form r [1, 2] true [] 0x707 ((r.imm == 0 && r.modx.extractLsb 2 0 != 7#3)) (.vmsub r.d r.a r.b r.c (r.modx.extractLsb' 8 3) (r.modx.extractLsb' 0 3))
  | 18 => form r [1, 2] true [] 0x707 ((r.imm == 0 && r.modx.extractLsb 2 0 != 7#3)) (.vnmadd r.d r.a r.b r.c (r.modx.extractLsb' 8 3) (r.modx.extractLsb' 0 3))
  | 19 => form r [1, 2] true [r.c] 0x700 (r.imm == 0) (.vsgnj r.d r.a r.b (r.modx.extractLsb' 8 3))
  | 20 => form r [1, 2] true [r.b, r.c] 0x700 (r.imm == 0) (.vmv r.d r.a (r.modx.extractLsb' 8 3))
  | 21 => form r [1, 2] (small r.c) [] 0x700 (r.imm == 0) (.vsel r.d r.a r.b (r.c.setWidth 3) (r.modx.extractLsb' 8 3))
  | 22 => form r [1, 2] true [] 0x707 ((r.imm == 0 && r.modx.extractLsb 2 0 != 7#3)) (.vwmac r.d r.a r.b r.c (r.modx.extractLsb' 8 3) (r.modx.extractLsb' 0 3))
  | 23 => form r [1, 2] true [r.b, r.c] 0x700 (r.imm == 0) (.vclass r.d r.a (r.modx.extractLsb' 8 3))
  | _ => .error .reservedMinor

/-- Major 0x29 (R102). -/
def major29 (r : Raw) : Except Reject Instr :=
  if r.minor.toNat ≤ 10 then form r [1, 2] true [r.b, r.c] 0x707 ((r.imm == 0 && r.modx.extractLsb 2 0 != 7#3)) (.vcvt (r.minor.setWidth 4) r.d r.a (r.modx.extractLsb' 8 3) (r.modx.extractLsb' 0 3))
  else .error .reservedMinor

/-- Major 0x2A (R102). -/
def major2A (r : Raw) : Except Reject Instr :=
  match r.minor.toNat with
  | 0 => form r [1, 2] (small r.d) [r.c] 0x700 (r.imm == 0) (.vcmpEq (r.d.setWidth 3) r.a r.b (r.modx.extractLsb' 8 3))
  | 1 => form r [1, 2] (small r.d) [r.c] 0x700 (r.imm == 0) (.vcmpNe (r.d.setWidth 3) r.a r.b (r.modx.extractLsb' 8 3))
  | 2 => form r [1, 2] (small r.d) [r.c] 0x700 (r.imm == 0) (.vcmpLt (r.d.setWidth 3) r.a r.b (r.modx.extractLsb' 8 3))
  | 3 => form r [1, 2] (small r.d) [r.c] 0x700 (r.imm == 0) (.vcmpLe (r.d.setWidth 3) r.a r.b (r.modx.extractLsb' 8 3))
  | 4 => form r [1, 2] (small r.d) [r.c] 0x700 (r.imm == 0) (.vcmpLtu (r.d.setWidth 3) r.a r.b (r.modx.extractLsb' 8 3))
  | 5 => form r [1, 2] (small r.d) [r.c] 0x700 (r.imm == 0) (.vcmpLeu (r.d.setWidth 3) r.a r.b (r.modx.extractLsb' 8 3))
  | 6 => form r [1, 2] (small r.d) [r.c] 0x700 (r.imm == 0) (.vcmpUnord (r.d.setWidth 3) r.a r.b (r.modx.extractLsb' 8 3))
  | 16 => form r [1, 2] (small r.d && small r.a && small r.b) [r.c] 0x700 (r.imm == 0) (.vmand (r.d.setWidth 3) (r.a.setWidth 3) (r.b.setWidth 3) (r.modx.extractLsb' 8 3))
  | 17 => form r [1, 2] (small r.d && small r.a && small r.b) [r.c] 0x700 (r.imm == 0) (.vmor (r.d.setWidth 3) (r.a.setWidth 3) (r.b.setWidth 3) (r.modx.extractLsb' 8 3))
  | 18 => form r [1, 2] (small r.d && small r.a && small r.b) [r.c] 0x700 (r.imm == 0) (.vmxor (r.d.setWidth 3) (r.a.setWidth 3) (r.b.setWidth 3) (r.modx.extractLsb' 8 3))
  | 19 => form r [1, 2] (small r.d && small r.a && small r.b) [r.c] 0x700 (r.imm == 0) (.vmandn (r.d.setWidth 3) (r.a.setWidth 3) (r.b.setWidth 3) (r.modx.extractLsb' 8 3))
  | 20 => form r [1, 2] (small r.a) [r.b, r.c] 0x700 (r.imm == 0) (.vmpop r.d (r.a.setWidth 3) (r.modx.extractLsb' 8 3))
  | _ => .error .reservedMinor

/-- Major 0x2C (R102). -/
def major2C (r : Raw) : Except Reject Instr :=
  match r.minor.toNat with
  | 0 => form r [1, 2] true [r.b, r.c] 0x700 (r.imm == 0) (.vexp2 r.d r.a (r.modx.extractLsb' 8 3))
  | 1 => form r [1, 2] true [r.b, r.c] 0x700 (r.imm == 0) (.vlog2 r.d r.a (r.modx.extractLsb' 8 3))
  | 2 => form r [1, 2] true [r.b, r.c] 0x700 (r.imm == 0) (.vsinpi r.d r.a (r.modx.extractLsb' 8 3))
  | 3 => form r [1, 2] true [r.b, r.c] 0x700 (r.imm == 0) (.vcospi r.d r.a (r.modx.extractLsb' 8 3))
  | 4 => form r [1, 2] true [r.b, r.c] 0x700 (r.imm == 0) (.vtanh r.d r.a (r.modx.extractLsb' 8 3))
  | 5 => form r [1, 2] true [r.b, r.c] 0x700 (r.imm == 0) (.vrcp r.d r.a (r.modx.extractLsb' 8 3))
  | 6 => form r [1, 2] true [r.b, r.c] 0x700 (r.imm == 0) (.vrsqrt r.d r.a (r.modx.extractLsb' 8 3))
  | _ => .error .reservedMinor

/-- Major 0x2D (R102). -/
def major2D (r : Raw) : Except Reject Instr :=
  match r.minor.toNat with
  | 0 => form r [1, 2] true [r.c] 0x7E9 (r.imm == 0) (.vred (r.modx.extractLsb' 5 3) (r.modx.getLsbD 3) (r.modx.getLsbD 0) r.d r.a r.b (r.modx.extractLsb' 8 3))
  | 1 => form r [1, 2] true [r.c] 0x7E9 (r.imm == 0) (.vscan (r.modx.extractLsb' 5 3) (r.modx.getLsbD 3) (r.modx.getLsbD 0) r.d r.a r.b (r.modx.extractLsb' 8 3))
  | 2 => form r [1, 2] true [r.c] 0x700 (r.imm == 0) (.vperm r.d r.a r.b (r.modx.extractLsb' 8 3))
  | 3 => form r [1, 2] true [r.c] 0x700 (r.imm == 0) (.vslide r.d r.a r.b (r.modx.extractLsb' 8 3))
  | 4 => form r [1, 2] true [r.c] 0x700 (r.imm == 0) (.vcompress r.d r.a r.b (r.modx.extractLsb' 8 3))
  | 5 => form r [1, 2] true [r.b, r.c] 0x700 (r.imm == 0) (.vexpand r.d r.a (r.modx.extractLsb' 8 3))
  | 6 => form r [1, 2] true [r.b, r.c] 0x700 (r.imm == 0) (.vbcast r.d r.a (r.modx.extractLsb' 8 3))
  | 7 => form r [1, 2] true [r.b, r.c] 0x700 (r.imm == 0) (.vtrans r.d r.a (r.modx.extractLsb' 8 3))
  | 8 => form r [1, 2] (small r.a) [r.b, r.c] 0x700 (r.imm == 0) (.viota r.d (r.a.setWidth 3) (r.modx.extractLsb' 8 3))
  | _ => .error .reservedMinor

/-- Major 0x30 (R102). -/
def major30 (r : Raw) : Except Reject Instr :=
  match r.minor.toNat with
  | 0 => form r [1, 2] true [r.c] 0x700 (r.imm == 0) (.fmul r.d r.a r.b (r.modx.extractLsb' 8 3))
  | 1 => form r [1, 2] true [r.c] 0x700 (r.imm == 0) (.fdiff r.d r.a r.b (r.modx.extractLsb' 8 3))
  | 2 =>
    if !r.modx.getLsbD 5 then form r [1, 2] true [r.c] 0x700 (r.imm == 0) (.fint r.d r.a r.b (r.modx.extractLsb' 8 3))
    else form r [1, 2] true [r.c] 0x720 (r.imm == 0) (.fintAll r.d r.a r.b (r.modx.extractLsb' 8 3))
  | 3 => form r [1, 2] true [r.c] 0x700 (r.imm == 0) (.fproj r.d r.a r.b (r.modx.extractLsb' 8 3))
  | 4 => form r [1, 2] true [r.c] 0x700 (r.imm == 0) (.ftrace r.d r.a r.b (r.modx.extractLsb' 8 3))
  | 5 => form r [1, 2] true [r.c] 0x700 (r.imm == 0) (.feval r.d r.a r.b (r.modx.extractLsb' 8 3))
  | 6 => form r [1, 2] true [r.c] 0x700 (r.imm == 0) (.fxform r.d r.a r.b (r.modx.extractLsb' 8 3))
  | 7 => form r [1, 2] true [r.c] 0x700 (r.imm == 0) (.flift r.d r.a r.b (r.modx.extractLsb' 8 3))
  | 8 => form r [1, 2] true [r.c] 0x700 (r.imm == 0) (.fmass r.d r.a r.b (r.modx.extractLsb' 8 3))
  | _ => .error .reservedMinor

/-- Major 0x34 (R102). -/
def major34 (r : Raw) : Except Reject Instr :=
  match r.minor.toNat with
  | 0 => form r [1, 2, 7] true [r.a, r.b, r.c] 0x000 (r.imm == 0) (.mclaim r.d)
  | 1 => form r [1, 2, 7] true [r.d, r.b, r.c] 0x000 (r.imm == 0) (.mrel r.a)
  | 2 =>
    if r.modx.extractLsb 1 0 == 0#2 then form r [1, 2, 7] true [r.b, r.c] 0x000 true (.mload r.d r.a r.imm)
    else if r.modx.extractLsb 1 0 == 1#2 then form r [1, 2, 7] true [r.b, r.c] 0x001 true (.mloadT r.d r.a r.imm)
    else if r.modx.extractLsb 1 0 == 2#2 then form r [1, 2, 7] true [r.c] 0x002 true (.mloadG r.d r.a r.b r.imm)
    else form r [1, 2, 7] true [r.b, r.c] 0x003 true (.mloadCsr r.d r.a r.imm)
  | 3 => form r [1, 2, 7] true [r.c] 0x700 (r.imm == 0) (.mma r.d r.a r.b (r.modx.extractLsb' 8 3))
  | 4 => form r [1, 2, 7] true [r.b, r.c] 0x000 true (.mstore r.d r.a r.imm)
  | _ => .error .reservedMinor

/-- Major 0x38 (R102). Every bit of X outside the forms, field c among them, is WHY 6 (R290). -/
def major38 (r : Raw) : Except Reject Instr :=
  match r.minor.toNat with
  | 0 =>
    if r.modx.getLsbD 7 && !r.modx.getLsbD 6 then form r [1, 2, 7] (small r.a) [r.b] 0x080 (r.c == 0 && r.imm == 0) (.vmvPop r.d (r.a.setWidth 3))
    else if r.modx.getLsbD 6 && !r.modx.getLsbD 7 then form r [1, 2, 7] (small r.d) [r.a, r.b] 0x040 (r.c == 0 && r.imm == 0) (.vldFem (r.d.setWidth 3))
    else form r [1, 2, 7] true [r.b] 0x700 (r.c == 0) (.vld r.d r.a (r.modx.extractLsb' 8 3) r.imm)
  | 1 =>
    if r.modx.getLsbD 7 && !r.modx.getLsbD 6 then form r [1, 2, 7] (small r.d) [r.b] 0x080 (r.c == 0 && r.imm == 0) (.vmvPush (r.d.setWidth 3) r.a)
    else if r.modx.getLsbD 6 && !r.modx.getLsbD 7 then form r [1, 2, 7] (small r.d) [r.a, r.b] 0x040 (r.c == 0 && r.imm == 0) (.vstFem (r.d.setWidth 3))
    else if r.modx.getLsbD 4 then form r [1, 2, 7] true [r.b] 0x710 (r.c == 0) (.vstD r.d r.a (r.modx.extractLsb' 8 3) r.imm)
    else form r [1, 2, 7] true [r.b] 0x700 (r.c == 0) (.vst r.d r.a (r.modx.extractLsb' 8 3) r.imm)
  | 2 => form r [1, 2, 7] true [] 0x700 (r.c == 0) (.vldx r.d r.a r.b (r.modx.extractLsb' 8 3) r.imm)
  | 3 => form r [1, 2, 7] true [] 0x700 (r.c == 0) (.vstx r.d r.a r.b (r.modx.extractLsb' 8 3) r.imm)
  | 4 => form r [1, 2, 7] true [r.b] 0x700 (r.c == 0) (.vldFf r.d r.a (r.modx.extractLsb' 8 3) r.imm)
  | 5 => form r [1, 2, 7] true [r.b] 0x700 (r.c == 0) (.vldD r.d r.a (r.modx.extractLsb' 8 3) r.imm)
  | 6 => form r [1, 2, 7] true [] 0x000 (r.c == 0) (.vstSeg r.d r.a r.b r.imm)
  | 7 => form r [1, 2, 7] true [] 0x700 (r.c == 0) (.vstred r.d r.a r.b (r.modx.extractLsb' 8 3) r.imm)
  | 8 => form r [1, 2, 7] true [] 0x70F (r.c == 0 && (r.modx.extractLsb 3 0).toNat ≤ 8) (.vamo (r.modx.extractLsb' 0 4) r.d r.a r.b (r.modx.extractLsb' 8 3) r.imm)
  | _ => .error .reservedMinor

/-- Major 0x3A (R102). -/
def major3A (r : Raw) : Except Reject Instr :=
  match r.minor.toNat with
  | 0 => form r [1] true [r.b, r.c] 0x000 (r.imm == 0) (.tlook r.d r.a)
  | 1 => form r [1] true [r.c] 0x000 (r.imm == 0) (.tins r.d r.a r.b)
  | 2 => form r [1] true [r.b, r.c] 0x000 (r.imm == 0) (.tinv r.d r.a)
  | _ => .error .reservedMinor

/-- Major 0x3B (R102). -/
def major3B (r : Raw) : Except Reject Instr :=
  match r.minor.toNat with
  | 0 =>
    if !r.modx.getLsbD 2 then form r [2, 7] true [] 0x003 (r.imm == 0) (.cpy r.d r.a r.b r.c (r.modx.extractLsb' 0 2))
    else form r [2, 7] true [] 0x007 true (.cpyX r.d r.a r.b r.c (r.modx.extractLsb' 0 2) r.imm)
  | 1 => form r [1] (small r.d) [r.b, r.c] 0x000 (r.imm == 0) (.qbind (r.d.setWidth 3) r.a)
  | 2 => form r [1] (small r.d) [r.a, r.b, r.c] 0x000 (r.imm == 0) (.qrel (r.d.setWidth 3))
  | 3 => form r [2] true [r.b, r.c] 0x003 (r.imm == 0) (.cwait r.d r.a (r.modx.extractLsb' 0 2))
  | _ => .error .reservedMinor

/-- Major 0x3C (R102). -/
def major3C (r : Raw) : Except Reject Instr :=
  match r.minor.toNat with
  | 0 => form r [1, 2] (small r.d) [r.c] 0x700 (r.imm == 0) (.esub (r.d.setWidth 3) r.a r.b (r.modx.extractLsb' 8 3))
  | _ => .error .reservedMinor

/-- Major 0x3D (R102). An undefined code is reported before a non-zero field (log 4). -/
def major3D (r : Raw) : Except Reject Instr :=
  match r.minor.toNat with
  | 0 =>
    if r.modx.extractLsb 6 0 == 0x08#7 then form r [2] true [r.d, r.c] 0x008 (r.imm == 0) (.xcopMarginSet r.a r.b)
    else if r.modx.extractLsb 6 0 == 0x09#7 then form r [2] true [r.d, r.c] 0x009 (r.imm == 0) (.xcopReplayLimit r.a r.b)
    else if r.modx.extractLsb 6 0 == 0x0A#7 then form r [2] true [r.d, r.c] 0x00A (r.imm == 0) (.xcopReplayCountClear r.a r.b)
    else if r.modx.extractLsb 6 0 == 0x11#7 then form r [2] true [r.d, r.c] 0x011 (r.imm == 0) (.xcopCounterClear r.a r.b)
    else if r.tsz == 2 then .error .modifier else .error .kindTsz
  | 1 =>
    if r.modx.extractLsb 6 0 == 0x01#7 then form r [2] true [r.c] 0x001 (r.imm == 0) (.xcopRandom r.d r.a r.b)
    else if r.modx.extractLsb 6 0 == 0x10#7 then form r [2] true [r.c] 0x010 (r.imm == 0) (.xcopCounterRead r.d r.a r.b)
    else if r.modx.extractLsb 6 0 == 0x20#7 then form r [2] true [r.c] 0x020 (r.imm == 0) (.xcopEsubReasons r.d r.a r.b)
    else if r.tsz == 2 then .error .modifier else .error .kindTsz
  | _ => .error .reservedMinor

/-- Major 0x40 (R102). -/
def major40 (r : Raw) : Except Reject Instr :=
  match r.minor.toNat with
  | 0 => form r [1, 2] true [r.d, r.b, r.c] 0x000 (r.imm == 0) (.acq r.a)
  | 1 => form r [1, 2] true [r.d, r.b, r.c] 0x000 (r.imm == 0) (.rel r.a)
  | 2 => form r [1, 2] true [r.d, r.c] 0x000 (r.imm == 0) (.bind r.a r.b)
  | 3 => form r [1, 2] true [r.a, r.b, r.c] 0x007 ((r.imm == 0 && (r.modx.extractLsb 2 0).toNat ≤ 5)) (.fence (r.modx.extractLsb' 0 3) r.d)
  | 4 => form r [1, 2] true [r.a, r.b, r.c] 0x000 (r.imm == 0) (.efence r.d)
  | 5 => form r [1, 2] true [r.d, r.b, r.c] 0x000 (r.imm == 0) (.bar r.a)
  | 6 => form r [1, 2] true [r.d, r.c] 0x000 (r.imm == 0) (.arrive r.a r.b)
  | 7 => form r [1, 2] true [r.d, r.b, r.c] 0x000 (r.imm == 0) (.wait r.a)
  | 8 => form r [1, 2] true [r.b, r.c] 0x000 (r.imm == 0) (.join r.d r.a)
  | 9 => form r [1, 2] true [r.a, r.b, r.c] 0x000 (r.imm == 0) (.leave r.d)
  | 10 => form r [1, 2] true [r.c] 0x000 (r.imm == 0) (.claim r.d r.a r.b)
  | 11 => form r [1, 2] true [r.b, r.c] 0x000 (r.imm == 0) (.publish r.d r.a)
  | _ => .error .reservedMinor

/-- Major 0x44 (R102). -/
def major44 (r : Raw) : Except Reject Instr :=
  match r.minor.toNat with
  | 0 => form r [1, 2] true [r.b, r.c] 0x000 (r.imm == 0) (.node r.d r.a)
  | 1 => form r [1, 2] true [r.c] 0x000 (r.imm == 0) (.edge r.d r.a r.b)
  | 2 => form r [1, 2] true [r.d, r.a, r.b, r.c] 0x000 (r.imm == 0) .done
  | 3 => form r [1, 2] true [r.d, r.a, r.b, r.c] 0x000 (r.imm == 0) .yield
  | 4 => form r [1, 2] true [r.b, r.c] 0x000 (r.imm == 0) (.cancel r.d r.a)
  | 5 => form r [1, 2] true [r.a, r.b, r.c] 0x000 (r.imm == 0) (.chkc r.d)
  | 6 => form r [1, 2] true [r.a, r.c] 0x000 ((r.imm == 0 && r.b.toNat ≤ 3)) (.snext r.d (r.b.setWidth 2))
  | 7 => form r [1, 2] true [r.d, r.c] 0x000 ((r.imm == 0 && r.b.toNat ≤ 1)) (.slotfree r.a (r.b.getLsbD 0))
  | _ => .error .reservedMinor

/-- The form of a major opcode (R102). -/
def ofRaw (r : Raw) : Except Reject Instr :=
  match r.maj.toNat with
  | 0x00 => major00 r
  | 0x01 => major01 r
  | 0x02 => major02 r
  | 0x03 => major03 r
  | 0x04 => major04 r
  | 0x05 => major05 r
  | 0x06 => major06 r
  | 0x07 => major07 r
  | 0x10 => major10 r
  | 0x11 => major11 r
  | 0x14 => major14 r
  | 0x15 => major15 r
  | 0x16 => major16 r
  | 0x17 => major17 r
  | 0x18 => major18 r
  | 0x19 => major19 r
  | 0x1A => major1A r
  | 0x1B => major1B r
  | 0x20 => major20 r
  | 0x28 => major28 r
  | 0x29 => major29 r
  | 0x2A => major2A r
  | 0x2C => major2C r
  | 0x2D => major2D r
  | 0x30 => major30 r
  | 0x34 => major34 r
  | 0x38 => major38 r
  | 0x3A => major3A r
  | 0x3B => major3B r
  | 0x3C => major3C r
  | 0x3D => major3D r
  | 0x40 => major40 r
  | 0x44 => major44 r
  | _ => .error .reservedMajor

/-- Steps 5 to 8 of R106 on a head and its tail words. -/
def decode (head : BitVec 16) (tail : List (BitVec 16)) : Except Reject Instr :=
  match kindOf (head.extractLsb' 8 7).toNat with
  | none => .error .reservedMajor
  | some (k, w) =>
    if pairing k w (head.extractLsb' 5 3).toNat then ofRaw (unpack k head tail) else .error .kindTsz

/-! ## Lines (R90-R92, R100) -/

/-- The 16-bit word at an even byte offset of a line. -/
def lineWord (bits : BitVec 512) (off : Nat) : BitVec 16 := bits.extractLsb' (8 * off) 16

/-- NHEAD (R91). -/
def lineHeads (bits : BitVec 512) : Nat := ((lineWord bits 0).extractLsb' 11 5).toNat

/-- Head i (R92). -/
def lineHead (bits : BitVec 512) (i : Nat) : BitVec 16 := lineWord bits (2 + 2 * i)

/-- Tail size of a head in bytes (R94). -/
def headTail (h : BitVec 16) : Nat := tailBytes (h.extractLsb' 5 3).toNat

/-- The bytes of the tails of heads 0 to n-1 (R92). -/
def tailsBefore (bits : BitVec 512) : Nat → Nat
  | 0 => 0
  | n + 1 => tailsBefore bits n + headTail (lineHead bits n)

/-- The tail words of head i: they begin at byte T(i) (R92). -/
def lineTail (bits : BitVec 512) (i : Nat) : List (BitVec 16) :=
  let size := headTail (lineHead bits i)
  let start := 64 - tailsBefore bits (i + 1)
  (List.range (size / 2)).map fun k => lineWord bits (start + 2 * k)

/-- Major and minor opcode of head i, the minor read from the tail where there is one (R95). -/
def lineOpcode (bits : BitVec 512) (i : Nat) : Nat × Nat :=
  ((lineHead bits i).extractLsb' 8 7 |>.toNat, ((lineTail bits i).headD 0).extractLsb' 10 6 |>.toNat)

/-- Whether head i carries size code 7 on a major not marked W (R100 reason 4). -/
def badSeven (bits : BitVec 512) (i : Nat) : Bool :=
  let h := lineHead bits i
  h.extractLsb' 5 3 == 7#3 &&
  match kindOf (h.extractLsb' 8 7).toNat with
  | some (_, true) => false
  | _ => true

/-- The reason a line entered at head `entry` is malformed, the lowest that applies (R100). -/
def lineFault (bits : BitVec 512) (entry : Nat) : Option Nat :=
  let n := lineHeads bits
  if n == 0 then some 1
  else if (lineWord bits 0).extractLsb' 0 11 != 0 then some 2
  else if 2 + 2 * n + tailsBefore bits n > 64 then some 3
  else if (List.range n).any (badSeven bits) then some 4
  else if entry ≥ n then some 5
  else none

/-- Decodes head i of a line. -/
def decodeAt (bits : BitVec 512) (i : Nat) : Except Reject Instr := decode (lineHead bits i) (lineTail bits i)

/-! ## Convoys (R103-R105) -/

/-- Whether head i starts a convoy in a line entered at head `entry` (R103). -/
def startsConvoy (bits : BitVec 512) (entry i : Nat) : Bool :=
  (lineHead bits i).getLsbD 15 || i == 0 || i == entry ||
  isBarrier (lineOpcode bits i).1 (lineOpcode bits i).2 ||
  (i > 0 && isBarrier (lineOpcode bits (i - 1)).1 (lineOpcode bits (i - 1)).2)

/-- The heads of the convoy that starts at head i: i and the following heads up to the next start (R103). -/
def convoyHeads (bits : BitVec 512) (i : Nat) : List Nat :=
  i :: ((List.range (lineHeads bits)).filter (i < ·)).takeWhile fun j => !startsConvoy bits i j

/-- The first head whose class exceeds its limit: (class, head index) (R105). -/
def convoyConflict (fc : Bool) (bits : BitVec 512) (i : Nat) : Option (Nat × Nat) :=
  let cls := fun j => unitClass (lineOpcode bits j).1 (lineOpcode bits j).2
  let hs := convoyHeads bits i
  (hs.find? fun j =>
    cls j != 0 && ((hs.takeWhile (· != j)).filter fun k => cls k == cls j).length + 1 > classLimit fc (cls j)).map
    fun j => (cls j, j)

/-! ## The encoder -/

/-- A one-bit field. -/
def bit (b : Bool) : Reg := if b then 1 else 0

/-- A one-bit modifier. -/
def bit11 (b : Bool) : BitVec 11 := if b then 1 else 0

/-- A kind Z head (R96). -/
def rawZ (maj : BitVec 7) (d : Reg) : Raw := ⟨maj, 0, d, 0, 0, 0, 0, 0, 0, 0, 0⟩

/-- A kind R form with the shortest tail that holds its X word and displacement (R96). -/
def rawR (maj : BitVec 7) (minor : BitVec 6) (d a b c : Reg) (modx : BitVec 11) (imm : Word) : Raw :=
  let tsz := if imm != 0 then 7 else if c != 0 || modx != 0 then 2 else 1
  ⟨maj, tsz, d, minor, a, b, c, modx, 0, 0, imm⟩

/-- A kind R form that always carries its X word (CAS, CPY, CWAIT, XCOP). -/
def rawX (maj : BitVec 7) (minor : BitVec 6) (d a b c : Reg) (modx : BitVec 11) (imm : Word) : Raw :=
  ⟨maj, if imm != 0 then 7 else 2, d, minor, a, b, c, modx, 0, 0, imm⟩

/-- A kind I form with the shortest tail that holds its immediate (R96, R97). -/
def rawI (maj : BitVec 7) (minor : BitVec 6) (d a b : Reg) (imm : Word) : Raw :=
  let zx := zeroExtends maj.toNat minor.toNat
  let tsz := if imm == 0 then 1
    else if immediate zx [imm.extractLsb' 0 16] == imm then 2
    else if immediate zx [imm.extractLsb' 0 16, imm.extractLsb' 16 16] == imm then 3
    else 5
  ⟨maj, tsz, d, minor, a, b, 0, 0, 0, 0, imm⟩

/-- The fields of an encoded instruction; none for a device event. -/
def toRaw (i : Instr) : Option Raw :=
  match i with
  | .nop => some (rawZ 0x00 0)
  | .brk code => some (rawZ 0x01 code)
  | .trap service => some (rawZ 0x02 service)
  | .tret => some (rawZ 0x03 0)
  | .idle => some (rawZ 0x04 0)
  | .mfsr rd number => some (rawI 0x05 0 rd 0 0 (number.setWidth 64))
  | .mtsr ra number => some (rawI 0x06 0 0 ra 0 (number.setWidth 64))
  | .tlbiAll => some (rawR 0x07 0 0 0 0 0 (0) 0)
  | .tlbiVa ra => some (rawR 0x07 1 0 ra 0 0 (0) 0)
  | .add rd ra rb => some (rawR 0x10 0 rd ra rb 0 (0) 0)
  | .sub rd ra rb => some (rawR 0x10 1 rd ra rb 0 (0) 0)
  | .and rd ra rb => some (rawR 0x10 2 rd ra rb 0 (0) 0)
  | .or rd ra rb => some (rawR 0x10 3 rd ra rb 0 (0) 0)
  | .xor rd ra rb => some (rawR 0x10 4 rd ra rb 0 (0) 0)
  | .sll rd ra rb => some (rawR 0x10 5 rd ra rb 0 (0) 0)
  | .srl rd ra rb => some (rawR 0x10 6 rd ra rb 0 (0) 0)
  | .sra rd ra rb => some (rawR 0x10 7 rd ra rb 0 (0) 0)
  | .slt rd ra rb => some (rawR 0x10 8 rd ra rb 0 (0) 0)
  | .sltu rd ra rb => some (rawR 0x10 9 rd ra rb 0 (0) 0)
  | .umin rd ra rb => some (rawR 0x10 10 rd ra rb 0 (0) 0)
  | .umax rd ra rb => some (rawR 0x10 11 rd ra rb 0 (0) 0)
  | .smin rd ra rb => some (rawR 0x10 12 rd ra rb 0 (0) 0)
  | .smax rd ra rb => some (rawR 0x10 13 rd ra rb 0 (0) 0)
  | .mul rd ra rb => some (rawR 0x10 16 rd ra rb 0 (0) 0)
  | .mulh rd ra rb => some (rawR 0x10 17 rd ra rb 0 (0) 0)
  | .mulhu rd ra rb => some (rawR 0x10 18 rd ra rb 0 (0) 0)
  | .div rd ra rb => some (rawR 0x10 19 rd ra rb 0 (0) 0)
  | .divu rd ra rb => some (rawR 0x10 20 rd ra rb 0 (0) 0)
  | .rem rd ra rb => some (rawR 0x10 21 rd ra rb 0 (0) 0)
  | .remu rd ra rb => some (rawR 0x10 22 rd ra rb 0 (0) 0)
  | .addi rd ra imm => some (rawI 0x11 0 rd ra 0 imm)
  | .andi rd ra imm => some (rawI 0x11 2 rd ra 0 imm)
  | .ori rd ra imm => some (rawI 0x11 3 rd ra 0 imm)
  | .xori rd ra imm => some (rawI 0x11 4 rd ra 0 imm)
  | .slli rd ra count => some (rawI 0x11 5 rd ra 0 (count.setWidth 64))
  | .srli rd ra count => some (rawI 0x11 6 rd ra 0 (count.setWidth 64))
  | .srai rd ra count => some (rawI 0x11 7 rd ra 0 (count.setWidth 64))
  | .slti rd ra imm => some (rawI 0x11 8 rd ra 0 imm)
  | .sltiu rd ra imm => some (rawI 0x11 9 rd ra 0 imm)
  | .beq ra rb imm => some (rawI 0x14 0 0 ra rb imm)
  | .bne ra rb imm => some (rawI 0x14 1 0 ra rb imm)
  | .blt ra rb imm => some (rawI 0x14 2 0 ra rb imm)
  | .bge ra rb imm => some (rawI 0x14 3 0 ra rb imm)
  | .bltu ra rb imm => some (rawI 0x14 4 0 ra rb imm)
  | .bgeu ra rb imm => some (rawI 0x14 5 0 ra rb imm)
  | .jal rd imm => some (rawI 0x15 0 rd 0 0 imm)
  | .jalr rd ra imm => some (rawI 0x16 0 rd ra 0 imm)
  | .loop stages imm => some (rawI 0x17 0 stages 0 0 imm)
  | .ldB rd ra imm => some (rawI 0x18 0 rd ra 0 imm)
  | .ldH rd ra imm => some (rawI 0x18 1 rd ra 0 imm)
  | .ldW rd ra imm => some (rawI 0x18 2 rd ra 0 imm)
  | .ldD rd ra imm => some (rawI 0x18 3 rd ra 0 imm)
  | .ldBu rd ra imm => some (rawI 0x18 4 rd ra 0 imm)
  | .ldHu rd ra imm => some (rawI 0x18 5 rd ra 0 imm)
  | .ldWu rd ra imm => some (rawI 0x18 6 rd ra 0 imm)
  | .stB rd ra imm => some (rawI 0x19 0 rd ra 0 imm)
  | .stH rd ra imm => some (rawI 0x19 1 rd ra 0 imm)
  | .stW rd ra imm => some (rawI 0x19 2 rd ra 0 imm)
  | .stD rd ra imm => some (rawI 0x19 3 rd ra 0 imm)
  | .amoAddD rd rb ra => some (rawR 0x1A 0 rd ra rb 0 (0) 0)
  | .amoXchgD rd rb ra => some (rawR 0x1A 1 rd ra rb 0 (0) 0)
  | .amoUminD rd rb ra => some (rawR 0x1A 2 rd ra rb 0 (0) 0)
  | .amoUmaxD rd rb ra => some (rawR 0x1A 3 rd ra rb 0 (0) 0)
  | .amoSminD rd rb ra => some (rawR 0x1A 4 rd ra rb 0 (0) 0)
  | .amoSmaxD rd rb ra => some (rawR 0x1A 5 rd ra rb 0 (0) 0)
  | .amoAndD rd rb ra => some (rawR 0x1A 6 rd ra rb 0 (0) 0)
  | .amoOrD rd rb ra => some (rawR 0x1A 7 rd ra rb 0 (0) 0)
  | .amoXorD rd rb ra => some (rawR 0x1A 8 rd ra rb 0 (0) 0)
  | .amoAddW rd rb ra => some (rawR 0x1A 16 rd ra rb 0 (0) 0)
  | .amoXchgW rd rb ra => some (rawR 0x1A 17 rd ra rb 0 (0) 0)
  | .amoUminW rd rb ra => some (rawR 0x1A 18 rd ra rb 0 (0) 0)
  | .amoUmaxW rd rb ra => some (rawR 0x1A 19 rd ra rb 0 (0) 0)
  | .amoSminW rd rb ra => some (rawR 0x1A 20 rd ra rb 0 (0) 0)
  | .amoSmaxW rd rb ra => some (rawR 0x1A 21 rd ra rb 0 (0) 0)
  | .amoAndW rd rb ra => some (rawR 0x1A 22 rd ra rb 0 (0) 0)
  | .amoOrW rd rb ra => some (rawR 0x1A 23 rd ra rb 0 (0) 0)
  | .amoXorW rd rb ra => some (rawR 0x1A 24 rd ra rb 0 (0) 0)
  | .casD rd rb rc ra => some (rawX 0x1B 0 rd ra rb rc (0) 0)
  | .casW rd rb rc ra => some (rawX 0x1B 1 rd ra rb rc (0) 0)
  | .setvl rd ra => some (rawI 0x20 0 rd ra 0 0)
  | .setrc rd ra => some (rawI 0x20 1 rd ra 0 0)
  | .setvt rd request => some (rawI 0x20 2 rd 0 0 request)
  | .setdim k ra rb => some (rawI 0x20 3 (k.setWidth 5) ra rb 0)
  | .getshape rd ra => some (rawI 0x20 4 rd ra 0 0)
  | .setshape rd ra => some (rawI 0x20 5 rd ra 0 0)
  | .vadd fd fa fb mask rm lift => some (rawR 0x28 0 fd fa fb 0 (((mask.setWidth 11) <<< 8) ||| (rm.setWidth 11) ||| ((bit11 lift) <<< 4)) 0)
  | .vsub fd fa fb mask rm lift => some (rawR 0x28 1 fd fa fb 0 (((mask.setWidth 11) <<< 8) ||| (rm.setWidth 11) ||| ((bit11 lift) <<< 4)) 0)
  | .vmul fd fa fb mask rm => some (rawR 0x28 2 fd fa fb 0 (((mask.setWidth 11) <<< 8) ||| (rm.setWidth 11)) 0)
  | .vdiv fd fa fb mask rm => some (rawR 0x28 3 fd fa fb 0 (((mask.setWidth 11) <<< 8) ||| (rm.setWidth 11)) 0)
  | .vrem fd fa fb mask => some (rawR 0x28 4 fd fa fb 0 (((mask.setWidth 11) <<< 8)) 0)
  | .vmin fd fa fb mask nan => some (rawR 0x28 5 fd fa fb 0 (((mask.setWidth 11) <<< 8) ||| ((bit11 nan) <<< 3)) 0)
  | .vmax fd fa fb mask nan => some (rawR 0x28 6 fd fa fb 0 (((mask.setWidth 11) <<< 8) ||| ((bit11 nan) <<< 3)) 0)
  | .vand fd fa fb mask => some (rawR 0x28 7 fd fa fb 0 (((mask.setWidth 11) <<< 8)) 0)
  | .vor fd fa fb mask => some (rawR 0x28 8 fd fa fb 0 (((mask.setWidth 11) <<< 8)) 0)
  | .vxor fd fa fb mask => some (rawR 0x28 9 fd fa fb 0 (((mask.setWidth 11) <<< 8)) 0)
  | .vsll fd fa fb mask => some (rawR 0x28 10 fd fa fb 0 (((mask.setWidth 11) <<< 8)) 0)
  | .vsrl fd fa fb mask => some (rawR 0x28 11 fd fa fb 0 (((mask.setWidth 11) <<< 8)) 0)
  | .vsra fd fa fb mask => some (rawR 0x28 12 fd fa fb 0 (((mask.setWidth 11) <<< 8)) 0)
  | .vabs fd fa mask => some (rawR 0x28 13 fd fa 0 0 (((mask.setWidth 11) <<< 8)) 0)
  | .vneg fd fa mask => some (rawR 0x28 14 fd fa 0 0 (((mask.setWidth 11) <<< 8)) 0)
  | .vsqrt fd fa mask rm => some (rawR 0x28 15 fd fa 0 0 (((mask.setWidth 11) <<< 8) ||| (rm.setWidth 11)) 0)
  | .vmadd fd fa fb fc mask rm => some (rawR 0x28 16 fd fa fb fc (((mask.setWidth 11) <<< 8) ||| (rm.setWidth 11)) 0)
  | .vmsub fd fa fb fc mask rm => some (rawR 0x28 17 fd fa fb fc (((mask.setWidth 11) <<< 8) ||| (rm.setWidth 11)) 0)
  | .vnmadd fd fa fb fc mask rm => some (rawR 0x28 18 fd fa fb fc (((mask.setWidth 11) <<< 8) ||| (rm.setWidth 11)) 0)
  | .vsgnj fd fa fb mask => some (rawR 0x28 19 fd fa fb 0 (((mask.setWidth 11) <<< 8)) 0)
  | .vmv fd fa mask => some (rawR 0x28 20 fd fa 0 0 (((mask.setWidth 11) <<< 8)) 0)
  | .vsel fd fa fb mc mask => some (rawR 0x28 21 fd fa fb (mc.setWidth 5) (((mask.setWidth 11) <<< 8)) 0)
  | .vwmac fd fa fb fc mask rm => some (rawR 0x28 22 fd fa fb fc (((mask.setWidth 11) <<< 8) ||| (rm.setWidth 11)) 0)
  | .vclass fd fa mask => some (rawR 0x28 23 fd fa 0 0 (((mask.setWidth 11) <<< 8)) 0)
  | .vcvt format fd fa mask rm => some (rawR 0x29 (format.setWidth 6) fd fa 0 0 (((mask.setWidth 11) <<< 8) ||| (rm.setWidth 11)) 0)
  | .vcmpEq md fa fb mask => some (rawR 0x2A 0 (md.setWidth 5) fa fb 0 (((mask.setWidth 11) <<< 8)) 0)
  | .vcmpNe md fa fb mask => some (rawR 0x2A 1 (md.setWidth 5) fa fb 0 (((mask.setWidth 11) <<< 8)) 0)
  | .vcmpLt md fa fb mask => some (rawR 0x2A 2 (md.setWidth 5) fa fb 0 (((mask.setWidth 11) <<< 8)) 0)
  | .vcmpLe md fa fb mask => some (rawR 0x2A 3 (md.setWidth 5) fa fb 0 (((mask.setWidth 11) <<< 8)) 0)
  | .vcmpLtu md fa fb mask => some (rawR 0x2A 4 (md.setWidth 5) fa fb 0 (((mask.setWidth 11) <<< 8)) 0)
  | .vcmpLeu md fa fb mask => some (rawR 0x2A 5 (md.setWidth 5) fa fb 0 (((mask.setWidth 11) <<< 8)) 0)
  | .vcmpUnord md fa fb mask => some (rawR 0x2A 6 (md.setWidth 5) fa fb 0 (((mask.setWidth 11) <<< 8)) 0)
  | .vmand md ma mb mask => some (rawR 0x2A 16 (md.setWidth 5) (ma.setWidth 5) (mb.setWidth 5) 0 (((mask.setWidth 11) <<< 8)) 0)
  | .vmor md ma mb mask => some (rawR 0x2A 17 (md.setWidth 5) (ma.setWidth 5) (mb.setWidth 5) 0 (((mask.setWidth 11) <<< 8)) 0)
  | .vmxor md ma mb mask => some (rawR 0x2A 18 (md.setWidth 5) (ma.setWidth 5) (mb.setWidth 5) 0 (((mask.setWidth 11) <<< 8)) 0)
  | .vmandn md ma mb mask => some (rawR 0x2A 19 (md.setWidth 5) (ma.setWidth 5) (mb.setWidth 5) 0 (((mask.setWidth 11) <<< 8)) 0)
  | .vmpop rd ma mask => some (rawR 0x2A 20 rd (ma.setWidth 5) 0 0 (((mask.setWidth 11) <<< 8)) 0)
  | .vexp2 fd fa mask => some (rawR 0x2C 0 fd fa 0 0 (((mask.setWidth 11) <<< 8)) 0)
  | .vlog2 fd fa mask => some (rawR 0x2C 1 fd fa 0 0 (((mask.setWidth 11) <<< 8)) 0)
  | .vsinpi fd fa mask => some (rawR 0x2C 2 fd fa 0 0 (((mask.setWidth 11) <<< 8)) 0)
  | .vcospi fd fa mask => some (rawR 0x2C 3 fd fa 0 0 (((mask.setWidth 11) <<< 8)) 0)
  | .vtanh fd fa mask => some (rawR 0x2C 4 fd fa 0 0 (((mask.setWidth 11) <<< 8)) 0)
  | .vrcp fd fa mask => some (rawR 0x2C 5 fd fa 0 0 (((mask.setWidth 11) <<< 8)) 0)
  | .vrsqrt fd fa mask => some (rawR 0x2C 6 fd fa 0 0 (((mask.setWidth 11) <<< 8)) 0)
  | .vred op nan dw fd fa fb mask => some (rawR 0x2D 0 fd fa fb 0 (((mask.setWidth 11) <<< 8) ||| ((op.setWidth 11) <<< 5) ||| ((bit11 nan) <<< 3) ||| (bit11 dw)) 0)
  | .vscan op nan dw fd fa fb mask => some (rawR 0x2D 1 fd fa fb 0 (((mask.setWidth 11) <<< 8) ||| ((op.setWidth 11) <<< 5) ||| ((bit11 nan) <<< 3) ||| (bit11 dw)) 0)
  | .vperm fd fa fb mask => some (rawR 0x2D 2 fd fa fb 0 (((mask.setWidth 11) <<< 8)) 0)
  | .vslide fd fa rb mask => some (rawR 0x2D 3 fd fa rb 0 (((mask.setWidth 11) <<< 8)) 0)
  | .vcompress fd fa fb mask => some (rawR 0x2D 4 fd fa fb 0 (((mask.setWidth 11) <<< 8)) 0)
  | .vexpand fd fa mask => some (rawR 0x2D 5 fd fa 0 0 (((mask.setWidth 11) <<< 8)) 0)
  | .vbcast fd ra mask => some (rawR 0x2D 6 fd ra 0 0 (((mask.setWidth 11) <<< 8)) 0)
  | .vtrans fd fa mask => some (rawR 0x2D 7 fd fa 0 0 (((mask.setWidth 11) <<< 8)) 0)
  | .viota fd ma mask => some (rawR 0x2D 8 fd (ma.setWidth 5) 0 0 (((mask.setWidth 11) <<< 8)) 0)
  | .fmul fd fa fb mask => some (rawR 0x30 0 fd fa fb 0 (((mask.setWidth 11) <<< 8)) 0)
  | .fdiff fd fa axis mask => some (rawR 0x30 1 fd fa axis 0 (((mask.setWidth 11) <<< 8)) 0)
  | .fint fd fa axis mask => some (rawR 0x30 2 fd fa axis 0 (((mask.setWidth 11) <<< 8)) 0)
  | .fintAll fd fa zero mask => some (rawR 0x30 2 fd fa zero 0 (0x020#11 ||| ((mask.setWidth 11) <<< 8)) 0)
  | .fproj fd fa rb mask => some (rawR 0x30 3 fd fa rb 0 (((mask.setWidth 11) <<< 8)) 0)
  | .ftrace fd fa face mask => some (rawR 0x30 4 fd fa face 0 (((mask.setWidth 11) <<< 8)) 0)
  | .feval fd fa fb mask => some (rawR 0x30 5 fd fa fb 0 (((mask.setWidth 11) <<< 8)) 0)
  | .fxform fd fa zero mask => some (rawR 0x30 6 fd fa zero 0 (((mask.setWidth 11) <<< 8)) 0)
  | .flift fd fa fb mask => some (rawR 0x30 7 fd fa fb 0 (((mask.setWidth 11) <<< 8)) 0)
  | .fmass fd fa zero mask => some (rawR 0x30 8 fd fa zero 0 (((mask.setWidth 11) <<< 8)) 0)
  | .mclaim pd => some (rawR 0x34 0 pd 0 0 0 (0) 0)
  | .mrel pa => some (rawR 0x34 1 0 pa 0 0 (0) 0)
  | .mload pd ra disp => some (rawR 0x34 2 pd ra 0 0 (0) disp)
  | .mloadT pd ra disp => some (rawR 0x34 2 pd ra 0 0 (0x001#11) disp)
  | .mloadG pd ra fb disp => some (rawR 0x34 2 pd ra fb 0 (0x002#11) disp)
  | .mloadCsr pd ra disp => some (rawR 0x34 2 pd ra 0 0 (0x003#11) disp)
  | .mma fd pa pb mask => some (rawR 0x34 3 fd pa pb 0 (((mask.setWidth 11) <<< 8)) 0)
  | .mstore fd ra disp => some (rawR 0x34 4 fd ra 0 0 (0) disp)
  | .vmvPop fd qa => some (rawR 0x38 0 fd (qa.setWidth 5) 0 0 (0x080#11) 0)
  | .vldFem md => some (rawR 0x38 0 (md.setWidth 5) 0 0 0 (0x040#11) 0)
  | .vld fd ra mask disp => some (rawR 0x38 0 fd ra 0 0 (((mask.setWidth 11) <<< 8)) disp)
  | .vmvPush qd fa => some (rawR 0x38 1 (qd.setWidth 5) fa 0 0 (0x080#11) 0)
  | .vstFem md => some (rawR 0x38 1 (md.setWidth 5) 0 0 0 (0x040#11) 0)
  | .vstD fd ra mask disp => some (rawR 0x38 1 fd ra 0 0 (0x010#11 ||| ((mask.setWidth 11) <<< 8)) disp)
  | .vst fd ra mask disp => some (rawR 0x38 1 fd ra 0 0 (((mask.setWidth 11) <<< 8)) disp)
  | .vldx fd ra fb mask disp => some (rawR 0x38 2 fd ra fb 0 (((mask.setWidth 11) <<< 8)) disp)
  | .vstx fd ra fb mask disp => some (rawR 0x38 3 fd ra fb 0 (((mask.setWidth 11) <<< 8)) disp)
  | .vldFf fd ra mask disp => some (rawR 0x38 4 fd ra 0 0 (((mask.setWidth 11) <<< 8)) disp)
  | .vldD fd ra mask disp => some (rawR 0x38 5 fd ra 0 0 (((mask.setWidth 11) <<< 8)) disp)
  | .vstSeg fd ra fb disp => some (rawR 0x38 6 fd ra fb 0 (0) disp)
  | .vstred fd ra rb mask disp => some (rawR 0x38 7 fd ra rb 0 (((mask.setWidth 11) <<< 8)) disp)
  | .vamo op fd ra fb mask disp => some (rawR 0x38 8 fd ra fb 0 (((mask.setWidth 11) <<< 8) ||| (op.setWidth 11)) disp)
  | .tlook rd ra => some (rawR 0x3A 0 rd ra 0 0 (0) 0)
  | .tins rd ra rb => some (rawR 0x3A 1 rd ra rb 0 (0) 0)
  | .tinv rd ra => some (rawR 0x3A 2 rd ra 0 0 (0) 0)
  | .cpy rd ra rb rc channel => some (rawX 0x3B 0 rd ra rb rc ((channel.setWidth 11)) 0)
  | .cpyX rd ra rb rc channel offset => some (rawX 0x3B 0 rd ra rb rc (0x004#11 ||| (channel.setWidth 11)) offset)
  | .qbind qd ra => some (rawR 0x3B 1 (qd.setWidth 5) ra 0 0 (0) 0)
  | .qrel qd => some (rawR 0x3B 2 (qd.setWidth 5) 0 0 0 (0) 0)
  | .cwait rd ra channel => some (rawX 0x3B 3 rd ra 0 0 ((channel.setWidth 11)) 0)
  | .esub md fa rb mask => some (rawR 0x3C 0 (md.setWidth 5) fa rb 0 (((mask.setWidth 11) <<< 8)) 0)
  | .xcopMarginSet ra rb => some (rawX 0x3D 0 0 ra rb 0 (0x008#11) 0)
  | .xcopReplayLimit ra rb => some (rawX 0x3D 0 0 ra rb 0 (0x009#11) 0)
  | .xcopReplayCountClear ra rb => some (rawX 0x3D 0 0 ra rb 0 (0x00A#11) 0)
  | .xcopCounterClear ra rb => some (rawX 0x3D 0 0 ra rb 0 (0x011#11) 0)
  | .xcopRandom rd ra rb => some (rawX 0x3D 1 rd ra rb 0 (0x001#11) 0)
  | .xcopCounterRead rd ra rb => some (rawX 0x3D 1 rd ra rb 0 (0x010#11) 0)
  | .xcopEsubReasons rd ra rb => some (rawX 0x3D 1 rd ra rb 0 (0x020#11) 0)
  | .acq ra => some (rawR 0x40 0 0 ra 0 0 (0) 0)
  | .rel ra => some (rawR 0x40 1 0 ra 0 0 (0) 0)
  | .bind ra rb => some (rawR 0x40 2 0 ra rb 0 (0) 0)
  | .fence scope rd => some (rawR 0x40 3 rd 0 0 0 ((scope.setWidth 11)) 0)
  | .efence rd => some (rawR 0x40 4 rd 0 0 0 (0) 0)
  | .bar ra => some (rawR 0x40 5 0 ra 0 0 (0) 0)
  | .arrive ra rb => some (rawR 0x40 6 0 ra rb 0 (0) 0)
  | .wait ra => some (rawR 0x40 7 0 ra 0 0 (0) 0)
  | .join rd ra => some (rawR 0x40 8 rd ra 0 0 (0) 0)
  | .leave rd => some (rawR 0x40 9 rd 0 0 0 (0) 0)
  | .claim rd ra rb => some (rawR 0x40 10 rd ra rb 0 (0) 0)
  | .publish rd ra => some (rawR 0x40 11 rd ra 0 0 (0) 0)
  | .node rd ra => some (rawR 0x44 0 rd ra 0 0 (0) 0)
  | .edge rd ra rb => some (rawR 0x44 1 rd ra rb 0 (0) 0)
  | .done => some (rawR 0x44 2 0 0 0 0 (0) 0)
  | .yield => some (rawR 0x44 3 0 0 0 0 (0) 0)
  | .cancel rd ra => some (rawR 0x44 4 rd ra 0 0 (0) 0)
  | .chkc rd => some (rawR 0x44 5 rd 0 0 0 (0) 0)
  | .snext rd k => some (rawR 0x44 6 rd 0 (k.setWidth 5) 0 (0) 0)
  | .slotfree ra gradient => some (rawR 0x44 7 0 ra (bit gradient) 0 (0) 0)
  | .powerUp | .fundamentalReset | .stage0Complete .. | .stage1Complete .. | .stage2Complete ..
  | .stageWatchdogExpiry | .restart | .firmwareIntake .. | .getVersion .. | .getCapabilities ..
  | .negotiateAlgorithms .. | .getDigests .. | .getCertificate .. | .challenge .. | .getMeasurements .. | .keyExchange ..
  | .finish .. | .keyUpdate .. | .heartbeat .. | .endSession .. | .query .. | .keyProg .. | .kSetGo .. | .kSetStop ..
  | .spdmUnsupportedRequest | .partitionCreate .. | .partTeardown .. | .teardownWaitExpiry ..
  | .teardownNodesEnded .. | .insert .. | .insertRecordRead .. | .winCtlWrite .. | .partModeWrite ..
  | .placeNode | .passCountReached .. | .nodeCommit .. | .schedStart .. | .schedStop .. | .schedLoadComplete ..
  | .schedCycle .. | .slotMessage .. | .convoyStart .. | .instructionRetire .. | .recheckRun ..
  | .pentimentoReplay .. | .quarantineComplete .. | .replayExhausted .. | .replayWindowEnd ..
  | .settleGateEnd .. | .arbitrationInterval .. | .guardedRelease .. | .sbDrain .. | .fabricPacketArrive ..
  | .ackArrive .. | .replyArrive .. | .linkRetry .. | .deadlockResend .. | .portDown .. | .peerFailDeclare ..
  | .peerRestartReport .. | .peerFailClear .. | .resyncReceive .. | .cacheFill .. | .cacheDrop ..
  | .engineWrite .. | .publishExchange .. | .acqGrant .. | .copyChannelDeliver .. | .channelMarkRaise ..
  | .pagerReply .. | .migrationRequest .. | .migrationStart .. | .migrationLineCopy .. | .migrationFinish ..
  | .scrub .. | .refresh .. | .dataCheckPoison .. | .tableRegisterWrite .. | .csaWrite .. | .pwrCapWrite ..
  | .fabCtlWrite .. | .registerWrite .. | .powerLoss | .migrationDeclined .. | .dataCheckClean .. => none

/-- The first n 16-bit words of an immediate, lowest first. -/
def immWords (imm : Word) (n : Nat) : List (BitVec 16) :=
  (List.range n).map fun k => imm.extractLsb' (16 * k) 16

/-- The head and tail words of the fields, with the convoy bit (R93, R95, R96). -/
def pack (c : Bool) (r : Raw) : List (BitVec 16) :=
  let head := (if c then 1#1 else 0#1) ++ r.maj ++ r.tsz ++ r.d
  let w0 := r.minor ++ r.a ++ r.b
  let x := r.c ++ r.modx
  match kindOf r.maj.toNat, r.tsz.toNat with
  | some (.z, _), _ => [head]
  | some (.r, _), 1 => [head, w0]
  | some (.r, _), 2 => [head, w0, x]
  | some (.r, _), _ => head :: w0 :: x :: r.y :: r.z :: immWords r.imm 4
  | some (.i, _), 1 => [head, w0]
  | some (.i, _), 2 => head :: w0 :: immWords r.imm 1
  | some (.i, _), 3 => head :: w0 :: immWords r.imm 2
  | some (.i, _), 4 => head :: w0 :: x :: immWords r.imm 2
  | some (.i, _), 6 => head :: w0 :: x :: immWords r.imm 4
  | some (.i, _), _ => head :: w0 :: immWords r.imm 4
  | none, _ => [head]

/-- The words of an instruction: its head, then its tail words, lowest first; empty for a device event. `c` is the
convoy bit, which is no part of the instruction. -/
def encode (c : Bool) (i : Instr) : List (BitVec 16) :=
  match toRaw i with
  | some r => pack c r
  | none => []

/-- The head and tail words of a table word (log 4): with 16 bits the word is a head; with 32 bits the head is bits
31:16 and W0 is bits 15:0. Tail words the table gives no bits are 0. -/
def tableWords (nbits w : Nat) : List (BitVec 16) :=
  let head : BitVec 16 := if nbits ≤ 16 then BitVec.ofNat 16 w else BitVec.ofNat 16 (w / 65536)
  let w0 : BitVec 16 := if nbits ≤ 16 then 0 else BitVec.ofNat 16 w
  let n := headTail head / 2
  head :: (List.range n).map fun k => if k == 0 then w0 else 0

/-- The instruction the decoder reads from a table word. -/
def decodeTableWord (nbits w : Nat) : Option Instr :=
  match tableWords nbits w with
  | head :: tail =>
    match decode head tail with
    | .ok i => some i
    | .error _ => none
  | [] => none

end Sys2Proof
end

