-- ==== Sys2Proof/Config.lean ====
section
/-!
DEFINITION. Config.lean: what the part fixes (R12-R14, R17, R272) and the values the spec leaves open, as opaque
constants without a body: no proof can see their values (log 2, log 3, log 13, log 19).
-/

namespace Sys2Proof.Config

/-- Cores in the package (R13). -/
def cores : Nat := 192

/-- Harts in the package (R13). -/
def harts : Nat := 1536

/-- Raneb ports (R17). -/
def ports : Nat := 72

/-- Partitions (R17). -/
def partitions : Nat := 64

/-- Peers a translation can name, 0-383 (R277). -/
def peers : Nat := 384

/-- Schedule tables (R55). -/
def tables : Nat := 16

/-- Granules of 256 bytes in a hart's register pool (R75). -/
def granules : Nat := 768

/-- Frames of each pool on the package (R272): 0-7 HBM4E stacks, 8 LPDDR 6. -/
def poolFrames (pool : Nat) : Nat :=
  if pool < 8 then 1048576 else if pool = 8 then 25165824 else 0

/-- Free values: the n-th value the spec leaves open (log 3). -/
opaque freeWord : Nat → Word

/-- Cycles that elapse in the n-th step (R15, R121; log 2). -/
opaque elapsed : Nat → Nat

/-- The choice among the results a special function's bound admits (R217), by function, format and operand (log 13). -/
opaque specialChoice : Nat → Nat → Nat → Int

/-- The number under which the other devices of the domain know this one, 0-383; no register gives it (R375; log 27). -/
opaque ownPeer : Nat

/-- Commands the engines' queue holds (R314 reason 4); the spec gives no depth (log 18). -/
opaque engineQueueDepth : Nat

/-- The fused minimum security version (R423). -/
opaque minimumVersion : Nat

/-- The digest of the boot ROM, measurement 1 (R423). -/
opaque bootRomDigest : BitVec 256

/-- The digest of the access tables and partition grants, measurement 4 (R423; log 19). -/
opaque grantDigest : List Grant → BitVec 256

/-- The signature the fused identity key makes over a challenge (R423; log 19). -/
opaque identitySign : BitVec 256 → BitVec 512

/-- The session key after the n-th exchange or update (R423; log 19). -/
opaque sessionKey : Nat → BitVec 256

end Sys2Proof.Config
end

