-- ==== Sys2Proof/Machine/State.lean ====
section
/-!
DEFINITION. State.lean: the state of the package, of its partitions, dispatcher, cores, harts, memory and fabric as
plain data, and its value at reset. Sparse tables are lists of (key, value) pairs with rising keys.
-/

namespace Sys2Proof.Machine

/-- A sparse table: (key, value) pairs, keys strictly rising; an absent key reads as the reader's default. -/
abbrev Table (α : Type) := List (Nat × α)

/-! ## Harts (R75, R76, R323) -/

/-- A tile register: its shape tag (R146) and its stored rows; tag 0 is unallocated (R80). -/
structure Tile where
  tag : Word
  rows : List TileRow
  deriving DecidableEq, Repr, Inhabited

/-- A bound stream register: its copy of the pattern table as 36 words (R263), the elements consumed (R265) and the
partial compress block (R266). -/
structure Stream where
  words : List Word
  consumed : Nat
  block : List Byte
  deriving DecidableEq, Repr, Inhabited

/-- The trap registers of one level (R402). -/
structure TrapBank where
  cause : Word
  epc : Word
  val : Word
  lane : Word
  deriving DecidableEq, Repr, Inhabited

/-- The architectural state of a hart (R75). `m` has eight entries; entry 0 is never read (m0 reads as all-ones). -/
structure Regs where
  pc : Word
  s : Vector Word 32
  f : Vector Tile 32
  m : Vector Mask 8
  q : Vector (Option Stream) 8
  vl : Word
  rc : Word
  vtype : Word
  fflags : Word
  frm : Word
  atc : Word
  dlen : Vector Word 3
  dstep : Vector Word 3
  pix : Word
  fem : Mask
  hartid : Word
  nodeid : Word
  groupid : Word
  seed : Word
  loopcnt : Word
  rrb : Word
  tl : BitVec 2
  tvec : Word
  trap1 : TrapBank
  trap2 : TrapBank
  deriving DecidableEq, Repr, Inhabited

/-- A line as entered (R90): its address and its 64 bytes, byte i at bits 8i+7:8i. -/
structure Line where
  addr : Word
  bits : BitVec 512
  deriving DecidableEq, Repr, Inhabited

/-- Whether a queued instruction must agree on a recheck before it retires (R117, R394). -/
inductive Recheck where
  | none | due | agreed
  deriving DecidableEq, Repr, Inhabited

/-- What a precise trap of a queued instruction returns to (R112): the registers, what the rank and the hart held, and the
numbers of the operations in the issue queue. -/
structure Before where
  regs : Regs
  poison : Option Nat
  samples : Nat
  femPc : Option Word
  unchecked : Nat
  late : List Nat
  deriving DecidableEq, Repr, Inhabited

/-- A matrix in a Palette slot (R236): element patterns by row; of a described slot, whole blocks by row or column,
its width class and direction. -/
structure Matrix where
  rows : Nat
  cols : Nat
  fmt : Nat
  described : Option (Bool × Bool × Nat)
  data : List (List Nat)
  deriving DecidableEq, Repr, Inhabited

/-- A Palette slot (R236): FREE has no owner; EMPTY has no content. Waiting claims stand oldest first (R239). -/
structure Slot where
  owner : Option Nat
  content : Option Matrix
  waiting : List Nat
  deriving DecidableEq, Repr, Inhabited

/-- An entry of the vector instruction queue (R109): an instruction executed with its captured values and not yet retired.
It holds its class (R104), the flags it will merge when it retires (R116) and those of the scalar divisions after it;
of the first instruction of a convoy, the classes of the whole convoy (R113); whether its convoy has started, whether
its last element group is written, and whether its effects stand outside the registers, so that it can trap no more; its
element groups (R114) and issue cycles (R121), its recheck (R117), the slot an MCLAIM claims with the slot as its attempt
found it (R239), and the state before it. -/
structure QueueEntry where
  pc : Word
  cls : Nat
  flags : BitVec 7
  later : BitVec 7
  convoy : Option (List Nat)
  started : Bool
  written : Bool
  final : Bool
  groups : Nat
  cost : Nat
  recheck : Recheck
  claim : Option (Nat × Option Slot)
  before : Before
  deriving DecidableEq, Repr, Inhabited

/-- A started convoy of a hart (R113): the classes of its instructions, whose units it holds until it drains, and how many
of them have not been queued yet. -/
structure Convoy where
  classes : List Nat
  toCome : Nat
  deriving DecidableEq, Repr, Inhabited

/-- Where a byte of memory is performed: a core's scratchpad, a local home, or a peer's home (R277, R323). Local and
peer homes are numbered pool, frame, offset (Translate: homeKey). -/
inductive Place where
  | pad (offset : Nat)
  | home (key : Nat)
  | peer (peer : Nat) (key : Nat)
  deriving DecidableEq, Repr, Inhabited

/-- One access of a store: its virtual address, its home's number and its bytes. -/
structure StorePart where
  va : Nat
  key : Nat
  bytes : List Byte
  deriving DecidableEq, Repr, Inhabited

/-- A store-buffer entry (R323): its accesses, all to local homes or all to one peer in one packet (R365); the sync
objects it is tagged with (R326), whether it is still held under guarded issue (R391; log 10), whether its accesses may fill a
receive slot (R65), whether a vector instruction made it (R175), and whether it is one of a push, performed in pattern
order (R310). -/
structure StoreEntry where
  peer : Option Nat
  parts : List StorePart
  tags : List Nat
  held : Bool
  fills : Bool
  vec : Bool
  ordered : Bool
  deriving DecidableEq, Repr, Inhabited

/-- Why a hart waits at an instruction. A hart in PUBLISH, and one whose waiting ACQ has been refused, is not blocked in the
sense of R88. -/
inductive Block where
  | acq | wait | waitPending | barrier | barrierPending | cwait | cancel | speculative | idle | pager | publish | refused
  deriving DecidableEq, Repr, Inhabited

/-- A request a hart has sent to a peer for the instruction in progress (R365): its purpose as a key of the
instruction, the peer and number, whether it has an effect at its target (R393), how often copies had been dropped when
it was sent (R328), and the reply once it has arrived (log 11). -/
structure Request where
  key : Nat
  peer : Nat
  seq : Nat
  effect : Bool
  stamp : Nat
  reply : Option Reply
  deriving DecidableEq, Repr, Inhabited

/-- What the node table holds for one rank of a node; it moves with the node (R54, R340, R345, R393, R396, R413). -/
structure Rank where
  /-- HARTID while placed -/
  hart : Option Nat
  done : Bool
  /-- its frame is in the node's save slot (R411) -/
  saved : Bool
  /-- the arrival mark: barrier address and phase (R345) -/
  mark : Option (Nat × Nat)
  /-- the lowest poisoned address read (R396) -/
  poison : Option Nat
  /-- instructions counted for sampling (R394) -/
  samples : Nat
  requests : List Request
  /-- LC(h) (R323) -/
  lost : Nat
  /-- BV(h): object address and its region words (R326) -/
  binding : List (Nat × List Word)
  /-- the handle of a CANCEL under way and its decision (R53) -/
  cancelling : Option (Word × Option Nat)
  /-- a wait at TL 0 without a handler (R405): waiting, a page was unresolved, and the trap's cause, PC and TVAL -/
  waitBatch : Bool
  unresolved : Bool
  waitTrap : Nat × Word × Word
  /-- the PC of the batch load whose missing elements FEM holds (R281) -/
  femPc : Option Word
  /-- it was saved waiting in IDLE, which then continues (R185) -/
  idled : Bool
  /-- trap levels and PCs of the EFENCE or DONE that trapped POISON_CONSUMED and whose handlers run (R397) -/
  poisonAt : List (Nat × Word)
  /-- the first command number not yet given when the PUBLISH under way began (R335) -/
  publishing : Option Nat
  /-- bytes charged by an ARRIVE on its way to a peer that have been delivered before its answer (R346) -/
  early : Nat
  deriving DecidableEq, Repr, Inhabited

/-- A translation as the inverted tables give it (R273) and a TLB holds it (R276). -/
structure Entry where
  part : Nat
  ctx : Nat
  vpn : Nat
  large : Bool
  peer : Nat
  mode : Nat
  r : Bool
  w : Bool
  x : Bool
  sd : Bool
  wcls : Bool
  migreq : Bool
  thr : Nat
  acnt : Nat
  pool : Nat
  frame : Nat
  rframe : Nat
  deriving DecidableEq, Repr, Inhabited

/-- An access that the instruction in progress has made and that is counted once, when the instruction ends: one through a
translation (R278), reads of a local home (R288), a walk that skipped malformed entries (R274). -/
inductive Use where
  | access (va : Nat) (e : Entry)
  | reads (key n : Nat)
  | walk (va : Nat) (skipped : List Nat)
  deriving DecidableEq, Repr, Inhabited

/-- A memory operation of a hart's issue queue: committed, and not performed yet (R323; log 9). It has a number of its own,
its instruction with the registers it executes with, the entries its pages were translated by, the bytes it accesses as
addresses and lengths, whether it reads and writes them, whether it is a vector access, and the scalar registers and tile
registers it will write. Of a vector access `left` are the elements still to be performed, and `now` those begun. -/
structure Issue where
  id : Nat
  op : Instr
  regs : Regs
  entries : Table Entry
  accs : List (Nat × Nat)
  reads : Bool
  writes : Bool
  vec : Bool
  dests : List Nat
  tiles : List Nat
  left : Mask
  now : Option Mask
  deriving DecidableEq, Repr

/-- A hart: R75's registers and what the core holds for it. -/
structure Hart where
  regs : Regs
  /-- partition, slot and rank of the node it runs (R47) -/
  node : Option (Nat × Nat × Nat)
  blocked : Option Block
  line : Option Line
  convoyStart : Bool
  /-- the next instruction is the first at TL 0 after a TRET or a resume (R281, R408) -/
  fresh : Bool
  /-- the next instruction is one that trapped TRANSLATION at TL 0 without a handler, and executes again (R405) -/
  retry : Bool
  queue : List QueueEntry
  running : Option Convoy
  /-- the instruction it has come to waits for its queue -/
  stuck : Bool
  /-- an instruction stopped between elements, whose position PIX holds: elements of its element groups (R295) -/
  partway : Option Nat
  /-- elements the instruction in progress performs before it stops (R295) -/
  limit : Option Nat
  /-- IQ(h), oldest first (R323) -/
  iq : List Issue
  sb : List StoreEntry
  /-- what the instruction whose effects are held returns to while none of them has left, and how many it holds (R393) -/
  heldFrom : Option (Before × Nat)
  /-- entries that pages were probed under for an instruction in progress whose effect has left the core (R393) -/
  probed : Table Entry
  /-- accesses of the instruction in progress that are still to be counted, newest first -/
  uses : List Use
  /-- loads whose data check has not ended (R396) -/
  unchecked : Nat
  esub : Word
  deriving DecidableEq, Repr, Inhabited

/-! ## Cores (R14) -/

/-- One block of a compressed source: the address of its stored form, its GRANS field, whether it is raw, and whether it
lies beyond NBLK (R267; log 28), and whether its path to memory ends before a level that expands it (R269). -/
structure PackedBlock where
  addr : Nat
  grans : Nat
  raw : Bool
  beyond : Bool
  stored : Bool
  deriving DecidableEq, Repr, Inhabited

/-- A charge of a transfer to a barrier at a peer's or a local home (R346); whether the ARRIVE's answer is still to come. -/
structure Charge where
  peer : Option Nat
  key : Nat
  waiting : Bool
  deriving DecidableEq, Repr, Inhabited

/-- A copy-channel transfer (R259): issuing hart and partition, the node and rank it ran with its placement (R49),
whether its writes go to the node's shadow, source and destination addresses (of a compressed source, the content
offset), bytes, bytes delivered, the entries its pages were probed under, the stored blocks of a compressed source, the
barriers charged (R346), and a write packet on its way: peer, number and bytes. -/
structure Transfer where
  hart : Nat
  part : Nat
  handle : Nat
  rank : Nat
  placedAt : Nat
  spec : Bool
  src : Nat
  dst : Nat
  len : Nat
  delivered : Nat
  pages : List (Nat × Entry)
  packed : Option (List PackedBlock)
  charges : List Charge
  sent : Option (Nat × Nat × Nat)
  deriving DecidableEq, Repr, Inhabited

/-- A copy channel (R259, R260): WPOS, issued position, transfers, and a mark to be raised to (R262). -/
structure Channel where
  pos : Word
  issued : Word
  queue : List Transfer
  mark : Option Word
  deriving DecidableEq, Repr, Inhabited

/-- A core (R14, R75's core registers, R316, R386-R390, R120). -/
structure Core where
  pad : Cells
  /-- poisoned byte ranges of the scratchpad (R270, R396) -/
  padPoison : List (Nat × Nat)
  tags : Table Word
  /-- slots by recency of use, most recent first (R256) -/
  recency : List Nat
  channels : Vector Channel 4
  slots : Vector Slot 32
  tlb : List Entry
  floor : Nat
  esc : Nat
  stepPoint : Nat
  window : Nat
  limit : Nat
  escn : Nat
  wincnt : Nat
  total : Nat
  quarState : Nat
  quarCause : Nat
  counters : Vector Nat 8
  duty : Nat
  settling : Bool
  served : Nat
  deriving DecidableEq, Repr, Inhabited

/-! ## The dispatcher (R25-R72) -/

/-- A tile operand declaration (R27). -/
structure Operand where
  kind : Nat
  addr : Nat
  bytes : Nat
  deriving DecidableEq, Repr, Inhabited

/-- A task node record as read (R25, R26). -/
structure NodeRecord where
  addr : Word
  entry : Word
  tstamp : Word
  tsv : Bool
  group : Word
  params : Vector Word 4
  operands : List Operand
  donectr : Word
  held : Bool
  harts : Nat
  cls : Nat
  prio : Nat
  deriving DecidableEq, Repr, Inhabited

/-- A schedule entry as latched (R56). -/
structure SchedEntry where
  word0 : Word
  template : Word
  arg : Word
  deriving DecidableEq, Repr, Inhabited

/-- The states of a live node (R34); a terminal state frees the slot in the same step (R33). -/
inductive NodeState where
  | held | waiting | ready | running | commitWait
  deriving DecidableEq, Repr, Inhabited

/-- The state of a cancel against a running node (R53, R358). -/
inductive CancelState where
  | none | pending | delivered
  deriving DecidableEq, Repr, Inhabited

/-- A node (R34, R43, R45, R345, R396, R419). -/
structure Node where
  record : NodeRecord
  state : NodeState
  preds : Nat
  level : Nat
  passes : Nat
  readyAt : Nat
  placedAt : Nat
  ranks : Table Rank
  /-- context save slot holding its progress -/
  saved : Option Nat
  cancel : CancelState
  /-- table, entry index and run of a table node, and the entry that issued it (R69, R62) -/
  sched : Option (Nat × Nat × Nat)
  issued : Option SchedEntry
  pcyc : Nat
  hcyc : Nat
  since : Nat
  gcount : Nat
  gepoch : Nat
  chmark : Word
  shadow : Cells
  /-- addresses of poisoned bytes of the shadow (R49, R270) -/
  shadowBad : List Nat
  /-- the hart whose YIELD has begun to pre-empt it (R356) -/
  leaving : Option Nat
  deriving DecidableEq, Repr, Inhabited

/-- A buffer slot (R323, R335). `shadow` holds SH(b) by offset; the front is device memory from `base`, its pages moved by
the migrations that have ended since: old and new first byte, oldest first (R284). -/
structure Buffer where
  gen : Nat
  base : Nat
  size : Nat
  shadow : Cells
  moves : List (Nat × Nat)
  deriving DecidableEq, Repr, Inhabited

/-- An error-log ring (R420). `flight` are the records that HEAD does not count yet, oldest first: number of the record, its
bytes, and whether it is on its way to its home; only the oldest is, since its place is HEAD's. -/
structure Ring where
  base : Word
  head : BitVec 32
  len : BitVec 16
  tail : BitVec 32
  drop : Nat
  flight : List (Nat × List Byte × Bool)
  deriving DecidableEq, Repr, Inhabited

/-- What a Keystone records of the dispatcher's state (R399). -/
structure Keystone where
  nodes : Table Node
  gens : Table Nat
  links : List (Nat × Nat)
  accepted : BitVec 32
  dropped : BitVec 32
  reads : BitVec 32
  lastHandle : Word
  inserts : List Word
  lastTs : Option Nat
  /-- the number of the next engine command -/
  command : Nat
  deriving DecidableEq, Repr, Inhabited

/-- How far the teardown of a partition has come (R425). -/
inductive Teardown where
  | none | waiting
  deriving DecidableEq, Repr, Inhabited

/-- A partition (R37) with its windows and management registers. -/
structure Partition where
  cores : List Nat
  frames : List (Nat × Nat)
  tables : List Nat
  windows : List Nat
  slots : Nat
  access : List AccessGrant
  enable : Bool
  accepted : BitVec 32
  dropped : BitVec 32
  reads : BitVec 32
  lastHandle : Word
  inserts : List Word
  keystone : BitVec 32
  specMax : BitVec 8
  det : Bool
  commits : BitVec 32
  aborts : BitVec 32
  lastTs : Option Nat
  relyK : BitVec 16
  relyMode : BitVec 2
  klogBase : Word
  klogPages : Nat
  snapshot : Option Keystone
  /-- old lines since the Keystone: line address and 64 bytes, newest first -/
  klog : List (Nat × List Byte)
  kept : List Word
  /-- as of the last step between commits: the snapshot, old lines of the writes since, and inserts accepted since; what a
  Keystone recorded before the present commit holds (R399) -/
  between : Option Keystone
  own : List (Nat × List Byte)
  keptSince : List Word
  sinceKeystone : Nat
  unlogged : Bool
  /-- the lines whose poison has caused a rollback (R400) -/
  rolledBack : List Nat
  csaBase : Word
  csaUsed : List Nat
  csaSlots : Nat
  elog : Ring
  acctRet : Word
  acctCanc : BitVec 32
  acctFail : BitVec 32
  acctPcyc : Word
  acctHcyc : Word
  chr : Table Word
  coll : Table Word
  collCount : Table Nat
  nodes : Table Node
  gens : Table Nat
  links : List (Nat × Nat)
  reservation : Option Nat
  buffers : Table Buffer
  teardown : Teardown
  deriving DecidableEq, Repr, Inhabited

/-- The states of a schedule table (R59, R61). -/
inductive SchedState where
  | idle | loading | running | done | faulted | stopping
  deriving DecidableEq, Repr, Inhabited

/-- A Viaduct schedule table (R55-R63). -/
structure SchedTable where
  ctl : Word
  base : Word
  actBase : Word
  gradBase : Word
  slotBytes : Word
  /-- the configuration START latched: control word, entry array, areas, slot size (R62) -/
  latched : List Word
  state : SchedState
  err : Nat
  stall : Nat
  fscUp : Nat
  fscDown : Nat
  head : Nat
  entries : List SchedEntry
  /-- occupied stash slots and their micro-batch -/
  stash : Table Nat
  actFilled : Table Nat
  gradFilled : Table Nat
  /-- homes of the seal words: home key, area (true: activation), slot -/
  seals : List (Nat × Bool × Nat)
  /-- indices of issued entries whose node has retired -/
  retired : List Nat
  dropMsgs : BitVec 32
  dropEntries : BitVec 32
  /-- the seven counters in register order: BUSY, WARMUP, DRAIN, INPUT, STASH, DOWN, CORE -/
  bub : Vector Nat 7
  run : Nat
  deriving DecidableEq, Repr, Inhabited

/-! ## The fabric (R365-R379) -/

/-- Who gets the reply or the loss of a packet. -/
inductive Origin where
  /-- an instruction of a rank, with its tags (R326), the pages its accesses were translated by (R187), and whether it is a
  vector instruction (R175) -/
  | rank (part handle rank : Nat) (tags pages : List Nat) (vec : Bool)
  /-- a write of a rank's copy-channel transfer -/
  | copy (part handle rank : Nat)
  | engine (command : Nat)
  /-- a numbered record of this partition's error log (R420) -/
  | log (part record : Nat)
  /-- a line copy of a migration to a peer (R284) -/
  | migration (source : Nat)
  /-- a read or object request of the dispatcher itself -/
  | fetch
  /-- a peer's request forwarded by a migration to a third device (R285): the peer and its number -/
  | forward (peer seq : Nat)
  /-- the DONECTR add of a node (R36): partition, handle, address -/
  | doneCtr (part handle addr : Nat)
  | none
  deriving DecidableEq, Repr, Inhabited

/-- A packet sent and not acknowledged (R368): number, packet, origin, port it last took. -/
structure Sent where
  seq : Nat
  packet : Packet
  origin : Origin
  port : Nat
  deriving DecidableEq, Repr, Inhabited

/-- What this device holds for one peer (R367, R368, R427, R377), with the port whose turn it is (R366). `kept` are the last
256 numbers performed, newest first, with the replies they had. -/
structure Peer where
  nextSeq : Nat
  spray : Nat
  unacked : List Sent
  /-- packets of the device waiting for a place among the 256 (R368, R373) -/
  waiting : List (Packet × Origin)
  expect : Nat
  held : List (Nat × Packet)
  kept : List (Nat × Option Reply)
  /-- writes that an acknowledgement has freed, of which a refusal may still come (R372) -/
  acked : List Sent
  failed : Bool
  deriving DecidableEq, Repr, Inhabited

/-- A Raneb port (R379) and the retries in a row of its present flit (R369). -/
structure Port where
  state : Nat
  dcause : Nat
  lretry : Nat
  dlresend : Nat
  inRow : Nat
  deriving DecidableEq, Repr, Inhabited

/-- A request of the dispatcher to a peer, and its reply once it has arrived (log 11). -/
structure Fetch where
  peer : Nat
  packet : Packet
  seq : Nat
  reply : Option Reply
  deriving DecidableEq, Repr, Inhabited

/-- A page that a copy has been read under (R277): partition, number of its first 64 KiB, and whether it is large. -/
structure CopyPage where
  part : Nat
  page : Nat
  large : Bool
  deriving DecidableEq, Repr, Inhabited

/-- A copy of a peer's line in the memory-side cache of a die (R277): die, peer, line, the pages it has been read under, and
its bytes. -/
structure Copied where
  die : Nat
  peer : Nat
  line : Nat
  pages : List CopyPage
  bytes : List Byte
  deriving DecidableEq, Repr, Inhabited

/-! ## Engines, synchronisation, the pager -/

/-- An accepted engine command (R313, R314): its buffer slot with the generation it was accepted under, SRC, LEN, bytes in
all and written, the barrier charged (a peer's or a local home). A REDUCE also names its group, number, rank, members and
rank table as latched (R374). Of a GATHER, the row under way and its address (R313). -/
structure Command where
  part : Nat
  hart : Nat
  op : Nat
  slot : Nat
  gen : Nat
  offset : Nat
  src : Nat
  len : Nat
  total : Nat
  written : Nat
  barrier : Option (Option Nat × Nat)
  ended : Bool
  unresolved : Bool
  batch : Option Nat
  fmt : Nat
  rop : Nat
  resultPeer : Nat
  group : Nat
  k : Nat
  rank : Nat
  members : List Nat
  sentShare : Bool
  row : Option (Nat × Nat)
  deriving DecidableEq, Repr, Inhabited

/-- A contribution to a collective (R375): partition, group, number, rank, the peer it comes from (511 this device), the
command's LEN, ROP, FMT, PEER and N with its rank table, and the parts of its data by offset. -/
structure Share where
  part : Nat
  group : Nat
  k : Nat
  rank : Nat
  source : Nat
  header : List Nat
  data : List (Nat × List Byte)
  deriving DecidableEq, Repr, Inhabited

/-- A waiting ACQ at an object's home (R328): a hart with the object's address, or a peer's request. -/
inductive Waiter where
  | hart (h va : Nat)
  | peer (peer seq : Nat) (holder : Word)
  deriving DecidableEq, Repr, Inhabited

/-- A barrier that has been bound to a group (R347): partition, home on a peer or here, and the GROUPID it is bound to; of one
here that a peer's private group arrived at, the COUNT that peer gave last (R85). -/
structure BoundBarrier where
  part : Nat
  peer : Option Nat
  key : Nat
  gid : Word
  given : Option Nat
  deriving DecidableEq, Repr, Inhabited

/-- Who awaits a pager reply (R405, R407, R413, R314). -/
inductive BatchOwner where
  | rank (part handle rank level : Nat)
  | engine (command : Nat)
  | migration
  | noOne (part : Nat)
  deriving DecidableEq, Repr, Inhabited

/-- A batch report delivered to the pager (R282): who awaits the reply and the sixteen words of the report. -/
structure Batch where
  owner : BatchOwner
  report : List Word
  deriving DecidableEq, Repr, Inhabited

/-- A migration in progress (R284): source and target frame as the home keys of their first byte, the lines copied so far,
whether the next line is on its way from a source in pool 15, and the peer and peer-side frame reference of a target in
pool 15. -/
structure Migration where
  source : Nat
  target : Nat
  copied : Nat
  asked : Bool
  peer : Nat
  rframe : Nat
  deriving DecidableEq, Repr, Inhabited

/-- A memory channel's counters (R288): reads, writes, row conflicts, refresh delays. -/
structure ChannelCount where
  rd : Nat
  wr : Nat
  rowc : Nat
  refs : Nat
  deriving DecidableEq, Repr, Inhabited

/-- SPDM answers (R423). -/
inductive Answer where
  | version | capabilities | algorithms | digests | certificate
  | challengeAuth (signature : BitVec 512)
  | measurements (values : List (BitVec 256))
  | keyExchangeRsp | finishRsp | keyUpdateAck | heartbeatAck | endSessionAck
  | ideQueryResp (keySets : List Nat) | keyProgAck | goAck | stopAck
  | error
  deriving DecidableEq, Repr, Inhabited

/-- A secure session (R423). -/
structure Session where
  established : Bool
  key : BitVec 256
  deriving DecidableEq, Repr, Inhabited

/-- What leaves the device, newest first in State.out. -/
inductive Output where
  | packet (peer seq port : Nat)
  | ack (peer value port : Nat)
  | reply (peer seq port : Nat) (r : Reply)
  | resync (peer : Nat)
  | msix (function vector : Nat)
  | doe (a : Answer)
  | batch (id : Nat)
  /-- a request to create a partition is refused with NOT_READY (R19) -/
  | notReady
  deriving DecidableEq, Repr, Inhabited

/-- The stage machine (R22): STAGE_STATUS as its fields. -/
structure Stage where
  stage : BitVec 3
  busy : Bool
  fail : Bool
  attempt : BitVec 8
  failCode : BitVec 8
  hbmOk : BitVec 8
  lpOk : Bool
  portsIn : BitVec 7
  coresIn : BitVec 8
  deriving DecidableEq, Repr, Inhabited

/-- A page of a partition that Silven has mapped to device registers (R392; log 49): partition, page address, the register
space and the offset the page begins at, and its rights. -/
structure RegPage where
  part : Nat
  page : Nat
  space : RegSpace
  offset : Nat
  r : Bool
  w : Bool
  deriving DecidableEq, Repr, Inhabited

/-- A store of a hart to a device register (R392): held under guarded issue, or on its way to the register. -/
structure Posted where
  hart : Nat
  space : RegSpace
  offset : Nat
  width : Nat
  value : Word
  held : Bool
  deriving DecidableEq, Repr, Inhabited

/-- A turn of the schedule (log 1): the work of the hart that ran last; a hart's step; a hart's step that performs only n
elements of an instruction that can be stopped (R295); a hart's step that leaves its memory operation in the issue queue, and
the issue of an operation of that queue, or of some of its elements (R324, R325); a device event; bytes stored at homes by a party outside the
harts; table bytes written by Silven or the host driver (R275); a buffer slot that Silven frees and grants anew (R335); a
page mapped to device registers (R392); the oldest posted store reaches its register; the host sets bus mastering, or
host addresses whose completions carry an error status (R420); whether the messages to come are secured ones of the
session (R423); and the ports that do not route to a peer (R366). -/
inductive Turn where
  | own
  | hart (h : Nat)
  | part (h n : Nat)
  | defer (h : Nat)
  | issue (h i : Nat) (only : Option (List Nat))
  | event (e : Instr)
  | outside (loc : Nat) (bytes : List Byte)
  | table (addr : Nat) (bytes : List Byte)
  | buffer (part slot base size : Nat)
  | registers (page : RegPage)
  | posted
  | busMaster (on : Bool)
  | secured (on : Bool)
  | hostErrors (ranges : List (Nat × Nat))
  | routes (peer : Nat) (closed : List Nat)
  deriving DecidableEq, Repr

/-- The whole machine. -/
structure State where
  /-- the schedule: turns to come, and the hart that runs when none is given (log 1) -/
  agenda : List Turn
  cur : Nat
  /-- elements the turn may perform of an instruction that can be stopped (R295) -/
  quota : Option Nat
  /-- elapsed cycles, steps taken, next free value (log 2, log 3) -/
  now : Nat
  ticks : Nat
  free : Nat
  /-- R18-R24 -/
  powered : Bool
  st : Stage
  timeBase : Nat
  early : Bool
  /-- R18, R423 -/
  flash : List FirmwareImage
  session : Option Session
  /-- the messages that arrive are secured ones of the session, else in clear (R423): an input -/
  secured : Bool
  ideKeys : Table (BitVec 256)
  ideActive : Option Nat
  /-- the grants at the last measurement (R423) -/
  measured : List Grant
  /-- partitions by number (R37) -/
  parts : Table Partition
  /-- schedule tables by number (R55) -/
  scheds : Table SchedTable
  /-- cores and harts by number (R13) -/
  cores : Table Core
  harts : Table Hart
  /-- memory (R323 H, R273 tables, R396 poison, R420 host memory) -/
  mem : Cells
  tbl : Cells
  /-- poisoned byte ranges of memory: first byte and length; poisoned bytes hold 0 (R396) -/
  poisoned : List (Nat × Nat)
  host : Cells
  /-- the physical function may be bus master; host addresses whose completions carry an error status (R420) -/
  busMaster : Bool
  hostErrors : List (Nat × Nat)
  trAnchor : Word
  trPool : Table Word
  trCount : Word
  l2 : Table (List Entry)
  copies : List Copied
  /-- how often cached copies have been dropped (R328) -/
  drops : Nat
  migrations : List Migration
  chans : Table ChannelCount
  /-- by channel, when its last corrected error was logged (R424) -/
  corrected : Table Nat
  /-- fabric (R365-R379) -/
  peers : Table Peer
  ports : Table Port
  /-- by peer, the ports that do not route to it (R366) -/
  routes : Table (List Nat)
  fabFailt : Nat
  fabDlt : Nat
  fetched : List Fetch
  /-- engines and collectives (R312-R314, R375) -/
  commands : Table Command
  nextCommand : Nat
  shares : List Share
  /-- synchronisation (R328) -/
  acqs : List (Nat × Waiter)
  /-- barriers that have been bound to a group (R347) -/
  barriers : List BoundBarrier
  /-- pager batches by number (R282) -/
  batches : Table Batch
  nextBatch : Nat
  /-- R422 -/
  pwrCap : Nat
  pwrEst : Nat
  pwrDuty : Nat
  /-- device log (R420) -/
  dlog : Ring
  /-- the number of the next error record (R420) -/
  nextRecord : Nat
  /-- pages mapped to device registers, and stores on their way to them (R392) -/
  regPages : List RegPage
  posted : List Posted
  out : List Output
  deriving DecidableEq, Repr

/-- Why a step can stop. Only a malformed schedule stops a step: everything the spec describes has a next state. -/
inductive Fault where
  /-- Raised by step when the agenda holds, as a device event, an instruction that only a hart can execute. Safe: the
  model stops where no hardware event is described. -/
  | notAnEvent
  deriving DecidableEq, Repr

/-- Instructions without a meaning. -/
inductive Refusal where
  /-- Raised by a dispatch arm that has no meaning yet. Safe: the model stops. -/
  | notModelled (mnemonic : String)
  deriving DecidableEq, Repr

/-! ## Reset -/

/-- An unallocated tile register (R80). -/
def Tile.empty : Tile := ⟨0, []⟩

/-- A trap bank at placement (R76). -/
def TrapBank.zero : TrapBank := ⟨0, 0, 0, 0⟩

/-- The registers of a hart that no node has been placed on: R76's placement values with zero ENTRY, parameters and
identities (log 6). VTYPE has VREJ set and RC is 1, as R198 gives for reset. -/
def Regs.reset : Regs where
  pc := 0
  s := Vector.replicate 32 0
  f := Vector.replicate 32 Tile.empty
  m := Vector.replicate 8 0
  q := Vector.replicate 8 none
  vl := 0
  rc := 1
  vtype := 0x8000000000000000
  fflags := 0
  frm := 0
  atc := 0
  dlen := Vector.replicate 3 0
  dstep := Vector.replicate 3 0
  pix := 0
  fem := 0
  hartid := 0
  nodeid := 0
  groupid := 0
  seed := 0
  loopcnt := 0
  rrb := 0
  tl := 0
  tvec := 0
  trap1 := TrapBank.zero
  trap2 := TrapBank.zero

/-- A hart that runs nothing. -/
def Hart.reset : Hart where
  regs := Regs.reset
  node := none
  blocked := none
  line := none
  convoyStart := true
  fresh := false
  retry := false
  queue := []
  running := none
  stuck := false
  partway := none
  limit := none
  iq := []
  sb := []
  heldFrom := none
  probed := []
  uses := []
  unchecked := 0
  esub := 0

/-- A copy channel at reset (R260). -/
def Channel.reset : Channel := ⟨0, 0, [], none⟩

/-- A Palette slot at reset: FREE (R236; log 6). -/
def Slot.reset : Slot := ⟨none, none, []⟩

/-- A core at reset: the values of R255, R260, R386-R390, R422 and log 6. -/
def Core.reset : Core where
  pad := []
  padPoison := []
  tags := []
  recency := []
  channels := Vector.replicate 4 Channel.reset
  slots := Vector.replicate 32 Slot.reset
  tlb := []
  floor := 0
  esc := 0
  stepPoint := 0
  window := 1024
  limit := 64
  escn := 0
  wincnt := 0
  total := 0
  quarState := 0
  quarCause := 0
  counters := Vector.replicate 8 0
  duty := 64
  settling := false
  served := 7

/-- A schedule table at reset (R58-R60; log 6). -/
def SchedTable.reset : SchedTable where
  ctl := 0x0000000810040000
  base := 0
  actBase := 0
  gradBase := 0
  slotBytes := 0
  latched := []
  state := .idle
  err := 0
  stall := 7
  fscUp := 0
  fscDown := 0
  head := 0
  entries := []
  stash := []
  actFilled := []
  gradFilled := []
  seals := []
  retired := []
  dropMsgs := 0
  dropEntries := 0
  bub := Vector.replicate 7 0
  run := 0

/-- An error-log ring at reset (R420). -/
def Ring.reset : Ring := ⟨0, 0, 0, 0, 0, []⟩

/-- A peer at reset: numbers at 0, nothing outstanding (R367, R377). -/
def Peer.reset : Peer := ⟨0, 0, [], [], 0, [], [], [], false⟩

/-- A port at reset: untrained (R379). -/
def Port.reset : Port := ⟨0, 0, 0, 0, 0⟩

/-- STAGE_STATUS at reset (R22). -/
def Stage.reset : Stage := ⟨0, true, false, 0, 0, 0, false, 0, 0⟩

/-- The package right after power-up: stage 0, nothing placed, memory with nothing listed. -/
def State.reset : State where
  agenda := []
  cur := 0
  quota := none
  now := 0
  ticks := 0
  free := 0
  powered := true
  st := Stage.reset
  timeBase := 0
  early := true
  flash := []
  session := none
  secured := false
  ideKeys := []
  ideActive := none
  measured := []
  parts := []
  scheds := []
  cores := []
  harts := []
  mem := []
  tbl := []
  poisoned := []
  host := []
  busMaster := false
  hostErrors := []
  trAnchor := 10
  trPool := []
  trCount := 0
  l2 := []
  copies := []
  drops := 0
  migrations := []
  chans := []
  corrected := []
  peers := []
  ports := []
  routes := []
  fabFailt := 100
  fabDlt := 20
  fetched := []
  commands := []
  nextCommand := 0
  shares := []
  acqs := []
  barriers := []
  batches := []
  nextBatch := 0
  pwrCap := 2800
  pwrEst := 0
  pwrDuty := 64
  dlog := Ring.reset
  nextRecord := 0
  regPages := []
  posted := []
  out := []

end Sys2Proof.Machine
end

