-- ==== Sys2Proof/Machine/Basics.lean ====
section
/-!
DEFINITION. Basics.lean: sparse tables, byte memories in canonical form, little-endian bytes (R3), the monad of an
instruction's effect (R9), and access to harts, cores, partitions and their registers (R75).
-/

namespace Sys2Proof.Machine

/-! ## Sparse tables -/

/-- The entry under key k. -/
def tget {α : Type} (t : Table α) (k : Nat) : Option α :=
  match t with
  | [] => none
  | (j, v) :: rest => if j = k then some v else tget rest k

/-- Writes the entry under key k, keys kept rising. -/
def tput {α : Type} (t : Table α) (k : Nat) (v : α) : Table α :=
  match t with
  | [] => [(k, v)]
  | (j, w) :: rest =>
    if k < j then (k, v) :: (j, w) :: rest
    else if k = j then (k, v) :: rest
    else (j, w) :: tput rest k v

/-- Removes the entry under key k. -/
def tdel {α : Type} (t : Table α) (k : Nat) : Table α := t.filter fun e => e.1 != k

/-! ## Byte memories -/

/-- The canonical form of a byte memory, addresses from `lo` up: strictly rising, no byte equal to the 0 that an
unlisted address reads as (log 5). -/
def Memory.wfFrom (lo : Nat) (m : Cells) : Bool :=
  match m with
  | [] => true
  | (a, b) :: rest => decide (lo ≤ a) && b != 0 && Memory.wfFrom (a + 1) rest

/-- The canonical form of a byte memory. -/
def Memory.wf (m : Cells) : Bool := Memory.wfFrom 0 m

/-- The byte at an address; an unlisted address reads 0 (log 5). -/
def byteAt (m : Cells) (a : Nat) : Byte :=
  match m with
  | [] => 0
  | (k, b) :: rest => if k = a then b else byteAt rest a

/-- The cells of consecutive bytes from address a that are not 0. -/
def cellsOf (a : Nat) (bs : List Byte) : Cells :=
  match bs with
  | [] => []
  | b :: rest => if b = 0 then cellsOf (a + 1) rest else (a, b) :: cellsOf (a + 1) rest

/-- Writes consecutive bytes from address a, the canonical form kept. -/
def putBytes (m : Cells) (a : Nat) (bs : List Byte) : Cells :=
  m.takeWhile (fun c => decide (c.1 < a)) ++ cellsOf a bs ++
    m.dropWhile (fun c => decide (c.1 < a + bs.length))

/-- n consecutive bytes from address a. -/
def getBytes (m : Cells) (a n : Nat) : List Byte :=
  match n with
  | 0 => []
  | n + 1 =>
    match m.dropWhile fun c => decide (c.1 < a) with
    | [] => List.replicate (n + 1) 0
    | (k, b) :: rest => (if k = a then b else 0) :: getBytes ((k, b) :: rest) (a + 1) n

/-! ## Little-endian numbers (R3) -/

/-- The n low bytes of a number, lowest first. -/
def leBytes (n v : Nat) : List Byte :=
  match n with
  | 0 => []
  | n + 1 => BitVec.ofNat 8 v :: leBytes n (v / 256)

/-- The number whose bytes, lowest first, are given. -/
def leNat (bs : List Byte) : Nat :=
  match bs with
  | [] => 0
  | b :: rest => b.toNat + 256 * leNat rest

/-- The bytes of a 64-bit word. -/
def wordBytes (w : Word) : List Byte := leBytes 8 w.toNat

/-- Bits hi down to lo of a number (R8). -/
def bits (x hi lo : Nat) : Nat := x / 2 ^ lo % 2 ^ (hi + 1 - lo)

/-- Sign-extends the low n bits of a number to 64 bits. -/
def sext (n v : Nat) : Word := BitVec.ofInt 64 (BitVec.ofNat n v).toInt

/-- The signed value of the low n bits of a number. -/
def signed (n v : Nat) : Int := (BitVec.ofNat n v).toInt

/-- The low n bits of an integer. -/
def wrap (n : Nat) (v : Int) : Nat := (BitVec.ofInt n v).toNat

/-- Rounds up a quotient. -/
def ceilDiv (a b : Nat) : Nat := (a + b - 1) / b

/-! ## The monad of an effect -/

/-- A trap to be taken (R403): cause, TVAL, TLANE, TEPC where it is not the instruction's own PC, the report of a fault batch
sent with it (R282), and the PIX of a memory fault of a vector instruction (R408). -/
structure Trap where
  cause : Nat
  val : Word
  lane : Word
  epc : Option Word
  batch : Option (List Word)
  pix : Option Nat
  deriving DecidableEq, Repr

/-- How an effect ends early: in a trap; with the hart blocked and the instruction to be tried again (R340); with the
hart runnable and the instruction to be tried again (R88, R259, R368); with nothing done until the hart's queue has
emptied (R109, R110); or with its own end of the instruction already in the state (DONE, YIELD, kills). -/
inductive Stop where
  | trap (t : Trap)
  | block (b : Block)
  | stall
  | again
  | ended
  deriving DecidableEq, Repr

/-- An effect on the machine. -/
abbrev M := EStateM Stop State

/-- Ends the effect in a trap. -/
def trap {α : Type} (cause : Nat) (val : Word) : M α := throw (.trap ⟨cause, val, 0, none, none, none⟩)

/-- Ends the effect with the hart blocked. -/
def block {α : Type} (b : Block) : M α := throw (.block b)

/-- Leaves the hart runnable at the instruction, to be tried again. -/
def stall {α : Type} : M α := throw .stall

/-- Leaves everything as it was before the turn, to be tried again. -/
def again {α : Type} : M α := throw .again

/-- Ends the turn with the state as it stands. -/
def ended {α : Type} : M α := throw .ended

/-- Applies a function to the state. -/
def change (f : State → State) : M Unit := modify f

/-- Trap causes (R403). -/
def cILLEGAL : Nat := 0x01
def cLINE : Nat := 0x02
def cCONVOY : Nat := 0x03
def cVTYPE : Nat := 0x04
def cIDZ : Nat := 0x05
def cIOV : Nat := 0x06
def cFP : Nat := 0x07
def cSTORAGE : Nat := 0x08
def cSHAPE : Nat := 0x09
def cLOAD : Nat := 0x0E
def cSTORE : Nat := 0x0F
def cFETCH : Nat := 0x10
def cPERM : Nat := 0x11
def cALIGN : Nat := 0x12
def cHANDLE : Nat := 0x13
def cBARRIER : Nat := 0x14
def cPOISON : Nat := 0x18
def cREPLAY : Nat := 0x19
def cSYSCALL : Nat := 0x20
def cBREAK : Nat := 0x21

/-! ## Parts of the machine -/

/-- Hart h. -/
def State.hart (s : State) (h : Nat) : Hart := (tget s.harts h).getD Hart.reset

/-- Writes hart h. -/
def State.setHart (s : State) (h : Nat) (x : Hart) : State := { s with harts := tput s.harts h x }

/-- Core c. -/
def State.core (s : State) (c : Nat) : Core := (tget s.cores c).getD Core.reset

/-- Writes core c. -/
def State.setCore (s : State) (c : Nat) (x : Core) : State := { s with cores := tput s.cores c x }

/-- Changes core c. -/
def State.updCore (s : State) (c : Nat) (f : Core → Core) : State := s.setCore c (f (s.core c))

/-- Changes hart h. -/
def State.updHart (s : State) (h : Nat) (f : Hart → Hart) : State := s.setHart h (f (s.hart h))

/-- Partition p, when it exists. -/
def State.part (s : State) (p : Nat) : Option Partition := tget s.parts p

/-- Writes partition p. -/
def State.setPart (s : State) (p : Nat) (x : Partition) : State := { s with parts := tput s.parts p x }

/-- Changes partition p when it exists. -/
def State.updPart (s : State) (p : Nat) (f : Partition → Partition) : State :=
  match s.part p with
  | some x => s.setPart p (f x)
  | none => s

/-- Schedule table t. -/
def State.sched (s : State) (t : Nat) : SchedTable := (tget s.scheds t).getD SchedTable.reset

/-- Writes schedule table t. -/
def State.setSched (s : State) (t : Nat) (x : SchedTable) : State := { s with scheds := tput s.scheds t x }

/-- What the device holds for peer p. -/
def State.peer (s : State) (p : Nat) : Peer := (tget s.peers p).getD Peer.reset

/-- Writes peer p. -/
def State.setPeer (s : State) (p : Nat) (x : Peer) : State := { s with peers := tput s.peers p x }

/-- Port n. -/
def State.port (s : State) (n : Nat) : Port := (tget s.ports n).getD Port.reset

/-- Writes port n. -/
def State.setPort (s : State) (n : Nat) (x : Port) : State := { s with ports := tput s.ports n x }

/-- Node in slot k of partition p. -/
def State.node (s : State) (p k : Nat) : Option Node := (s.part p).bind fun x => tget x.nodes k

/-- Writes the node in slot k of partition p. -/
def State.setNode (s : State) (p k : Nat) (n : Node) : State :=
  s.updPart p fun x => { x with nodes := tput x.nodes k n }

/-- Changes the node in slot k of partition p when there is one. -/
def State.updNode (s : State) (p k : Nat) (f : Node → Node) : State :=
  match s.node p k with
  | some n => s.setNode p k (f n)
  | none => s

/-- A rank as placement starts it (R345, R54). -/
def Rank.start (h : Option Nat) : Rank where
  hart := h
  done := false
  saved := false
  mark := none
  poison := none
  samples := 0
  requests := []
  lost := 0
  binding := []
  cancelling := none
  waitBatch := false
  unresolved := false
  waitTrap := (0, 0, 0)
  femPc := none
  idled := false
  poisonAt := []
  publishing := none
  early := 0

/-- Changes what the node table holds for a rank. -/
def State.updRank (s : State) (p k r : Nat) (f : Rank → Rank) : State :=
  s.updNode p k fun n => { n with ranks := tput n.ranks r (f ((tget n.ranks r).getD (Rank.start none))) }

/-- What the node table holds for a rank. -/
def State.rank (s : State) (p k r : Nat) : Rank :=
  ((s.node p k).bind fun n => tget n.ranks r).getD (Rank.start none)

/-- The generation of slot k (R32). -/
def Partition.gen (x : Partition) (k : Nat) : Nat := (tget x.gens k).getD 1

/-- The handle of slot k (R32). -/
def Partition.handle (x : Partition) (k : Nat) : Nat := k * 65536 + x.gen k

/-- The handle of slot k of partition p. -/
def State.handle (s : State) (p k : Nat) : Nat := ((s.part p).map (·.handle k)).getD 0

/-- The slot a live handle names; a stale handle names none (R32). -/
def Partition.slotOf (x : Partition) (handle : Nat) : Option Nat :=
  let k := handle / 65536
  if handle < 4294967296 ∧ handle % 65536 = x.gen k ∧ (tget x.nodes k).isSome then some k else none

/-- The slot of the node a live handle of partition p names. -/
def State.slotOf (s : State) (p handle : Nat) : Option Nat := (s.part p).bind (·.slotOf handle)

/-- The core of a hart (R13). -/
def coreOf (h : Nat) : Nat := h / 8

/-- The compute die of a core (R13). -/
def dieOf (c : Nat) : Nat := c / 48

/-- Whether a core is a field core (R13). -/
def isFC (c : Nat) : Bool := decide (32 ≤ c % 48)

/-- The hart that runs. -/
def curHart : M Hart := do
  let s ← get
  pure (s.hart s.cur)

/-- The registers of the hart that runs. -/
def curRegs : M Regs := do
  let h ← curHart
  pure h.regs

/-- Changes the hart that runs. -/
def updHart (f : Hart → Hart) : M Unit := change fun s => s.updHart s.cur f

/-- Changes the registers of the hart that runs. -/
def updRegs (f : Regs → Regs) : M Unit := updHart fun h => { h with regs := f h.regs }

/-- The entries that accesses of a hart still to be performed were translated by: of the instruction in progress, and of the
issue queue. -/
def Hart.translations (h : Hart) : Table Entry := h.probed ++ h.iq.flatMap (·.entries)

/-- Partition, slot and rank of the node the hart runs. -/
def curNode : M (Option (Nat × Nat × Nat)) := do
  let h ← curHart
  pure h.node

/-! ## Registers (R75) -/

/-- s[r]; s0 reads as zero. -/
def Regs.getS (g : Regs) (r : Reg) : Word := if r = 0 then 0 else g.s.get r.toFin

/-- Writes s[r]; a write to s0 is discarded. -/
def Regs.setS (g : Regs) (r : Reg) (v : Word) : Regs := if r = 0 then g else { g with s := g.s.set r.toNat v r.isLt }

/-- m[r]; m0 reads as all-ones. -/
def Regs.getM (g : Regs) (r : Reg3) : Mask := if r = 0 then BitVec.allOnes 32768 else g.m.get r.toFin

/-- Writes m[r]; a write to m0 is discarded. -/
def Regs.setM (g : Regs) (r : Reg3) (v : Mask) : Regs := if r = 0 then g else { g with m := g.m.set r.toNat v r.isLt }

/-- The physical register a field names: f16-f31 rotate by RRB.BASE (R118). -/
def Regs.phys (g : Regs) (n : Nat) : Nat :=
  if n < 16 then n else 16 + (n - 16 + g.rrb.toNat % 16) % 16

/-- The tile register a field names. -/
def Regs.getF (g : Regs) (n : Nat) : Tile := g.f.toList.getD (g.phys n) Tile.empty

/-- Writes the tile register a field names. -/
def Regs.setF (g : Regs) (n : Nat) (t : Tile) : Regs := { g with f := g.f.setIfInBounds (g.phys n) t }

/-- q[r]. -/
def Regs.getQ (g : Regs) (r : Reg3) : Option Stream := g.q.get r.toFin

/-- Writes q[r]. -/
def Regs.setQ (g : Regs) (r : Reg3) (v : Option Stream) : Regs := { g with q := g.q.set r.toNat v r.isLt }

/-- The trap bank of level 1 or 2 (R402). -/
def Regs.bank (g : Regs) (tl : Nat) : TrapBank := if tl = 2 then g.trap2 else g.trap1

/-- Writes the trap bank of level 1 or 2. -/
def Regs.setBank (g : Regs) (tl : Nat) (b : TrapBank) : Regs :=
  if tl = 2 then { g with trap2 := b } else { g with trap1 := b }

/-- Reads a scalar register of the hart that runs. -/
def readS (r : Reg) : M Word := do
  let g ← curRegs
  pure (g.getS r)

/-- Writes a scalar register of the hart that runs. -/
def writeS (r : Reg) (v : Word) : M Unit := updRegs (·.setS r v)

/-- The program counter of the hart that runs. -/
def readPc : M Word := do
  let g ← curRegs
  pure g.pc

/-- The PC of the fall-through successor of a head: the next head of its line, or head 0 of the next line after the
last head (R99, R178). -/
def Hart.successor (h : Hart) : Word :=
  let pc := h.regs.pc
  let n := match h.line with
    | some l => lineHeads l.bits
    | none => 31
  if pc.toNat % 64 / 2 ≥ n then pc - BitVec.ofNat 64 (pc.toNat % 64) + 66 else pc + 2

/-- Falls through to the next head (R99). Leaving the line drops the line copy (R90). -/
def Hart.advance (h : Hart) : Hart :=
  let t := h.successor
  { h with
    regs := { h.regs with pc := t }
    line := if t.toNat / 64 = h.regs.pc.toNat / 64 then h.line else none }

/-- Falls through in the hart that runs. -/
def advance : M Unit := updHart Hart.advance

/-- A fresh free value (log 3). -/
def freshFree : M Word := do
  let s ← get
  set { s with free := s.free + 1 }
  pure (Config.freeWord s.free)

end Sys2Proof.Machine
end

