-- ==== Sys2Proof/Machine/Float.lean ====
section
/-!
DEFINITION. Float.lean: number formats (R123-R125), rounding, subnormals and flags (R129-R133), exact sums, products,
quotients and roots, O4 (R127, R128), conversions (R126), minimum and maximum (R135) and integer division (R136).
Patterns are naturals below 2^w; a finite value is a sign and man x 2^exp.
-/

namespace Sys2Proof.Machine

/-! ## Formats (R123, R124) -/

/-- Width of a format in bits (R123). -/
def fmtWidth (f : Nat) : Nat :=
  match f with
  | 0 => 8 | 1 => 16 | 2 => 32 | 3 => 64 | 4 => 8 | 5 => 8 | 6 => 16 | 7 => 16 | 8 => 32 | 9 => 64 | 10 => 4
  | 12 => 4 | _ => 0

/-- Mantissa bits and bias of a floating format (R124). -/
def fmtMan (f : Nat) : Nat := match f with | 4 => 3 | 5 => 2 | 6 => 10 | 7 => 7 | 8 => 23 | _ => 52
def fmtBias (f : Nat) : Nat := match f with | 4 => 7 | 5 => 15 | 6 => 15 | 7 => 127 | 8 => 127 | _ => 1023

/-- Exponent bits of a floating format. -/
def fmtExp (f : Nat) : Nat := fmtWidth f - fmtMan f - 1

/-- Whether a format is an integer or a floating format. -/
def isInt (f : Nat) : Bool := decide (f ≤ 3) || f == 12
def isFloat (f : Nat) : Bool := decide (4 ≤ f) && decide (f ≤ 9)

/-- Canonical quiet NaN (R124). -/
def canonNan (f : Nat) : Nat :=
  if f = 4 then 0x7F else (2 ^ fmtExp f - 1) * 2 ^ fmtMan f + 2 ^ (fmtMan f - 1)

/-- Infinity, and the largest finite pattern. FP8E4M3 has no infinity; its overflow gives the largest finite (R126). -/
def infPat (f : Nat) : Nat := if f = 4 then 0x7E else (2 ^ fmtExp f - 1) * 2 ^ fmtMan f
def maxPat (f : Nat) : Nat := if f = 4 then 0x7E else (2 ^ fmtExp f - 1) * 2 ^ fmtMan f - 1

/-- The sign bit of a format. -/
def signPat (f : Nat) (neg : Bool) : Nat := if neg then 2 ^ (fmtWidth f - 1) else 0

/-! ## Values -/

/-- What a floating pattern stands for. -/
inductive Val where
  | nan (signalling : Bool)
  | inf (neg : Bool)
  | fin (neg : Bool) (man : Nat) (exp : Int)
  deriving DecidableEq, Repr

/-- Flags in FFLAGS bit positions (R133). -/
def fNV : Nat := 1
def fDZ : Nat := 2
def fOF : Nat := 4
def fUF : Nat := 8
def fNX : Nat := 16
def fIDZ : Nat := 32
def fIOV : Nat := 64

/-- The value of a pattern (R124, R125). -/
def decodeF (f p : Nat) : Val :=
  let t := fmtMan f
  let neg := p / 2 ^ (fmtWidth f - 1) % 2 == 1
  let e := p / 2 ^ t % 2 ^ fmtExp f
  let m := p % 2 ^ t
  if f = 4 ∧ e = 15 ∧ m = 7 then .nan false
  else if f ≠ 4 ∧ e = 2 ^ fmtExp f - 1 then
    if m = 0 then .inf neg else .nan (m / 2 ^ (t - 1) == 0)
  else if e = 0 then .fin neg m (1 - fmtBias f - t)
  else .fin neg (2 ^ t + m) ((e : Int) - fmtBias f - t)

/-- Whether FZ applies to a format (R132). -/
def fzApplies (f : Nat) : Bool := decide (6 ≤ f) && decide (f ≤ 9)

/-- An input under FZ: a subnormal reads as zero of its sign (R132). -/
def readF (fz : Bool) (f p : Nat) : Val :=
  match decodeF f p with
  | .fin neg man exp =>
    if fz && fzApplies f && man < 2 ^ fmtMan f then .fin neg 0 exp else .fin neg man exp
  | v => v

/-! ## Rounding (R130-R132) -/

/-- Rounding codes (R129): 0 RNE, 1 RNA, 2 RUP, 3 RDN, 4 RTZ, 5 SR. An SR rounding carries its 24 random bits. -/
structure Mode where
  rm : Nat
  fz : Bool
  rand : Nat
  deriving DecidableEq, Repr

/-- Round to nearest even without flushing. -/
def Mode.rne : Mode := ⟨0, false, 0⟩

/-- The 24 random bits of element idx under SEED (R131). -/
def stochastic (seed : Word) (idx : Nat) : Nat :=
  let z := seed ^^^ (BitVec.ofNat 64 idx * 0x9E3779B97F4A7C15#64)
  let z := (z ^^^ (z >>> 30)) * 0xBF58476D1CE4E5B9#64
  let z := (z ^^^ (z >>> 27)) * 0x94D049BB133111EB#64
  let z := z ^^^ (z >>> 31)
  z.toNat / 2 ^ 40

/-- man x 2^exp as a multiple of 2^q: the multiple picked under the mode, and whether it is inexact (R130, R131). -/
def quantise (md : Mode) (neg : Bool) (man : Nat) (exp q : Int) : Nat × Bool :=
  if q ≤ exp then (man * 2 ^ (exp - q).toNat, false) else
  let sh := (q - exp).toNat
  let lo := man / 2 ^ sh
  let rem := man % 2 ^ sh
  let half := 2 ^ (sh - 1)
  let up := match md.rm with
    | 1 => decide (half ≤ rem)
    | 2 => !neg && rem != 0
    | 3 => neg && rem != 0
    | 4 => false
    | 5 => decide (rem * 2 ^ 24 / 2 ^ sh > md.rand)
    | _ => decide (half < rem) || (rem == half && lo % 2 == 1)
  (if up then lo + 1 else lo, rem != 0)

/-- Overflow's result (R130, R126). -/
def overflowPat (f : Nat) (md : Mode) (neg : Bool) : Nat :=
  signPat f neg + (match md.rm with
    | 2 => if neg then maxPat f else infPat f
    | 3 => if neg then infPat f else maxPat f
    | 4 => maxPat f
    | _ => infPat f)

/-- Rounds the exact value (-1)^neg x man x 2^exp to a format: pattern and flags (R130-R133). -/
def roundF (f : Nat) (md : Mode) (neg : Bool) (man : Nat) (exp : Int) : Nat × Nat :=
  if man = 0 then (signPat f neg, 0) else
  let t := fmtMan f
  let emin : Int := 1 - fmtBias f
  let e : Int := (Nat.log2 man : Int) + exp
  let q := max e emin - t
  let (n, inexact) := quantise md neg man exp q
  let full := quantise md neg man exp (e - t)
  let tiny := decide (e < emin) && (quantise ⟨4, false, 0⟩ false full.1 (e - t) (emin - t)).1 < 2 ^ t
  if md.fz && fzApplies f && tiny then (signPat f neg, fUF + fNX)
  else
    let flags := (if inexact then fNX else 0) + (if tiny && inexact then fUF else 0)
    -- a carry out of the top makes one bit more
    let (n, q) := if n = 2 ^ (t + 1) then (2 ^ t, q + 1) else (n, q)
    let pat := if n < 2 ^ t then n else (q + t + fmtBias f).toNat * 2 ^ t + (n - 2 ^ t)
    if pat > maxPat f then (overflowPat f md neg, fOF + fNX) else (signPat f neg + pat, flags)

/-- The exact sum of two finite values. -/
def addFin (n1 : Bool) (m1 : Nat) (e1 : Int) (n2 : Bool) (m2 : Nat) (e2 : Int) : Bool × Nat × Int :=
  let e := min e1 e2
  let x : Int := (m1 * 2 ^ (e1 - e).toNat : Nat)
  let y : Int := (m2 * 2 ^ (e2 - e).toNat : Nat)
  let z := (if n1 then -x else x) + (if n2 then -y else y)
  (decide (z < 0), z.natAbs, e)

/-- The sign of an exact zero sum: both signs when they agree, else + except under RDN. -/
def zeroSign (md : Mode) (n1 n2 : Bool) : Bool := if n1 = n2 then n1 else md.rm == 3

/-- Rounds a value to a format; a NaN becomes the canonical NaN (R125). -/
def roundVal (f : Nat) (md : Mode) (v : Val) : Nat × Nat :=
  match v with
  | .nan sig => (canonNan f, if sig then fNV else 0)
  | .inf neg => if f = 4 then (canonNan 4, fNV) else (signPat f neg + infPat f, 0)
  | .fin neg man exp => roundF f md neg man exp

/-- NV for a signalling operand. -/
def sigFlag (v : Val) : Nat := match v with | .nan true => fNV | _ => 0

/-- Whether a value is a NaN. -/
def Val.isNan (v : Val) : Bool := match v with | .nan _ => true | _ => false

/-- The value with its sign flipped. -/
def Val.negate (v : Val) : Val :=
  match v with
  | .nan s => .nan s
  | .inf n => .inf !n
  | .fin n m e => .fin (!n) m e

/-- The exact product of two values, NaN for 0 x infinity; with NV where that arises (R125). -/
def mulVal (a b : Val) : Val × Nat :=
  match a, b with
  | .nan s, y => (.nan false, (if s then fNV else 0) ||| sigFlag y)
  | x, .nan s => (.nan false, (if s then fNV else 0) ||| sigFlag x)
  | .inf n, .inf m => (.inf (n != m), 0)
  | .inf n, .fin m k _ => if k = 0 then (.nan false, fNV) else (.inf (n != m), 0)
  | .fin m k _, .inf n => if k = 0 then (.nan false, fNV) else (.inf (n != m), 0)
  | .fin n x e, .fin m y k => (.fin (n != m) (x * y) (e + k), 0)

/-- The exact sum of two values under a mode's zero rule. -/
def addVal (md : Mode) (a b : Val) : Val × Nat :=
  match a, b with
  | .nan s, y => (.nan false, (if s then fNV else 0) ||| sigFlag y)
  | x, .nan s => (.nan false, (if s then fNV else 0) ||| sigFlag x)
  | .inf n, .inf m => if n = m then (.inf n, 0) else (.nan false, fNV)
  | .inf n, .fin .. => (.inf n, 0)
  | .fin .., .inf n => (.inf n, 0)
  | .fin n x e, .fin m y k =>
    let (neg, man, exp) := addFin n x e m y k
    (.fin (if man = 0 then zeroSign md n m else neg) man exp, 0)

/-- Rounds a value and joins flags. -/
def finishF (f : Nat) (md : Mode) (v : Val × Nat) : Nat × Nat :=
  let (p, fl) := roundVal f md v.1
  (p, fl ||| v.2)

/-- Sum, difference, product and fused multiply-add in a format, on values already read. -/
def addF (f : Nat) (md : Mode) (a b : Val) : Nat × Nat := finishF f md (addVal md a b)
def subF (f : Nat) (md : Mode) (a b : Val) : Nat × Nat := finishF f md (addVal md a b.negate)
def mulF (f : Nat) (md : Mode) (a b : Val) : Nat × Nat := finishF f md (mulVal a b)
def fmaF (f : Nat) (md : Mode) (a b c : Val) : Nat × Nat :=
  let (p, fl) := mulVal a b
  let (s, fl2) := addVal md p c
  finishF f md (s, fl ||| fl2 ||| sigFlag c)

/-- x / y with a sticky bit below n + 2 quotient bits at least. -/
def quotient (x y n : Nat) : Nat × Int :=
  let sh := n + 3 + Nat.log2 y - min (Nat.log2 x) (Nat.log2 y)
  let z := x * 2 ^ sh
  (2 * (z / y) + (if z % y = 0 then 0 else 1), -(sh : Int) - 1)

/-- Division in a format. -/
def divF (f : Nat) (md : Mode) (a b : Val) : Nat × Nat :=
  match a, b with
  | .nan s, y => (canonNan f, (if s then fNV else 0) ||| sigFlag y)
  | x, .nan s => (canonNan f, (if s then fNV else 0) ||| sigFlag x)
  | .inf _, .inf _ => (canonNan f, fNV)
  | .inf n, .fin m _ _ => finishF f md (.inf (n != m), 0)
  | .fin n _ _, .inf m => (signPat f (n != m), 0)
  | .fin n x e, .fin m y k =>
    if y = 0 then
      if x = 0 then (canonNan f, fNV)
      else if f = 4 then (signPat f (n != m) + maxPat f, fDZ) else (signPat f (n != m) + infPat f, fDZ)
    else if x = 0 then (signPat f (n != m), 0)
    else
      let (z, d) := quotient x y (fmtMan f)
      roundF f md (n != m) z (e - k + d)

/-- The square root by bits: the largest r with r * r <= x, from bit b down. -/
def isqrtFrom (x r : Nat) : Nat → Nat
  | 0 => r
  | b + 1 => if (r + 2 ^ b) * (r + 2 ^ b) ≤ x then isqrtFrom x (r + 2 ^ b) b else isqrtFrom x r b

/-- The integer square root. -/
def isqrt (x : Nat) : Nat := isqrtFrom x 0 (Nat.log2 x / 2 + 1)

/-- Square root in a format. -/
def sqrtF (f : Nat) (md : Mode) (a : Val) : Nat × Nat :=
  match a with
  | .nan s => (canonNan f, if s then fNV else 0)
  | .inf neg => if neg then (canonNan f, fNV) else (infPat f, 0)
  | .fin neg man exp =>
    if man = 0 then (signPat f neg, 0)
    else if neg then (canonNan f, fNV)
    else
      -- an even exponent and more bits than the format keeps
      let extra := 2 * (fmtMan f + 4)
      let odd := (exp % 2).toNat
      let x := man * 2 ^ (extra + odd)
      let r := isqrt x
      roundF f md false (2 * r + (if r * r = x then 0 else 1)) ((exp - odd - extra) / 2 - 1)

/-! ## Comparison -/

/-- The order of two values that are no NaN, as an integer sign. Zeros are equal. -/
def cmpVal (a b : Val) : Int :=
  match a, b with
  | .inf n, .inf m => if n = m then 0 else if n then -1 else 1
  | .inf n, _ => if n then -1 else 1
  | _, .inf m => if m then 1 else -1
  | .fin n x e, .fin m y k =>
    let (neg, man, _) := addFin n x e (!m) y k
    if man = 0 then 0 else if neg then -1 else 1
  | _, _ => 0

/-- The sign bit of a value. -/
def Val.neg (v : Val) : Bool := match v with | .nan _ => false | .inf n => n | .fin n _ _ => n

/-- MIN and MAX of two patterns (R135). -/
def minmaxF (f : Nat) (fz : Bool) (isMax nanForm : Bool) (a b : Nat) : Nat × Nat :=
  let x := readF fz f a
  let y := readF fz f b
  let give := fun (v : Val) => (roundVal f Mode.rne v).1
  let flags := sigFlag x ||| sigFlag y
  if x.isNan && y.isNan then (canonNan f, flags)
  else if x.isNan then (if nanForm then canonNan f else give y, flags)
  else if y.isNan then (if nanForm then canonNan f else give x, flags)
  else
    let c := cmpVal x y
    let less := decide (c < 0) || (c == 0 && x.neg && !y.neg)
    (give (if less != isMax then x else y), flags)

/-! ## Integers (R126, R136) -/

/-- Integer minimum and maximum, signed at w bits. -/
def minmaxI (w : Nat) (isMax : Bool) (a b : Nat) : Nat :=
  if decide (signed w a ≤ signed w b) != isMax then a else b

/-- Quotient and remainder with their edge cases and flag (R136). -/
def divI (w : Nat) (isSigned : Bool) (a b : Nat) : Nat × Nat × Nat :=
  if b = 0 then (2 ^ w - 1, a, fIDZ)
  else if isSigned then
    if a = 2 ^ (w - 1) ∧ b = 2 ^ w - 1 then (a, 0, fIOV)
    else (wrap w ((signed w a).tdiv (signed w b)), wrap w ((signed w a).tmod (signed w b)), 0)
  else (a / b, a % b, 0)

/-- Rounds an exact value to an integer under a mode, saturating at w bits (R126). -/
def toInt (w : Nat) (md : Mode) (v : Val) : Nat × Nat :=
  match v with
  | .nan _ => (0, fNV)
  | .inf neg => (if neg then 2 ^ (w - 1) else 2 ^ (w - 1) - 1, fNV)
  | .fin neg man exp =>
    let (n, inexact) := quantise md neg man exp 0
    let z : Int := if neg then -(n : Int) else n
    if z > 2 ^ (w - 1) - 1 then (2 ^ (w - 1) - 1, fNV)
    else if z < -(2 ^ (w - 1)) then (2 ^ (w - 1), fNV)
    else (wrap w z, if inexact then fNX else 0)

/-- The value of a w-bit integer. -/
def ofInt (w p : Nat) : Val :=
  let z := signed w p
  .fin (decide (z < 0)) z.natAbs 0

/-! ## O4 (R127, R128) -/

/-- The value of an O4 nibble outside an escape, as a signed integer; 8 reads as 0. -/
def o4Plain (n : Nat) : Int := if n < 8 then n else if n = 8 then 0 else (n : Int) - 16

/-- The two values of an O4 byte (R127). -/
def o4Pair (byte : Nat) : Int × Int :=
  let lo := byte % 16
  let hi := byte / 16 % 16
  if lo = 8 then
    let mag : Int := ((8 * 2 ^ (hi / 2 % 4) * (2 + hi % 2) / 2 : Nat) : Int)
    (if hi ≥ 8 then -mag else mag, 0)
  else (o4Plain lo, o4Plain hi)

/-- Magnitudes an even slot can take: 0 to 7 and the outliers (R128). -/
def o4Mags : List Nat := [0, 1, 2, 3, 4, 5, 6, 7, 8, 12, 16, 24, 32, 48, 64, 96]

/-- Whether man x 2^exp is below, equal to or above a number n / 2. -/
def cmpHalf (man : Nat) (exp : Int) (n : Nat) : Int := cmpVal (.fin false man exp) (.fin false n (-1))

/-- Rounds a magnitude to one of a rising list of candidates: index, inexact, beyond the last (R128). A tie under RNE
goes to the even integer up to 7, to 8 from 7.5, and to the outlier with h0 = 0 above. -/
def o4Round (md : Mode) (neg : Bool) (man : Nat) (exp : Int) (top : Nat) : Nat × Bool × Bool :=
  let mags := o4Mags.take (top + 1)
  let lo := (mags.filter fun m => cmpHalf man exp (2 * m) ≥ 0).length - 1
  let a := mags.getD lo 0
  if lo = top then (top, decide (cmpHalf man exp (2 * a) > 0), decide (cmpHalf man exp (2 * a) > 0))
  else
    let b := mags.getD (lo + 1) 0
    if cmpHalf man exp (2 * a) = 0 then (lo, false, false) else
    let c := cmpHalf man exp (a + b)
    let up := match md.rm with
      | 1 => decide (c ≥ 0)
      | 2 => !neg
      | 3 => neg
      | 4 => false
      | 5 =>
        -- f = floor((x - a) / (b - a) x 2^24) against the random bits (R131)
        let (_, d, e) := addFin false man exp true a 0
        let num := d * 2 ^ 24
        decide ((if e ≥ 0 then num * 2 ^ e.toNat else num / 2 ^ (-e).toNat) / (b - a) > md.rand)
      | _ => decide (c > 0) || (c == 0 && (if lo < 7 then a % 2 == 1 else if lo = 7 then true else lo % 2 == 1))
    (if up then lo + 1 else lo, true, false)

/-- Encodes a pair of values as an O4 byte, with the flags of both (R128). DESIGN CHOICE: beside an escaped even slot the odd
one sets NX alone, as the pseudocode of R128 has it, also for an infinity or a value beyond ±7, of which its lists say OF and
NX (log 42). -/
def o4Encode (md0 md1 : Mode) (x y : Val) : Nat × Nat × Nat :=
  let clean : Val → Val × Nat := fun v => match v with
    | .nan _ => (.fin false 0 0, fNV)
    | w => (w, 0)
  let (x, fx) := clean x
  let (y, fy) := clean y
  let round : Mode → Val → Nat → Bool × Nat × Nat := fun md v top => match v with
    | .fin neg man exp =>
      let (i, inexact, beyond) := o4Round md neg man exp top
      (neg, i, (if inexact then fNX else 0) ||| (if beyond then fOF ||| fNX else 0))
    | .inf neg => (neg, top, fOF ||| fNX)
    | .nan _ => (false, 0, 0)
  let (n0, i0, f0) := round md0 x 15
  let code : Bool → Nat → Nat := fun neg i => if neg && i != 0 then 16 - i else i
  if i0 ≤ 7 then
    let (n1, i1, f1) := round md1 y 7
    (code n1 i1 * 16 + code n0 i0, fx ||| f0, fy ||| f1)
  else
    let zero := match y with
      | .fin _ man _ => man == 0
      | _ => false
    let h := (if n0 then 8 else 0) + (i0 - 8)
    (h * 16 + 8, fx ||| f0, fy ||| (if zero then 0 else fNX))

end Sys2Proof.Machine
end

