-- ==== Sys2Proof/Machine/Translate.lean ====
section
/-!
DEFINITION. Translate.lean: frames and homes (R272), the inverted tables and the walk (R273, R274), the TLBs (R276),
access modes (R277, R278), rights (R38), migration redirects (R285) and channel hashes (R287, R288).
-/

namespace Sys2Proof.Machine

/-! ## Homes -/

/-- The number of a byte of device memory: pool, frame and offset (R272). -/
def homeKey (pool frame off : Nat) : Nat := pool * 2 ^ 41 + frame * 2 ^ 16 + off

/-- The pool, frame and offset of a byte. -/
def homePool (key : Nat) : Nat := key / 2 ^ 41
def homeFrame (key : Nat) : Nat := key / 2 ^ 16 % 2 ^ 25
def homeOff (key : Nat) : Nat := key % 2 ^ 16

/-- Whether a frame exists in pools 0-8 (R272). -/
def frameExists (pool frame : Nat) : Bool := decide (frame < Config.poolFrames pool)

/-! ## The inverted tables -/

/-- A number read from table memory. -/
def State.readTbl (s : State) (a n : Nat) : Nat := leNat (getBytes s.tbl a n)

/-- Writes table memory. -/
def State.writeTbl (s : State) (a : Nat) (bs : List Byte) : State := { s with tbl := putBytes s.tbl a bs }

/-- TR_POOLn.BASE (R275). -/
def State.poolBase (s : State) (pool : Nat) : Nat := ((tget s.trPool pool).getD 0).toNat / 32 * 32 % 2 ^ 57

/-- The address of the entry of a frame (R273). -/
def State.entryAddr (s : State) (pool frame : Nat) : Nat := s.poolBase pool + 32 * frame

/-- Whether a valid frame reference is well formed (R272, R274). -/
def State.refOk (s : State) (ref : Nat) : Bool :=
  let pool := bits ref 28 25
  let frame := bits ref 24 0
  bits ref 30 29 == 0 && (frameExists pool frame || (pool == 15 && decide (frame < s.trCount.toNat % 2 ^ 25)))

/-- An entry as its four words give it, and the next reference (R273). -/
def State.entryAt (s : State) (pool frame : Nat) : Entry × Nat × Bool :=
  let a := s.entryAddr pool frame
  let w0 := s.readTbl a 8
  let w1 := s.readTbl (a + 8) 8
  let w2 := s.readTbl (a + 16) 8
  let w3 := s.readTbl (a + 24) 8
  let e : Entry := {
    part := bits w0 61 56, ctx := bits w0 55 46, vpn := bits w0 40 0, large := bits w0 62 62 == 1
    peer := bits w1 63 55, mode := bits w1 54 53, r := bits w1 52 52 == 1, w := bits w1 51 51 == 1
    x := bits w1 50 50 == 1, sd := bits w1 49 49 == 1, wcls := bits w1 48 48 == 1
    migreq := bits w1 45 45 == 1, thr := bits w1 43 40, acnt := bits w1 39 24
    pool := pool, frame := frame, rframe := bits w3 31 0 }
  (e, bits w2 31 0, bits w0 63 63 == 1)

/-- The reserved fields of an entry are zero (R273). -/
def State.reservedOk (s : State) (pool frame : Nat) : Bool :=
  let a := s.entryAddr pool frame
  bits (s.readTbl a 8) 45 41 == 0 && bits (s.readTbl (a + 8) 8) 23 0 == 0 &&
    bits (s.readTbl (a + 16) 8) 63 32 == 0 && bits (s.readTbl (a + 24) 8) 63 48 == 0

/-- R277's pairing of mode, pool and peer. -/
def Entry.pairingOk (e : Entry) : Bool :=
  match e.mode with
  | 0 => decide (e.pool ≤ 8) && e.peer == 511
  | 1 | 2 => e.pool == 15 && decide (e.peer < 384)
  | _ => (e.pool == 8 && e.peer == 511) || (e.pool == 15 && decide (e.peer < 384))

/-- An entry is well formed (R274). -/
def State.entryOk (s : State) (e : Entry) : Bool :=
  s.reservedOk e.pool e.frame && e.pairingOk &&
    (!e.large || (e.frame % 32 == 0 && e.vpn % 32 == 0 && (e.pool != 15 || e.rframe % 32 == 0)))

/-- What a chain gives: a match, no match, or an end of the whole walk; and the references that are to be recorded. -/
inductive ChainEnd where
  | found (e : Entry)
  | missing
  | ended
  deriving DecidableEq, Repr

/-- Follows a chain from a reference, at most `fuel` entries (R274). -/
def State.chain (s : State) (part ctx vpn : Nat) (large : Bool) (ref fuel : Nat) (bad : List Nat) :
    ChainEnd × List Nat :=
  match fuel with
  | 0 => if bits ref 31 31 == 1 then (.ended, ref :: bad) else (.missing, bad)
  | fuel + 1 =>
    if bits ref 31 31 != 1 then (.missing, bad)
    else if !s.refOk ref then (.ended, ref :: bad)
    else
      let (e, next, v) := s.entryAt (bits ref 28 25) (bits ref 24 0)
      if !s.entryOk e then s.chain part ctx vpn large next fuel (ref :: bad)
      else if v && e.part == part && e.ctx == ctx && e.vpn == vpn && e.large == large then (.found e, bad)
      else s.chain part ctx vpn large next fuel bad

/-- The address of the anchor of a page number (R274). -/
def State.anchorCell (s : State) (asid vpn : Nat) : Nat :=
  let h := (vpn ^^^ (vpn >>> 17) ^^^ (asid <<< 3)) % 2 ^ (s.trAnchor.toNat % 32)
  s.trAnchor.toNat / 64 * 64 % 2 ^ 57 + 4 * h

/-- The anchor of a page number (R274). -/
def State.anchor (s : State) (asid vpn : Nat) : Nat := s.readTbl (s.anchorCell asid vpn) 4

/-- The scratchpad window (R249). -/
def inWindow (va : Nat) : Bool := decide (0x01FFFFFFFFE00000 ≤ va) && decide (va < 0x0200000000000000)

/-- The walk for an address in a partition's context 0 (R274, R271). -/
def State.walk (s : State) (part va : Nat) : Option Entry × List Nat :=
  if va ≥ 2 ^ 57 || inWindow va then (none, []) else
  let asid := part * 1024
  let vpn := va / 2 ^ 16
  match s.chain part 0 vpn false (s.anchor asid vpn) 128 [] with
  | (.found e, bad) => (some e, bad)
  | (.ended, bad) => (none, bad)
  | (.missing, bad) =>
    let big := va / 2 ^ 21 * 32
    match s.chain part 0 big true (s.anchor asid big) 128 bad with
    | (.found e, bad) => (some e, bad)
    | (_, bad) => (none, bad)

/-! ## TLBs (R276) -/

/-- Whether an entry translates an address of a partition's context 0. -/
def Entry.covers (e : Entry) (part va : Nat) : Bool :=
  e.part == part && e.ctx == 0 &&
    (if e.large then e.vpn == va / 2 ^ 21 * 32 else e.vpn == va / 2 ^ 16)

/-- The second-level set that holds the entry of a page number on a die: 64 KiB pages by their own number, large pages by
that of their 2 MiB (log 12). -/
def l2Set (die va : Nat) (large : Bool) : Nat := die * 512 + va / (if large then 2 ^ 21 else 2 ^ 16) % 512

/-- Writes an entry's ACNT and MIGREQ to its table entry (R278). -/
def State.writeAcnt (s : State) (e : Entry) : State :=
  let a := s.entryAddr e.pool e.frame + 8
  let w1 := s.readTbl a 8
  let keep := w1 - bits w1 45 45 * 2 ^ 45 - bits w1 39 24 * 2 ^ 24
  s.writeTbl a (leBytes 8 (keep + (if e.migreq then 2 ^ 45 else 0) + min e.acnt 65535 * 2 ^ 24))

/-- Puts an entry into a second-level set of eight ways; an entry evicted writes its count back (R276, R278). -/
def State.fillL2 (s : State) (die va : Nat) (e : Entry) : State :=
  let set := l2Set die va e.large
  let old := (tget s.l2 set).getD []
  let s1 := match old.drop 7 with
    | v :: _ => if v.mode == 3 then s.writeAcnt v else s
    | [] => s
  { s1 with l2 := tput s1.l2 set (e :: old.take 7) }

/-- Puts an entry into a first-level TLB of 128 entries. -/
def State.fillL1 (s : State) (core : Nat) (e : Entry) : State :=
  s.updCore core fun c => { c with tlb := e :: c.tlb.take 127 }

/-- What a die's second level holds for an address. -/
def State.inL2 (s : State) (die part va : Nat) : Option Entry :=
  [false, true].findSome? fun large =>
    ((tget s.l2 (l2Set die va large)).getD []).find? fun e => e.large == large && e.covers part va

/-- A translation on a core: first level, second level of its die, walk (R276). Gives the entry, the state with the
TLBs filled, and the references to be recorded. -/
def State.translate (s : State) (core part va : Nat) : Option Entry × State × List Nat :=
  if va ≥ 2 ^ 57 || inWindow va then (none, s, []) else
  match (s.core core).tlb.find? (·.covers part va) with
  | some e => (some e, s, [])
  | none =>
    match s.inL2 (dieOf core) part va with
    | some e => (some e, s.fillL1 core e, [])
    | none =>
      match s.walk part va with
      | (some e, bad) => (some e, (s.fillL2 (dieOf core) va e).fillL1 core e, bad)
      | (none, bad) => (none, s, bad)

/-- Whether two entries are of one frame. -/
def Entry.sameFrame (x e : Entry) : Bool := x.pool == e.pool && x.frame == e.frame

/-- Counts an access through a MODE 3 translation in the second-level copy of its entry, which a first-level hit brings
back from the table when it has been evicted (R278; log 12). -/
def State.countMigrate (s : State) (die va : Nat) (e : Entry) : State :=
  if e.mode != 3 then s else
  let set := l2Set die va e.large
  let s1 :=
    if ((tget s.l2 set).getD []).any fun x => x.sameFrame e then s
    else
      let (now, _, _) := s.entryAt e.pool e.frame
      s.fillL2 die va { e with acnt := now.acnt, migreq := now.migreq }
  { s1 with l2 := tput s1.l2 set (((tget s1.l2 set).getD []).map fun x =>
      if x.sameFrame e then { x with acnt := min (x.acnt + 1) 65535 } else x) }

/-- Invalidates the entries that translate an address, or every entry, of a partition (R187). -/
def State.invalidate (s : State) (part : Nat) (va : Option Nat) : State :=
  let dead := fun e : Entry => match va with
    | some a => e.covers part a
    | none => e.part == part
  let victims := (s.l2.flatMap fun p => p.2).filter fun e => dead e && e.mode == 3
  let s1 := victims.foldl State.writeAcnt s
  { s1 with
    l2 := s1.l2.map fun p => (p.1, p.2.filter fun e => !dead e)
    cores := s1.cores.map fun p => (p.1, { p.2 with tlb := p.2.tlb.filter fun e => !dead e }) }

/-- Drops the cached copies that satisfy a condition; each drop is counted, so that a reply to an earlier read fills no copy
(R328). -/
def State.dropCopies (s : State) (f : Copied → Bool) : State :=
  { s with copies := s.copies.filter fun c => !f c, drops := s.drops + 1 }

/-- The first byte at its peer of a pool-15 page. -/
def Entry.peerFirst (e : Entry) : Nat := homeKey (bits e.rframe 28 25) (bits e.rframe 24 0) 0

/-- Whether a page that a copy has been read under holds an address of a partition. -/
def CopyPage.covers (g : CopyPage) (part va : Nat) : Bool :=
  g.part == part && (if g.large then g.page / 32 == va / 2 ^ 21 else g.page == va / 2 ^ 16)

/-- The address of the 64 KiB page of a copy's line under a page it has been read under. -/
def Copied.pageUnder (c : Copied) (g : CopyPage) : Nat := (if g.large then g.page + c.line / 1024 % 32 else g.page) * 65536

/-- Drops the copies of a page, filled under it or lying in the frames an entry of it names (R277, R187). -/
def State.dropPage (s : State) (part va : Nat) (entries : List Entry) : State :=
  s.dropCopies fun c =>
    c.pages.any (fun g => g.covers part va) || entries.any fun e =>
      e.covers part va && e.mode == 2 && e.peer == c.peer && decide (e.peerFirst ≤ 64 * c.line) &&
        decide (64 * c.line < e.peerFirst + if e.large then 2 ^ 21 else 2 ^ 16)

/-- Every entry the TLBs hold, and the one the tables give for an address. -/
def State.entriesFor (s : State) (part va : Nat) : List Entry :=
  (s.walk part va).1.toList ++ (s.l2.flatMap fun p => p.2) ++ s.cores.flatMap fun p => p.2.tlb

/-- What TLBI.va does at once (R187, R277): the copies of the page go, and the entries of every TLB. -/
def State.invalidatePage (s : State) (part va : Nat) : State :=
  (s.dropPage part va (s.entriesFor part va)).invalidate part (some va)

/-- Where an address is performed under a translation (R277). -/
def Entry.place (e : Entry) (va : Nat) : Place :=
  let sub := if e.large then va / 2 ^ 16 % 32 else 0
  let off := va % 2 ^ 16
  if e.pool == 15 then .peer e.peer (homeKey (bits e.rframe 28 25) (bits e.rframe 24 0 + sub) off)
  else .home (homeKey e.pool (e.frame + sub) off)

/-! ## Rights (R38, R39) -/

/-- The rights an access table grants a partition's unit (R38). -/
def Partition.rights (x : Partition) (t : Target) (u : AccUnit) : BitVec 8 :=
  match x.access.find? fun g => g.target == t && g.accUnit == u with
  | some g => g.rights
  | none => 0

/-- The rights of partition p. -/
def State.rights (s : State) (p : Nat) (t : Target) (u : AccUnit) : BitVec 8 :=
  ((s.part p).map fun x => x.rights t u).getD 0

/-- What an access needs. -/
structure Need where
  r : Bool
  w : Bool
  x : Bool
  deriving DecidableEq, Repr

def needR : Need := ⟨true, false, false⟩
def needW : Need := ⟨false, true, false⟩
def needRW : Need := ⟨true, true, false⟩
def needX : Need := ⟨false, false, true⟩

/-- A translation and the access tables grant an access (R273, R38); one to a peer also needs EGRESS. -/
def State.granted (s : State) (p : Nat) (u : AccUnit) (e : Entry) (n : Need) : Bool :=
  let t := s.rights p .memory u
  (!n.r || (e.r && t.getLsbD 0)) && (!n.w || (e.w && t.getLsbD 1)) && (!n.x || (e.x && t.getLsbD 2)) &&
    (e.pool != 15 || (s.rights p .egress u).getLsbD 6)

/-! ## Migration (R285) -/

/-- Whether a byte lies in a line a migration has copied. -/
def Migration.copiedAt (m : Migration) (key : Nat) : Bool :=
  decide (m.source ≤ key) && decide (key < m.source + 64 * m.copied)

/-- Whether a byte lies in the page a migration moves. -/
def Migration.has (m : Migration) (key : Nat) : Bool := decide (m.source ≤ key) && decide (key < m.source + 65536)

/-- Whether a migration moves its page to a peer. -/
def Migration.away (m : Migration) : Bool := homePool m.target == 15

/-- The byte at the peer for a byte of a page that moves to one. -/
def Migration.awayKey (m : Migration) (key : Nat) : Nat :=
  homeKey (bits m.rframe 28 25) (bits m.rframe 24 0) 0 + (key - m.source)

/-- The local home where an access at a key is performed: forwarded when its line has been copied. -/
def State.redirect (s : State) (key : Nat) : Nat :=
  match s.migrations.find? fun m => m.copiedAt key && !m.away with
  | some m => m.target + (key - m.source)
  | none => key

/-- The peer that holds the page a migration moves from pool 15, and the page's first byte there. -/
def State.oldPeer (s : State) (m : Migration) : Option (Nat × Nat) :=
  if homePool m.source = 15 then
    let e := (s.entryAt 15 (homeFrame m.source)).1
    some (e.peer, e.peerFirst)
  else none

/-- The migration that moves a byte from a peer, and the byte's offset in the page. -/
def State.fromPeer (s : State) (peer key : Nat) : Option (Migration × Nat) :=
  s.migrations.findSome? fun m => match s.oldPeer m with
    | some (q, first) => if q = peer ∧ first ≤ key ∧ key < first + 65536 then some (m, key - first) else none
    | none => none

/-- Where an access is performed when its line may have been copied to a peer or from one (R285, R372). -/
def State.forward (s : State) (pl : Place) : Place :=
  match pl with
  | .home key =>
    match s.migrations.find? fun m => m.copiedAt key && m.away with
    | some m => .peer m.peer (m.awayKey key)
    | none => pl
  | .peer q key =>
    match s.fromPeer q key with
    | some (m, d) =>
      if 64 * m.copied ≤ d then pl
      else if m.away then .peer m.peer (m.awayKey (m.source + d))
      else .home (m.target + d)
    | none => pl
  | .pad _ => pl

/-- Whether the next line of the page that holds a byte is on its way from its peer (R284). -/
def State.copying (s : State) (pl : Place) : Bool :=
  match pl with
  | .peer q key => match s.fromPeer q key with
    | some (m, _) => m.asked
    | none => false
  | _ => false

/-- Where an access under an entry is performed (R277, R285). -/
def State.placeOf (s : State) (e : Entry) (va : Nat) : Place := s.forward (e.place va)

/-- A range of addresses as the accesses a device makes of it: whole, or by lines while a page moves to a peer or from one
(R285). -/
def State.cuts (s : State) (va n : Nat) : List (Nat × Nat) :=
  if !(s.migrations.any fun m => m.away || homePool m.source == 15) then [(va, n)] else
  (List.range ((va + n + 63) / 64 - va / 64)).map fun i =>
    let lo := max va ((va / 64 + i) * 64)
    (lo, min (va + n) ((va / 64 + i + 1) * 64) - lo)

/-! ## Channels (R287, R288) -/

/-- The channel of a byte of device memory under hash and key of its page's entry (R287). -/
def channelOf (key hash hkey : Nat) : Nat :=
  let pool := homePool key
  let frame := homeFrame key
  let off := homeOff key
  if pool == 8 then 256 + (frame * 256 + off / 256) % 40
  else
    let d := frame / 32
    let b := frame % 32 * 256 + off / 256
    let x := b / 32
    let sx := match hash with
      | 0 => 0
      | 1 => (x ^^^ (x / 32) ^^^ d) % 32
      | 2 => (256 * d + x) % 251 % 32
      | _ => ((256 * d + x) ^^^ hkey) * 0x9E3779B9 % 2 ^ 32 / 2 ^ 27
    32 * pool + (b % 32 ^^^ sx)

/-- The frame whose table entry maps a frame: the head of its large page, or itself (R273). -/
def State.headFrame (s : State) (pool frame : Nat) : Nat :=
  let head := frame / 32 * 32
  let (e, _, v) := s.entryAt pool head
  if v && e.large then head else frame

/-- The channel of a byte, with the hash of the entry that maps its frame (R287). -/
def State.channel (s : State) (key : Nat) : Nat :=
  let a := s.entryAddr (homePool key) (s.headFrame (homePool key) (homeFrame key))
  channelOf key (bits (s.readTbl (a + 8) 8) 47 46) (bits (s.readTbl (a + 24) 8) 47 32)

/-- Counts a 64-byte access of the channel of a local home; how much of the traffic the memory-side cache absorbs, and
whether another row was open, is free (R288; log 36). -/
def State.countChannel (s : State) (key : Nat) (write : Bool) : State :=
  let ch := s.channel (s.redirect key)
  let c := (tget s.chans ch).getD ⟨0, 0, 0, 0⟩
  let reached := (Config.freeWord s.free).toNat % 2
  let row := (Config.freeWord (s.free + 1)).toNat % 2
  let sat := fun n => min n 0xFFFFFFFFFFFF
  let c' := { c with
    rd := if write then c.rd else sat (c.rd + reached)
    wr := if write then sat (c.wr + reached) else c.wr
    rowc := sat (c.rowc + row) }
  { s with chans := tput s.chans ch c', free := s.free + 2 }

/-- Counts an access of n bytes: one 64-byte access for each line it touches (R288). -/
def State.countLines (s : State) (key n : Nat) (write : Bool) : State :=
  (List.range ((key + n + 63) / 64 - key / 64)).foldl (fun s i => s.countChannel (key / 64 * 64 + 64 * i) write) s

/-! ## Bytes at homes -/

/-- Removes bytes from poisoned ranges. -/
def clearRange (rs : List (Nat × Nat)) (a n : Nat) : List (Nat × Nat) :=
  rs.flatMap fun r =>
    if r.1 + r.2 ≤ a ∨ a + n ≤ r.1 then [r] else
    (if r.1 < a then [(r.1, a - r.1)] else []) ++
      (if a + n < r.1 + r.2 then [(a + n, r.1 + r.2 - (a + n))] else [])

/-- The first of n bytes at a that lies in a poisoned range, as an offset. -/
def hitRange (rs : List (Nat × Nat)) (a n : Nat) : Option Nat :=
  if rs.isEmpty then none
  else (List.range n).find? fun i => rs.any fun r => decide (r.1 ≤ a + i) && decide (a + i < r.1 + r.2)

/-- Bytes at a home, each forwarded by a migration of its line (R285). A poisoned byte holds 0 (R396). -/
def State.homeBytes (s : State) (key n : Nat) : List Byte :=
  if s.migrations.isEmpty then getBytes s.mem key n
  else (List.range n).map fun i => byteAt s.mem (s.redirect (key + i))

/-- The poisoned bytes among n bytes at a home, as offsets (R396). -/
def State.badBytes (s : State) (key n : Nat) : List Nat :=
  if s.poisoned.isEmpty then []
  else (List.range n).filter fun i => (hitRange s.poisoned (s.redirect (key + i)) 1).isSome

/-- The first poisoned byte among n bytes at a home, as an offset (R396). -/
def State.poisonIn (s : State) (key n : Nat) : Option Nat := (s.badBytes key n).head?

/-- Writes bytes at a local home. -/
def State.putKey (s : State) (key : Nat) (bs : List Byte) : State :=
  { s with
    mem := putBytes s.mem key bs
    poisoned := if s.poisoned.isEmpty then [] else clearRange s.poisoned key bs.length }

/-- Writes bytes at a home, each forwarded by a migration of its line (R285); written bytes are not poisoned. -/
def State.putHome (s : State) (key : Nat) (bs : List Byte) : State :=
  if s.migrations.isEmpty then s.putKey key bs
  else (List.range bs.length).foldl (fun t i => t.putKey (s.redirect (key + i)) [bs.getD i 0]) s

/-- Delivers n poisoned bytes to a home (R270, R396). -/
def State.poisonHome (s : State) (key n : Nat) : State :=
  let s1 := s.putHome key (List.replicate n 0)
  { s1 with poisoned :=
      if s.migrations.isEmpty then (key, n) :: s1.poisoned
      else (List.range n).foldl (fun rs i => (s1.redirect (key + i), 1) :: rs) s1.poisoned }

/-- The line of a frame at a key is found uncorrectable by a scrub, which reads the frame itself, whatever a migration has
copied from it (R424). -/
def State.poisonLine (s : State) (key : Nat) : State :=
  { s with mem := putBytes s.mem key (List.replicate 64 0), poisoned := (key, 64) :: clearRange s.poisoned key 64 }

end Sys2Proof.Machine
end

