-- ==== Sys2Proof/Machine/Record.lean ====
section
/-!
DEFINITION. Record.lean: accesses the device makes in a partition's context 0 (R25, R36, R410, R420), the error logs
(R420, R421), and the order in which packets enter a fabric channel (R366-R368, R373).
-/

namespace Sys2Proof.Machine

/-! ## Sending packets (R365-R368) -/

/-- The serial distance from number e to number n, modulo 2^16 (R367). -/
def seqFrom (e n : Nat) : Nat := (n + 65536 - e % 65536) % 65536

/-- Whether a packet is sent with the combine flag (R373). -/
def combined (p : Packet) : Bool :=
  match p with
  | .amo op _ _ _ => op == 0
  | .vamo op _ _ => op == 0
  | _ => false

/-- Whether a request is answered by a reply (R427). -/
def hasReply (p : Packet) : Bool :=
  match p with
  | .read .. | .amo .. | .cas .. | .vamo .. | .object .. | .merged .. => true
  | .write .. | .vstred .. | .reduce .. | .slotMessage .. => false

/-- Whether the next packet to a peer can be sent now (R368, R373). -/
def State.canSend (s : State) (peer : Nat) (p : Packet) : Bool :=
  let u := (s.peer peer).unacked
  (s.peer peer).waiting.isEmpty && decide (u.length < 256) && !(combined p && !u.isEmpty) && !(u.any fun x => combined x.packet)

/-- The ports a packet to a peer may take now: up, and routing to that peer (R366). -/
def State.openPorts (s : State) (peer : Nat) : List Nat :=
  (List.range Config.ports).filter fun n => (s.port n).state == 1 && !((tget s.routes peer).getD []).contains n

/-- The next port of the spray to a peer: the first open one from its pointer on (R366); none open gives the number 72. -/
def State.nextPort (s : State) (peer : Nat) : Nat :=
  let us := s.openPorts peer
  ((us.find? fun n => decide ((s.peer peer).spray ≤ n)).orElse fun _ => us.head?).getD Config.ports

/-- A packet takes the next port to its peer, and the turn passes on (R366). -/
def State.takePort (s : State) (peer : Nat) : State :=
  s.setPeer peer { s.peer peer with spray := (s.nextPort peer + 1) % Config.ports }

/-- The lines at its target that a packet writes. -/
def writtenLines (p : Packet) : List Nat :=
  let lines := fun loc n : Nat => (List.range ((loc + n + 63) / 64 - loc / 64)).map fun i => loc / 64 + i
  match p with
  | .write xs _ _ => xs.flatMap fun x => lines x.1 x.2.length
  | .amo _ n loc _ | .cas n loc _ _ => lines loc n
  | .vstred _ _ xs | .vamo _ _ xs => xs.map fun x => x.1 / 64
  | .object _ loc _ => lines loc 64
  | .read .. | .reduce .. | .slotMessage .. | .merged .. => []

/-- Whether a write of this device to a line of a peer is on its way, or waits for its place. -/
def State.writesTo (s : State) (peer line : Nat) : Bool :=
  (s.peer peer).unacked.any (fun u => (writtenLines u.packet).contains line) ||
    (s.peer peer).waiting.any fun w => (writtenLines w.1).contains line

/-- A packet that writes lines of a peer leaves: the device's copies of them are dropped, so that no later load of its hart
reads an older value (R175). -/
def State.dropWritten (s : State) (peer : Nat) (p : Packet) : State :=
  let ls := writtenLines p
  if ls.isEmpty then s else s.dropCopies fun c => c.peer == peer && ls.contains c.line

/-- Sends a packet under the next number; the packet is kept until it is acknowledged (R366-R368). With no port open it is
kept without a port, numbered 72. -/
def State.send (s : State) (peer : Nat) (p : Packet) (o : Origin) : State :=
  let port := s.nextPort peer
  let x := (s.takePort peer).peer peer
  let s1 := (s.dropWritten peer p).setPeer peer { x with
    nextSeq := (x.nextSeq + 1) % 65536
    acked := x.acked.filter fun u => u.seq != x.nextSeq
    unacked := x.unacked ++ [⟨x.nextSeq, p, o, port⟩] }
  { s1 with out := .packet peer x.nextSeq port :: s1.out }

/-- Sends waiting packets of a peer while they can be sent. -/
def State.flush (s : State) (peer : Nat) (fuel : Nat) : State :=
  match fuel with
  | 0 => s
  | fuel + 1 =>
    match (s.peer peer).waiting with
    | [] => s
    | (p, o) :: rest =>
      let s1 := s.setPeer peer { s.peer peer with waiting := [] }
      if s1.canSend peer p then
        let s2 := s1.send peer p o
        (s2.setPeer peer { s2.peer peer with waiting := rest }).flush peer fuel
      else s

/-- Sends a packet of the device, or puts it behind the packets that wait (R368, R373). -/
def State.sendOrWait (s : State) (peer : Nat) (p : Packet) (o : Origin) : State :=
  if s.canSend peer p then s.send peer p o
  else s.setPeer peer { s.peer peer with waiting := (s.peer peer).waiting ++ [(p, o)] }

/-! ## The device's own accesses in context 0 -/

/-- How an access of the device to a partition's memory is refused: no present translation, or a missing right. -/
inductive Refused where
  | absent | denied
  deriving DecidableEq, Repr

/-- The entry under which the device performs an access in a partition's context 0, by walk (R274, R38). -/
def State.devEntry (s : State) (p va : Nat) (n : Need) : Except Refused Entry :=
  match (s.walk p va).1 with
  | none => .error .absent
  | some e => if s.granted p .hart e n then .ok e else .error .denied

/-- Where the device performs an access. -/
def State.devPlace (s : State) (p va : Nat) (n : Need) : Except Refused Place :=
  (s.devEntry p va n).map fun e => s.placeOf e va

/-! ## Error-log records (R420, R421) -/

/-- Whom a record names (R421). -/
structure Who where
  core : Nat
  rank : Nat
  tl : Nat
  node : Nat
  deriving DecidableEq, Repr

/-- No core and no node. -/
def Who.none : Who := ⟨255, 0, 0, 0⟩

/-- TIME (R421). -/
def State.time (s : State) : Nat := (s.now - s.timeBase) % 2 ^ 48

/-- The 64 bytes of a record (R421). -/
def State.recordBytes (s : State) (kind p : Nat) (w : Who) (details : List Nat) : List Byte :=
  leBytes 8 (kind * 2 ^ 56 + p * 2 ^ 50 + s.time) ++
    leBytes 8 (w.core * 2 ^ 40 + w.rank * 2 ^ 37 + w.tl * 2 ^ 35 + (if s.early then 2 ^ 34 else 0) + w.node) ++
    (List.range 6).flatMap fun i => leBytes 8 (details.getD i 0)

/-- A record dropped, counted saturating (R420). -/
def Ring.drop1 (r : Ring) : Ring := { r with drop := min (r.drop + 1) 0xFFFFFFFF }

/-- The ring takes no record: the log is disabled, or every place is taken (R420). -/
def Ring.full (r : Ring) : Bool :=
  r.len == 0 || decide ((r.head.toNat + r.flight.length + 2 ^ 32 - r.tail.toNat) % 2 ^ 32 ≥ r.len.toNat)

/-- Where the record that HEAD counts next is written (R420). -/
def Ring.slot (r : Ring) : Nat := r.base.toNat / 4096 * 4096 % 2 ^ 57 + 64 * (r.head.toNat % r.len.toNat)

/-- A record awaits its place. -/
def Ring.add (r : Ring) (record : Nat) (bs : List Byte) : Ring := { r with flight := r.flight ++ [(record, bs, false)] }

/-- The oldest record starts on its way to its home at a peer. -/
def Ring.launch (r : Ring) : Ring :=
  { r with flight := (r.flight.take 1).map (fun x => (x.1, x.2.1, true)) ++ r.flight.drop 1 }

/-- The oldest record has been performed at its home: HEAD advances (R420). -/
def Ring.advance (r : Ring) : Ring := { r with head := r.head + 1, flight := r.flight.drop 1 }

/-- The oldest record is lost: dropped and counted, and the next takes its place (R420; log 20). -/
def Ring.lose (r : Ring) : Ring := { r with flight := r.flight.drop 1 }.drop1

/-- Changes a partition's log. -/
def State.updLog (s : State) (p : Nat) (f : Ring → Ring) : State := s.updPart p fun x => { x with elog := f x.elog }

/-- HEAD of a partition's log advances, with one MSI-X message (R420). -/
def State.advanceLog (s : State) (p : Nat) : State :=
  let s1 := s.updLog p Ring.advance
  { s1 with out := .msix (p + 1) 0 :: s1.out }

/-- The oldest record of a log is written at its place unless it is on its way: at a local home it is performed at once, and
the next follows (R420). -/
def State.writeRecords (s : State) (p fuel : Nat) : State :=
  match fuel with
  | 0 => s
  | fuel + 1 =>
    match (s.part p).map fun x => (x.elog, x.elog.flight.head?) with
    | some (r, some (record, bs, false)) =>
      if r.len = 0 then (s.updLog p Ring.lose).writeRecords p fuel else
      match s.devPlace p r.slot needW with
      | .ok (.home key) => (((s.putHome key bs).countLines key 64 true).advanceLog p).writeRecords p fuel
      | .ok (.peer q key) =>
        if (s.peer q).failed then (s.updLog p Ring.lose).writeRecords p fuel
        else (s.updLog p Ring.launch).sendOrWait q (.write [(key, bs)] false []) (.log p record)
      | _ => (s.updLog p Ring.lose).writeRecords p fuel
    | _ => s

/-- Records an event in a partition's log (R420). A partition that does not exist or is torn down has no log. -/
def State.record (s : State) (kind p : Nat) (w : Who) (details : List Nat) : State :=
  match s.part p with
  | none => s
  | some x =>
    if x.elog.full then s.updLog p Ring.drop1
    else ({ s with nextRecord := s.nextRecord + 1 }.updLog p fun r =>
      r.add s.nextRecord (s.recordBytes kind p w details)).writeRecords p (x.elog.flight.length + 1)

/-- What becomes of the record under way to a peer; the next one follows (R420). -/
def State.recordEnds (s : State) (p record : Nat) (performed : Bool) : State :=
  match (s.part p).map (·.elog) with
  | some r =>
    match r.flight.head? with
    | some (n, _, true) =>
      if n = record then
        (if performed then s.advanceLog p else s.updLog p Ring.lose).writeRecords p r.flight.length
      else s
    | _ => s
  | none => s

/-- Whether host memory takes a write of n bytes of the physical function as bus master (R420). -/
def State.hostTakes (s : State) (a n : Nat) : Bool :=
  s.busMaster && s.hostErrors.all fun r => decide (r.1 + r.2 ≤ a) || decide (a + n ≤ r.1)

/-- Records an event in the device log: written to host memory and read back (R420; log 20). -/
def State.deviceRecord (s : State) (kind : Nat) (details : List Nat) : State :=
  let r := s.dlog
  if r.full || !s.hostTakes r.slot 64 then { s with dlog := r.drop1 } else
  { s with
    host := putBytes s.host r.slot (s.recordBytes kind 0 Who.none details)
    dlog := { r with head := r.head + 1 }
    out := .msix 0 0 :: s.out }

/-- The value of STAGE_STATUS (R22). -/
def Stage.word (x : Stage) : Nat :=
  x.coresIn.toNat * 2 ^ 40 + x.portsIn.toNat * 2 ^ 33 + x.lpOk.toNat * 2 ^ 32 + x.hbmOk.toNat * 2 ^ 24 +
    x.failCode.toNat * 2 ^ 16 + x.attempt.toNat * 2 ^ 8 + x.fail.toNat * 2 ^ 4 + x.busy.toNat * 2 ^ 3 + x.stage.toNat

/-- A device event in the device log (R421 KIND 0x10): event code and number. -/
def State.deviceEvent (s : State) (event number : Nat) : State :=
  s.deviceRecord 0x10 [s.st.word, event * 2 ^ 56 + number]

/-- Records the references a walk skipped or ended at (R274). -/
def State.recordWalk (s : State) (p va : Nat) (w : Who) (bad : List Nat) : State :=
  bad.foldr (fun ref s => s.record 0x0B p w [va, ref]) s

/-- Walks for the device, with the records R274 asks for. -/
def State.devAccess (s : State) (p va : Nat) (n : Need) : Except Refused Place × State :=
  (s.devPlace p va n, s.recordWalk p va Who.none (s.walk p va).2)

end Sys2Proof.Machine
end

