-- ==== Sys2Proof/Machine/Homes.lean ====
section
/-!
DEFINITION. Homes.lean: what is performed at a home: stores with seal fills (R64, R65), atomics (R176, R177), sync
objects (R326-R329), barriers (R344-R347), groups (R81-R85), work counters (R86), and the loss of packets (R378).
-/

namespace Sys2Proof.Machine

/-! ## Schedule table faults (R61, R63) -/

/-- The control word START latched (R62). -/
def SchedTable.latchedCtl (x : SchedTable) : Nat := (x.latched.getD 0 0).toNat

/-- LEN, ACT_SLOTS and GRAD_SLOTS of the run (R58). -/
def SchedTable.len (x : SchedTable) : Nat := bits x.latchedCtl 27 18
def SchedTable.actSlots (x : SchedTable) : Nat := bits x.latchedCtl 34 28
def SchedTable.gradSlots (x : SchedTable) : Nat := bits x.latchedCtl 41 35

/-- The partition that owns a table (R55). -/
def State.tableOwner (s : State) (t : Nat) : Option Nat := (s.parts.find? fun x => x.2.tables.contains t).map (·.1)

/-- A table faults: unissued entries of a running table are dropped, and a record is written (R63). -/
def State.schedFault (s : State) (t err : Nat) : State :=
  let x := s.sched t
  let s1 := s.setSched t { x with
    state := .faulted, err := err, stall := 7
    dropEntries := if x.state = .running then x.dropEntries + BitVec.ofNat 32 (x.len - x.head) else x.dropEntries }
  match s.tableOwner t with
  | some p => s1.record 0x02 p Who.none [t, err, x.head]
  | none => s1

/-- A seal write to one slot of a table: fills it, or faults the table when it is filled (R65). -/
def State.sealSlot (s : State) (mb t : Nat) (act : Bool) (slot : Nat) : State :=
  let x := s.sched t
  if x.state ≠ .running ∧ x.state ≠ .loading then s
  else if (tget (if act then x.actFilled else x.gradFilled) slot).isSome then s.schedFault t 0x06
  else if act then s.setSched t { x with actFilled := tput x.actFilled slot mb }
  else s.setSched t { x with gradFilled := tput x.gradFilled slot mb }

/-- One seal write to one table: every slot whose seal word has this home (R62, R65). -/
def State.sealOne (s : State) (key mb t : Nat) : State :=
  ((s.sched t).seals.filter fun w => s.redirect w.1 == s.redirect key).foldl
    (fun s w => s.sealSlot mb t w.2.1 w.2.2) s

/-- A write access that may fill a receive slot (R65). -/
def State.sealFill (s : State) (key : Nat) (bs : List Byte) : State :=
  let v := leNat bs
  if bs.length = 8 ∧ 2 ^ 63 ≤ v ∧ v < 2 ^ 63 + 4096 then
    (s.scheds.map (·.1)).foldl (fun s t => s.sealOne key (v - 2 ^ 63) t) s
  else s

/-- A store performed at a home. -/
def State.storeHome (s : State) (key : Nat) (bs : List Byte) (fills : Bool) : State :=
  let s1 := (s.putHome key bs).countLines key bs.length true
  if fills then s1.sealFill key bs else s1

/-- A 64-bit word at a home, and its write. -/
def State.homeWord (s : State) (key : Nat) : Word := BitVec.ofNat 64 (leNat (s.homeBytes key 8))
def State.setHomeWord (s : State) (key : Nat) (v : Word) : State := s.putHome key (wordBytes v)

/-- The state after an operation on an object at its home: a read of its line is counted, and a write when the operation has
changed it (R288). -/
def State.countObject (s0 s : State) (key : Nat) : State :=
  let s1 := s.countChannel key false
  if s0.homeBytes key 64 = s.homeBytes key 64 then s1 else s1.countChannel key true

/-! ## Atomics (R176, R177) -/

/-- The new value of an AMO of n bytes: 0 add, 1 exchange, 2 umin, 3 umax, 4 smin, 5 smax, 6 and, 7 or, 8 xor. -/
def amoNew (op n : Nat) (old operand : Nat) : Nat :=
  let m := operand % 256 ^ n
  match op with
  | 0 => (old + m) % 256 ^ n
  | 1 => m
  | 2 => min old m
  | 3 => max old m
  | 4 => if signed (8 * n) old ≤ signed (8 * n) m then old else m
  | 5 => if signed (8 * n) old ≤ signed (8 * n) m then m else old
  | 6 => old &&& m
  | 7 => old ||| m
  | _ => old ^^^ m

/-- An AMO at a home: the old value and the new state. -/
def State.amoHome (s : State) (op n key : Nat) (operand : Word) : Nat × State :=
  let old := leNat (s.homeBytes key n)
  (old, ((s.putHome key (leBytes n (amoNew op n old operand.toNat))).countChannel key false).countChannel key true)

/-- A CAS at a home: the old value and the new state. -/
def State.casHome (s : State) (n key : Nat) (expected new : Word) : Nat × State :=
  let old := leNat (s.homeBytes key n)
  if old = expected.toNat % 256 ^ n then
    (old, ((s.putHome key (leBytes n new.toNat)).countChannel key false).countChannel key true)
  else (old, s.countChannel key false)

/-! ## The device's own requests to peers -/

/-- A poisoned reply: a failed peer's or a refused access's (R372, R378). -/
def Reply.lost : Reply := ⟨[], [], true⟩

/-- The answer of a request of the dispatcher: not yet there, or there and taken (log 11). -/
def State.fetch (s : State) (peer : Nat) (pk : Packet) : Option Reply × State :=
  match s.fetched.find? fun f => f.peer == peer && f.packet == pk with
  | some f =>
    match f.reply with
    | some r => (some r, { s with fetched := s.fetched.filter fun g => !(g.peer == peer && g.packet == pk) })
    | none => (none, s)
  | none =>
    if (s.peer peer).failed then (some Reply.lost, s)
    else if s.canSend peer pk then
      let seq := (s.peer peer).nextSeq
      (none, { s.send peer pk .fetch with fetched := s.fetched ++ [⟨peer, pk, seq, none⟩] })
    else (none, s)

/-- Sends a request of the device unless it is under way (log 11). -/
def State.startFetch (s : State) (peer : Nat) (pk : Packet) : State :=
  if (s.fetched.any fun f => f.peer == peer && f.packet == pk) || (s.peer peer).failed || !s.canSend peer pk then s
  else { s.send peer pk .fetch with fetched := s.fetched ++ [⟨peer, pk, (s.peer peer).nextSeq, none⟩] }

/-- The reply to a request of the device, once it is there. -/
def State.fetchReply (s : State) (peer : Nat) (pk : Packet) : Option Reply :=
  match s.fetched.find? fun f => f.peer == peer && f.packet == pk with
  | some f => f.reply
  | none => if (s.peer peer).failed then some Reply.lost else none

/-- The replies to several requests of the device; they are taken together, once all are there. -/
def State.fetchAll (s : State) (ps : List (Nat × Packet)) : Option (List Reply) × State :=
  let s1 := ps.foldl (fun s p => s.startFetch p.1 p.2) s
  let rs := ps.filterMap fun p => s1.fetchReply p.1 p.2
  if rs.length = ps.length then
    (some rs, { s1 with fetched := s1.fetched.filter fun f => !ps.any fun p => f.peer == p.1 && f.packet == p.2 })
  else (none, s1)

/-! ## Groups (R81-R85) -/

/-- Partition and slot of the node a private GROUPID names. -/
def State.privateGroup (s : State) (p : Nat) (gid : Word) : Option Nat :=
  if gid.toNat / 2 ^ 63 = 1 then s.slotOf p (gid.toNat % 2 ^ 63) else none

/-! ## Barriers (R344-R347) -/

/-- The fields of a barrier's STATE word. -/
def barPhase (w : Word) : Nat := bits w.toNat 63 48
def barPending (w : Word) : Nat := bits w.toNat 47 24
def barArrived (w : Word) : Nat := bits w.toNat 10 0

/-- A STATE word with other fields, its reserved bits kept. -/
def barWord (w : Word) (phase pending arrived : Nat) : Word :=
  BitVec.ofNat 64 (phase % 65536 * 2 ^ 48 + pending * 2 ^ 24 + bits w.toNat 23 11 * 2 ^ 11 + arrived % 2048)

/-- What a barrier of partition p finds as COUNT of its group (R81, R85): the count, nothing that can be read, or a peer to
be asked for the word at a key of its home. -/
inductive GroupCount where
  | count (n : Nat)
  | unknown
  | ask (peer key : Nat)
  deriving DecidableEq, Repr

/-- COUNT of a group of this device, or of an object, as a barrier of partition p finds it. -/
def State.groupCount (s : State) (p : Nat) (gid : Word) : GroupCount :=
  match s.privateGroup p gid with
  | some k => (((s.node p k).map (·.gcount)).map GroupCount.count).getD .unknown
  | none =>
    match s.devPlace p gid.toNat needRW with
    | .ok (.home key) => .count (s.homeWord key).toNat
    | .ok (.peer q key) => .ask q key
    | _ => .unknown

/-- The local home of a group's object. -/
def State.groupHome (s : State) (p : Nat) (gid : Word) : Option Nat :=
  match s.privateGroup p gid, s.devPlace p gid.toNat needRW with
  | none, .ok (.home key) => some (s.redirect key)
  | _, _ => none

/-- The completion check against a count (R347). -/
def State.barComplete (s : State) (key n : Nat) : State :=
  let w := s.homeWord (key + 8)
  if 0 < barArrived w ∧ n ≤ barArrived w ∧ barPending w = 0 then
    s.countObject (s.setHomeWord (key + 8) (barWord w (barPhase w + 1) 0 0)) key
  else s

/-- The COUNT that a peer's private group has given for a barrier at a home (R85). -/
def State.barGiven (s : State) (key : Nat) : Option Nat :=
  (s.barriers.find? fun b => b.peer.isNone && b.key == key).bind (·.given)

/-- Records the references that the walk for a group's object skips (R274). -/
def State.noteGroup (s : State) (p : Nat) (gid : Word) : State :=
  if (s.privateGroup p gid).isSome then s else s.recordWalk p gid.toNat Who.none (s.walk p gid.toNat).2

/-- The completion check of a barrier at a home (R347): against the count a peer's private group has given, or against COUNT of
its group. For a group whose home is on a peer the count is asked for anew, and the check is made when the answer comes
(log 27). -/
def State.barCheck (s : State) (p key : Nat) : State :=
  match s.barGiven key with
  | some n => s.barComplete key n
  | none =>
    let s1 := s.noteGroup p (s.homeWord key)
    match s.groupCount p (s.homeWord key) with
    | .count n => s1.barComplete key n
    | .unknown => s1
    | .ask q k =>
      { s1 with fetched := s1.fetched.filter fun f => !(f.peer == q && f.packet == Packet.read k 8) }.startFetch q (.read k 8)

/-- A look at a barrier whose group's home is on a peer: while its phase is open COUNT is asked for again (R85; log 27). -/
def State.barLook (s : State) (p key : Nat) : State :=
  if (s.barGiven key).isSome then s else
  match s.groupCount p (s.homeWord key) with
  | .ask q k => if 0 < barArrived (s.homeWord (key + 8)) then s.startFetch q (.read k 8) else s
  | _ => s

/-- An answer of a peer that gives COUNT of groups: the checks that await it are made (R347; log 27). -/
def State.barAnswered (s : State) (peer : Nat) (pk : Packet) (r : Reply) : State :=
  let mine := s.barriers.filter fun b => b.peer.isNone && b.given.isNone && (match s.groupCount b.part (s.homeWord b.key) with
    | .ask q k => q == peer && pk == Packet.read k 8
    | _ => false)
  if mine.isEmpty then s else
  let s1 := { s with fetched := s.fetched.filter fun f => !(f.peer == peer && f.packet == pk) }
  if r.poison then s1 else mine.foldl (fun s b => s.barComplete b.key (leNat r.bytes)) s1

/-- A barrier is bound to a group (R346). -/
def State.bindBarrier (s : State) (b : BoundBarrier) : State :=
  { s with barriers := b :: s.barriers.filter fun c => !(c.peer == b.peer && c.key == b.key) }

/-- Counts bytes off a barrier's PENDING (R344, R346). -/
def State.barDischarge (s : State) (p key n : Nat) : State :=
  let w := s.homeWord (key + 8)
  (s.countObject (s.setHomeWord (key + 8) (barWord w (barPhase w) (barPending w - n) (barArrived w))) key).barCheck p
    key

/-- Adds a charge to a barrier's PENDING (R314, R346); none when it would exceed the field. -/
def State.barCharge (s : State) (key n : Nat) : Option State :=
  let w := s.homeWord (key + 8)
  if barPending w + n > 16777215 then none
  else some (s.countObject (s.setHomeWord (key + 8) (barWord w (barPhase w) (barPending w + n) (barArrived w))) key)

/-- Whether a barrier here is bound to a group of a partition of this device. -/
def State.boundHere (s : State) (b : BoundBarrier) (p : Nat) (gid : Word) : Bool :=
  b.part == p && b.peer.isNone && b.given.isNone && s.homeWord b.key == gid

/-- The completion checks a LEAVE makes on every barrier here that is bound to the group (R347, R349). -/
def State.barriersOf (s : State) (p : Nat) (gid : Word) : State :=
  s.barriers.foldl (fun s b => if s.boundHere b p gid then s.barCheck p b.key else s) s

/-- Tells the peers with a barrier bound to a group that a member has left it: they make the check, against the COUNT given of
a private group (R349; log 27). -/
def State.tellBarriers (s : State) (f : BoundBarrier → Bool) : State :=
  s.barriers.foldl (fun s b => match b.peer with
    | some q =>
      if f b then
        let count := match s.privateGroup b.part b.gid with
          | some k => ((s.node b.part k).map fun n => [1, BitVec.ofNat 64 n.gcount]).getD [0, 0]
          | none => [0, 0]
        if (s.peer q).failed then s else s.sendOrWait q (.object .recheck b.key (b.gid :: count)) .none
      else s
    | none => s) s

/-- A check that a LEAVE on another device asks for (R349): of a barrier that is still bound to the group left, against the
COUNT that comes with it of a private group. -/
def State.recheckHome (s : State) (p key : Nat) (gid : Word) (given : Option Nat) : State :=
  if s.homeWord key ≠ gid then s
  else if given.isSome then (s.bindBarrier ⟨p, none, key, gid, given⟩).barCheck p key
  else s.barCheck p key

/-- The checks a LEAVE from a peer makes: on every barrier here, and by a message on every barrier at a peer, whose group is the
object at this home (R347, R349). -/
def State.barriersAt (s : State) (key : Nat) : State :=
  (s.barriers.foldl (fun s b =>
    if b.peer.isNone && s.groupHome b.part (s.homeWord b.key) == some key then s.barCheck b.part b.key else s) s).tellBarriers
      fun b => s.groupHome b.part b.gid == some key

/-! ## Objects at a home (R326-R329, R339) -/

/-- Codes of the answer of an object operation at its home: its first word. -/
def aOk : Word := 0
def aLost : Word := 2
def aReserved : Word := 3
def aGroup : Word := 4
def aOverflow : Word := 5
def aFull : Word := 6

/-- The reserved fields of a sync object are zero (R326, R327). -/
def State.syncOk (s : State) (key : Nat) : Bool :=
  bits (s.homeWord key).toNat 62 35 == 0 && bits (s.homeWord (key + 16)).toNat 31 1 == 0 &&
    ((List.range 4).all fun i => bits (s.homeWord (key + 24 + 8 * i)).toNat 62 57 == 0) &&
    s.homeWord (key + 56) == 0

/-- The reserved fields of a barrier are zero (R344). -/
def State.barOk (s : State) (key : Nat) : Bool :=
  bits (s.homeWord (key + 8)).toNat 23 11 == 0 && leNat (s.homeBytes (key + 16) 48) == 0

/-- The reserved fields of a group object are zero (R81). -/
def State.groupOk (s : State) (key : Nat) : Bool := leNat (s.homeBytes (key + 16) 48) == 0

/-- The four region words of a sync object. -/
def State.regions (s : State) (key : Nat) : List Word := (List.range 4).map fun i => s.homeWord (key + 24 + 8 * i)

/-- Whether an object is lost (R328). -/
def State.objectLost (s : State) (key : Nat) : Bool := bits (s.homeWord (key + 16)).toNat 0 0 == 1

/-- An ACQ at the object's home by a holder word and a waiter: refused, granted (with the regions), or to wait in
arrival order (R328). -/
def State.acqHome (s : State) (key : Nat) (holder : Word) (who : Waiter) : Option (List Word) × State :=
  let leave := { s with acqs := s.acqs.filter fun a => !(a.1 == key && a.2 == who) }
  let read := leave.countChannel key false
  if !s.syncOk key then (some [aReserved], read)
  else if s.objectLost key then (some [aLost], read)
  else
    let owner := s.homeWord key
    let oldest := match s.acqs.find? fun a => a.1 == key with
      | some a => a.2 == who
      | none => true
    if owner = holder then (some (aOk :: 0 :: s.regions key), read)
    else if owner.toNat / 2 ^ 63 = 0 ∧ oldest = true then
      (some (aOk :: 1 :: s.regions key), leave.countObject (leave.setHomeWord key holder) key)
    else if s.acqs.any fun a => a.1 == key && a.2 == who then (none, s)
    else (none, { s.countChannel key false with acqs := s.acqs ++ [(key, who)] })

/-- A peer's waiting ACQ is withdrawn (R340). -/
def State.withdrawHome (s : State) (key peer seq : Nat) : State :=
  { s with acqs := s.acqs.filter fun a => !(a.1 == key && (match a.2 with
      | .peer q n _ => q == peer && n == seq
      | .hart .. => false)) }

/-- A REL at the object's home (R329, R342). -/
def State.relHome (s : State) (key : Nat) (holder : Word) : List Word × State :=
  if !s.syncOk key then ([aReserved], s.countChannel key false)
  else if s.homeWord key = holder then
    ([aOk], s.countObject ((s.setHomeWord (key + 8) (s.homeWord (key + 8) + 1)).setHomeWord key 0) key)
  else ([aOk], s.countChannel key false)

/-- A BIND at the object's home (R327): the lowest region with V = 0 takes the word. -/
def State.bindHome (s : State) (key : Nat) (w : Word) : List Word × State :=
  let read := s.countChannel key false
  if !s.syncOk key then ([aReserved], read) else
  match (List.range 4).find? fun i => (s.homeWord (key + 24 + 8 * i)).toNat / 2 ^ 63 == 0 with
  | none => ([aFull], read)
  | some i =>
    let s1 := s.setHomeWord (key + 24 + 8 * i) w
    (aOk :: s1.regions key, s.countObject s1 key)

/-- An arrival at a barrier's home (R346): group, charge, the phase of a mark that names this barrier, the count of a
peer's private group. Answers the phase joined. -/
def State.arriveHome (s : State) (p key : Nat) (gid : Word) (charge : Nat) (mark given : Option Nat) :
    List Word × State :=
  let read := s.countChannel key false
  if !s.barOk key then ([aReserved], read) else
  let grp := s.homeWord key
  if grp ≠ 0 ∧ grp ≠ gid then ([aGroup], read) else
  let w := s.homeWord (key + 8)
  if barPending w + charge > 16777215 then ([aOverflow], read) else
  let again := mark = some (barPhase w)
  let w' := barWord w (barPhase w) (barPending w + charge) (if again then barArrived w else barArrived w + 1)
  let s1 := s.countObject ((s.setHomeWord key gid).setHomeWord (key + 8) w') key
  ([aOk, BitVec.ofNat 64 (barPhase w)], (s1.bindBarrier ⟨p, none, key, gid, given⟩).barCheck p key)

/-- A WAIT's look at a barrier's home (R348): whether its reserved fields are 0, its phase and its pending bytes. -/
def State.waitHome (s : State) (key : Nat) : List Word :=
  let w := s.homeWord (key + 8)
  [if s.barOk key then aOk else aReserved, BitVec.ofNat 64 (barPhase w), BitVec.ofNat 64 (barPending w)]

/-- Joins n members at a group's home (R81, R83). -/
def State.joinHome (s : State) (key n : Nat) : List Word × State :=
  if !s.groupOk key then ([aReserved], s.countChannel key false)
  else ([aOk], s.countObject
    ((s.setHomeWord key (s.homeWord key + BitVec.ofNat 64 n)).setHomeWord (key + 8) (s.homeWord (key + 8) + 1)) key)

/-- A leave at a group's home (R81, R82). -/
def State.leaveHome (s : State) (key : Nat) : State :=
  let c := s.homeWord key
  s.countObject ((s.setHomeWord key (if c = 0 then 0 else c - 1)).setHomeWord (key + 8) (s.homeWord (key + 8) + 1)) key

/-- A CLAIM at a counter's home (R86): base and grant. -/
def State.claimHome (s : State) (key n : Nat) : List Word × State :=
  let next := (s.homeWord key).toNat
  let stop := (s.homeWord (key + 8)).toNat
  let grant := if next < stop then min n (stop - next) else 0
  ([BitVec.ofNat 64 next, BitVec.ofNat 64 grant], s.countObject (s.setHomeWord key (BitVec.ofNat 64 (next + grant))) key)

/-! ## Losses (R329, R378) -/

/-- A number is the latest a peer's packet has been performed under, with its reply when it has one: the replies of the last
256 numbers are kept (R427). -/
def Peer.keep (x : Peer) (seq : Nat) (r : Option Reply) : Peer :=
  { x with kept := (seq, r) :: (x.kept.filter fun e => e.1 != seq).take 255 }

/-- Keeps the reply of a number a peer's packet has been performed under (R427). -/
def State.keepReply (s : State) (peer seq : Nat) (r : Reply) : State := s.setPeer peer ((s.peer peer).keep seq (some r))

/-- Answers a peer's request: the reply is kept and takes the next port (R427). -/
def State.sendReply (s : State) (peer seq : Nat) (r : Reply) : State :=
  let port := s.nextPort peer
  let s1 := (s.takePort peer).keepReply peer seq r
  { s1 with out := .reply peer seq port r :: s1.out }

/-- Sets the reply of a rank's request (R393: also in a saved context). A peer that fails takes its forwarded requests with
it (State.dropForwards), and no packet goes to a failed peer (R377). -/
def State.setReply (s : State) (o : Origin) (peer seq : Nat) (r : Reply) : State :=
  match o with
  | .rank p handle rank _ _ _ =>
    match s.slotOf p handle with
    | some k => s.updRank p k rank fun x => { x with
        requests := x.requests.map fun q => if q.peer = peer ∧ q.seq = seq then { q with reply := some r } else q }
    | none => s
  | .fetch =>
    let s1 := { s with
      fetched := s.fetched.map fun q => if q.peer = peer ∧ q.seq = seq then { q with reply := some r } else q }
    match s.fetched.find? fun q => q.peer == peer && q.seq == seq with
    | some q => s1.barAnswered peer q.packet r
    | none => s1
  | .forward q n => if (s.peer q).failed then s else s.sendReply q n r
  | _ => s

/-- Refuses every waiting ACQ of an object in the step that sets LOST (R328). A waiting hart traps on its next turn. -/
def State.refuseWaiting (s : State) (key : Nat) : State :=
  let mine := s.acqs.filter fun a => a.1 == key
  let s1 := { s with acqs := s.acqs.filter fun a => a.1 != key }
  mine.foldl (fun s a => match a.2 with
    | .peer q n _ => s.sendReply q n ⟨[], [aLost], false⟩
    | .hart h _ => s.updHart h fun x => { x with blocked := some .refused }) s1

/-- Counts n losses in a sync object at its home (R329). -/
def State.loseHome (s : State) (key n : Nat) : State :=
  let w := (s.homeWord (key + 16)).toNat
  let lostn := min (w / 2 ^ 32 + n) 0xFFFFFFFF
  (s.countObject (s.setHomeWord (key + 16) (BitVec.ofNat 64 (lostn * 2 ^ 32 + w % 2 ^ 32 / 2 * 2 + 1))) key).refuseWaiting
    key

/-- Counts losses in a tagged sync object: at its local home, or by an operation on it at its peer (R329; log 27). -/
def State.loseTag (s : State) (p n va : Nat) : State :=
  let (r, s1) := s.devAccess p va needRW
  match r with
  | .ok (.home key) => s1.loseHome (s1.redirect key) n
  | .ok (.peer q key) =>
    if (s1.peer q).failed then s1 else s1.sendOrWait q (.object .lost key [BitVec.ofNat 64 n]) .none
  | _ => s1

/-- How many remote effects a packet carries that count as lost (R378). -/
def lossCount (p : Packet) : Nat :=
  match p with
  | .write .. | .vstred .. | .amo .. | .cas .. => 1
  | .vamo _ _ elems => elems.length
  | _ => 0

/-- An engine command ends unresolved, unless it has ended (R314, R378). -/
def State.failCommand (s : State) (c : Nat) : State :=
  match tget s.commands c with
  | some x =>
    if x.ended then s else { s with commands := tput s.commands c { x with ended := true, unresolved := true } }
  | none => s

/-- The fate of a packet that is lost to a failed peer or refused by it (R378). -/
def State.lose (s : State) (peer seq : Nat) (pk : Packet) (o : Origin) : State :=
  let n := lossCount pk
  let s1 := match o with
    | .rank p handle rank tags _ _ =>
      let s1 := match s.slotOf p handle with
        | some k => s.updRank p k rank fun x => { x with lost := min (x.lost + n) 0xFFFFFFFF }
        | none => s
      if n = 0 then s1 else tags.foldl (fun s va => s.loseTag p n va) s1
    | .copy p handle rank =>
      match s.slotOf p handle with
      | some k => s.updRank p k rank fun x => { x with lost := min (x.lost + n) 0xFFFFFFFF }
      | none => s
    | .engine c => s.failCommand c
    | .log p record => s.recordEnds p record false
    | .doneCtr p handle addr => s.record 0x11 p { Who.none with node := handle } [addr]
    | .migration _ | .forward .. | .fetch | .none => s
  s1.setReply o peer seq Reply.lost

/-- Sends a packet, or gives it the fate of R378 when the peer has failed (R377). -/
def State.emit (s : State) (peer : Nat) (pk : Packet) (o : Origin) : State :=
  if (s.peer peer).failed then s.lose peer 65536 pk o else s.sendOrWait peer pk o

/-! ## Reads and writes of the device -/

/-- What a read by the device gives: bytes, nothing readable, or a reply still to come. -/
inductive DevRead where
  | bytes (bs : List Byte)
  | unreadable
  | pending
  deriving DecidableEq, Repr

/-- Where a range within one page is read by the device in a partition's context 0: the accesses it makes (R285). -/
def State.devPlaces (s : State) (p va n : Nat) : Except Refused (List (Place × Nat)) :=
  (s.devEntry p va needR).map fun e => (s.cuts va n).map fun c => (s.placeOf e c.1, c.2)

/-- The reads of peers among some accesses. -/
def peerReads (xs : List (Place × Nat)) : List (Nat × Packet) :=
  xs.filterMap fun x => match x.1 with
    | .peer q key => some (q, .read key x.2)
    | _ => none

/-- The bytes of some accesses, given the replies of the peers in order. -/
def State.joinReads (s : State) (xs : List (Place × Nat)) (rs : List Reply) : List Byte :=
  match xs with
  | [] => []
  | (.home key, n) :: rest => s.homeBytes key n ++ s.joinReads rest rs
  | (.pad _, n) :: rest => List.replicate n 0 ++ s.joinReads rest rs
  | (.peer .., n) :: rest =>
    (List.range n).map (fun i => ((rs.head?.map (·.bytes)).getD []).getD i 0) ++ s.joinReads rest (rs.drop 1)

/-- Counts some accesses in the channels of their homes (R288). -/
def State.countReads (s : State) (xs : List (Place × Nat)) : State :=
  xs.foldl (fun s x => match x.1 with
    | .home key => s.countLines key x.2 false
    | _ => s) s

/-- A read of n bytes within one page by the device in a partition's context 0. DESIGN CHOICE: a range of which a peer
answers with poisoned data cannot be read, as R378 makes it the fate of a lost access, while poisoned bytes of a local
home read as 0 (log 37). -/
def State.devRead (s : State) (p va n : Nat) : DevRead × State :=
  let noted := fun s : State => s.recordWalk p va Who.none (s.walk p va).2
  match s.devPlaces p va n with
  | .error _ => (.unreadable, noted s)
  | .ok xs =>
    match s.fetchAll (peerReads xs) with
    | (none, s1) => (.pending, s1)
    | (some rs, s1) =>
      if rs.any (·.poison) then (.unreadable, noted s1)
      else (.bytes (s1.joinReads xs rs), (noted s1).countReads xs)

/-- A write within one page by the device in a partition's context 0; false when it is refused. -/
def State.devWrite (s : State) (p va : Nat) (bs : List Byte) : Bool × State :=
  let (r, s1) := s.devAccess p va needW
  match r with
  | .ok (.home key) => (true, s1.storeHome key bs false)
  | .ok (.peer q key) => (true, s1.emit q (.write [(key, bs)] false []) .none)
  | _ => (false, s1)

end Sys2Proof.Machine
end

