-- ==== Sys2Proof/Machine/Graph.lean ====
section
/-!
DEFINITION. Graph.lean: draining stores (R324), freeing harts, leaving groups (R84), the terminal states of nodes with
their successors and accounting (R33-R36, R419), cancels (R53), aborts (R51) and kills (R406).
-/

namespace Sys2Proof.Machine

/-! ## Packets of a hart -/

/-- Who a packet of a hart belongs to, with its tags (R326), the pages of its accesses and whether a vector instruction makes
it. -/
def State.originOf (s : State) (h : Nat) (tags pages : List Nat) (vec : Bool) : Origin :=
  match (s.hart h).node with
  | some (p, k, r) => .rank p (s.handle p k) r tags pages vec
  | none => .none

/-- Whether a packet under way is a hart's own. -/
def State.isOf (s : State) (h : Nat) (o : Origin) : Bool :=
  match o, (s.hart h).node with
  | .rank p handle rank _ _ _, some (q, k, r) => p == q && rank == r && handle == s.handle q k
  | _, _ => false

/-- The numbers of the pages that the accesses of an entry were translated by. -/
def StoreEntry.pages (e : StoreEntry) : List Nat := (e.parts.map fun x => x.va / 65536).eraseDups

/-- The packet of a remote entry (R365); a store that fills no receive slot says so (R65). -/
def StoreEntry.packet (e : StoreEntry) : Packet := .write (e.parts.map fun x => (x.key, x.bytes)) e.fills []

/-! ## The Keystone log (R398, R399) -/

/-- Whether first writes are logged now (R398). -/
def Partition.logging (x : Partition) : Bool :=
  x.keystone != 0 && x.klogPages != 0 && !x.unlogged && x.snapshot.isSome

/-- Lines the Keystone log holds: old content of 64 bytes each (R399; log 35). -/
def Partition.klogRoom (x : Partition) : Nat := 1024 * x.klogPages

/-- Cycles of the present run of a node added to its counters (R419). -/
def Node.charge (n : Node) (now : Nat) : Node :=
  if n.state = .running then
    { n with pcyc := n.pcyc + (now - n.since), hcyc := n.hcyc + n.record.harts * (now - n.since), since := now }
  else n

/-- A snapshot of a partition's node table, link store and insert counters, and the number of the next engine command; running
nodes are charged up to now (R399, R419). -/
def Partition.snapshotNow (x : Partition) (now command : Nat) : Keystone where
  nodes := x.nodes.map fun e => (e.1, e.2.charge now)
  gens := x.gens
  links := x.links
  accepted := x.accepted
  dropped := x.dropped
  reads := x.reads
  lastHandle := x.lastHandle
  inserts := x.inserts
  lastTs := x.lastTs
  command := command

/-- A step between commits: what a Keystone recorded before the next commit would hold starts anew (R399). -/
def Partition.rebase (x : Partition) (now command : Nat) : Partition :=
  if x.det && x.keystone != 0 then { x with between := some (x.snapshotNow now command), own := [], keptSince := [] } else x

/-- Saves the old content of a line the present commit is about to write. A log without room is replaced by that of a
Keystone recorded before the present commit; a commit too large for an empty log is unlogged (R399). -/
def Partition.logOld (x : Partition) (line : Nat × List Byte) : Partition :=
  if !x.logging then { x with unlogged := true } else
  let x := if x.own.any fun e => e.1 == line.1 then x else { x with own := line :: x.own }
  if x.klog.any fun e => e.1 == line.1 then x
  else if x.klog.length < x.klogRoom then { x with klog := line :: x.klog }
  else match x.between with
    | some z =>
      if x.own.length ≤ x.klogRoom then
        { x with snapshot := some z, klog := x.own, kept := x.keptSince, sinceKeystone := 0 }
      else { x with unlogged := true }
    | none => { x with unlogged := true }

/-- What a commit of a partition is about to write in one line is logged (R399). -/
def State.logLine (s : State) (p line : Nat) : State :=
  match s.part p with
  | none => s
  | some x => if x.det then s.setPart p (x.logOld (64 * line, s.homeBytes (64 * line) 64)) else s

/-- What a commit of a partition is about to write in n bytes at a local home is logged (R399). -/
def State.logRange (s : State) (p key n : Nat) : State :=
  if !((s.part p).map (·.det)).getD false then s
  else (List.range ((key + n + 63) / 64 - key / 64)).foldl (fun s i => s.logLine p (key / 64 + i)) s

/-- What a hart's node is about to write at a local home is logged (R399). -/
def State.logFor (s : State) (h key n : Nat) : State :=
  match (s.hart h).node with
  | none => s
  | some (p, _, _) => s.logRange p key n

/-- An effect that leaves a partition's memory cannot be undone: it disarms rollback (R399). -/
def State.leavePart (s : State) (p : Nat) : State :=
  if ((s.part p).map (·.det)).getD false then s.updPart p fun x => { x with unlogged := true } else s

/-- An effect of a hart's node that leaves the partition's memory disarms rollback (R399). -/
def State.leaveFor (s : State) (h : Nat) : State :=
  match (s.hart h).node with
  | none => s
  | some (p, _, _) => s.leavePart p

/-! ## Draining the store buffer -/

/-- A part of an entry performed where a migration to a peer forwards it (R285). -/
def State.performPart (s : State) (h : Nat) (e : StoreEntry) (x : StorePart) : State :=
  match s.forward (.home x.key) with
  | .peer q key => (s.leaveFor h).emit q (.write [(key, x.bytes)] e.fills []) (s.originOf h e.tags [x.va / 65536] e.vec)
  | _ => (s.logFor h x.key x.bytes.length).storeHome x.key x.bytes e.fills

/-- Performs an entry: at local homes, or as a packet to its peer (R324). -/
def State.perform (s : State) (h : Nat) (e : StoreEntry) : State :=
  match e.peer with
  | none => e.parts.foldl (fun s x => s.performPart h e x) s
  | some q => (s.leaveFor h).emit q e.packet (s.originOf h e.tags e.pages e.vec)

/-- Drains the entry at an index of a hart's store buffer. -/
def State.drainAt (s : State) (h i : Nat) : State :=
  match (s.hart h).sb[i]? with
  | none => s
  | some e => (s.perform h e).updHart h fun x => { x with sb := x.sb.eraseIdx i }

/-- Whether an entry of the store buffer has a byte of a range at a home. -/
def StoreEntry.meets (e : StoreEntry) (peer : Option Nat) (key n : Nat) : Bool :=
  e.peer == peer && e.parts.any fun x => decide (max x.key key < min (x.key + x.bytes.length) (key + n))

/-- Whether an earlier entry keeps a later one in the store buffer: to the same peer, with a byte in common (R324, R325), or
both of one push, performed in pattern order (R310). -/
def StoreEntry.blocks (a b : StoreEntry) : Bool :=
  (a.ordered && b.ordered) ||
    (a.peer == b.peer && (a.peer.isSome || a.parts.any fun x => b.meets none x.key x.bytes.length))

/-- Which entries drain so that every entry that satisfies a condition drains with all that it stands behind. -/
def markDrains (f : StoreEntry → Bool) (es : List StoreEntry) : List (StoreEntry × Bool) :=
  match es with
  | [] => []
  | e :: rest =>
    let later := markDrains f rest
    (e, f e || later.any fun x => x.2 && e.blocks x.1) :: later

/-- Whether a packet is one of a vector access of a hart. -/
def State.vecOf (s : State) (h : Nat) (o : Origin) : Bool :=
  s.isOf h o && match o with
    | .rank _ _ _ _ _ v => v
    | _ => false

/-- Whether a packet of a vector access of a hart to a peer is still to be performed. -/
def State.vecTo (s : State) (h : Nat) (p : Nat × Peer) : Bool :=
  (p.2.unacked.any fun u => s.vecOf h u.origin) || p.2.waiting.any fun w => s.vecOf h w.2

/-- Whether an entry of a push waits for the hart's vector packets to other peers to be performed: the push's bytes are
performed in pattern order, and only packets to one peer keep their order by themselves (R310, R427). -/
def State.pushWaits (s : State) (h : Nat) (e : StoreEntry) : Bool :=
  e.ordered && s.peers.any fun p => some p.1 != e.peer && s.vecTo h p

/-- One entry of a drain: it is performed when it is marked, and neither waits nor stands behind one that does. -/
def State.drainEntry (h : Nat) (a : State × List StoreEntry) (e : StoreEntry × Bool) : State × List StoreEntry :=
  if e.2 && !a.1.pushWaits h e.1 && !(a.2.any fun b => b.blocks e.1) then (a.1.perform h e.1, a.2)
  else (a.1, a.2 ++ [e.1])

/-- Drains, oldest first, every entry that satisfies a condition, and before it those it stands behind (R324); an entry of a
push that must wait for a packet stays (R310). -/
def State.drainAll (s : State) (h : Nat) (f : StoreEntry → Bool) : State :=
  let r := (markDrains f (s.hart h).sb).foldl (State.drainEntry h) (s.updHart h fun x => { x with sb := [] }, [])
  r.1.updHart h fun x => { x with sb := r.2 }

/-! ## Groups -/

/-- Tells the peers with a barrier bound to a group that a member of this partition has left it (R349); the effect leaves the
partition (R399). -/
def State.leftBarriers (s : State) (p : Nat) (gid : Word) : State :=
  let mine := fun b : BoundBarrier => b.part == p && b.peer.isSome && b.gid == gid
  if s.barriers.any mine then (s.leavePart p).tellBarriers mine else s

/-- A member leaves a group: a private one, or the object at its home; then the barriers bound to the group are checked
(R82, R84, R349). The object's line is logged, or the effect leaves the partition (R399). DESIGN CHOICE: when the group's
object no longer translates or lacks rights no COUNT or EPOCH changes and there is no trap; the hart's GROUPID becomes 0 as
at any LEAVE or DONE. The spec names no such case (log 37). -/
def State.leaveGroup (s : State) (p : Nat) (gid : Word) : State :=
  if gid = 0 then s else
  let s0 := s.barriers.foldl (fun s b => if s.boundHere b p gid then s.logLine p (b.key / 64) else s) (s.noteGroup p gid)
  let s1 := match s.privateGroup p gid with
    | some k => s0.updNode p k fun n => { n with gcount := n.gcount - 1, gepoch := (n.gepoch + 1) % 2 ^ 64 }
    | none =>
      match s0.devPlace p gid.toNat needRW with
      | .ok (.home key) => (s0.logLine p (key / 64)).leaveHome key
      | .ok (.peer q key) => (s0.leavePart p).emit q (.object .leave key []) .none
      | _ => s0
  (s1.barriersOf p gid).leftBarriers p gid

/-! ## Freeing harts -/

/-- A Palette slot becomes FREE, and its oldest waiting claim is granted in the same step (R239); a further claim of the same
hart finds the slot EMPTY and held, and is granted with it. -/
def Slot.release (x : Slot) : Slot :=
  match x.waiting with
  | [] => ⟨none, none, []⟩
  | w :: rest => ⟨some w, none, rest.filter fun v => v != w⟩

/-- Frees every Palette slot a hart holds, and its waiting claims (R246). -/
def Core.freeSlots (c : Core) (h : Nat) : Core :=
  { c with slots := c.slots.map fun x =>
      let x := { x with waiting := x.waiting.filter fun w => w != h }
      if x.owner = some h then x.release else x }

/-- Whether a waiting ACQ is a hart's. -/
def Waiter.isHart (w : Waiter) (h : Nat) : Bool :=
  match w with
  | .hart j _ => j == h
  | .peer .. => false

/-- The waiting ACQs of a hart at peers: peer, object and number of the request. -/
def State.remoteAcqs (s : State) (h : Nat) : List (Nat × Nat × Nat) :=
  s.peers.flatMap fun p => p.2.unacked.filterMap fun u => match u.packet with
    | .object .acq key _ => if s.isOf h u.origin then some (p.1, key, u.seq) else none
    | _ => none

/-- A hart's waiting ACQs lose their places: here, and by a withdrawal at each peer (R340). -/
def State.withdraw (s : State) (h : Nat) : State :=
  let s1 := { s with acqs := s.acqs.filter fun a => !a.2.isHart h }
  (s.remoteAcqs h).foldl (fun s x => s.sendOrWait x.1 (.object .withdraw x.2.1 [BitVec.ofNat 64 x.2.2]) .none) s1

/-- Frees a hart: its registers, pool, Palette slots and places among waiting ACQs; the core's counters stay (R80). -/
def State.freeHart (s : State) (h : Nat) : State :=
  ((s.withdraw h).updCore (coreOf h) (·.freeSlots h)).setHart h Hart.reset

/-- The harts a node runs on, with their ranks. -/
def Node.placed (n : Node) : List (Nat × Nat) := n.ranks.filterMap fun r => r.2.hart.map fun h => (r.1, h)

/-- A store buffer without its held entries and those that stand behind them. -/
def withoutHeld (es : List StoreEntry) : List StoreEntry :=
  (es.foldl (fun (a : List StoreEntry × List StoreEntry) e =>
    if e.held || a.2.any (·.blocks e) then (a.1, a.2 ++ [e]) else (a.1 ++ [e], a.2)) ([], [])).1

/-- Stops a hart for good: held effects are discarded, with what stands behind them in a push, and the other stores are
performed (R406). DESIGN CHOICE: of a push that still waits for a packet the rest is not performed, so that its bytes keep
their order (R310; log 9). -/
def State.stopHart (s : State) (h : Nat) : State :=
  let s1 := (s.updHart h fun x => { x with sb := withoutHeld x.sb }).drainAll h fun _ => true
  ({ s1 with posted := s1.posted.filter fun x => !(x.hart == h && x.held) }).freeHart h

/-! ## Ends of nodes (R33-R36) -/

/-- The uncommitted node with the smallest timestamp: slot and node (R49). -/
def Partition.oldest (x : Partition) : Option (Nat × Node) :=
  x.nodes.foldl (fun best e => match best with
    | none => some e
    | some b => if e.2.record.tstamp.toNat < b.2.record.tstamp.toNat then some e else some b) none

/-- The terminal states (R34). -/
inductive NodeEnd where
  | retired | cancelled | failed
  deriving DecidableEq, Repr

/-- A generation's successor: after 0xFFFF comes 1 (R32). -/
def nextGen (g : Nat) : Nat := if g ≥ 65535 then 1 else g + 1

/-- The nodes of a table's present run (R62). -/
def Partition.tableNodes (x : Partition) (t run : Nat) : List Node :=
  (x.nodes.map (·.2)).filter fun n => match n.sched with
    | some (a, _, b) => a == t && b == run
    | none => false

/-- A table whose last node has ended: DONE once every entry has issued, IDLE from STOPPING (R61). -/
def State.schedSettle (s : State) (t : Nat) : State :=
  let x := s.sched t
  let live : Nat := match s.tableOwner t with
    | some p => ((s.part p).map fun y => (y.tableNodes t x.run).length).getD 0
    | none => 0
  if live ≠ 0 then s
  else if x.state = .stopping then s.setSched t { x with state := .idle, stall := 7 }
  else if x.state = .running ∧ x.head ≥ x.len then s.setSched t { x with state := .done, stall := 7 }
  else s

/-- A table learns of the end of a node of its present run (R61, R68, R72). -/
def State.schedNotify (s : State) (sched : Option (Nat × Nat × Nat)) (e : NodeEnd) : State :=
  match sched with
  | none => s
  | some (t, idx, run) =>
    let x := s.sched t
    if x.run ≠ run then s else
    let s1 := match e with
      | .retired =>
        let w0 := ((x.entries[idx]?).map fun y : SchedEntry => y.word0.toNat).getD 0
        let stash := if bits w0 63 62 = 2 then tdel x.stash (bits w0 49 44) else x.stash
        s.setSched t { x with retired := idx :: x.retired, stash := stash }
      | _ => if x.state = SchedState.running then s.schedFault t 0x05 else s
    s1.schedSettle t

/-- Decides the CANCELs that wait on a handle (R53, R357). -/
def State.decideCancels (s : State) (p handle code : Nat) : State :=
  s.updPart p fun x => { x with
    nodes := x.nodes.map fun e => (e.1, { e.2 with
      ranks := e.2.ranks.map fun r => (r.1,
        if r.2.cancelling = some (BitVec.ofNat 64 handle, none) then
          { r.2 with cancelling := some (BitVec.ofNat 64 handle, some code) }
        else r.2) }) }

/-- Frees a context save slot: NODE := 0 (R411, R412). -/
def State.freeSave (s : State) (p slot : Nat) : State :=
  match s.part p with
  | none => s
  | some x =>
    let s1 := s.setPart p { x with csaUsed := x.csaUsed.filter fun u => u != slot }
    (s1.devWrite p (x.csaBase.toNat / 2 ^ 20 * 2 ^ 20 % 2 ^ 57 + 0x500000 * slot) (leBytes 8 0)).2

/-- Closes a node's counters into the partition's accounting (R419). -/
def Partition.close (x : Partition) (n : Node) (e : NodeEnd) : Partition :=
  { x with
    acctPcyc := x.acctPcyc + BitVec.ofNat 64 n.pcyc
    acctHcyc := x.acctHcyc + BitVec.ofNat 64 n.hcyc
    acctRet := if e = .retired then x.acctRet + 1 else x.acctRet
    acctCanc := if e = .cancelled then x.acctCanc + 1 else x.acctCanc
    acctFail := if e = .failed then x.acctFail + 1 else x.acctFail }

/-- Frees a slot and advances its generation; its links go (R33). -/
def Partition.freeSlot (x : Partition) (k : Nat) : Partition :=
  { x with
    nodes := tdel x.nodes k
    gens := tput x.gens k (nextGen (x.gen k))
    links := x.links.filter fun l => l.1 != k && l.2 != k
    reservation := if x.reservation = some k then none else x.reservation }

/-- The DONECTR add of a retiring node (R36). -/
def State.addDone (s : State) (p handle addr : Nat) : State :=
  if addr = 0 then s else
  let fail := fun s : State => s.record 0x11 p { Who.none with node := handle } [addr]
  if addr % 8 ≠ 0 then fail s else
  let (r, s1) := s.devAccess p addr needRW
  match r with
  | .ok (.home key) => ((s1.logLine p (key / 64)).amoHome 0 8 key 1).2
  | .ok (.peer q key) => (s1.leavePart p).emit q (.amo 0 8 key 1) (.doneCtr p handle addr)
  | _ => fail s1

/-- A predecessor of slot j has retired or been cancelled (R34). -/
def State.releaseSucc (s : State) (p j : Nat) : State :=
  s.updNode p j fun n =>
    let n := { n with preds := n.preds - 1 }
    if n.state = .waiting ∧ n.preds = 0 then { n with state := .ready, readyAt := s.ticks } else n

/-- Ends the node of a slot (R33-R36): its table, the CANCELs against it, its save slot, its counters, its successors.
`fuel` bounds the chain of failures. -/
def State.endNode (s : State) (p k : Nat) (e : NodeEnd) (fuel : Nat) : State :=
  match fuel with
  | 0 => s
  | fuel + 1 =>
    match s.part p with
    | none => s
    | some x =>
      match tget x.nodes k with
      | none => s
      | some n0 =>
        let n := n0.charge s.now
        let handle := x.handle k
        let succs := (x.links.filter fun l => l.1 = k).map (·.2)
        let s1 := s.updPart p fun x => (x.close n e).freeSlot k
        let s2 := s1.schedNotify n.sched e
        let s3 := s2.decideCancels p handle (if e = .cancelled then 0 else 2)
        let s4 := match n.saved with
          | some slot => s3.freeSave p slot
          | none => s3
        match e with
        | .failed => succs.foldl (fun s j => match s.node p j with
            | some m => if m.state = .held ∨ m.state = .waiting then s.endNode p j .failed fuel else s
            | none => s) s4
        | .retired => (succs.foldl (fun s j => s.releaseSucc p j) s4).addDone p handle n.record.donectr.toNat
        | .cancelled => succs.foldl (fun s j => s.releaseSucc p j) s4

/-- Ends a node with a bound no chain of failures exceeds. When it was the one whose writes are a commit under way, the
step is one between commits (R399). -/
def State.finishNode (s : State) (p k : Nat) (e : NodeEnd) : State :=
  let s1 := s.endNode p k e 65537
  if (((s.part p).bind (·.oldest)).map (·.1)) = some k then s1.updPart p (·.rebase s1.now s1.nextCommand) else s1

/-! ## Kills and aborts -/

/-- GROUPID of every rank of a node that has not executed DONE. -/
def State.memberships (s : State) (n : Node) : List Word :=
  n.placed.filterMap fun x =>
    match (s.hart x.2).node with
    | some _ => some (s.hart x.2).regs.groupid
    | none => none

/-- No one awaits the pager's replies to a node's batches any more; the pager may still map their pages (R418). -/
def State.orphanBatches (s : State) (p handle : Nat) : State :=
  { s with batches := s.batches.map fun b => match b.2.owner with
      | .rank q h _ _ => if q = p ∧ h = handle then (b.1, { b.2 with owner := .noOne p }) else b
      | _ => b }

/-- Stops the harts of a node. -/
def State.stopNode (s : State) (p k : Nat) : State :=
  match s.node p k with
  | none => s
  | some n => n.placed.foldl (fun s x => s.stopHart x.2) (s.orphanBatches p (s.handle p k))

/-- Leaves the groups of a node's running harts, and frees the harts. -/
def State.dropHarts (s : State) (p k : Nat) : State :=
  match s.node p k with
  | none => s
  | some n => (s.memberships n).foldl (fun s g => s.leaveGroup p g) (s.stopNode p k)

/-- Kills a context (R406): its harts are stopped, the record is written, the node becomes FAILED. -/
def State.kill (s : State) (p k : Nat) (w : Who) (details : List Nat) : State :=
  ((s.dropHarts p k).record 0x03 p w details).finishNode p k .failed

/-- A node's rank table after its harts are gone (R51). -/
def Node.unplaced (n : Node) : Node :=
  { n with ranks := [], shadow := [], shadowBad := [], saved := none, leaving := none }

/-- Aborts a placed or waiting node (R51): shadows are discarded, the harts freed, READY with its ready time kept. -/
def State.abort (s : State) (p k : Nat) : State :=
  let s1 := s.dropHarts p k
  (s1.updNode p k fun n => { (n.charge s.now).unplaced with state := .ready }).updPart p fun x =>
    { x with aborts := x.aborts + 1 }

/-- A cancel becomes pending on a node: its harts in IDLE go on (R53, R185). -/
def State.cancelComes (s : State) (p k : Nat) : State :=
  match s.node p k with
  | none => s
  | some n => n.placed.foldl (fun s x =>
      if (s.hart x.2).blocked = some .idle then
        (s.updHart x.2 fun h => { h with blocked := none }).updRank p k x.1 fun r => { r with idled := true }
      else s) (s.updNode p k fun n => { n with cancel := .pending })

/-- Applies CANCEL to a node (R53): the code, or none while the outcome is undecided. DESIGN CHOICE: a CANCEL against a
running node whose earlier cancel has been DELIVERED reports DELIVERED at once, since the decision of R357's second CANCEL
has been made (log 27). -/
def State.cancelNode (s : State) (p k : Nat) : Option Nat × State :=
  match s.node p k with
  | none => (some 3, s)
  | some n =>
    match n.state with
    | .held | .waiting => (some 0, s.finishNode p k .cancelled)
    | .ready =>
      if n.cancel = .pending then (none, s) else (some 0, s.finishNode p k .cancelled)
    | .running =>
      match n.cancel with
      | .delivered => (some 1, s)
      | _ => (none, s.cancelComes p k)
    | .commitWait => (some 2, s)

end Sys2Proof.Machine
end

