-- ==== Sys2Proof/Machine/Keystone.lean ====
section
/-!
DEFINITION. Keystone.lean: deterministic mode's order of nodes (R49, R50), Keystones and rollback (R398-R400), and the
poison record of a rank (R396).
-/

namespace Sys2Proof.Machine

/-- Whether the node in a slot is speculative (R49). DESIGN CHOICE: the rule is read at each step, so that a placed node that
was the oldest is speculative again once a node of smaller timestamp has been created (log 35). -/
def State.speculative (s : State) (p k : Nat) : Bool :=
  match s.part p with
  | some x => x.det && (match x.oldest with
    | some (j, _) => j != k
    | none => false)
  | none => false

/-- The declared write extents (USE 2 or 3) of a record outside the scratchpad window (R49, R258). -/
def NodeRecord.writeExtents (r : NodeRecord) : List (Nat × Nat) :=
  (r.operands.filter fun o => o.kind ≥ 2 && !inWindow o.addr).map fun o => (o.addr, o.bytes)

/-- The declared read extents (USE 1 or 3) (R51). -/
def NodeRecord.readExtents (r : NodeRecord) : List (Nat × Nat) :=
  (r.operands.filter fun o => (o.kind == 1 || o.kind == 3) && !inWindow o.addr).map fun o => (o.addr, o.bytes)

/-- Whether byte a lies in one of some extents. -/
def inExtents (xs : List (Nat × Nat)) (a : Nat) : Bool := xs.any fun x => decide (x.1 ≤ a) && decide (a < x.1 + x.2)

/-- Whether two lists of extents overlap (R51). -/
def extentsMeet (xs ys : List (Nat × Nat)) : Bool :=
  xs.any fun x => ys.any fun y => decide (x.1 < y.1 + y.2) && decide (y.1 < x.1 + x.2)

/-- Whether rollback is armed (R398). -/
def Partition.armed (x : Partition) : Bool := x.det && x.logging

/-- Records a Keystone between commits (R399). -/
def Partition.takeKeystone (x : Partition) (now command : Nat) : Partition :=
  { x with
    snapshot := some (x.snapshotNow now command), klog := [], kept := [], sinceKeystone := 0
    unlogged := false }.rebase now command

/-- A node as a snapshot gives it back: one that had been placed runs again from READY (log 35). -/
def Node.rerun (n : Node) : Node :=
  match n.state with
  | .running | .commitWait => { n.unplaced with state := .ready, cancel := .none }
  | .ready => n.unplaced
  | _ => n

/-- The counters of a node that a rollback gives back: those of the live node, so that discarded work stays counted; of
one closed since, nothing that its closing has added already (R419; log 35). -/
def Partition.recharge (x : Partition) (now : Nat) (gens : Table Nat) (e : Nat × Node) : Nat × Node :=
  match tget x.nodes e.1 with
  | some n =>
    if x.gen e.1 = (tget gens e.1).getD 1 then
      let m := n.charge now
      (e.1, { e.2 with pcyc := m.pcyc, hcyc := m.hcyc })
    else (e.1, { e.2 with pcyc := 0, hcyc := 0 })
  | none => (e.1, { e.2 with pcyc := 0, hcyc := 0 })

/-- The cycles of the nodes that a rollback discards because the Keystone does not hold them: they stay counted in the
partition's totals, which include the work of every run (R419; log 35). -/
def Partition.discarded (x : Partition) (now : Nat) (z : Keystone) : Nat × Nat :=
  let gone := x.nodes.filter fun e => !((tget z.nodes e.1).isSome && x.gen e.1 == (tget z.gens e.1).getD 1)
  ((gone.map fun e => (e.2.charge now).pcyc).sum, (gone.map fun e => (e.2.charge now).hcyc).sum)

/-- Takes back what the placement of a node has done to its group before the Keystone: its placement joins the group again
(R47, R400). DESIGN CHOICE: a group on a peer, which a rollback cannot restore, is left by each hart instead (log 35). -/
def State.unjoin (s : State) (p : Nat) (n : Node) : State :=
  let live := (n.ranks.filter fun r => !r.2.done).length
  let steps := 1 + (n.ranks.length - live)
  if n.ranks.isEmpty || n.record.group == 0 then s else
  match s.devPlace p n.record.group.toNat needRW with
  | .ok (.home key) =>
    let s1 := s.logLine p (key / 64)
    (s1.setHomeWord key (s1.homeWord key - BitVec.ofNat 64 live)).setHomeWord (key + 8)
      (s1.homeWord (key + 8) - BitVec.ofNat 64 steps)
  | .ok (.peer q key) =>
    (List.range live).foldl (fun s _ => s.emit q (.object .leave key []) .none) (s.leavePart p)
  | _ => s

/-- A copy channel without some transfers: what it has still to deliver is what is left of it (R259). -/
def Channel.without (c : Channel) (f : Transfer → Bool) : Channel :=
  if c.queue.any f then
    let queue := c.queue.filter fun t => !f t
    { c with queue := queue, issued := c.pos + BitVec.ofNat 64 (queue.map fun t => t.len - t.delivered).sum }
  else c

/-- Drops what the nodes that a rollback stops have under way: engine commands accepted since the Keystone, and the copy
transfers of its nodes (R400). -/
def State.dropWork (s : State) (p : Nat) (x : Partition) (command : Nat) : State :=
  let mine := fun t : Transfer => t.part == p && (x.slotOf t.handle).isSome
  { s with
    commands := s.commands.filter fun c => !(c.2.part == p && decide (command ≤ c.1))
    cores := s.cores.map fun c => (c.1, { c.2 with channels := c.2.channels.map fun ch => ch.without mine }) }

/-- Rolls a partition back to its Keystone (R400): stores still in its store buffers have not been performed, and go. -/
def State.rollback (s : State) (p va line : Nat) : State :=
  match s.part p with
  | none => s
  | some x0 =>
    let s0 := x0.nodes.foldl (fun s e => e.2.placed.foldl (fun s r => s.updHart r.2 fun h => { h with sb := [] }) s) s
    let s1 := x0.csaUsed.foldl (fun s n => s.freeSave p n) ((x0.nodes.map (·.1)).foldl (fun s k => s.stopNode p k) s0)
    match s1.part p with
    | none => s1
    | some x =>
      let s2 := x.klog.foldl (fun s e => s.putHome e.1 e.2) s1
      match x.snapshot with
      | none => s2
      | some z =>
        let (pcyc, hcyc) := x0.discarded s.now z
        let s3 := (s2.dropWork p x0 z.command).updPart p fun y => { y with
          nodes := z.nodes.map fun e => x0.recharge s.now z.gens (e.1, e.2.rerun)
          gens := z.gens, links := z.links
          accepted := z.accepted + BitVec.ofNat 32 x.kept.length, dropped := z.dropped
          reads := z.reads, lastHandle := z.lastHandle, inserts := z.inserts ++ x.kept, lastTs := z.lastTs
          klog := [], own := [], between := some z, keptSince := x.kept
          acctPcyc := y.acctPcyc + BitVec.ofNat 64 pcyc, acctHcyc := y.acctHcyc + BitVec.ofNat 64 hcyc
          aborts := y.aborts + 1, rolledBack := line :: y.rolledBack, sinceKeystone := 0 }
        (z.nodes.foldl (fun s e => s.unjoin p e.2) s3).record 0x08 p Who.none [va, (x.aborts + 1).toNat]

/-- Data read found uncorrectable at an address of a line: the rank's poison record keeps the lowest address (R396), or
the partition rolls back (R400). True when it rolled back. -/
def State.notePoison (s : State) (p k r va line : Nat) : Bool × State :=
  match s.part p with
  | some x =>
    if x.armed && !x.rolledBack.contains line then (true, s.rollback p va line)
    else (false, s.updRank p k r fun y => { y with poison := some (match y.poison with
      | some a => min a va
      | none => va) })
  | none => (false, s)

end Sys2Proof.Machine
end

