-- ==== Sys2Proof/Machine/Ops.lean ====
section
/-!
DEFINITION. Ops.lean: the named operations of a hart: translation and probes (R173, R276), loads, stores and atomics
through the store buffer (R175, R323-R325), guarded issue (R391), requests to peers, waiting for the vector queue (R110),
taking a trap (R404-R406), returning from one (R183, R407), and running an instruction.
-/

namespace Sys2Proof.Machine

/-! ## Whom a hart runs for -/

/-- Partition of the node a hart runs; 64, which has nothing, when it runs none. -/
def Hart.part (h : Hart) : Nat :=
  match h.node with
  | some (p, _, _) => p
  | none => 64

/-- Whom a record about a hart names (R421). -/
def State.whoOf (s : State) (h : Nat) : Who :=
  match (s.hart h).node with
  | some (p, k, r) => ⟨coreOf h, r, (s.hart h).regs.tl.toNat, s.handle p k⟩
  | none => ⟨coreOf h, 0, (s.hart h).regs.tl.toNat, 0⟩

/-- The partition of the hart that runs. -/
def curPart : M Nat := do
  let h ← curHart
  pure h.part

/-- What the node table holds for the rank of the hart that runs. -/
def State.curRank (s : State) : Rank :=
  match (s.hart s.cur).node with
  | some (p, k, r) => s.rank p k r
  | none => Rank.start none

/-- Changes what the node table holds for the rank of the hart that runs. -/
def State.updCurRank (s : State) (f : Rank → Rank) : State :=
  match (s.hart s.cur).node with
  | some (p, k, r) => s.updRank p k r f
  | none => s

/-- Whether the hart that runs belongs to a speculative node (R49). -/
def State.curSpeculative (s : State) : Bool :=
  match (s.hart s.cur).node with
  | some (p, k, _) => s.speculative p k
  | none => false

/-! ## Waiting for the vector queue (R110) -/

/-- Merges flags into FFLAGS (R133). -/
def Regs.mergeFlags (g : Regs) (f : BitVec 7) : Regs := { g with fflags := g.fflags ||| f.setWidth 64 }

/-- Waits until the hart's queue is empty (R110; log 8). -/
def drainQueue : M Unit := do
  let h ← curHart
  if h.queue.isEmpty then pure () else again

/-- Guarded issue (R391): earlier vector instructions have retired; a speculative node's hart waits (R49; log 10). -/
def guarded : M Unit := do
  drainQueue
  let s ← get
  if s.curSpeculative then block .speculative

/-! ## Batch reports (R282) -/

/-- The sixteen words of a report. -/
def batchReport (part kind elemBytes : Nat) (base : Word) (lens steps : List Word) (first : Nat) (pages : List Nat) :
    List Word :=
  let w : Nat → Word := BitVec.ofNat 64
  [w (part * 1024 * 2 ^ 48 + kind * 2 ^ 40 + elemBytes * 2 ^ 32 + min pages.length 7 * 2 ^ 16), base] ++
    (List.range 3).map (fun i => lens.getD i 0) ++ (List.range 3).map (fun i => steps.getD i 0) ++ [w first] ++
    (List.range 7).map fun i => w (pages.getD i 0)

/-- The page address of a virtual address (R272). -/
def pageOf (va : Nat) : Nat := va / 2 ^ 16 * 2 ^ 16

/-- A TRANSLATION trap with the one-page batch of a scalar access or fetch (R173, R101). -/
def translationTrap {α : Type} (cause : Nat) (addr : Word) (n : Nat) (epc : Option Word) : M α := do
  let p ← curPart
  throw (.trap ⟨cause, addr, 0, epc, some (batchReport p 1 n addr [] [] 0 [pageOf addr.toNat]), none⟩)

/-! ## Probes -/

/-- What probing an address gives (R279): a place, with the entry that translated it outside the window; no translation; or
an entry without the right. -/
inductive Probe where
  | ok (pl : Place) (e : Option Entry)
  | absent
  | denied (e : Entry)
  deriving DecidableEq, Repr

/-- Whether a probe found an entry without the right. -/
def Probe.isDenied (p : Probe) : Bool := match p with | .denied _ => true | _ => false

/-- Whether a hart has packets to a peer under way or waiting for a place. -/
def State.packetsTo (s : State) (h peer : Nat) : Bool :=
  (s.peer peer).unacked.any (fun u => s.isOf h u.origin) || (s.peer peer).waiting.any fun w => s.isOf h w.2

/-- The old home of a page that moves to a peer holds an access back until the source's forwarded accesses have been
performed (R285); one to a page of which a line is on its way from its peer waits (R284). -/
def State.heldBack (s : State) (h va : Nat) (e : Entry) : Bool :=
  s.copying (e.place va) || match e.place va with
  | .home key =>
    match s.migrations.find? fun m => m.has key && m.away with
    | some m => s.packetsTo h m.peer
    | none => false
  | _ => false

/-- Probes an address for the hart that runs: translation, then rights; window addresses have no checks (R249). An
instruction of which an effect has left keeps the entries it was probed under (R393). -/
def probe (va : Nat) (n : Need) : M Probe := do
  if inWindow va then pure (.ok (.pad (va % 2 ^ 21)) none)
  else
    let s ← get
    let h := s.hart s.cur
    match tget h.probed (va / 2 ^ 16) with
    | some e => pure (.ok (s.placeOf e va) (some e))
    | none =>
      let (r, s1, bad) := s.translate (coreOf s.cur) h.part va
      set (s1.recordWalk h.part va (s.whoOf s.cur) bad)
      match r with
      | none => pure .absent
      | some e =>
        if !s.granted h.part .hart e n then pure (.denied e)
        else if s.heldBack s.cur va e then stall
        else pure (.ok (s.placeOf e va) (some e))

/-- The checks of a scalar access of n bytes (R173). -/
def scalarPlace (addr : Word) (n : Nat) (need : Need) (cause : Nat) : M (Place × Option Entry) := do
  if addr.toNat % n ≠ 0 then trap cALIGN addr
  else
    match ← probe addr.toNat need with
    | .ok pl e => pure (pl, e)
    | .absent => translationTrap cause addr n none
    | .denied _ => trap cPERM addr

/-- The stores of the hart that satisfy a condition are performed, or on their way to their peers; the instruction waits while
one must stay (R324, R310). -/
def drainFor (f : StoreEntry → Bool) : M Unit := do
  change fun s => s.drainAll s.cur f
  let h ← curHart
  if h.sb.any f then stall

/-- Notes an access of the instruction in progress, to be counted when the instruction ends. -/
def use (u : Use) : M Unit := updHart fun h => { h with uses := u :: h.uses }

/-- An access through a translation is counted (R278). -/
def counted (va : Nat) (e : Option Entry) : M Unit :=
  match e with
  | some x => use (.access va x)
  | none => pure ()

/-- Counts one access of a hart (R278, R288), or records what a walk skipped (R274). -/
def State.countMade (s : State) (h : Nat) (u : Use) : State :=
  match u with
  | .access va e => s.countMigrate (dieOf (coreOf h)) va e
  | .reads key n => s.countLines key n false
  | .walk va skipped => s.recordWalk (s.hart h).part va (s.whoOf h) skipped

/-- Forgets the accesses of an attempt that is to be made again. -/
def State.dropUses (s : State) : State :=
  if (s.hart s.cur).uses.isEmpty then s else s.updHart s.cur fun h => { h with uses := [] }

/-- Counts the accesses of the instruction that has ended. -/
def State.countUses (s : State) : State := ((s.hart s.cur).uses.foldr (fun u s => s.countMade s.cur u) s).dropUses

/-- Whether an instruction that waits has made the accesses to its object that it makes, and they have been counted. -/
def Block.counted (b : Block) : Bool :=
  match b with
  | .acq | .wait | .waitPending | .barrier | .barrierPending => true
  | _ => false

/-- Settles the accesses of an instruction that ends, from the state before the turn: each is counted once, however often the
instruction has been tried. -/
def State.settleUses (s0 s : State) : State :=
  if ((s0.hart s0.cur).blocked.map Block.counted).getD false then s.dropUses else s.countUses

/-! ## Requests to peers (R365, R367; log 11) -/

/-- Whether a request has an effect at its target, or a place there, that a pre-emption must respect (R393). A waiting ACQ
is withdrawn instead (R340), and a WAIT has no effect. -/
def hasEffect (pk : Packet) : Bool :=
  match pk with
  | .read .. | .object .acq .. | .object .wait .. => false
  | _ => true

/-- The reply to a request of the instruction in progress; sends the request when it has not been sent, with its tags, the
pages of its accesses and whether a vector instruction makes it. A packet that must wait for its place leaves the hart
runnable at the instruction (R368). -/
def request (key peer : Nat) (pk : Packet) (tags pages : List Nat) (vec : Bool) : M (Option Reply) := do
  let s ← get
  match s.curRank.requests.find? fun q => q.key == key with
  | some q => pure q.reply
  | none =>
    let o := s.originOf s.cur tags pages vec
    if (s.peer peer).failed then
      set ((s.lose peer 65536 pk o).updCurRank fun r => { r with
        requests := ⟨key, peer, 65536, hasEffect pk, s.drops, some Reply.lost⟩ :: r.requests })
      pure (some Reply.lost)
    else if s.canSend peer pk then
      let seq := (s.peer peer).nextSeq
      let s := match pk with
        | .read .. => s
        | _ => s.leaveFor s.cur
      set ((s.send peer pk o).updCurRank fun r => { r with
        requests := ⟨key, peer, seq, hasEffect pk, s.drops, none⟩ :: r.requests })
      pure none
    else stall

/-- The reply to a request; the hart waits for it at the instruction. -/
def demand (key peer : Nat) (pk : Packet) (tags pages : List Nat) (vec : Bool) : M Reply := do
  match ← request key peer pk tags pages vec with
  | some r => pure r
  | none => stall

/-- Keeps the entry a page was probed under, before an effect of the instruction leaves the core (R393). -/
def keepProbe (va : Nat) (e : Option Entry) : M Unit :=
  match e with
  | some x => updHart fun h => { h with probed := tput h.probed (va / 2 ^ 16) x }
  | none => pure ()

/-- Whether no cached copy has been dropped since a request of the rank was sent: its reply may fill a copy (R328). -/
def State.freshReply (s : State) (key : Nat) : Bool :=
  s.curRank.requests.any fun q => q.key == key && q.stamp == s.drops

/-! ## Reading -/

/-- Replaces, in n bytes at position `at0`, those that bytes at position k cover. -/
def overlay (at0 : Nat) (bs : List Byte) (k : Nat) (new : List Byte) : List Byte :=
  if k + new.length ≤ at0 ∨ at0 + bs.length ≤ k then bs else
  (List.range bs.length).zipWith
    (fun i b => if k ≤ at0 + i ∧ at0 + i < k + new.length then new.getD (at0 + i - k) b else b) bs

/-- Bytes with a hart's store buffer over them, youngest on top (R324). -/
def sbOverlay (sb : List StoreEntry) (peer : Option Nat) (key : Nat) (bs : List Byte) : List Byte :=
  sb.foldl (fun bs e => if e.peer == peer then e.parts.foldl (fun bs x => overlay key bs x.key x.bytes) bs else bs) bs

/-- Bytes at an address with the node's own shadow over them (R49). -/
def State.shadowed (s : State) (va : Nat) (bs : List Byte) : List Byte :=
  match (s.hart s.cur).node with
  | none => bs
  | some (p, k, _) =>
    match s.node p k with
    | none => bs
    | some n =>
      if n.shadow.isEmpty then bs else (List.range bs.length).zipWith (fun i b => (tget n.shadow (va + i)).getD b) bs

/-- Notes poisoned data read at an address (R396, R400). -/
def poisoned (va line : Nat) : M Unit := do
  let s ← get
  match (s.hart s.cur).node with
  | none => pure ()
  | some (p, k, r) =>
    let (rolled, s1) := s.notePoison p k r va line
    set s1
    if rolled then ended

/-- A cached copy of a peer line on a die (R277). -/
def State.copy (s : State) (die peer line : Nat) : Option (List Byte) :=
  (s.copies.find? fun c => c.die == die && c.peer == peer && c.line == line).map (·.bytes)

/-- Fills a cached copy, or notes another page it is read under (R324, R277). -/
def State.fillCopy (s : State) (die peer line : Nat) (page : CopyPage) (bs : List Byte) : State :=
  let same := fun c : Copied => c.die == die && c.peer == peer && c.line == line
  let pages := ((s.copies.find? same).map (·.pages)).getD []
  if pages.contains page then s
  else { s with copies := ⟨die, peer, line, page :: pages, bs⟩ :: s.copies.filter fun c => !same c }

/-- Whether a translation caches (R277). -/
def cachedBy (e : Option Entry) : Bool := (e.map fun x => x.mode == 2).getD false

/-- A copy is read, or filled by a reply, under an address of the hart's partition. -/
def useCopy (va : Nat) (e : Option Entry) (peer line : Nat) (bs : List Byte) : M Unit :=
  let large := (e.map (·.large)).getD false
  change fun s => s.fillCopy (dieOf (coreOf s.cur)) peer line
    ⟨(s.hart s.cur).part, if large then va / 2 ^ 21 * 32 else va / 2 ^ 16, large⟩ bs

/-- The copy of a peer's line that an access through a caching translation may read on a die: none while a write of this
device to the line waits to leave (R175). -/
def State.usableCopy (s : State) (e : Option Entry) (die peer line : Nat) : Option (List Byte) :=
  if cachedBy e && !((s.peer peer).waiting.any fun w => (writtenLines w.1).contains line) then s.copy die peer line else none

/-- Reads n bytes of a peer, within one line under MODE 2 (R372): from the cached copy, or by a read packet. -/
def readPeer (va peer key n : Nat) (e : Option Entry) : M (List Byte) := do
  let s ← get
  let line := key / 64
  let cached := cachedBy e
  let take := fun bs : List Byte => (bs.drop (key % 64)).take n
  match s.usableCopy e (dieOf (coreOf s.cur)) peer line with
  | some bs =>
    useCopy va e peer line bs
    pure (sbOverlay (s.hart s.cur).sb (some peer) key (take bs))
  | none =>
    drainFor fun e => e.peer == some peer
    let (at_, len) := if cached then (line * 64, 64) else (key, n)
    let r ← demand at_ peer (.read at_ len) [] [va / 65536] false
    let s ← get
    if r.poison then
      poisoned va (2 ^ 60 * (peer + 1) + line)
      pure (List.replicate n 0)
    else if cached then
      if s.freshReply at_ then useCopy va e peer line r.bytes
      pure (take r.bytes)
    else pure ((List.range n).map fun i => r.bytes.getD i 0)

/-- Whether a byte of a home is hidden from a load by the hart's store buffer or its node's shadow (R324, R49). -/
def State.hidden (s : State) (va key : Nat) : Bool :=
  (s.hart s.cur).sb.any (fun e => e.meets none key 1) ||
    (match (s.hart s.cur).node with
    | some (p, k, _) => ((s.node p k).map fun n : Node => (tget n.shadow va).isSome).getD false
    | none => false)

/-- The poisoned bytes a load of n bytes at a local home takes, as offsets: of the home where it is not hidden, and of the
node's shadow (R396, R270). -/
def State.badRead (s : State) (va key n : Nat) : List Nat :=
  let shadowed := match (s.hart s.cur).node with
    | some (p, k, _) => ((s.node p k).map fun n : Node => n.shadowBad).getD []
    | none => []
  let home := s.badBytes key n
  if shadowed.isEmpty && home.isEmpty then []
  else (List.range n).filter fun i =>
    shadowed.contains (va + i) || (home.contains i && !s.hidden (va + i) (key + i))

/-- Notes the first poisoned byte that a read of a local home takes. -/
def noteHome (va key n : Nat) : M Unit := do
  let s ← get
  match s.badRead va key n with
  | i :: _ => poisoned (va + i) ((key + i) / 64)
  | [] => pure ()

/-- Notes the first poisoned byte that a read of the scratchpad takes. -/
def notePad (va off n : Nat) : M Unit := do
  let s ← get
  match hitRange (s.core (coreOf s.cur)).padPoison off n with
  | some i => poisoned (va + i) (2 ^ 70 + coreOf s.cur * 2 ^ 21 + off + i)
  | none => pure ()

/-- Reads n bytes at a probed place (R324). -/
def readAt (va n : Nat) (pl : Place) (e : Option Entry) : M (List Byte) := do
  match pl with
  | .pad off =>
    notePad va off n
    let s ← get
    pure (getBytes (s.core (coreOf s.cur)).pad off n)
  | .home key =>
    counted va e
    let s ← get
    let bs := s.shadowed va (sbOverlay (s.hart s.cur).sb none key (s.homeBytes key n))
    use (.reads key n)
    noteHome va key n
    pure bs
  | .peer q key =>
    let bs ← readPeer va q key n e
    counted va e
    pure bs

/-- Counts a load whose data check has not ended (R396). -/
def unchecked : M Unit := updHart fun h => { h with unchecked := h.unchecked + 1 }

/-! ## Writing -/

/-- Whether a region word holds a byte of a range of addresses (R326, R327). -/
def regionHas (w : Word) (va n : Nat) : Bool :=
  let base := bits w.toNat 56 16 * 65536
  w.toNat / 2 ^ 63 == 1 && decide (base < va + n) && decide (va < base + (bits w.toNat 15 0 + 1) * 65536)

/-- The objects a store of a hart is tagged with (R326). -/
def Rank.tagsOf (r : Rank) (va n : Nat) : List Nat :=
  (r.binding.filter fun b => b.2.any fun w => regionHas w va n).map (·.1)

/-- Bytes written to a scratchpad; written bytes are not poisoned. -/
def Core.putPad (c : Core) (off : Nat) (bs : List Byte) : Core :=
  { c with
    pad := putBytes c.pad off bs
    padPoison := if c.padPoison.isEmpty then [] else clearRange c.padPoison off bs.length }

/-- Bytes written to the scratchpad of the hart's core (R250). -/
def State.storePad (s : State) (off : Nat) (bs : List Byte) : State :=
  s.updCore (coreOf s.cur) (·.putPad off bs)

/-- Bytes written to the shadow of a node (R49), zeros included; some of them poisoned, by offset (R270). -/
def Node.putShadow (n : Node) (va : Nat) (bs : List Byte) (bad : List Nat) : Node :=
  let kept := n.shadowBad.filter fun a => !(decide (va ≤ a) && decide (a < va + bs.length))
  { n with
    shadow := ((List.range bs.length).zip bs).foldl (fun t x => tput t (va + x.1) x.2) n.shadow
    shadowBad := bad.map (va + ·) ++ kept }

/-- Bytes written to the shadow of the hart's node (R49). -/
def State.storeShadow (s : State) (va : Nat) (bs : List Byte) : State :=
  match (s.hart s.cur).node with
  | some (p, k, _) => s.updNode p k fun n => n.putShadow va bs []
  | none => s

/-- A node without the shadow bytes of a range. -/
def Node.dropShadow (x : Node) (va n : Nat) : Node :=
  if x.shadow.isEmpty then x
  else { x with
    shadow := x.shadow.filter fun c => !(decide (va ≤ c.1) && decide (c.1 < va + n))
    shadowBad := x.shadowBad.filter fun a => !(decide (va ≤ a) && decide (a < va + n)) }

/-- Drops shadow bytes that a store of a node no longer speculative replaces. -/
def State.clearShadow (s : State) (va n : Nat) : State :=
  match (s.hart s.cur).node with
  | some (p, k, _) => s.updNode p k fun x => x.dropShadow va n
  | none => s

/-- Whether every byte of a range lies in a declared write extent of the hart's node (R49). -/
def State.inWriteExtent (s : State) (va n : Nat) : Bool :=
  match (s.hart s.cur).node with
  | some (p, k, _) =>
    match s.node p k with
    | some x => (List.range n).all fun i => inExtents x.record.writeExtents (va + i)
    | none => false
  | none => false

/-- The checks a speculative node's access to device memory makes before it writes (R49, R175): a peer's home waits, a
byte outside the declared write extents traps PERMISSION. -/
def specCheck (va n : Nat) (pl : Place) : M Unit := do
  let s ← get
  match pl with
  | .pad _ => pure ()
  | .home _ => if s.curSpeculative && !s.inWriteExtent va n then trap cPERM (BitVec.ofNat 64 va)
  | .peer _ _ => guarded

/-- Appends an entry to the store buffer of the hart that runs. -/
def pushStore (e : StoreEntry) : M Unit := updHart fun h => { h with sb := h.sb ++ [e] }

/-- Whether a packet of a vector access of a hart is still to be performed. -/
def State.vecOut (s : State) (h : Nat) : Bool := s.peers.any (s.vecTo h)

/-- A scalar access waits until every earlier vector access of the hart has been performed, and every earlier scalar store
to a peer has left (R175, R111). -/
def scalarOrder : M Unit := do
  drainFor fun e => e.vec || e.peer.isSome
  let s ← get
  if s.vecOut s.cur then stall

/-- Stores bytes at a place that has passed every check (R175, R324, R49); earlier vector instructions have retired (log
8). -/
def storeAt (va : Nat) (bs : List Byte) (pl : Place) (e : Option Entry) : M Unit := do
  drainQueue
  scalarOrder
  counted va e
  let s ← get
  let tags := s.curRank.tagsOf va bs.length
  match pl with
  | .pad off => change fun s => s.storePad off bs
  | .home key =>
    if s.curSpeculative then change fun s => s.storeShadow va bs
    else
      change fun s => s.clearShadow va bs.length
      pushStore ⟨none, [⟨va, key, bs⟩], tags, false, true, false, false⟩
  | .peer q key => pushStore ⟨some q, [⟨va, key, bs⟩], tags, true, true, false, false⟩

/-- An indivisible update of n bytes at a place: `f` gives the new value for the old one, or nothing to write; the old value
is the answer. At a peer the update travels as a packet (R176, R177, R373). `used` tells whether the reply is used (R378).
Its issue and its drain are one step, which the issue queue may put off (log 9). -/
def atomicAt (va n : Nat) (pl : Place) (e : Option Entry) (f : Nat → Option Nat) (pk : Nat → Packet) (used : Bool) :
    M Nat := do
  drainQueue
  scalarOrder
  match pl with
  | .pad off =>
    let s ← get
    let old := leNat (getBytes (s.core (coreOf s.cur)).pad off n)
    notePad va off n
    match f old with
    | some v => change fun s => s.storePad off (leBytes n v)
    | none => pure ()
    pure old
  | .home key =>
    counted va e
    drainFor fun e => e.meets none key n
    let s ← get
    let old := leNat (s.shadowed va (s.homeBytes key n))
    noteHome va key n
    match f old with
    | some v =>
      if s.curSpeculative then change fun s => s.storeShadow va (leBytes n v)
      else change fun s =>
        ((((s.clearShadow va n).logFor s.cur key n).putHome key (leBytes n v)).countChannel key false).countChannel key true
    | none => change fun s => s.countChannel key false
    pure old
  | .peer q key =>
    let s ← get
    keepProbe va e
    let r ← demand (2 ^ 64 + va) q (pk key) (s.curRank.tagsOf va n) [va / 65536] false
    counted va e
    if r.poison then
      if used then poisoned va (2 ^ 60 * (q + 1) + key / 64)
      pure 0
    else pure ((r.words.getD 0 0).toNat % 256 ^ n)

/-! ## Transfers of control (R178) -/

/-- Whether a target names a head (R99). -/
def headTarget (t : Word) : Bool := t.toNat % 2 == 0 && t.toNat % 64 != 0

/-- The return address of the instruction at PC (R178). -/
def returnAddress : M Word := do
  let h ← curHart
  pure h.successor

/-- Enters a target: its line is read anew (R90). -/
def Hart.enter (h : Hart) (t : Word) : Hart := { h with regs := { h.regs with pc := t }, line := none }

/-- Checks a target (R178). -/
def checkTarget (t : Word) : M Unit := if headTarget t then pure () else trap cALIGN t

/-- A taken transfer (R178). -/
def jump (t : Word) : M Unit := do
  checkTarget t
  updHart (·.enter t)

/-! ## Taking a trap (R404-R406) -/

/-- Delivers a batch report to the pager (R282). -/
def State.sendBatch (s : State) (o : BatchOwner) (report : List Word) : State :=
  { s with
    batches := tput s.batches s.nextBatch ⟨o, report⟩
    nextBatch := s.nextBatch + 1
    out := .batch s.nextBatch :: s.out }

/-- The batch a trap sends, to be answered at a level. -/
def State.trapBatch (s : State) (h : Nat) (t : Trap) (level : Nat) : State :=
  match t.batch, (s.hart h).node with
  | some r, some (p, k, rank) => s.sendBatch (.rank p (s.handle p k) rank level) r
  | _, _ => s

/-- TVEC.BASE as a line address (R401). -/
def Regs.vector (g : Regs) : Word := BitVec.ofNat 64 (bits g.tvec.toNat 56 6 * 64)

/-- Kills the context of a hart for a trap (R406). A hart without a node is freed. -/
def State.killHart (s : State) (h : Nat) (cause : Nat) (epc val : Word) : State :=
  match (s.hart h).node with
  | some (p, k, _) => s.kill p k (s.whoOf h) [cause, epc.toNat, val.toNat]
  | none => s.freeHart h

/-- The hart at the handler's entry (R404). -/
def Hart.trapTo (h : Hart) (t : Trap) (epc : Word) : Hart :=
  let level := h.regs.tl.toNat + 1
  let pend := if t.batch.isSome then 0x8000 else 0
  { h with
    regs := { h.regs.setBank level ⟨BitVec.ofNat 64 (t.cause + pend), epc, t.val, t.lane⟩ with
      tl := BitVec.ofNat 2 level
      pc := h.regs.vector + 2 }
    line := none
    blocked := none
    fresh := false
    retry := false
    partway := none
    limit := none
    probed := [] }

/-- A trap of hart h, whose queue is empty, is taken (R404, R405): a trap at TL 2 or without a handler kills the context,
after its batch has gone to the pager (R173), except that a TRANSLATION at TL 0 without a handler waits for the pager's
reply. -/
def State.takeTrap (s : State) (h : Nat) (t : Trap) : State :=
  let g := (s.hart h).regs
  let epc := t.epc.getD g.pc
  if g.tl = 2 then (s.trapBatch h t 2).killHart h t.cause epc t.val
  else if g.vector = 0 then
    if g.tl = 0 ∧ t.batch.isSome then
      match (s.hart h).node with
      | some (p, k, r) =>
        ((s.trapBatch h t 0).updHart h fun x => { x with
          blocked := some .pager, fresh := false, retry := true, partway := none, limit := none, probed := [] }).updRank p k r
          fun y => { y with waitBatch := true, unresolved := false, waitTrap := (t.cause, epc, t.val) }
      | none => s.freeHart h
    else (s.trapBatch h t g.tl.toNat).killHart h t.cause epc t.val
  else (s.trapBatch h t (g.tl.toNat + 1)).updHart h fun x => x.trapTo t epc

/-- The return from a trap (R183, R407, R397): PEND has cleared, TL falls, PC is TEPC. -/
def Hart.trapReturn (h : Hart) (t : Word) : Hart :=
  let level := h.regs.tl.toNat - 1
  let stop := h.regs.pix.toNat / 2 ^ 63 == 1
  { h with
    regs := { h.regs with
      tl := BitVec.ofNat 2 level
      pc := t
      pix := if level = 0 ∧ !stop then 0 else h.regs.pix }
    line := none
    fresh := level = 0 }

/-! ## Running an instruction -/

/-- Clears FEM before a first instruction at TL 0 that is not the reissued load (R281). -/
def clearFem : M Unit := updRegs fun g => { g with fem := 0 }

/-- Whether the next instruction is the first at TL 0 after a TRET or a resume (R281, R408). -/
def Hart.first (h : Hart) : Bool := h.fresh && h.regs.tl == 0

/-- What a precise trap of an instruction returns to (R112). -/
def State.beforeOf (s : State) (h : Nat) : Before :=
  let r := match (s.hart h).node with
    | some (p, k, r) => s.rank p k r
    | none => Rank.start none
  ⟨(s.hart h).regs, r.poison, r.samples, r.femPc, (s.hart h).unchecked, (s.hart h).iq.map (·.id)⟩

/-- How many effects of a hart are held under guarded issue (R391). -/
def State.heldCount (s : State) (h : Nat) : Nat :=
  ((s.hart h).sb.filter (·.held)).length + (s.posted.filter fun x => x.hart == h && x.held).length

/-- The effects that the instruction in progress has put under guarded issue, beyond `old`, can be withdrawn to the state
before it (R393). -/
def State.noteHeld (s : State) (old : Nat) (b : Before) : State :=
  let n := s.heldCount s.cur
  if n > old then s.updHart s.cur fun h => { h with heldFrom := some (b, n) } else s

/-- A queue whose new last entry knows the state before its instruction. -/
def markBefore (q : List QueueEntry) (n : Nat) (b : Before) : List QueueEntry :=
  if q.length = n + 1 then q.modify n fun e => { e with before := b } else q

/-- The hart after an instruction that has completed: it is not blocked, what it held of the instruction is done with, the
progress index that it may have used is cleared (R408), and its queue entry knows the state before it. -/
def Hart.completed (h : Hart) (n : Nat) (b : Before) : Hart :=
  { h with
    blocked := none
    fresh := h.fresh && h.regs.tl != 0
    retry := false
    regs := if h.first || h.partway.isSome then { h.regs with pix := 0 } else h.regs
    queue := markBefore h.queue n b
    stuck := false
    partway := none
    limit := none
    probed := [] }

/-- The requests of the operations of the issue queue have keys from this one on. -/
def lateKey : Nat := 2 ^ 200

/-- Drops the requests of the instruction that has ended. -/
def State.dropRequests (s : State) : State :=
  if s.curRank.requests.isEmpty then s
  else s.updCurRank fun r => { r with requests := r.requests.filter fun q => decide (lateKey ≤ q.key) }

/-- The state after an instruction that has completed, from the state before it. -/
def State.completed (s0 s : State) : State :=
  (((s0.settleUses s).updHart s.cur fun h => h.completed (s0.hart s0.cur).queue.length (s0.beforeOf s0.cur)).noteHeld
    (s0.heldCount s0.cur) (s0.beforeOf s0.cur)).dropRequests

/-- The hart that runs is runnable, at an instruction to be tried again. -/
def State.waiting (s : State) : State := s.dropUses.updHart s.cur fun h => { h with blocked := none }

/-- The hart that runs is runnable, at an instruction that waits for its queue. -/
def State.awaiting (s : State) : State := s.updHart s.cur fun h => { h with blocked := none, stuck := true }

/-- The hart that runs is blocked at its instruction. -/
def State.blockedBy (s0 s : State) (b : Block) : State :=
  (if b.counted then s0.settleUses s else s.dropUses).updHart s.cur fun h => { h with blocked := some b }

/-- A trap of the instruction in progress: a memory fault writes PIX, and else what the instruction used of PIX is cleared
(R408). -/
def State.trapped (s0 s : State) (t : Trap) : State :=
  let h0 := s0.hart s0.cur
  let used := h0.first || h0.partway.isSome
  let pix := (t.pix.map (BitVec.ofNat 64)).orElse fun _ => if used then some 0 else none
  let s1 := (s0.settleUses s).dropRequests
  let s2 := pix.elim s1 fun w => s1.updHart s.cur fun h => { h with regs := { h.regs with pix := w } }
  s2.takeTrap s.cur t

/-- The state after an effect of the hart that runs, from the state before it (log 1). A trap waits until the queue is
empty (R112, R404): until then nothing of the instruction has been done. -/
def conclude (s0 : State) (r : EStateM.Result Stop State Unit) : State :=
  match r with
  | .ok _ s => s0.completed s
  | .error (.trap t) s => if (s0.hart s0.cur).queue.isEmpty then s0.trapped s t else s0.awaiting
  | .error (.block b) s => s0.blockedBy s b
  | .error .stall s => s.waiting
  | .error .again _ => s0.awaiting
  | .error .ended s => s

/-- Runs the meaning of an instruction that is not a batch load. -/
def instr (m : M Unit) (s : State) : Host.Outcome State Fault Refusal :=
  .next (conclude s
    (if (s.hart s.cur).first && (s.hart s.cur).regs.fem != 0 then (do clearFem; m) s.dropUses else m s.dropUses))

/-- Runs the meaning of a batch load, which looks at FEM itself (R281). -/
def instrLoad (m : M Unit) (s : State) : Host.Outcome State Fault Refusal := .next (conclude s (m s.dropUses))

end Sys2Proof.Machine
end

