-- ==== Sys2Proof/Machine/Flags.lean ====
section
/-!
DEFINITION. Flags.lean: ILLEGAL's TVAL (R107), TLANE (R134), enabled conditions of scalar and vector instructions (R134,
R171), the flags of a queued instruction, and the queue itself (R109, R116, R117, R394).
-/

namespace Sys2Proof.Machine

/-! ## ILLEGAL (R107) -/

/-- The head and tail word 0 at the PC of a hart (R107). -/
def Hart.words (h : Hart) : Nat × Nat :=
  match h.line with
  | none => (0, 0)
  | some l =>
    let i := (h.regs.pc.toNat % 64 - 2) / 2
    ((lineHead l.bits i).toNat, ((lineTail l.bits i).headD 0).toNat)

/-- TVAL of ILLEGAL with a reason. -/
def Hart.illegalVal (h : Hart) (why : Nat) : Word :=
  let (head, w0) := h.words
  BitVec.ofNat 64 (why * 2 ^ 32 + w0 * 2 ^ 16 + head)

/-- Traps ILLEGAL for a reason. -/
def illegal {α : Type} (why : Nat) : M α := do
  let h ← curHart
  trap cILLEGAL (h.illegalVal why)

/-- Traps VTYPE_ILL while VTYPE.VREJ = 1 (R108). -/
def needVtype : M Unit := do
  let g ← curRegs
  if g.vtype.toNat / 2 ^ 63 = 1 then trap cVTYPE g.vtype

/-! ## Enabled conditions (R134) -/

/-- TLANE over a rising list of logical indices (R134). -/
def laneWord (ks : List Nat) : Word :=
  match ks with
  | [] => 0
  | k :: _ => BitVec.ofNat 64 (ks.length * 2 ^ 32 + ks.getLastD k * 2 ^ 16 + k)

/-- Joins the flags of elements. -/
def joinFlags (fs : List (Nat × Nat)) : Nat := fs.foldl (fun a f => a ||| f.2) 0

/-- Traps for an enabled condition that an active element raised (R134): `fs` gives logical indices, rising, with the
flags each raised. INT_DIVZERO goes before INT_OVERFLOW before FP_ENABLED. -/
def checkEnabled (fs : List (Nat × Nat)) : M Unit := do
  let g ← curRegs
  let on := g.atc.toNat % 128
  let all := joinFlags fs
  let who := fun bit => (fs.filter fun f => f.2 &&& bit != 0).map (·.1)
  let give := fun cause bit => (throw (.trap ⟨cause, BitVec.ofNat 64 all, laneWord (who bit), none, none, none⟩) : M Unit)
  if all &&& on &&& fIDZ ≠ 0 then give cIDZ fIDZ
  else if all &&& on &&& fIOV ≠ 0 then give cIOV fIOV
  else if all &&& on &&& 31 ≠ 0 then give cFP (on &&& 31)

/-! ## The vector instruction queue (R109, R116) -/

/-- Whether an instruction of a class is rechecked, and the rank's new sample count (R394). -/
def State.sampled (s : State) (cls : Nat) : Bool × Nat :=
  match (s.hart s.cur).node with
  | none => (false, 0)
  | some (p, k, r) =>
    let n := (s.rank p k r).samples
    if cls = 0 ∨ cls > 5 then (false, n) else
    match s.part p with
    | none => (false, n)
    | some x =>
      let period := max x.relyK.toNat 1
      (x.relyMode == 1 || (x.relyMode == 2 && n % period == period - 1), n + 1)

/-- The classes of the instructions from the hart's own to the end of its convoy (R103, R113). SETSHAPE has none. -/
def Hart.convoyClasses (h : Hart) (cls : Nat) : List Nat :=
  match h.line with
  | none => [cls]
  | some l =>
    let own := (convoyHeads l.bits ((h.regs.pc.toNat % 64 - 2) / 2)).map fun j =>
      unitClass (lineOpcode l.bits j).1 (lineOpcode l.bits j).2
    if own.all (· == 0) then [cls] else own.filter (· != 0)

/-- A claim reaches the sequencer: its first attempt on a slot (R239). -/
def Slot.attempt (x : Slot) (h : Nat) : Slot :=
  if x.owner = some h then { x with content := none }
  else if x.owner = none ∧ x.waiting = [] then { x with owner := some h, content := none }
  else { x with waiting := x.waiting ++ [h] }

/-- Whether a hart holds a slot and waits for it no more (R239). -/
def Slot.grantedTo (x : Slot) (h : Nat) : Bool := x.owner == some h && !x.waiting.contains h

/-- Slot p of a core's Palette. -/
def Core.slot (c : Core) (p : Nat) : Slot := c.slots.toList.getD p Slot.reset

/-- Writes slot p of a core's Palette. -/
def Core.setSlot (c : Core) (p : Nat) (x : Slot) : Core := { c with slots := c.slots.setIfInBounds p x }

/-- Counts in a core counter, saturating at 48 bits (R316). -/
def Core.count (c : Core) (i n : Nat) : Core :=
  { c with counters := c.counters.setIfInBounds i (min (c.counters.toList.getD i 0 + n) 0xFFFFFFFFFFFF) }

/-- An entry starts on a core: its element groups are counted (R316), and a claim makes its first attempt (R239). -/
def QueueEntry.start (e : QueueEntry) (h : Nat) (c : Core) : QueueEntry × Core :=
  let c := c.count 3 e.groups
  match e.claim with
  | some (p, _) => ({ e with started := true, claim := some (p, some (c.slot p)) }, c.setSlot p ((c.slot p).attempt h))
  | none => ({ e with started := true }, c)

/-- Whether an entry's claim has not been granted yet. -/
def QueueEntry.claiming (e : QueueEntry) (h : Nat) (c : Core) : Bool :=
  match e.claim with
  | some (p, _) => !e.started || !(c.slot p).grantedTo h
  | none => false

/-- Places an entry in the queue of a hart: it starts a convoy, or belongs to the one before it, and runs at once when that
has started (R113). -/
def State.place (s : State) (h : Nat) (e : QueueEntry) : State :=
  let x := s.hart h
  let x1 := { x with convoyStart := false }
  if x.convoyStart || (x.running.isNone && x.queue.isEmpty) then
    s.setHart h { x1 with queue := x.queue ++ [{ e with convoy := some (x.convoyClasses e.cls) }] }
  else match x.running with
    | some v =>
      if x.queue.all (·.started) then
        let (e1, c) := e.start h (s.core (coreOf h))
        (s.setCore (coreOf h) c).setHart h { x1 with
          queue := x.queue ++ [e1], running := some { v with toCome := v.toCome - 1 } }
      else s.setHart h { x1 with queue := x.queue ++ [e] }
    | none => s.setHart h { x1 with queue := x.queue ++ [e] }

/-- Places an instruction in the queue with the flags it will merge, its element groups (R114), its issue cycles (R121) and
the slot it claims. A full queue of 64 stalls it (R109). What a precise trap returns to is written when the instruction has
completed. An instruction whose effects stand outside the registers traps no more (log 8). -/
def enqueue (cls flags groups cost : Nat) (claim : Option Nat := none) : M Unit := do
  let s ← get
  let h := s.hart s.cur
  if h.queue.length ≥ 64 then again
  let (due, n) := s.sampled cls
  if n != s.curRank.samples then set (s.updCurRank fun r => { r with samples := n })
  change fun s => s.place s.cur {
    pc := h.regs.pc, cls := cls, flags := BitVec.ofNat 7 flags, later := 0, convoy := none, started := false
    written := false, final := claim.isNone && [6, 8, 9, 10].contains cls, groups := groups, cost := cost
    recheck := if due then .due else .none, claim := claim.map fun p => (p, none), before := s.beforeOf s.cur }

/-- The units of a started convoy are free once every instruction of it has written its last element group (R113). -/
def Hart.drained (h : Hart) : Hart :=
  match h.running with
  | none => h
  | some v =>
    let whole := v.toCome == 0 || h.convoyStart || h.queue.any fun e => !e.started
    if whole && h.queue.all fun e => !e.started || e.written then { h with running := none } else h

/-- The oldest queued instruction retires: its flags are merged, with those of the scalar divisions behind it (R116). -/
def Hart.retireHead (h : Hart) : Hart :=
  match h.queue with
  | [] => h
  | e :: rest => ({ h with queue := rest, regs := h.regs.mergeFlags (e.flags ||| e.later) }).drained

/-- Whether the oldest queued instruction may retire (R116): it can trap no more, or it has written, any recheck has agreed
and any claim has been granted; a vector access of the hart in the issue queue has its elements still to write. -/
def State.canRetire (s : State) (h : Nat) : Bool :=
  match (s.hart h).queue with
  | [] => false
  | e :: _ => !((s.hart h).iq.any (·.vec)) && (e.final || (e.written && e.recheck != .due && !e.claiming h (s.core (coreOf h))))

/-- Counts an entry that retires without a turn of its own to start: its convoy and its element groups (R316). -/
def Core.countUnstarted (c : Core) (e : QueueEntry) : Core :=
  if e.started then c else (if e.convoy.isSome then c.count 2 1 else c).count 3 e.groups

/-- Retires instructions of a hart while the oldest may retire. -/
def State.retireReady (s : State) (h fuel : Nat) : State :=
  match fuel with
  | 0 => s
  | fuel + 1 =>
    if s.canRetire h then
      let s1 := (s.hart h).queue.head?.elim s fun e => s.updCore (coreOf h) (·.countUnstarted e)
      (s1.updHart h Hart.retireHead).retireReady h fuel
    else s

/-- Takes the youngest claim of a hart out of the claims that wait. -/
def dropClaim (h : Nat) (ws : List Nat) : List Nat := (ws.reverse.erase h).reverse

/-- Takes back the claim of an entry, the youngest first: a waiting claim goes, a slot that was the hart's already holds what it
held, and a granted one frees the slot. -/
def QueueEntry.unclaim (e : QueueEntry) (h : Nat) (c : Core) : Core :=
  match e.claim with
  | some (p, some found) =>
    let x := c.slot p
    if x.waiting.contains h then c.setSlot p { x with waiting := dropClaim h x.waiting }
    else if x.owner ≠ some h then c
    else if found.owner = some h then c.setSlot p { x with content := found.content }
    else c.setSlot p x.release
  | _ => c

/-- A trap bank as a hart returns to it: PEND and UNRES follow the pager's replies (R407). -/
def TrapBank.undone (old now : TrapBank) : TrapBank :=
  { old with cause := (old.cause &&& ~~~0xC000) ||| (now.cause &&& 0xC000) }

/-- Registers as they stood before a queued instruction, with the flags of those retired since (R112). -/
def Regs.undone (old now : Regs) : Regs :=
  { old with
    fflags := now.fflags
    trap1 := old.trap1.undone now.trap1
    trap2 := old.trap2.undone now.trap2 }

/-- Undoes every instruction that a hart has queued, and the scalar instructions behind the oldest (R112): nothing of them
has left the hart. -/
def State.undo (s : State) (h : Nat) : State :=
  match (s.hart h).queue with
  | [] => s
  | e :: _ =>
    let x := s.hart h
    let s1 := s.updCore (coreOf h) fun c => x.queue.foldr (fun e c => e.unclaim h c) c
    let s2 := s1.setHart h { x with
      queue := [], running := none, line := none, blocked := none, partway := none, limit := none, probed := []
      unchecked := e.before.unchecked, regs := e.before.regs.undone x.regs }
    match x.node with
    | some (p, k, r) => s2.updRank p k r fun y => { y with
        poison := e.before.poison, samples := e.before.samples, femPc := e.before.femPc, requests := [] }
    | none => s2

/-- Waits while a claim of the hart is to be granted (R239). -/
def settleClaims : M Unit := do
  let s ← get
  let h := s.hart s.cur
  if h.queue.any fun e => e.claiming s.cur (s.core (coreOf s.cur)) then again

/-- Flags of a scalar instruction: merged at its place in program order, behind those of the queued instructions (R112,
R116). -/
def Hart.flagged (h : Hart) (f : BitVec 7) : Hart :=
  match h.queue.reverse with
  | [] => { h with regs := h.regs.mergeFlags f }
  | e :: rest => { h with queue := (({ e with later := e.later ||| f }) :: rest).reverse }

end Sys2Proof.Machine
end

