-- ==== Sys2Proof/Machine/Operands.lean ====
section
/-!
DEFINITION. Operands.lean: VTYPE's fields (R198), shape tags (R146), granules (R78), register groups (R192, R118), reading
and writing tiles (R193, R194, R79), and the values a vector instruction captures (R109).
-/

namespace Sys2Proof.Machine

/-! ## VTYPE (R198) -/

def vtFmt (v : Word) : Nat := bits v.toNat 3 0
def vtGroup (v : Word) : Nat := 2 ^ bits v.toNat 5 4
def vtCap (v : Word) : Nat := bits v.toNat 13 10
def vtPolicy (v : Word) : Nat := bits v.toNat 15 14

/-- VLMAX (R74). -/
def vlMax (v : Word) : Nat := if fmtWidth (vtFmt v) = 0 then 0 else 16384 * vtGroup v / fmtWidth (vtFmt v)

/-- VLT (R191). -/
def Regs.vlt (g : Regs) : Nat := min (vlMax g.vtype) (32768 / max g.rc.toNat 1)

/-! ## Shape tags (R146) -/

def tagFmt (t : Word) : Nat := bits t.toNat 3 0
def tagBasis (t : Word) : Nat := bits t.toNat 7 6
def tagDims (t : Word) : Nat := bits t.toNat 9 8 + 1
def tagRows (t : Word) : Nat := bits t.toNat 44 40
def tagLen (t : Word) : Nat := bits t.toNat 60 48

/-- The degrees along the axes the tag has (R145). -/
def tagDegs (t : Word) : List Nat :=
  [bits t.toNat 19 16, bits t.toNat 23 20, bits t.toNat 27 24].take (tagDims t)

/-- K: the coefficient count of degrees (R145). -/
def coeffs (degs : List Nat) : Nat := degs.foldl (fun a p => a * (p + 1)) 1

/-- Whether a tag is MODAL or NODAL. -/
def isFun (t : Word) : Bool := tagRows t != 0 && (tagBasis t == 1 || tagBasis t == 2)

/-- Whether a tag is PLAIN and allocated. -/
def isPlain (t : Word) : Bool := tagRows t != 0 && tagBasis t == 0

/-- A PLAIN tag (R194). -/
def plainTag (fmt rows len : Nat) : Word := BitVec.ofNat 64 (len * 2 ^ 48 + rows * 2 ^ 40 + fmt)

/-- A function tag. -/
def funTag (fmt basis rows : Nat) (degs : List Nat) : Word :=
  BitVec.ofNat 64 (rows * 2 ^ 40 + degs.getD 2 0 * 2 ^ 24 + degs.getD 1 0 * 2 ^ 20 + degs.getD 0 0 * 2 ^ 16 +
    (degs.length - 1) * 2 ^ 8 + basis * 2 ^ 6 + fmt)

/-- Bytes of a row of a shape (R78). -/
def rowBytes (t : Word) : Nat :=
  let w := fmtWidth (tagFmt t)
  if isFun t then coeffs (tagDegs t) * w / 8 else ceilDiv (tagLen t * w) 8

/-- Granules of a shape (R78). -/
def tagGranules (t : Word) : Nat := ceilDiv (tagRows t * rowBytes t) 256

/-- Granules in use by a hart. -/
def Regs.used (g : Regs) : Nat := (g.f.toList.map fun x => tagGranules x.tag).sum

/-- The pool's free granules (R75). -/
def Regs.freeGranules (g : Regs) : Nat := Config.granules - g.used

/-! ## Reading tiles (R193) -/

/-- Stored row j of a tile as a number; rows beyond read as zero. -/
def Tile.row (t : Tile) (j : Nat) : Nat := if j < tagRows t.tag then ((t.rows[j]?).getD 0).toNat else 0

/-- n elements of w bits from position i0 of row j, read by a form not in function mode (R193). -/
def Tile.elems (t : Tile) (w j i0 n : Nat) : List Nat :=
  let x := t.row j
  let plain := tagBasis t.tag == 0
  let len := tagLen t.tag
  (List.range n).map fun i => if plain && i0 + i ≥ len then 0 else x / 2 ^ ((i0 + i) * w) % 2 ^ w

/-- Elements per register of a grouped row (R192). -/
def perReg (w : Nat) : Nat := 16384 / w

/-- Row j of n elements of the group at field x (R192). -/
def Regs.groupRow (g : Regs) (x grp w j n : Nat) : List Nat :=
  (List.range grp).flatMap fun r =>
    (g.getF (x + r)).elems w j 0 (min (n - min n (r * perReg w)) (perReg w))

/-- The whole RC x VL tile at field x in logical order (R73, R190). -/
def Regs.tile (g : Regs) (x grp w rows n : Nat) : List Nat :=
  (List.range rows).flatMap fun j => g.groupRow x grp w j n

/-! ## Writing tiles (R79, R194) -/

/-- A row of elements of w bits as storage. -/
def packRow (w : Nat) (es : List Nat) : TileRow :=
  BitVec.ofNat 16384 (es.foldr (fun e a => a * 2 ^ w + e % 2 ^ w) 0)

/-- A register write: physical register, tile. -/
abbrev TileWrite := Nat × Tile

/-- The writes of rows of n elements to the group at field x, PLAIN in a format (R192, R194). -/
def Regs.groupWrites (g : Regs) (x grp fmt : Nat) (rows : List (List Nat)) (n : Nat) : List TileWrite :=
  let w := fmtWidth fmt
  (List.range grp).map fun r =>
    let len := min (n - min n (r * perReg w)) (perReg w)
    (g.phys (x + r), ⟨plainTag fmt rows.length len, rows.map fun es => packRow w ((es.drop (r * perReg w)).take len)⟩)

/-- Cuts a list into m rows of n. -/
def rowsOf {α : Type} (n : Nat) (m : Nat) (es : List α) : List (List α) :=
  (List.range m).map fun j => (es.drop (j * n)).take n

/-- TVAL of DEGREE_STORAGE (R157). -/
def storageVal (why need avail : Nat) : Word := BitVec.ofNat 64 (why * 2 ^ 40 + need * 2 ^ 16 + avail)

/-- Granules needed and available for some writes with some physical source registers (R79). -/
def Regs.storageNeed (g : Regs) (ws : List TileWrite) (sources : List Nat) : Nat × Nat :=
  let old := (ws.filter fun w => !sources.contains w.1).map fun w =>
    tagGranules ((g.f.toList.getD w.1 Tile.empty).tag)
  ((ws.map fun w => tagGranules w.2.tag).sum, g.freeGranules + old.sum)

/-- Traps DEGREE_STORAGE when the pool cannot hold some writes (R79). -/
def checkStorage (ws : List TileWrite) (sources : List Nat) : M Unit := do
  let g ← curRegs
  let (need, avail) := g.storageNeed ws sources
  if need > avail then trap cSTORAGE (storageVal 2 need avail)

/-- Writes tiles. -/
def Regs.putTiles (g : Regs) (ws : List TileWrite) : Regs :=
  ws.foldl (fun g w => { g with f := g.f.setIfInBounds w.1 w.2 }) g

/-- Writes tiles to the registers of the hart that runs. -/
def writeTiles (ws : List TileWrite) : M Unit := updRegs (·.putTiles ws)

/-- The physical registers of the group at a field. -/
def Regs.physGroup (g : Regs) (x grp : Nat) : List Nat := (List.range grp).map fun r => g.phys (x + r)

/-! ## Captured values (R109) -/

/-- What a vector instruction captures at commit. -/
structure Cap where
  g : Regs
  vl : Nat
  rc : Nat
  fmt : Nat
  w : Nat
  grp : Nat
  mask : Mask
  deriving Repr

/-- Captures the state for an instruction governed by a mask. -/
def Regs.capture (g : Regs) (mask : Reg3) : Cap where
  g := g
  vl := g.vl.toNat
  rc := g.rc.toNat
  fmt := vtFmt g.vtype
  w := fmtWidth (vtFmt g.vtype)
  grp := vtGroup g.vtype
  mask := g.getM mask

/-- Captures the state, VTYPE being valid (R196 step 2). -/
def captured (mask : Reg3) : M Cap := do
  needVtype
  let g ← curRegs
  pure (g.capture mask)

/-- The tile at a field. -/
def Cap.tile (c : Cap) (x : Nat) : List Nat := c.g.tile x c.grp c.w c.rc c.vl

/-- Swept elements. -/
def Cap.count (c : Cap) : Nat := c.rc * c.vl

/-- Whether element k is active (R190). -/
def Cap.active (c : Cap) (k : Nat) : Bool := c.mask.getLsbD k

/-- The rounding mode of an instruction: its modifier, else RM; SR acts as RNE (R129, R169, R207). -/
def Regs.mode (g : Regs) (rm : Reg3) : Mode :=
  let code := if rm = 0 then bits g.frm.toNat 2 0 else rm.toNat - 1
  ⟨if code = 5 then 0 else code, g.frm.getLsbD 8, 0⟩

/-- Traps ILLEGAL with a reason when a check fails. -/
def require (ok : Bool) (why : Nat) : M Unit := if ok then pure () else illegal why

/-- Group alignment of fields (R192). -/
def aligned (grp : Nat) (xs : List Reg) : Bool := xs.all fun x => x.toNat % grp == 0

/-- Whether groups at fields overlap, as logical registers. -/
def groupsMeet (x n y m : Nat) : Bool := decide (x < y + m) && decide (y < x + n)

end Sys2Proof.Machine
end

