-- ==== Sys2Proof/Machine/Configure.lean ====
section
/-!
DEFINITION. Configure.lean: SETVL, SETRC, SETVT, SETDIM, GETSHAPE and SETSHAPE (R198-R206), and writes of VL, RC and
VTYPE by MTSR, which have the same effects (R186).
-/

namespace Sys2Proof.Machine

/-- Whether a VTYPE request is supported (R108, R148, R199). -/
def vtSupported (r : Word) : Bool :=
  let x := r.toNat
  let fmt := bits x 3 0
  let basis := bits x 7 6
  decide (x < 2 ^ 16) && decide (fmt ≤ 10) && basis != 3 && bits x 9 8 != 3 && bits x 15 14 != 3 &&
    (if basis = 0 then bits x 9 8 == 0 else (fmt == 8 || fmt == 9) && bits x 5 4 == 0)

/-- VL := min(request, VLT) (R201). -/
def Regs.setVl (g : Regs) (r : Word) : Regs := { g with vl := BitVec.ofNat 64 (min r.toNat g.vlt) }

/-- RC := the request brought into 1-16, VL trimmed (R202). -/
def Regs.setRc (g : Regs) (r : Word) : Regs :=
  let rc := min (max r.toNat 1) 16
  { g with rc := BitVec.ofNat 64 rc, vl := BitVec.ofNat 64 (min g.vl.toNat (32768 / rc)) }

/-- VTYPE takes the request, or VREJ is set (R203). -/
def Regs.setVt (g : Regs) (r : Word) : Regs :=
  if vtSupported r then
    let g1 := { g with vtype := r }
    { g1 with vl := BitVec.ofNat 64 (min g.vl.toNat g1.vlt) }
  else { g with vtype := BitVec.ofNat 64 (2 ^ 63 + r.toNat % 65536), vl := 0 }

/-- What SETVT returns: VLMAX, or 0 (R203). -/
def vtAnswer (r : Word) : Word := if vtSupported r then BitVec.ofNat 64 (vlMax r) else 0

/-- R201. -/
def execSetvl (rd ra : Reg) (s : State) : Host.Outcome State Fault Refusal := instr (do
  needVtype
  let a ← readS ra
  updRegs (·.setVl a)
  let g ← curRegs
  writeS rd g.vl
  advance) s

/-- R202. -/
def execSetrc (rd ra : Reg) (s : State) : Host.Outcome State Fault Refusal := instr (do
  let a ← readS ra
  updRegs (·.setRc a)
  let g ← curRegs
  writeS rd g.rc
  advance) s

/-- R203. -/
def execSetvt (rd : Reg) (request : Word) (s : State) : Host.Outcome State Fault Refusal := instr (do
  updRegs (·.setVt request)
  writeS rd (vtAnswer request)
  advance) s

/-- DLENk and DSTEPk written under their field maps (R289). -/
def Regs.setDlen (g : Regs) (k : Nat) (v : Word) : Regs :=
  { g with dlen := g.dlen.setIfInBounds k (v &&& 0xFFFFFFFF) }
def Regs.setDstep (g : Regs) (k : Nat) (v : Word) : Regs := { g with dstep := g.dstep.setIfInBounds k v }

/-- R204. -/
def execSetdim (k : BitVec 2) (ra rb : Reg) (s : State) : Host.Outcome State Fault Refusal := instr (do
  if k = 3 then illegal 6
  let a ← readS ra
  let b ← readS rb
  updRegs fun g => (g.setDlen k.toNat a).setDstep k.toNat b
  advance) s

/-- Whether a queued instruction has written a physical tile register. -/
def Hart.tileWritten (h : Hart) (f : Nat) : Bool :=
  h.queue.any fun e => e.before.regs.f.toList.getD f Tile.empty != h.regs.f.toList.getD f Tile.empty

/-- R205: waits until every earlier instruction that writes f[a] has retired. -/
def execGetshape (rd ra : Reg) (s : State) : Host.Outcome State Fault Refusal := instr (do
  let h ← curHart
  let g := h.regs
  if h.tileWritten (g.phys ra.toNat) then again
  writeS rd (g.getF ra.toNat).tag
  advance) s

/-- The reserved bits of a shape tag (R146). -/
def tagReserved (t : Word) : Bool :=
  bits t.toNat 63 61 != 0 || bits t.toNat 47 45 != 0 || bits t.toNat 39 28 != 0 || bits t.toNat 15 10 != 0 ||
    bits t.toNat 5 4 != 0

/-- Whether SETSHAPE accepts a non-zero tag (R206). -/
def tagAccepted (t : Word) : Bool :=
  !tagReserved t && tagBasis t != 3 && tagRows t != 0 && decide (tagRows t ≤ 16) && decide (tagFmt t ≤ 10) &&
    (if tagBasis t = 0 then tagDims t == 1 && decide (tagLen t * fmtWidth (tagFmt t) ≤ 16384) else tagLen t == 0)

/-- Whether a function shape is legal (R147). -/
def shapeLegal (fmt : Nat) (degs : List Nat) : Bool :=
  (fmt == 8 || fmt == 9) && degs.all (· ≤ 15) && decide (coeffs degs * fmtWidth fmt / 8 ≤ 2048)

/-- Traps DEGREE_STORAGE WHY 1 unless a function shape is legal (R147, R157). -/
def checkShape (fmt : Nat) (degs : List Nat) : M Unit :=
  if shapeLegal fmt degs then pure () else trap cSTORAGE (storageVal 1 (coeffs degs) 0)

/-- A tile under another tag: bytes kept where both shapes have them (R206). -/
def Tile.retag (x : Tile) (t : Word) : Tile :=
  ⟨t, (List.range (tagRows t)).map fun j => BitVec.ofNat 16384 (x.row j % 2 ^ (8 * rowBytes t))⟩

/-- R206. Executes in queue order. -/
def execSetshape (rd ra : Reg) (s : State) : Host.Outcome State Fault Refusal := instr (do
  let g ← curRegs
  let t ← readS ra
  let d := g.phys rd.toNat
  if t = 0 then writeTiles [(d, Tile.empty)]
  else
    require (tagAccepted t) 6
    if isFun t then checkShape (tagFmt t) (tagDegs t)
    let w := (d, (g.getF rd.toNat).retag t)
    checkStorage [w] [d]
    writeTiles [w]
  enqueue 0 0 0 1
  advance) s

end Sys2Proof.Machine
end

