-- ==== Sys2Proof/Machine/RegRead.lean ====
section
/-!
DEFINITION. RegRead.lean: device registers as they are read (R5): the management region of a virtual function (R40, R48,
R57-R60, R286, R374, R394, R398, R410, R419, R420) and the Silven register block (R19, R22, R275, R288, R379, R390, R420,
R422), with who may read them (R38, R39).
-/

namespace Sys2Proof.Machine

/-- Whether a partition answers its virtual function (R425). -/
def State.alive (s : State) (p : Nat) : Bool :=
  match s.part p with
  | some x => x.teardown == .none
  | none => false

/-- The value of all-ones that a dropped or denied read gives (R39, R40). -/
def allOnes : Word := 0xFFFFFFFFFFFFFFFF

/-- Register i of an error log as read. -/
def Ring.read (r : Ring) (i : Nat) : Word :=
  match i with
  | 0 => r.base
  | 1 => BitVec.ofNat 64 (r.head.toNat * 2 ^ 32 + r.len.toNat)
  | 2 => r.tail.setWidth 64
  | _ => BitVec.ofNat 64 r.drop

/-- The core-level margin registers (R386-R388, R390). -/
def Core.marginSet (c : Core) : Word := BitVec.ofNat 64 (c.floor * 2 ^ 16 + c.esc * 2 ^ 8 + c.stepPoint)
def Core.replayLimit (c : Core) : Word := BitVec.ofNat 64 (c.window * 2 ^ 16 + c.limit)
def Core.replayCount (c : Core) : Word := BitVec.ofNat 64 (c.escn * 2 ^ 56 + c.wincnt * 2 ^ 32 + c.total)
def Core.quarWord (c : Core) : Word := BitVec.ofNat 64 (c.quarState * 2 ^ 62 + c.quarCause * 2 ^ 56)

/-! ## The management region of a partition -/

/-- A number whose set bits are the keys of a table. -/
def keyMap {α : Type} (t : Table α) : Nat := (t.map fun e => 2 ^ e.1).sum

/-- The code of a table state (R59). -/
def SchedState.code (x : SchedState) : Nat :=
  match x with
  | .idle => 0 | .loading => 1 | .running => 2 | .done => 3 | .faulted => 4 | .stopping => 5

/-- SCHED_STAT (R59). -/
def SchedTable.stat (x : SchedTable) : Word :=
  BitVec.ofNat 64 (x.state.code * 2 ^ 61 + x.err * 2 ^ 56 + x.stall * 2 ^ 53 + x.fscUp * 2 ^ 46 + x.fscDown * 2 ^ 39 +
    x.stash.length * 2 ^ 32 + x.head)

/-- A register of a schedule block as read (R57). -/
def SchedTable.read (x : SchedTable) (o : Nat) : Option Word :=
  match o with
  | 0x00 => some x.ctl | 0x08 => some x.base | 0x10 => some x.actBase | 0x18 => some x.gradBase
  | 0x20 => some x.slotBytes | 0x28 => some x.stat
  | 0x30 => some (BitVec.ofNat 64 (keyMap x.stash)) | 0x38 => some (BitVec.ofNat 64 (keyMap x.actFilled))
  | 0x40 => some (BitVec.ofNat 64 (keyMap x.gradFilled)) | 0x48 => some (x.dropMsgs ++ x.dropEntries)
  | 0x50 | 0x58 | 0x60 | 0x68 | 0x70 | 0x78 | 0x80 =>
    some (BitVec.ofNat 64 (x.bub.toList.getD ((o - 0x50) / 8) 0))
  | _ => none

/-- A register of a partition as read; none where there is no register. -/
def Partition.readReg (x : Partition) (offset : Nat) : Option Word :=
  let w := fun n : Nat => some (BitVec.ofNat 64 n)
  match offset with
  | 0x000 => some 0
  | 0x008 => w x.enable.toNat
  | 0x010 => some (x.dropped ++ x.accepted)
  | 0x018 => some (x.reads ++ x.lastHandle.setWidth 32)
  | 0x040 => w (x.keystone.toNat * 2 ^ 32 + x.specMax.toNat * 2 ^ 8 + x.det.toNat)
  | 0x048 => some (x.aborts ++ x.commits)
  | 0x050 => w (x.relyK.toNat * 2 ^ 16 + x.relyMode.toNat)
  | 0x058 => some x.klogBase
  | 0x060 => w x.klogPages
  | 0x070 => some x.csaBase
  | 0x078 => w (x.csaUsed.length * 2 ^ 16 + x.csaSlots)
  | 0x080 | 0x088 | 0x090 | 0x098 => some (x.elog.read ((offset - 0x080) / 8))
  | 0x0A0 => some x.acctRet
  | 0x0A8 => some (x.acctCanc ++ x.acctFail)
  | 0x0B0 => some x.acctPcyc
  | 0x0B8 => some x.acctHcyc
  | _ =>
    if 0x3000 ≤ offset ∧ offset < 0x3200 then some ((tget x.chr ((offset - 0x3000) / 8)).getD 0)
    else if 0x4000 ≤ offset ∧ offset < 0x4100 then some ((tget x.coll ((offset - 0x4000) / 8)).getD 0)
    else none

/-- A read of a management region by a unit: all-ones where it is dropped or denied (R39, R40, R57, R425). -/
def State.readManagement (s : State) (u : AccUnit) (p offset : Nat) : Option Word :=
  if !s.alive p then some allOnes else
  match s.part p with
  | none => some allOnes
  | some x =>
    if 0x1000 ≤ offset ∧ offset < 0x2000 then
      let t := (offset - 0x1000) / 0x100
      if x.tables.contains t && (s.rights p .dispatcher u).getLsbD 5 then (s.sched t).read (offset % 0x100)
      else some allOnes
    else x.readReg offset

/-! ## The Silven register block -/

/-- A channel's counters (R288): register i as read. -/
def ChannelCount.read (c : ChannelCount) (i : Nat) : Nat :=
  match i with
  | 0 => c.rd | 1 => c.wr | 2 => c.rowc | _ => c.refs

/-- PORT_STAT (R379). -/
def Port.word (x : Port) : Word :=
  BitVec.ofNat 64 (x.state * 2 ^ 62 + x.dcause * 2 ^ 60 + x.lretry * 2 ^ 24 + x.dlresend)

/-- Whether the Silven block answers at an offset now (R19). -/
def State.silvenAnswers (s : State) (offset : Nat) : Bool :=
  (s.st.stage == 3 || offset == 0x000 || offset == 0x008 || (decide (0x50000 ≤ offset) && decide (offset ≤ 0x50018)))

/-- PEER_FAIL i (R379). -/
def State.peerFailWord (s : State) (i : Nat) : Word :=
  BitVec.ofNat 64 (((List.range 64).filter fun k => decide (64 * i + k < Config.peers) && (s.peer (64 * i + k)).failed).map
    fun k => 2 ^ k).sum

/-- A read of the Silven register block; none where there is no register. -/
def State.readSilven (s : State) (offset : Nat) : Option Word :=
  let w := fun n : Nat => some (BitVec.ofNat 64 n)
  if !s.silvenAnswers offset then some allOnes
  else if offset = 0x000 then w s.st.word
  else if offset = 0x008 then some 0
  else if offset = 0x100 then some s.trAnchor
  else if 0x140 ≤ offset ∧ offset < 0x1C0 then some ((tget s.trPool ((offset - 0x140) / 8)).getD 0)
  else if offset = 0x1C0 then some s.trCount
  else if 0x10000 ≤ offset ∧ offset < 0x10000 + 32 * 296 then
    w (((tget s.chans ((offset - 0x10000) / 32)).getD ⟨0, 0, 0, 0⟩).read (offset % 32 / 8))
  else if 0x20000 ≤ offset ∧ offset < 0x20000 + 8 * 72 then some (s.port ((offset - 0x20000) / 8)).word
  else if offset = 0x20400 then w (s.fabFailt * 2 ^ 16 + s.fabDlt)
  else if 0x20480 ≤ offset ∧ offset < 0x204B0 then some (s.peerFailWord ((offset - 0x20480) / 8))
  else if 0x30000 ≤ offset ∧ offset < 0x30000 + 8 * 192 then some (s.core ((offset - 0x30000) / 8)).quarWord
  else if offset = 0x40000 then w s.pwrCap
  else if offset = 0x40008 then w (s.pwrEst * 2 ^ 32 + s.pwrDuty)
  else if 0x50000 ≤ offset ∧ offset ≤ 0x50018 then some (s.dlog.read ((offset - 0x50000) / 8))
  else if offset = 0x60000 then some 0
  else none

/-- Whether an access comes from the host through the virtual function of a partition that is torn down, or of none: it is
dropped (R425). -/
def State.dropsHost (s : State) (master : Option Nat) (u : AccUnit) : Bool :=
  match master with
  | some p => u == .host && !s.alive p
  | none => false

/-- Whether the Silven block lets a master in: the physical function, or a partition's unit with the SILV right (R38). -/
def State.silvenGrants (s : State) (master : Option Nat) (u : AccUnit) : Bool :=
  match master with
  | some p => (s.rights p .silven u).getLsbD 7
  | none => true

/-- Whether the access tables grant a unit an access to a register (R38, R41, R57). -/
def State.registerGrants (s : State) (u : AccUnit) (space : RegSpace) (offset : Nat) (write : Bool) : Bool :=
  match space with
  | .silven master => s.silvenGrants master u
  | .management p =>
    let t := s.rights p .dispatcher u
    if 0x1000 ≤ offset ∧ offset < 0x2000 then
      (((s.part p).map (·.tables)).getD []).contains ((offset - 0x1000) / 0x100) && t.getLsbD 5
    else !(write && offset == 0) || t.getLsbD 3

/-- A register as a unit reads it in an access of a width: all-ones unless it is aligned and of 8 bytes (R40, R57) and the
access tables grant it (R39). -/
def State.readRegister (s : State) (u : AccUnit) (space : RegSpace) (offset width : Nat) : Option Word :=
  if offset % 8 ≠ 0 ∨ width ≠ 8 then some allOnes else
  match space with
  | .silven master =>
    if !s.dropsHost master u && s.silvenGrants master u then s.readSilven offset else some allOnes
  | .management p => s.readManagement u p offset

end Sys2Proof.Machine
end

