-- ==== Sys2Proof/Machine/Scalar.lean ====
section
/-!
DEFINITION. Scalar.lean: scalar arithmetic (R170-R172), loads and stores (R173-R175), also to device registers through a
mapping (R392), AMO and CAS (R176, R177).
-/

namespace Sys2Proof.Machine

/-- A register form: s[d] := f(s[a], s[b]) (R170). -/
def alu (f : Word → Word → Word) (rd ra rb : Reg) : M Unit := do
  let a ← readS ra
  let b ← readS rb
  writeS rd (f a b)
  advance

/-- An immediate form: s[d] := f(s[a], imm) (R172). -/
def aluImm (f : Word → Word → Word) (rd ra : Reg) (imm : Word) : M Unit := do
  let a ← readS ra
  writeS rd (f a imm)
  advance

/-- A shift count (R170). -/
def shiftCount (b : Word) : Nat := b.toNat % 64

def opSll (a b : Word) : Word := a <<< shiftCount b
def opSrl (a b : Word) : Word := a >>> shiftCount b
def opSra (a b : Word) : Word := a.sshiftRight (shiftCount b)
def opSlt (a b : Word) : Word := if a.toInt < b.toInt then 1 else 0
def opSltu (a b : Word) : Word := if a.toNat < b.toNat then 1 else 0
def opUmin (a b : Word) : Word := if a.toNat ≤ b.toNat then a else b
def opUmax (a b : Word) : Word := if a.toNat ≤ b.toNat then b else a
def opSmin (a b : Word) : Word := if a.toInt ≤ b.toInt then a else b
def opSmax (a b : Word) : Word := if a.toInt ≤ b.toInt then b else a
def opMulh (a b : Word) : Word := BitVec.ofInt 64 (a.toInt * b.toInt / 2 ^ 64)
def opMulhu (a b : Word) : Word := BitVec.ofNat 64 (a.toNat * b.toNat / 2 ^ 64)

/-- R170. -/
def execAdd (rd ra rb : Reg) (s : State) : Host.Outcome State Fault Refusal := instr (alu (· + ·) rd ra rb) s
/-- R170. -/
def execSub (rd ra rb : Reg) (s : State) : Host.Outcome State Fault Refusal := instr (alu (· - ·) rd ra rb) s
/-- R170. -/
def execAnd (rd ra rb : Reg) (s : State) : Host.Outcome State Fault Refusal := instr (alu (· &&& ·) rd ra rb) s
/-- R170. -/
def execOr (rd ra rb : Reg) (s : State) : Host.Outcome State Fault Refusal := instr (alu (· ||| ·) rd ra rb) s
/-- R170. -/
def execXor (rd ra rb : Reg) (s : State) : Host.Outcome State Fault Refusal := instr (alu (· ^^^ ·) rd ra rb) s
/-- R170. -/
def execSll (rd ra rb : Reg) (s : State) : Host.Outcome State Fault Refusal := instr (alu opSll rd ra rb) s
/-- R170. -/
def execSrl (rd ra rb : Reg) (s : State) : Host.Outcome State Fault Refusal := instr (alu opSrl rd ra rb) s
/-- R170. -/
def execSra (rd ra rb : Reg) (s : State) : Host.Outcome State Fault Refusal := instr (alu opSra rd ra rb) s
/-- R170. -/
def execSlt (rd ra rb : Reg) (s : State) : Host.Outcome State Fault Refusal := instr (alu opSlt rd ra rb) s
/-- R170. -/
def execSltu (rd ra rb : Reg) (s : State) : Host.Outcome State Fault Refusal := instr (alu opSltu rd ra rb) s
/-- R170. -/
def execUmin (rd ra rb : Reg) (s : State) : Host.Outcome State Fault Refusal := instr (alu opUmin rd ra rb) s
/-- R170. -/
def execUmax (rd ra rb : Reg) (s : State) : Host.Outcome State Fault Refusal := instr (alu opUmax rd ra rb) s
/-- R170. -/
def execSmin (rd ra rb : Reg) (s : State) : Host.Outcome State Fault Refusal := instr (alu opSmin rd ra rb) s
/-- R170. -/
def execSmax (rd ra rb : Reg) (s : State) : Host.Outcome State Fault Refusal := instr (alu opSmax rd ra rb) s
/-- R170. -/
def execMul (rd ra rb : Reg) (s : State) : Host.Outcome State Fault Refusal := instr (alu (· * ·) rd ra rb) s
/-- R170. -/
def execMulh (rd ra rb : Reg) (s : State) : Host.Outcome State Fault Refusal := instr (alu opMulh rd ra rb) s
/-- R170. -/
def execMulhu (rd ra rb : Reg) (s : State) : Host.Outcome State Fault Refusal := instr (alu opMulhu rd ra rb) s

/-- DIV, DIVU, REM and REMU (R171): the enabled condition traps, else the value and the flag are written. -/
def division (isSigned rem : Bool) (rd ra rb : Reg) : M Unit := do
  let a ← readS ra
  let b ← readS rb
  let (q, r, flag) := divI 64 isSigned a.toNat b.toNat
  checkEnabled (if flag = 0 then [] else [(0, flag)])
  writeS rd (BitVec.ofNat 64 (if rem then r else q))
  if flag ≠ 0 then updHart (·.flagged (BitVec.ofNat 7 flag))
  advance

/-- R171. -/
def execDiv (rd ra rb : Reg) (s : State) : Host.Outcome State Fault Refusal := instr (division true false rd ra rb) s
/-- R171. -/
def execDivu (rd ra rb : Reg) (s : State) : Host.Outcome State Fault Refusal := instr (division false false rd ra rb) s
/-- R171. -/
def execRem (rd ra rb : Reg) (s : State) : Host.Outcome State Fault Refusal := instr (division true true rd ra rb) s
/-- R171. -/
def execRemu (rd ra rb : Reg) (s : State) : Host.Outcome State Fault Refusal := instr (division false true rd ra rb) s

/-- R172. -/
def execAddi (rd ra : Reg) (imm : Word) (s : State) : Host.Outcome State Fault Refusal :=
  instr (aluImm (· + ·) rd ra imm) s
/-- R172. -/
def execAndi (rd ra : Reg) (imm : Word) (s : State) : Host.Outcome State Fault Refusal :=
  instr (aluImm (· &&& ·) rd ra imm) s
/-- R172. -/
def execOri (rd ra : Reg) (imm : Word) (s : State) : Host.Outcome State Fault Refusal :=
  instr (aluImm (· ||| ·) rd ra imm) s
/-- R172. -/
def execXori (rd ra : Reg) (imm : Word) (s : State) : Host.Outcome State Fault Refusal :=
  instr (aluImm (· ^^^ ·) rd ra imm) s
/-- R172. -/
def execSlli (rd ra : Reg) (count : BitVec 6) (s : State) : Host.Outcome State Fault Refusal :=
  instr (aluImm opSll rd ra (count.setWidth 64)) s
/-- R172. -/
def execSrli (rd ra : Reg) (count : BitVec 6) (s : State) : Host.Outcome State Fault Refusal :=
  instr (aluImm opSrl rd ra (count.setWidth 64)) s
/-- R172. -/
def execSrai (rd ra : Reg) (count : BitVec 6) (s : State) : Host.Outcome State Fault Refusal :=
  instr (aluImm opSra rd ra (count.setWidth 64)) s
/-- R172. -/
def execSlti (rd ra : Reg) (imm : Word) (s : State) : Host.Outcome State Fault Refusal :=
  instr (aluImm opSlt rd ra imm) s
/-- R172. -/
def execSltiu (rd ra : Reg) (imm : Word) (s : State) : Host.Outcome State Fault Refusal :=
  instr (aluImm opSltu rd ra imm) s

/-! ## Loads and stores (R173-R175) -/

/-- The page of device registers an address of the hart that runs lies in (R392; log 49). -/
def State.regPage (s : State) (va : Nat) : Option RegPage :=
  s.regPages.find? fun x => x.part == (s.hart s.cur).part && x.page == pageOf va

/-- The registers a page reaches for its partition: the Silven block, or the partition's own management region. -/
def RegPage.target (x : RegPage) : RegSpace :=
  match x.space with
  | .silven _ => .silven (some x.part)
  | .management _ => .management x.part

/-- The offset of an address in the registers its page reaches. -/
def RegPage.at_ (x : RegPage) (addr : Word) : Nat := x.offset + addr.toNat % 65536

/-- The checks of an access to a device register, in the order of R173 (R38, R39). -/
def registerPlace (addr : Word) (n : Nat) (x : RegPage) (write : Bool) : M Unit := do
  let s ← get
  if addr.toNat % n ≠ 0 then trap cALIGN addr
  let right := if write then x.w else x.r
  if !right || !s.registerGrants .hart x.target (x.at_ addr) write then trap cPERM addr

/-- A load of a device register, behind the hart's own stores to registers; where there is no register the value is free
(log 3, log 49). -/
def loadRegister (addr : Word) (n : Nat) (x : RegPage) : M (List Byte) := do
  registerPlace addr n x false
  scalarOrder
  let s ← get
  if s.posted.any fun y => y.hart == s.cur then stall
  match s.readRegister .hart x.target (x.at_ addr) n with
  | some v => pure (leBytes n v.toNat)
  | none =>
    let v ← freshFree
    pure (leBytes n v.toNat)

/-- A store to a device register, under guarded issue (R392). -/
def storeRegister (addr : Word) (n : Nat) (d : Word) (x : RegPage) : M Unit := do
  registerPlace addr n x true
  guarded
  scalarOrder
  let v := BitVec.ofNat 64 (d.toNat % 256 ^ n)
  change fun s => { s with
    posted := s.posted ++ [⟨s.cur, x.target, x.at_ addr, n, v, true⟩] }

/-- The bytes a scalar load of n bytes reads (R173, R175). -/
def loadBytes (addr : Word) (n : Nat) : M (List Byte) := do
  let s ← get
  match s.regPage addr.toNat with
  | some x => loadRegister addr n x
  | none =>
    let (pl, e) ← scalarPlace addr n needR cLOAD
    scalarOrder
    let bs ← readAt addr.toNat n pl e
    match pl with
    | .pad _ => pure bs
    | _ =>
      unchecked
      pure bs

/-- A load of n bytes, extended by sign or by zero (R174). -/
def load (n : Nat) (isSigned : Bool) (rd ra : Reg) (imm : Word) : M Unit := do
  let a ← readS ra
  let bs ← loadBytes (a + imm) n
  writeS rd (if isSigned then sext (8 * n) (leNat bs) else BitVec.ofNat 64 (leNat bs))
  advance

/-- A store of the low n bytes of s[d] (R174, R49). -/
def store (n : Nat) (rd ra : Reg) (imm : Word) : M Unit := do
  let a ← readS ra
  let d ← readS rd
  let addr := a + imm
  let s ← get
  match s.regPage addr.toNat with
  | some x => storeRegister addr n d x
  | none =>
    let (pl, e) ← scalarPlace addr n needW cSTORE
    specCheck addr.toNat n pl
    storeAt addr.toNat (leBytes n d.toNat) pl e
  advance

/-- R174. -/
def execLdB (rd ra : Reg) (imm : Word) (s : State) : Host.Outcome State Fault Refusal := instr (load 1 true rd ra imm) s
/-- R174. -/
def execLdH (rd ra : Reg) (imm : Word) (s : State) : Host.Outcome State Fault Refusal := instr (load 2 true rd ra imm) s
/-- R174. -/
def execLdW (rd ra : Reg) (imm : Word) (s : State) : Host.Outcome State Fault Refusal := instr (load 4 true rd ra imm) s
/-- R174. -/
def execLdD (rd ra : Reg) (imm : Word) (s : State) : Host.Outcome State Fault Refusal := instr (load 8 true rd ra imm) s
/-- R174. -/
def execLdBu (rd ra : Reg) (imm : Word) (s : State) : Host.Outcome State Fault Refusal :=
  instr (load 1 false rd ra imm) s
/-- R174. -/
def execLdHu (rd ra : Reg) (imm : Word) (s : State) : Host.Outcome State Fault Refusal :=
  instr (load 2 false rd ra imm) s
/-- R174. -/
def execLdWu (rd ra : Reg) (imm : Word) (s : State) : Host.Outcome State Fault Refusal :=
  instr (load 4 false rd ra imm) s
/-- R174. -/
def execStB (rd ra : Reg) (imm : Word) (s : State) : Host.Outcome State Fault Refusal := instr (store 1 rd ra imm) s
/-- R174. -/
def execStH (rd ra : Reg) (imm : Word) (s : State) : Host.Outcome State Fault Refusal := instr (store 2 rd ra imm) s
/-- R174. -/
def execStW (rd ra : Reg) (imm : Word) (s : State) : Host.Outcome State Fault Refusal := instr (store 4 rd ra imm) s
/-- R174. -/
def execStD (rd ra : Reg) (imm : Word) (s : State) : Host.Outcome State Fault Refusal := instr (store 8 rd ra imm) s

/-! ## Atomics (R176, R177) -/

/-- An AMO of n bytes by operation code (R176). -/
def amo (op n : Nat) (rd rb ra : Reg) : M Unit := do
  let addr ← readS ra
  let b ← readS rb
  let (pl, e) ← scalarPlace addr n needRW cSTORE
  specCheck addr.toNat n pl
  let old ← atomicAt addr.toNat n pl e (fun old => some (amoNew op n old b.toNat)) (fun key => .amo op n key b) (rd != 0)
  writeS rd (sext (8 * n) old)
  advance

/-- A CAS of n bytes (R177). -/
def cas (n : Nat) (rd rb rc ra : Reg) : M Unit := do
  let addr ← readS ra
  let b ← readS rb
  let c ← readS rc
  let (pl, e) ← scalarPlace addr n needRW cSTORE
  specCheck addr.toNat n pl
  let old ← atomicAt addr.toNat n pl e
    (fun old => if old = b.toNat % 256 ^ n then some (c.toNat % 256 ^ n) else none) (fun key => .cas n key b c) (rd != 0)
  writeS rd (sext (8 * n) old)
  advance

/-- R176. -/
def execAmoAddD (rd rb ra : Reg) (s : State) : Host.Outcome State Fault Refusal := instr (amo 0 8 rd rb ra) s
/-- R176. -/
def execAmoAddW (rd rb ra : Reg) (s : State) : Host.Outcome State Fault Refusal := instr (amo 0 4 rd rb ra) s
/-- R176. -/
def execAmoXchgD (rd rb ra : Reg) (s : State) : Host.Outcome State Fault Refusal := instr (amo 1 8 rd rb ra) s
/-- R176. -/
def execAmoXchgW (rd rb ra : Reg) (s : State) : Host.Outcome State Fault Refusal := instr (amo 1 4 rd rb ra) s
/-- R176. -/
def execAmoUminD (rd rb ra : Reg) (s : State) : Host.Outcome State Fault Refusal := instr (amo 2 8 rd rb ra) s
/-- R176. -/
def execAmoUminW (rd rb ra : Reg) (s : State) : Host.Outcome State Fault Refusal := instr (amo 2 4 rd rb ra) s
/-- R176. -/
def execAmoUmaxD (rd rb ra : Reg) (s : State) : Host.Outcome State Fault Refusal := instr (amo 3 8 rd rb ra) s
/-- R176. -/
def execAmoUmaxW (rd rb ra : Reg) (s : State) : Host.Outcome State Fault Refusal := instr (amo 3 4 rd rb ra) s
/-- R176. -/
def execAmoSminD (rd rb ra : Reg) (s : State) : Host.Outcome State Fault Refusal := instr (amo 4 8 rd rb ra) s
/-- R176. -/
def execAmoSminW (rd rb ra : Reg) (s : State) : Host.Outcome State Fault Refusal := instr (amo 4 4 rd rb ra) s
/-- R176. -/
def execAmoSmaxD (rd rb ra : Reg) (s : State) : Host.Outcome State Fault Refusal := instr (amo 5 8 rd rb ra) s
/-- R176. -/
def execAmoSmaxW (rd rb ra : Reg) (s : State) : Host.Outcome State Fault Refusal := instr (amo 5 4 rd rb ra) s
/-- R176. -/
def execAmoAndD (rd rb ra : Reg) (s : State) : Host.Outcome State Fault Refusal := instr (amo 6 8 rd rb ra) s
/-- R176. -/
def execAmoAndW (rd rb ra : Reg) (s : State) : Host.Outcome State Fault Refusal := instr (amo 6 4 rd rb ra) s
/-- R176. -/
def execAmoOrD (rd rb ra : Reg) (s : State) : Host.Outcome State Fault Refusal := instr (amo 7 8 rd rb ra) s
/-- R176. -/
def execAmoOrW (rd rb ra : Reg) (s : State) : Host.Outcome State Fault Refusal := instr (amo 7 4 rd rb ra) s
/-- R176. -/
def execAmoXorD (rd rb ra : Reg) (s : State) : Host.Outcome State Fault Refusal := instr (amo 8 8 rd rb ra) s
/-- R176. -/
def execAmoXorW (rd rb ra : Reg) (s : State) : Host.Outcome State Fault Refusal := instr (amo 8 4 rd rb ra) s
/-- R177. -/
def execCasD (rd rb rc ra : Reg) (s : State) : Host.Outcome State Fault Refusal := instr (cas 8 rd rb rc ra) s
/-- R177. -/
def execCasW (rd rb rc ra : Reg) (s : State) : Host.Outcome State Fault Refusal := instr (cas 4 rd rb rc ra) s

end Sys2Proof.Machine
end

