-- ==== Sys2Proof/Machine/Control.lean ====
section
/-!
DEFINITION. Control.lean: branches, jumps and LOOP (R178-R181, R119).
-/

namespace Sys2Proof.Machine

/-- A branch: taken to PC + imm, else falls through (R179). -/
def branch (cond : Word → Word → Bool) (ra rb : Reg) (imm : Word) : M Unit := do
  let a ← readS ra
  let b ← readS rb
  if cond a b then
    let pc ← readPc
    jump (pc + imm)
  else advance

/-- R179. -/
def execBeq (ra rb : Reg) (imm : Word) (s : State) : Host.Outcome State Fault Refusal :=
  instr (branch (fun a b => a == b) ra rb imm) s
/-- R179. -/
def execBne (ra rb : Reg) (imm : Word) (s : State) : Host.Outcome State Fault Refusal :=
  instr (branch (fun a b => a != b) ra rb imm) s
/-- R179. -/
def execBlt (ra rb : Reg) (imm : Word) (s : State) : Host.Outcome State Fault Refusal :=
  instr (branch (fun a b => decide (a.toInt < b.toInt)) ra rb imm) s
/-- R179. -/
def execBge (ra rb : Reg) (imm : Word) (s : State) : Host.Outcome State Fault Refusal :=
  instr (branch (fun a b => decide (b.toInt ≤ a.toInt)) ra rb imm) s
/-- R179. -/
def execBltu (ra rb : Reg) (imm : Word) (s : State) : Host.Outcome State Fault Refusal :=
  instr (branch (fun a b => decide (a.toNat < b.toNat)) ra rb imm) s
/-- R179. -/
def execBgeu (ra rb : Reg) (imm : Word) (s : State) : Host.Outcome State Fault Refusal :=
  instr (branch (fun a b => decide (b.toNat ≤ a.toNat)) ra rb imm) s

/-- Links and jumps: the target is checked before s[d] is written (R180). -/
def linkTo (rd : Reg) (t : Word) : M Unit := do
  checkTarget t
  let ret ← returnAddress
  writeS rd ret
  updHart (·.enter t)

/-- R180. -/
def execJal (rd : Reg) (imm : Word) (s : State) : Host.Outcome State Fault Refusal := instr (do
  let pc ← readPc
  linkTo rd (pc + imm)) s

/-- R180. -/
def execJalr (rd ra : Reg) (imm : Word) (s : State) : Host.Outcome State Fault Refusal := instr (do
  let a ← readS ra
  linkTo rd (a + imm)) s

/-- A mask of all ones or all zeros. -/
def maskOf (b : Bool) : Mask := if b then BitVec.allOnes 32768 else 0

/-- Drives m4-m7 from the stage bits (R118, R119). -/
def Regs.stageMasks (g : Regs) (stv : Nat) : Regs :=
  (((g.setM 4 (maskOf (stv.testBit 0))).setM 5 (maskOf (stv.testBit 1))).setM 6 (maskOf (stv.testBit 2))).setM 7
    (maskOf (stv.testBit 3))

/-- LOOP's effect on LOOPCNT, RRB and m4-m7 (R119). -/
def Regs.loopStep (g : Regs) : Regs :=
  let stv := (g.rrb.toNat / 16 % 16 * 2 + (if g.loopcnt = 0 then 0 else 1)) % 16
  let base := (g.rrb.toNat % 16 + 15) % 16
  { g.stageMasks stv with
    rrb := BitVec.ofNat 64 (stv * 16 + base)
    loopcnt := if g.loopcnt = 0 then 0 else g.loopcnt - 1 }

/-- R181, R119. -/
def execLoop (stages : Reg) (imm : Word) (s : State) : Host.Outcome State Fault Refusal := instr (do
  require (1 ≤ stages.toNat && stages.toNat ≤ 4) 4
  let g ← curRegs
  let g' := g.loopStep
  if bits g'.rrb.toNat 7 4 % 2 ^ stages.toNat ≠ 0 then
    checkTarget (g.pc + imm)
    updRegs fun _ => g'
    updHart (·.enter (g.pc + imm))
  else
    updRegs fun _ => g'
    advance) s

end Sys2Proof.Machine
end

