-- ==== Sys2Proof/Machine/Consts.lean ====
section
/-!
DEFINITION. Consts.lean: the constants of function operations (R143, R144, R150): Gauss-Legendre points and weights,
Gauss-Lobatto-Legendre nodes, basis functions, and the matrices. Reals are held in fixed point with 320 fraction bits,
and rounded once to the format after snapping to 200 bits (log 14).
-/

namespace Sys2Proof.Machine

/-! ## Fixed point -/

/-- Fraction bits. -/
def fxBits : Nat := 320

def fxOne : Int := 2 ^ fxBits
def fxOf (n : Int) : Int := n * 2 ^ fxBits
def fxMul (a b : Int) : Int := a * b / 2 ^ fxBits
def fxDiv (a b : Int) : Int := a * 2 ^ fxBits / b

/-- A number too small to be other than an exact zero. -/
def fxSnap (a : Int) : Int := if a.natAbs < 2 ^ 150 then 0 else a

/-- The square root of n / 2. -/
def fxSqrtHalf (n : Nat) : Int := isqrt (n * 2 ^ (2 * fxBits - 1))

/-! ## Legendre polynomials -/

/-- P_0(x) to P_n(x), by the three-term recurrence; the list is highest first. -/
def legendreList (x : Int) : Nat → List Int
  | 0 => [fxOne]
  | n + 1 =>
    match legendreList x n with
    | p :: q :: rest => (((2 * n + 1 : Int) * fxMul x p - (n : Int) * q) / (n + 1 : Int)) :: p :: q :: rest
    | rest => x :: rest

/-- P_n(x). -/
def legendre (n : Nat) (x : Int) : Int := (legendreList x n).headD 0

/-- P_n'(x) from P_0(x) to P_(n-1)(x): P_n' = (2n - 1) P_(n-1) + P_(n-2)'. -/
def legendreD (n : Nat) (x : Int) : Int :=
  match n with
  | 0 => 0
  | 1 => fxOne
  | n + 2 => (2 * n + 3 : Int) * legendre (n + 1) x + legendreD n x

/-- P_n''(x) off the ends, by Legendre's equation. -/
def legendreDD (n : Nat) (x : Int) : Int :=
  fxDiv (2 * fxMul x (legendreD n x) - (n * (n + 1) : Int) * legendre n x) (fxOne - fxMul x x)

/-- Halves a bracket of a root k times; `f` is negative at the left end when `neg`. -/
def bisect (f : Int → Int) (neg : Bool) (a b : Int) : Nat → Int
  | 0 => (a + b) / 2
  | k + 1 =>
    let m := (a + b) / 2
    if decide (f m < 0) = neg then bisect f neg m b k else bisect f neg a m k

/-- Newton's step repeated. -/
def newton (f d : Int → Int) (x : Int) : Nat → Int
  | 0 => x
  | k + 1 =>
    let y := d x
    newton f d (if y = 0 then x else x - fxDiv (f x) y) k

/-- The roots of f, one between each two neighbours of a rising list. -/
def rootsBetween (f d : Int → Int) (xs : List Int) : List Int :=
  match xs with
  | a :: b :: rest =>
    -- a point just inside the left end tells the sign there
    let inside := a + (b - a) / 2 ^ 24
    fxSnap (newton f d (bisect f (decide (f inside < 0)) a b 24) 8) :: rootsBetween f d (b :: rest)
  | _ => []

/-- The Gauss-Legendre points of order n (R143): the roots of P_n lie between those of P_(n-1) and the ends. -/
def gauss (n : Nat) : List Int :=
  match n with
  | 0 => []
  | n + 1 => rootsBetween (legendre (n + 1)) (legendreD (n + 1)) ([-fxOne] ++ gauss n ++ [fxOne])

/-- The Gauss-Legendre weight at a point of order n (R143). -/
def gaussWeight (n : Nat) (x : Int) : Int :=
  let d := legendreD n x
  fxDiv (fxOf 2) (fxMul (fxOne - fxMul x x) (fxMul d d))

/-- The GLL nodes of degree p (R143): the ends and the roots of P_p', which lie between those of P_p. -/
def gll (p : Nat) : List Int :=
  match p with
  | 0 => [0]
  | p + 1 => [-fxOne] ++ rootsBetween (legendreD (p + 1)) (legendreDD (p + 1)) (gauss (p + 1)) ++ [fxOne]

/-! ## Basis functions (R144) -/

/-- phi_n(x). -/
def phi (n : Nat) (x : Int) : Int := fxMul (fxSqrtHalf (2 * n + 1)) (legendre n x)

/-- phi_n'(x). -/
def phiD (n : Nat) (x : Int) : Int := fxMul (fxSqrtHalf (2 * n + 1)) (legendreD n x)

/-- The integral of phi_n from -1 to x. -/
def phiA (n : Nat) (x : Int) : Int :=
  let i := match n with
    | 0 => x + fxOne
    | n + 1 => (legendre (n + 2) x - legendre n x) / (2 * n + 3 : Int)
  fxMul (fxSqrtHalf (2 * n + 1)) i

/-- The Lagrange polynomial of node n over some nodes, at x. -/
def lagrange (nodes : List Int) (n : Nat) (x : Int) : Int :=
  let xn := nodes.getD n 0
  ((List.range nodes.length).filter (· != n)).foldl
    (fun a k => fxDiv (fxMul a (x - nodes.getD k 0)) (xn - nodes.getD k 0)) fxOne

/-- psi_n^(p)(x): basis 1 MODAL, 2 NODAL with the nodes given. -/
def psi (basis : Nat) (nodes : List Int) (n : Nat) (x : Int) : Int :=
  if basis = 1 then phi n x else lagrange nodes n x

/-- A matrix: rows by output, entries by source. -/
abbrev Mat := List (List Int)

/-- Builds a matrix. -/
def matOf (outs ins : Nat) (f : Nat → Nat → Int) : Mat :=
  (List.range outs).map fun o => (List.range ins).map fun n => fxSnap (f o n)

/-- The modal coefficients k = 0 to m of psi_n^(p), by quadrature exact for degree 2 max(p, m) + 1. -/
def modalOf (basis p m n : Nat) (nodes : List Int) : List Int :=
  if basis = 1 then (List.range (m + 1)).map fun k => if k = n then fxOne else 0 else
  let q := max p m + 1
  let pts := (gauss q).map fun x => (x, fxMul (gaussWeight q x) (lagrange nodes n x))
  (List.range (m + 1)).map fun k => (pts.map fun xw => fxMul (phi k xw.1) xw.2).sum

/-! ## The matrices of R150 -/

/-- E(p to Q). -/
def matE (basis p q : Nat) : Mat :=
  let xs := gauss q
  let nodes := gll p
  matOf q (p + 1) fun o n => psi basis nodes n (xs.getD o 0)

/-- Et(Q to p). -/
def matEt (basis q p : Nat) : Mat :=
  let xs := gauss q
  let nodes := gll p
  matOf (p + 1) q fun o n => psi basis nodes o (xs.getD n 0)

/-- B(Q to m). -/
def matB (basis q m : Nat) : Mat :=
  let xs := gauss q
  let nodes := gll m
  matOf (m + 1) q fun o n =>
    if basis = 1 then phi o (xs.getD n 0)
    else ((List.range (m + 1)).map fun k => fxMul (phi k (nodes.getD o 0)) (phi k (xs.getD n 0))).sum

/-- The weights of order Q along one axis, whose products are W(Q). -/
def axisWeights (q : Nat) : List Int := (gauss q).map (gaussWeight q)

/-- I(p to m). -/
def matI (basis p m : Nat) : Mat :=
  let from_ := gll p
  let to_ := gll m
  matOf (m + 1) (p + 1) fun o n => psi basis from_ n (to_.getD o 0)

/-- Vi(m). -/
def matVi (m : Nat) : Mat :=
  let nodes := gll m
  let cols := (List.range (m + 1)).map fun n => modalOf 2 m m n nodes
  matOf (m + 1) (m + 1) fun o n => (cols.getD n []).getD o 0

/-- Pr(p to m) from a basis to a basis. -/
def matPr (source target p m : Nat) : Mat :=
  let nodes := gll p
  let to_ := gll m
  let cols := (List.range (p + 1)).map fun n => modalOf source p m n nodes
  matOf (m + 1) (p + 1) fun o n =>
    let c := cols.getD n []
    if target = 1 then c.getD o 0
    else ((List.range (m + 1)).map fun k => fxMul (c.getD k 0) (phi k (to_.getD o 0))).sum

/-- D(p). -/
def matD (basis p : Nat) : Mat :=
  let nodes := gll p
  let m := p - 1
  let to_ := gll m
  let cols := (List.range (p + 1)).map fun n => modalOf basis p p n nodes
  let q := p + 1
  let pts := (gauss q).map fun x => (x, gaussWeight q x)
  let deriv := fun (n : Nat) (x : Int) => ((List.range (p + 1)).map fun k => fxMul ((cols.getD n []).getD k 0) (phiD k x)).sum
  matOf (m + 1) (p + 1) fun o n =>
    if basis = 1 then (pts.map fun xw => fxMul (fxMul (phi o xw.1) (deriv n xw.1)) xw.2).sum
    else deriv n (to_.getD o 0)

/-- A(p). -/
def matA (basis p : Nat) : Mat :=
  let nodes := gll p
  let to_ := gll (p + 1)
  let cols := (List.range (p + 1)).map fun n => modalOf basis p p n nodes
  let q := p + 2
  let pts := (gauss q).map fun x => (x, gaussWeight q x)
  let anti := fun (n : Nat) (x : Int) => ((List.range (p + 1)).map fun k => fxMul ((cols.getD n []).getD k 0) (phiA k x)).sum
  matOf (p + 2) (p + 1) fun o n =>
    if basis = 1 then (pts.map fun xw => fxMul (fxMul (phi o xw.1) (anti n xw.1)) xw.2).sum
    else anti n (to_.getD o 0)

/-- Tf(p) for a minus or plus face. -/
def matTf (basis p : Nat) (plus : Bool) : Mat :=
  let nodes := gll p
  matOf 1 (p + 1) fun _ n => psi basis nodes n (if plus then fxOne else -fxOne)

/-- The integrals of the basis functions of one axis, whose products are Om(p). -/
def axisOm (basis p : Nat) : List Int :=
  let nodes := gll p
  (List.range (p + 1)).map fun n => fxSnap (fxMul (fxSqrtHalf 4) ((modalOf basis p 0 n nodes).getD 0 0))

/-! ## Rounded constants -/

/-- A dyadic magnitude cut to a number of bits, the nearer one, so that an exact short value is met exactly. -/
def snapMan (bits man : Nat) (exp : Int) : Nat × Int :=
  let len := Nat.log2 man
  if len ≤ bits then (man, exp) else
  let sh := len - bits
  ((man + 2 ^ (sh - 1)) / 2 ^ sh, exp + sh)

/-- The pattern of a fixed-point constant in a format, RNE (R150). -/
def constPat (fmt : Nat) (x : Int) : Nat :=
  let (m, e) := snapMan 200 x.natAbs (-(fxBits : Int))
  (roundF fmt Mode.rne (decide (x < 0)) m e).1

/-- The rounded entries of a matrix; none where the exact entry is zero (R151). -/
def matPats (fmt : Nat) (m : Mat) : List (List (Option Nat)) :=
  m.map fun row => row.map fun x => if x = 0 then none else some (constPat fmt x)

/-- Products over axes, x innermost. -/
def tensor (axes : List (List Int)) : List Int :=
  match axes with
  | [] => [fxOne]
  | a :: rest => (tensor rest).flatMap fun y => a.map fun x => fxSnap (fxMul x y)

/-! ## Basis values at a stored coordinate (R150, FEVAL) -/

/-- Binomial coefficients. -/
def binom (n k : Nat) : Nat :=
  match n, k with
  | _, 0 => 1
  | 0, _ + 1 => 0
  | n + 1, k + 1 => binom n k + binom n (k + 1)

/-- P_n(t) x 2^n as an exact dyadic, t = tm x 2^te. -/
def legendreExact (n : Nat) (tm te : Int) : Int × Int :=
  -- every term over 2^(n te) when te is negative, over 2^0 when it is not
  let low : Int := min (te * n) 0
  let term := fun k : Nat =>
    let j := n - 2 * k
    let c : Int := (binom n k * binom (2 * n - 2 * k) n : Nat)
    (if k % 2 = 0 then c else -c) * tm ^ j * 2 ^ (te * j - low).toNat
  (((List.range (n / 2 + 1)).map term).sum, low)

/-- t P_p(t) - P_(p-1)(t) as an exact dyadic, p at least 1: it is 0 at the GLL nodes of degree p, and nowhere else. -/
def nodePoly (p : Nat) (tm te : Int) : Int × Int :=
  let (a, ea) := legendreExact p tm te
  let (b, eb) := legendreExact (p - 1) tm te
  let ka := ea + te - p
  let kb := eb - (p - 1 : Nat)
  let e := min ka kb
  (tm * a * 2 ^ (ka - e).toNat - b * 2 ^ (kb - e).toNat, e)

/-- Node n of degree p and P_p there, as dyadics, and whether they are exact: at -1, 0 and 1. -/
def nodeAt (p n : Nat) (nodes : List Int) : (Int × Int) × (Int × Int) × Bool :=
  if n = 0 then ((-1, 0), (if p % 2 = 0 then 1 else -1, 0), true)
  else if n = p then ((1, 0), (1, 0), true)
  else if 2 * n = p then ((0, 0), ((legendreExact p 0 0).1, -(p : Int)), true)
  else ((nodes.getD n 0, -(fxBits : Int)), (legendre p (nodes.getD n 0), -(fxBits : Int)), false)

/-- The pattern of psi_n^(p)(t) rounded once, none where it is exactly zero. DESIGN CHOICE: this rounding raises no NX, UF or OF;
R150 does not say whether it does (log 41). The NODAL function is
(t P_p(t) - P_(p-1)(t)) / ((p + 1) P_p(x_n) (t - x_n)) for node x_n. -/
def basisPat (fmt basis p n : Nat) (nodes : List Int) (tm te : Int) : Option Nat :=
  if basis = 1 then
    let (v, e) := legendreExact n tm te
    if v = 0 then none else
    -- (v 2^(e-n))^2 (2n+1)/2 = x 2^(2e-2n-1), rooted with 280 more bits
    let x := v.natAbs * v.natAbs * (2 * n + 1) * 2 ^ 561
    let r := isqrt x
    let (m, ex) := if r * r = x then (r, (e - n - 281)) else (2 * r + 1, (e - n - 282))
    some (roundF fmt Mode.rne (decide (v < 0)) m ex).1
  else
    let one := some (roundF fmt Mode.rne false 1 0).1
    if p = 0 then one else
    let ((xm, xe), (pm, pe), exact) := nodeAt p n nodes
    let e := min te xe
    let diff := tm * 2 ^ (te - e).toNat - xm * 2 ^ (xe - e).toNat
    if diff = 0 then one else
    let (num, en) := nodePoly p tm te
    if num = 0 then none else
    let den := (p + 1 : Int) * pm * diff
    let (z, d) := quotient num.natAbs den.natAbs 300
    let (m, ex) := if exact then (z, en - pe - e + d) else snapMan 280 z (en - pe - e + d)
    some (roundF fmt Mode.rne (decide ((num < 0) ≠ (den < 0))) m ex).1

end Sys2Proof.Machine
end

