-- ==== Sys2Proof/Machine/Timing.lean ====
section
/-!
DEFINITION. Timing.lean: the issue costs the spec states (R114, R120-R122, R252, R426). They are recorded with queued
instructions; no result depends on them (R7; log 2).
-/

namespace Sys2Proof.Machine

/-- Element group size of a class for elements of w bits (R114). -/
def groupSize (fc : Bool) (cls w : Nat) : Nat :=
  let scale := fun n32 n64 : Nat => if w = 64 then n64 else n32 * 32 / max w 1
  match cls with
  | 1 => if fc then scale 512 256 else scale 256 64
  | 2 => if fc then scale 128 64 else scale 64 16
  | 3 => if fc then scale 512 256 else scale 256 64
  | _ => 1

/-- Element groups that elements a, ..., b - 1 come to; one that was begun before is not counted again. -/
def groupSpan (size a b : Nat) : Nat := ceilDiv b (max size 1) - ceilDiv a (max size 1)

/-- Element groups of n elements of w bits in class VA, SF or XL (R114). -/
def groupCount (fc : Bool) (cls w n : Nat) : Nat := ceilDiv n (max (groupSize fc cls w) 1)

/-- Latency of a class; 0 where the spec gives it by memory or by target (R114). -/
def latency (cls : Nat) : Nat :=
  match cls with
  | 1 => 4 | 2 => 12 | 3 => 6 | 4 => 8 | 5 => 16 | 7 => 20 | 8 => 20 | _ => 0

/-- FMA lanes of an FN unit (R114). -/
def fnLanes (fc : Bool) (w : Nat) : Nat := if fc then (if w = 64 then 256 else 512) else if w = 64 then 32 else 128

/-- Issue cycles of n elements over the units held (R121). -/
def issueCycles (n e units : Nat) : Nat := ceilDiv n (max (e * units) 1)

/-- Elapsed cycles of issue cycles at a duty (R120). -/
def elapsedCycles (cycles duty : Nat) : Nat := ceilDiv (cycles * 64) (max duty 1)

/-- T(a to b): the cost of a sum-factorised transform (R122). -/
def xformCost (a b : List Nat) : Nat :=
  ((List.range a.length).map fun k => (b.take (k + 1)).foldl (· * ·) 1 * (a.drop k).foldl (· * ·) 1).sum

/-- The cost of FMUL under a policy (R122): counts n, n' of the operands, m of the result, Q of the points. -/
def fmulCost (alias_ modal : Bool) (n n' m q : List Nat) : Nat :=
  if alias_ then xformCost n m + xformCost n' m + m.foldl (· * ·) 1 + (if modal then xformCost m m else 0)
  else xformCost n q + xformCost n' q + 2 * q.foldl (· * ·) 1 + xformCost q m

/-- Issue cycles of a function instruction (R122). -/
def fnCycles (fc : Bool) (w rows f : Nat) : Nat := ceilDiv (rows * f) (fnLanes fc w)

/-- Issue cycles a lift adds (R426). -/
def liftCycles (fc : Bool) (w rows : Nat) (n m : List Nat) : Nat :=
  if n = m then 0 else issueCycles (rows * xformCost n m) (groupSize fc 1 w) (if fc then 4 else 2)

/-- Issue cycles of an MMA (R121). -/
def mmaCycles (macs r : Nat) : Nat := ceilDiv macs (32768 * r)

/-- The scratchpad bank of an offset (R251). -/
def padBank (a : Nat) : Nat := ((a / 8) ^^^ (a / 256)) % 32

/-- Half-cycles a window takes: the accesses of its most used bank (R252). -/
def windowHalves (offs : List Nat) : Nat :=
  let banks := (offs.map (· / 8)).eraseDups.map fun x => padBank (8 * x)
  ((List.range 32).map fun b => (banks.filter (· == b)).length).foldl max 0

/-- The windows of a sequence in spans of 32 times `step` elements: window v of a span holds every step-th element from v on
(R252). -/
def padWindows {α : Type} (step : Nat) (run : List α) (fuel : Nat) : List (List α) :=
  match fuel with
  | 0 => []
  | fuel + 1 =>
    if run.isEmpty then [] else
    let span := run.take (32 * step)
    ((List.range step).map fun v =>
      (List.range 32).filterMap fun u => span[v + u * step]?) ++ padWindows step (run.drop (32 * step)) fuel

/-- The windows of a sweep given by its runs of constant stride: interleaved in each run for a stride of 2^k times an odd
number of 8 bytes, k at most 5, else 32 consecutive elements of the sweep (R252). -/
def sweepWindows {α : Type} (stride : Int) (runs : List (List α)) : List (List α) :=
  let sigma := (stride / 8).natAbs
  let k := ((List.range 6).filter fun k => sigma % 2 ^ (k + 1) == 2 ^ k).headD 6
  if stride % 8 = 0 ∧ sigma ≠ 0 ∧ k ≤ 5 then runs.flatMap fun r => padWindows (2 ^ (5 - k)) r (r.length + 1)
  else padWindows 1 runs.flatten (runs.flatten.length + 1)

/-- The half-cycles of the windows of a sweep, one offset for each logical element that is accessed (R252). -/
def padHalves (stride : Int) (runs : List (List (Option Nat))) : List Nat :=
  (sweepWindows stride runs).map fun w => windowHalves (w.filterMap id)

/-- Issue cycles of a strided access of n elements to the scratchpad (R252). -/
def padCycles (stride : Int) (n : Nat) (runs : List (List (Option Nat))) : Nat :=
  max (ceilDiv n 32) (ceilDiv (padHalves stride runs).sum 2)

/-- Half-cycles beyond one for each window (R316 counter 7). -/
def padExtra (stride : Int) (runs : List (List (Option Nat))) : Nat := ((padHalves stride runs).map (· - 1)).sum

end Sys2Proof.Machine
end

