-- ==== Sys2Proof/Machine/Function.lean ====
section
/-!
DEFINITION. Function.lean: function operations (R149-R160, R226-R235): transforms as chains of fused multiply-adds, the
nine instructions of major 0x30, and the function mode of element-wise forms (R212).
-/

namespace Sys2Proof.Machine

/-! ## Chains and transforms (R151) -/

/-- One chain: fused multiply-adds in source order over the entries that are not zero (R151). -/
def chain (fmt : Nat) (row : List (Option Nat)) (xs : List Nat) : Nat × Nat :=
  (row.zip xs).foldl (fun acc e => match e.1 with
    | none => acc
    | some m =>
      let (p, fl) := fmaF fmt Mode.rne (decodeF fmt m) (decodeF fmt e.2) (decodeF fmt acc.1)
      (p, acc.2 ||| fl)) (0, 0)

/-- Whether a matrix is the identity (R151). -/
def isIdentity (m : Mat) : Bool :=
  let n := m.length
  (List.range n).all fun o =>
    let row := m.getD o []
    row.length == n && (List.range n).all fun k => fxSnap (row.getD k 0 - (if k = o then fxOne else 0)) == 0

/-- Values with the flags raised at each, and those raised on the way (R149). -/
structure Field where
  sizes : List Nat
  vals : List Nat
  fl : List Nat
  row : Nat
  deriving Repr

/-- A field read from a register. -/
def Field.of (sizes vals : List Nat) : Field := ⟨sizes, vals, vals.map fun _ => 0, 0⟩

/-- Transforms one axis by a matrix; the flags so far become flags of the row (R149, R151). -/
def Field.axis (fmt : Nat) (x : Field) (ax : Nat) (m : Mat) : Field :=
  if isIdentity m then x else
  let pats := matPats fmt m
  let n := x.sizes.getD ax 1
  let inner := (x.sizes.take ax).foldl (· * ·) 1
  let outer := (x.sizes.drop (ax + 1)).foldl (· * ·) 1
  let arr := x.vals.toArray
  let outs := (List.range outer).flatMap fun o => pats.flatMap fun row => (List.range inner).map fun i =>
    chain fmt row ((List.range n).map fun k => arr.getD (i + inner * (k + n * o)) 0)
  ⟨x.sizes.set ax m.length, outs.map (·.1), outs.map (·.2), x.fl.foldl (· ||| ·) x.row⟩

/-- Transforms axis after axis, x first. -/
def Field.xform (fmt : Nat) (x : Field) (ms : List Mat) : Field :=
  ((List.range ms.length).zip ms).foldl (fun x am => x.axis fmt am.1 am.2) x

/-- Folds the flags at values into the row's. -/
def Field.pooled (x : Field) : Nat := x.fl.foldl (· ||| ·) x.row

/-- Rounds the products of two lists of values, pointwise. -/
def mulEach (fmt : Nat) (xs ys : List Nat) : List (Nat × Nat) :=
  (xs.zip ys).map fun e => mulF fmt Mode.rne (decodeF fmt e.1) (decodeF fmt e.2)

/-- Points per axis of a product (R152). -/
def quadPoints (p q m : Nat) : Nat := ceilDiv (p + q + m + 1) 2

/-- FMUL on one row (R154): operands with their degrees, result degrees. -/
def fmulRow (fmt basis policy : Nat) (ps qs ms : List Nat) (u v : List Nat) : Field :=
  let sz := fun ds : List Nat => ds.map (· + 1)
  if policy = 2 then
    let x := (Field.of (sz ps) u).xform fmt ((ps.zip ms).map fun e => matI basis e.1 e.2)
    let y := (Field.of (sz qs) v).xform fmt ((qs.zip ms).map fun e => matI basis e.1 e.2)
    let n := mulEach fmt x.vals y.vals
    let f : Field := ⟨sz ms, n.map (·.1), n.map (·.2), x.pooled ||| y.pooled⟩
    if basis = 1 then f.xform fmt (ms.map matVi) else f
  else
    let qp := (ps.zip (qs.zip ms)).map fun e => quadPoints e.1 e.2.1 e.2.2
    let x := (Field.of (sz ps) u).xform fmt ((ps.zip qp).map fun e => matE basis e.1 e.2)
    let y := (Field.of (sz qs) v).xform fmt ((qs.zip qp).map fun e => matE basis e.1 e.2)
    let w := (tensor (qp.map axisWeights)).map (constPat fmt)
    let t := mulEach fmt x.vals y.vals
    let t2 := mulEach fmt (t.map (·.1)) w
    let f : Field := ⟨qp, t2.map (·.1), t2.map (·.2), t.foldl (fun a e => a ||| e.2) (x.pooled ||| y.pooled)⟩
    f.xform fmt ((qp.zip ms).map fun e => matB basis e.1 e.2)

/-- FMASS on one row (R154). -/
def fmassRow (fmt basis : Nat) (ps : List Nat) (u : List Nat) : Field :=
  let qp := ps.map (· + 1)
  let x := (Field.of qp u).xform fmt ((ps.zip qp).map fun e => matE basis e.1 e.2)
  let w := (tensor (qp.map axisWeights)).map (constPat fmt)
  let t := mulEach fmt x.vals w
  let f : Field := ⟨qp, t.map (·.1), t.map (·.2), x.pooled⟩
  f.xform fmt ((qp.zip ps).map fun e => matEt basis e.1 e.2)

/-! ## Operands and results -/

/-- Coefficients of row j of a function register; rows beyond ROWS are the zero function (R149). -/
def Tile.coeffRow (t : Tile) (j : Nat) : List Nat :=
  let w := fmtWidth (tagFmt t.tag)
  let x := t.row j
  (List.range (coeffs (tagDegs t.tag))).map fun i => x / 2 ^ (i * w) % 2 ^ w

/-- Traps SHAPE_MISMATCH naming a register (R156). DESIGN CHOICE: REG is the number in the instruction's field, not that of the
register RRB rotates it to; R156 says only the offending register's number (log 41). -/
def mismatch {α : Type} (why : Nat) (reg : Nat) (tag : Word) : M α :=
  trap cSHAPE (BitVec.ofNat 64 (why * 2 ^ 40 + reg * 2 ^ 32 + tag.toNat % 2 ^ 32))

/-- A function operand in VTYPE's format (R155, R156). -/
def needFun (c : Cap) (reg : Nat) : M Tile := do
  let t := c.g.getF reg
  if !isFun t.tag then mismatch 1 reg t.tag
  else if tagFmt t.tag != c.fmt then mismatch 2 reg t.tag
  else pure t

/-- A second function operand of the first one's basis and dims. DESIGN CHOICE: where two operands differ (WHY 3, 4 and 5) the
second offends; R156 does not say which (log 41). -/
def needSame (c : Cap) (a : Tile) (reg : Nat) : M Tile := do
  let t ← needFun c reg
  if tagBasis t.tag != tagBasis a.tag then mismatch 3 reg t.tag
  else if tagDims t.tag != tagDims a.tag then mismatch 4 reg t.tag
  else pure t

/-- The coefficient of an old row at each multi-index of a new shape (R149). -/
def reshapeRow (old : Tile) (j : Nat) (degs : List Nat) : List Nat :=
  let od := tagDegs old.tag
  let row := (old.coeffRow j).toArray
  let n := fun (ds : List Nat) (a : Nat) => ds.getD a 0 + 1
  (List.range (coeffs degs)).map fun k =>
    let x := k % n degs 0
    let y := k / n degs 0 % n degs 1
    let z := k / (n degs 0 * n degs 1)
    if x < n od 0 ∧ y < n od 1 ∧ z < n od 2 then row.getD (x + n od 0 * (y + n od 1 * z)) 0 else 0

/-- The degrees a result's row is indexed by: those of a function, and of a PLAIN row of k values those of a line. -/
def rowDegs (tag : Word) (k : Nat) : List Nat := if isFun tag then tagDegs tag else [k - 1]

/-- An inactive row of a result of k values (R149): the coefficients of an old function where FMT and DIMS agree, else +0
(log 22). -/
def inactiveRow (old : Tile) (tag : Word) (j k : Nat) : List Nat :=
  if isFun old.tag && tagFmt old.tag == tagFmt tag && tagDims old.tag == tagDims tag && decide (j < tagRows old.tag) then
    (reshapeRow old j (rowDegs tag k)).take k
  else List.replicate k 0

/-- Completes a function instruction: storage, enabled conditions, the write, the queue (R226, R228 steps 7 and 8).
`k` values to a row; `cost` is F per row (R122). -/
def funFinish (c : Cap) (d : Nat) (tag : Word) (k cls : Nat) (rowOf : Nat → Field) (sources : List Nat) (cost : Nat) :
    M Unit := do
  let w := fmtWidth (tagFmt tag)
  let old := c.g.getF d
  let rows := (List.range c.rc).map fun j =>
    if c.active j then rowOf j
    else
      let vs := inactiveRow old tag j k
      (⟨[], vs, vs.map fun _ => 0, 0⟩ : Field)
  let ws : List TileWrite := [(c.g.phys d, ⟨tag, rows.map fun r => packRow w r.vals⟩)]
  checkStorage ws (sources.map c.g.phys)
  let flags := ((List.range c.rc).zip rows).flatMap fun e =>
    ((List.range k).zip e.2.fl).filterMap fun x =>
      if x.2 ||| e.2.row = 0 then none else some (e.1 * k + x.1, x.2 ||| e.2.row)
  checkEnabled flags
  writeTiles ws
  let s ← get
  let fc := isFC (coreOf s.cur)
  enqueue cls (joinFlags flags) (if cls = 4 then c.rc else groupCount fc cls w (c.rc * k))
    (if cls = 4 then fnCycles fc w c.rc cost else cost)
  advance

/-- The opening of a function instruction: VTYPE valid, grouping 1 (R228 steps 2 and 3). -/
def funStart (mask : Reg3) : M Cap := do
  let c ← captured mask
  require (c.grp == 1) 8
  pure c

/-- A function result: shape legal, then the rows (R228 step 6). -/
def funResult (c : Cap) (d basis : Nat) (degs : List Nat) (rowOf : Nat → Field) (sources : List Nat) (cost : Nat) :
    M Unit := do
  checkShape c.fmt degs
  funFinish c d (funTag c.fmt basis c.rc degs) (coeffs degs) 4 rowOf sources cost

/-- A PLAIN result of len values to a row. -/
def plainResult (c : Cap) (d len : Nat) (rowOf : Nat → Field) (sources : List Nat) (cost : Nat) : M Unit :=
  funFinish c d (plainTag c.fmt c.rc len) len 4 rowOf sources cost

/-! ## Major 0x30 -/

/-- R230. -/
def execFmul (fd fa fb : Reg) (mask : Reg3) (s : State) : Host.Outcome State Fault Refusal := instr (do
  let c ← funStart mask
  let a ← needFun c fa.toNat
  let b ← needSame c a fb.toNat
  let basis := tagBasis a.tag
  let policy := vtPolicy c.g.vtype
  let ps := tagDegs a.tag
  let qs := tagDegs b.tag
  let ms := (ps.zip qs).map fun e => if policy = 1 then e.1 + e.2 else min (e.1 + e.2) (vtCap c.g.vtype)
  let qp := (ps.zip (qs.zip ms)).map fun e => quadPoints e.1 e.2.1 e.2.2
  let sz := fun ds : List Nat => ds.map (· + 1)
  funResult c fd.toNat basis ms (fun j => fmulRow c.fmt basis policy ps qs ms (a.coeffRow j) (b.coeffRow j))
    [fa.toNat, fb.toNat] (fmulCost (policy == 2) (basis == 1) (sz ps) (sz qs) (sz ms) qp)) s

/-- An instruction that transforms one axis (R231). -/
def axisOp (fd fa axis : Reg) (mask : Reg3) (deg : Nat → Nat) (mat : Nat → Nat → Mat) (cost : Nat → Nat → Nat) :
    M Unit := do
  let c ← funStart mask
  require (axis.toNat ≤ 2) 6
  let a ← needFun c fa.toNat
  if axis.toNat ≥ tagDims a.tag then mismatch 6 fa.toNat a.tag
  else
    let ps := tagDegs a.tag
    let p := ps.getD axis.toNat 0
    let basis := tagBasis a.tag
    let ms := ps.set axis.toNat (deg p)
    funResult c fd.toNat basis ms
      (fun j => (Field.of (ps.map (· + 1)) (a.coeffRow j)).axis c.fmt axis.toNat (mat basis p)) [fa.toNat]
      (cost (coeffs ps) p)

/-- R231. -/
def execFdiff (fd fa axis : Reg) (mask : Reg3) (s : State) : Host.Outcome State Fault Refusal :=
  instr (axisOp fd fa axis mask (fun p => p - 1) matD (fun k p => k * max p 1)) s

/-- R231. -/
def execFint (fd fa axis : Reg) (mask : Reg3) (s : State) : Host.Outcome State Fault Refusal :=
  instr (axisOp fd fa axis mask (fun p => p + 1) matA (fun k p => k * (p + 2))) s

/-- R231: one chain over all coefficients. -/
def execFintAll (fd fa rb : Reg) (mask : Reg3) (s : State) : Host.Outcome State Fault Refusal := instr (do
  let c ← funStart mask
  require (rb == 0) 6
  let a ← needFun c fa.toNat
  let ps := tagDegs a.tag
  let om := (tensor (ps.map (axisOm (tagBasis a.tag)))).map fun x => if x = 0 then none else some (constPat c.fmt x)
  plainResult c fd.toNat 1 (fun j =>
    let (v, fl) := chain c.fmt om (a.coeffRow j)
    ⟨[1], [v], [fl], 0⟩) [fa.toNat] (coeffs ps)) s

/-- Projection of a function to degrees and a basis (R232). -/
def project (c : Cap) (fd : Reg) (a : Tile) (target : Nat) (ms : List Nat) (sources : List Nat) (cost : Nat) :
    M Unit :=
  let ps := tagDegs a.tag
  let source := tagBasis a.tag
  funResult c fd.toNat target ms (fun j =>
    (Field.of (ps.map (· + 1)) (a.coeffRow j)).xform c.fmt ((ps.zip ms).map fun e =>
      if source = target ∧ e.1 = e.2 then matOf (e.1 + 1) (e.1 + 1) fun o n => if o = n then fxOne else 0
      else matPr source target e.1 e.2)) sources cost

/-- R232: the target is the tag in s[b]. -/
def execFproj (fd fa rb : Reg) (mask : Reg3) (s : State) : Host.Outcome State Fault Refusal := instr (do
  let c ← funStart mask
  let t := c.g.getS rb
  require (!tagReserved t && tagBasis t != 3) 6
  let a ← needFun c fa.toNat
  if tagBasis t = 0 then mismatch 7 rb.toNat t
  else if tagDims t ≠ tagDims a.tag then mismatch 4 rb.toNat t
  else if (([bits t.toNat 19 16, bits t.toNat 23 20, bits t.toNat 27 24].drop (tagDims a.tag)).any (· != 0)) then
    mismatch 4 rb.toNat t
  else
    let ms := tagDegs t
    project c fd a (tagBasis t) ms [fa.toNat]
      (xformCost ((tagDegs a.tag).map (· + 1)) (ms.map (· + 1)))) s

/-- R233. -/
def execFtrace (fd fa face : Reg) (mask : Reg3) (s : State) : Host.Outcome State Fault Refusal := instr (do
  let c ← funStart mask
  require (face.toNat ≤ 5) 6
  let a ← needFun c fa.toNat
  let ax := face.toNat / 2
  if ax ≥ tagDims a.tag then mismatch 6 fa.toNat a.tag
  else
    let ps := tagDegs a.tag
    let m := matTf (tagBasis a.tag) (ps.getD ax 0) (face.toNat % 2 == 1)
    let rowOf := fun j => (Field.of (ps.map (· + 1)) (a.coeffRow j)).axis c.fmt ax m
    if ps.length = 1 then plainResult c fd.toNat 1 rowOf [fa.toNat] (coeffs ps)
    else funResult c fd.toNat (tagBasis a.tag) (ps.eraseIdx ax) rowOf [fa.toNat] (coeffs ps)) s

/-- The value of a row at one point (R234): contractions along x, then y, then z. -/
def evalPoint (fmt basis : Nat) (ps : List Nat) (nodes : List (List Int)) (u coords : List Nat) : Nat × Nat × Nat :=
  if coords.any fun p => match decodeF fmt p with
    | .fin .. => false
    | _ => true
  then (canonNan fmt, fNV, 0)
  else
    let step := fun (x : Field) (a : Nat) =>
      let p := ps.getD a 0
      let (tm, te) : Int × Int := match decodeF fmt (coords.getD a 0) with
        | .fin neg m e => (if neg then -(m : Int) else m, e)
        | _ => (0, 0)
      let row := (List.range (p + 1)).map fun n => basisPat fmt basis p n (nodes.getD a []) tm te
      let m := x.vals.length / (p + 1)
      let arr := x.vals.toArray
      let outs := (List.range m).map fun o => chain fmt row ((List.range (p + 1)).map fun k => arr.getD (k + (p + 1) * o) 0)
      (⟨[], outs.map (·.1), outs.map (·.2), x.fl.foldl (· ||| ·) x.row⟩ : Field)
    let f := (List.range ps.length).foldl step (Field.of [] u)
    (f.vals.getD 0 0, f.fl.getD 0 0, f.row)

/-- R234. -/
def execFeval (fd fa fb : Reg) (mask : Reg3) (s : State) : Host.Outcome State Fault Refusal := instr (do
  let c ← funStart mask
  let a ← needFun c fa.toNat
  let b := c.g.getF fb.toNat
  let ps := tagDegs a.tag
  let d := ps.length
  if !isPlain b.tag then mismatch 8 fb.toNat b.tag
  else if tagFmt b.tag != c.fmt then mismatch 2 fb.toNat b.tag
  else if tagLen b.tag = 0 ∨ tagLen b.tag % d ≠ 0 then mismatch 8 fb.toNat b.tag
  else
    let p := tagLen b.tag / d
    let nodes := ps.map gll
    plainResult c fd.toNat p (fun j =>
      let cs := b.elems c.w j 0 (p * d)
      let u := a.coeffRow j
      let vs := (List.range p).map fun t => evalPoint c.fmt (tagBasis a.tag) ps nodes u ((cs.drop (t * d)).take d)
      ⟨[p], vs.map (·.1), vs.map (·.2.1), vs.foldl (fun x e => x ||| e.2.2) 0⟩) [fa.toNat, fb.toNat]
      (p * (xformCost (ps.map (· + 1)) (ps.map fun _ => 1) + 2 * (ps.map (· + 1)).sum))) s

/-- R232: FPROJ to the source's degrees in the other basis. -/
def execFxform (fd fa rb : Reg) (mask : Reg3) (s : State) : Host.Outcome State Fault Refusal := instr (do
  let c ← funStart mask
  require (rb == 0) 6
  let a ← needFun c fa.toNat
  let ps := tagDegs a.tag
  project c fd a (3 - tagBasis a.tag) ps [fa.toNat] (xformCost (ps.map (· + 1)) (ps.map (· + 1)))) s

/-- R232: FPROJ to the greater degree on each axis; on MODAL operands the existing coefficients pass unchanged. -/
def execFlift (fd fa fb : Reg) (mask : Reg3) (s : State) : Host.Outcome State Fault Refusal := instr (do
  let c ← funStart mask
  let a ← needFun c fa.toNat
  let b ← needSame c a fb.toNat
  let ms := ((tagDegs a.tag).zip (tagDegs b.tag)).map fun e => max e.1 e.2
  let cost := xformCost ((tagDegs a.tag).map (· + 1)) (ms.map (· + 1))
  if tagBasis a.tag = 1 then
    funResult c fd.toNat 1 ms (fun j => Field.of [] (reshapeRow a j ms)) [fa.toNat, fb.toNat] cost
  else project c fd a (tagBasis a.tag) ms [fa.toNat, fb.toNat] cost) s

/-- R235. -/
def execFmass (fd fa rb : Reg) (mask : Reg3) (s : State) : Host.Outcome State Fault Refusal := instr (do
  let c ← funStart mask
  require (rb == 0) 6
  let a ← needFun c fa.toNat
  let ps := tagDegs a.tag
  let n := ps.map (· + 1)
  funResult c fd.toNat (tagBasis a.tag) ps (fun j => fmassRow c.fmt (tagBasis a.tag) ps (a.coeffRow j)) [fa.toNat]
    (xformCost n n + n.foldl (· * ·) 1 + xformCost n n)) s

/-! ## Function mode of element-wise forms (R212) -/

/-- VADD and VSUB on functions (R153, R154, R212). -/
def funAdd (c : Cap) (isSub lift : Bool) (rm : Reg3) (fd fa fb : Reg) : M Unit := do
  require (c.grp == 1) 8
  let a ← needFun c fa.toNat
  let b ← needSame c a fb.toNat
  let basis := tagBasis a.tag
  let ps := tagDegs a.tag
  let qs := tagDegs b.tag
  if basis = 2 ∧ !lift ∧ ps ≠ qs then mismatch 5 fb.toNat b.tag
  else
    let ms := (ps.zip qs).map fun e => max e.1 e.2
    checkShape c.fmt ms
    let md := { c.g.mode rm with fz := false }
    let raise := fun (t : Tile) (ds : List Nat) (j : Nat) =>
      if basis = 1 then Field.of [] (reshapeRow t j ms)
      else (Field.of (ds.map (· + 1)) (t.coeffRow j)).xform c.fmt ((ds.zip ms).map fun e =>
        if e.1 = e.2 then matOf (e.1 + 1) (e.1 + 1) fun o n => if o = n then fxOne else 0 else matI 2 e.1 e.2)
    let rowOf := fun j =>
      let x := raise a ps j
      let y := raise b qs j
      let zs := (x.vals.zip y.vals).map fun e =>
        (if isSub then subF else addF) c.fmt md (decodeF c.fmt e.1) (decodeF c.fmt e.2)
      (⟨[], zs.map (·.1), zs.map (·.2), x.pooled ||| y.pooled⟩ : Field)
    let s ← get
    let fc := isFC (coreOf s.cur)
    let sz := fun ds : List Nat => ds.map (· + 1)
    let lifts := if lift ∧ basis = 2 then liftCycles fc c.w c.rc (sz ps) (sz ms) + liftCycles fc c.w c.rc (sz qs) (sz ms) else 0
    funFinish c fd.toNat (funTag c.fmt basis c.rc ms) (coeffs ms) 1 rowOf [fa.toNat, fb.toNat]
      (lifts + issueCycles (c.rc * coeffs ms) (groupSize fc 1 c.w) (if fc then 4 else 2))

/-- VNEG and VMUL on a function: fa's shape, coefficient by coefficient (R212). -/
def funMap (c : Cap) (fd fa : Reg) (sources : List Nat) (f : Nat → Nat → Nat × Nat) : M Unit := do
  require (c.grp == 1) 8
  let a ← needFun c fa.toNat
  let ps := tagDegs a.tag
  let s ← get
  let fc := isFC (coreOf s.cur)
  funFinish c fd.toNat (funTag c.fmt (tagBasis a.tag) c.rc ps) (coeffs ps) 1 (fun j =>
    let zs := (a.coeffRow j).map (f j)
    ⟨[], zs.map (·.1), zs.map (·.2), 0⟩) sources
    (issueCycles (c.rc * coeffs ps) (groupSize fc 1 c.w) (if fc then 4 else 2))

/-- VMV of a function: its coefficients and its tag with ROWS := RC; its format is not checked (R212). -/
def funMove (c : Cap) (fd fa : Reg) : M Unit := do
  require (c.grp == 1) 8
  let a := c.g.getF fa.toNat
  let ps := tagDegs a.tag
  let s ← get
  let fc := isFC (coreOf s.cur)
  funFinish c fd.toNat (funTag (tagFmt a.tag) (tagBasis a.tag) c.rc ps) (coeffs ps) 1
    (fun j => Field.of [] (a.coeffRow j)) [fa.toNat]
    (issueCycles (c.rc * coeffs ps) (groupSize fc 1 c.w) (if fc then 4 else 2))

end Sys2Proof.Machine
end

