-- ==== Sys2Proof/Machine/Elementwise.lean ====
section
/-!
DEFINITION. Elementwise.lean: the sweep (R190, R196) and majors 0x28, 0x29 and 0x2A: element-wise forms (R207-R213),
conversion (R214), compares (R215) and mask forms (R216).
-/

namespace Sys2Proof.Machine

/-! ## Format classes (R208) -/

def isI (f : Nat) : Bool := decide (f ≤ 3)
def isF (f : Nat) : Bool := decide (6 ≤ f) && decide (f ≤ 9)
def isIF (f : Nat) : Bool := isI f || isF f
def isA (f : Nat) : Bool := decide (f ≤ 9)

/-! ## The sweep (R190) -/

/-- Results in logical order from index k: `f` at active elements, the old value at the others. -/
def sweep (act : Nat → Bool) (f : Nat → Nat → Nat → Nat → Nat × Nat) (k : Nat) :
    List Nat → List Nat → List Nat → List Nat → List (Nat × Nat)
  | o :: os, a :: as, b :: bs, x :: xs =>
    (if act k then f k a b x else (o, 0)) :: sweep act f (k + 1) os as bs xs
  | _, _, _, _ => []

/-- The flagged elements of results in logical order. -/
def flagged (rs : List (Nat × Nat)) : List (Nat × Nat) :=
  ((List.range rs.length).zip rs).filterMap fun e => if e.2.2 = 0 then none else some (e.1, e.2.2)

/-- Issue cycles of n elements in a class on the core of the hart that runs (R121). -/
def laneCost (cls n w : Nat) : M Nat := do
  let s ← get
  let fc := isFC (coreOf s.cur)
  let units := match cls with
    | 1 => if fc then 4 else 2
    | 2 => if fc then 2 else 1
    | _ => 1
  pure (issueCycles n (groupSize fc cls w) units)

/-- Queues an instruction of class VA, SF or XL over the swept elements, in element groups of its format (R114, R121).
DESIGN CHOICE: VTYPE's width fixes E also where an instruction reads or writes another width or a mask; R114 names none
(log 8). -/
def queueLanes (c : Cap) (cls flags : Nat) : M Unit := do
  let cost ← laneCost cls c.count c.w
  let s ← get
  enqueue cls flags (groupCount (isFC (coreOf s.cur)) cls c.w c.count) cost

/-- Writes tiles and queues the instruction: storage, then enabled conditions, then the write (R196 steps 6 and 7). An
instruction that sweeps no element writes nothing. -/
def finishWrites (c : Cap) (cls : Nat) (ws : List TileWrite) (sources : List Nat) (flags : List (Nat × Nat)) : M Unit := do
  if c.count = 0 then queueLanes c cls 0
  else
    checkStorage ws sources
    checkEnabled flags
    writeTiles ws
    queueLanes c cls (joinFlags flags)
  advance

/-- A tile of RC x VL results to the group at d. -/
def finishTile (c : Cap) (cls d grp fmt : Nat) (sources : List Nat) (rs : List (Nat × Nat)) : M Unit :=
  finishWrites c cls (c.g.groupWrites d grp fmt (rowsOf c.vl c.rc (rs.map (·.1))) c.vl) sources (flagged rs)

/-- The physical registers of source groups of the captured size. -/
def Cap.sources (c : Cap) (xs : List Reg) : List Nat := xs.flatMap fun x => c.g.physGroup x.toNat c.grp

/-- The i-th source tile, zeros where there is none. -/
def Cap.source (c : Cap) (xs : List Reg) (i : Nat) : List Nat :=
  match xs[i]? with
  | some x => c.tile x.toNat
  | none => List.replicate c.count 0

/-- An element-wise form on plain tiles: class, modifier, alignment, then the sweep with a result format and an
operation on logical index and three sources. -/
def plainForm (c : Cap) (cls : Nat → Bool) (rm : Reg3) (out : Nat) (fd : Reg) (xs : List Reg)
    (op : Nat → Nat → Nat → Nat → Nat × Nat) : M Unit := do
  require (cls c.fmt) 8
  require (rm == 0 || isF c.fmt) 6
  require (aligned c.grp (fd :: xs)) 4
  finishTile c 1 fd.toNat c.grp out (c.sources xs)
    (sweep c.active op 0 (c.tile fd.toNat) (c.source xs 0) (c.source xs 1) (c.source xs 2))

/-- A form with an integer and a floating operation, each without the other's flags. -/
def splitOp (c : Cap) (rm : Reg3) (int : Nat → Nat → Nat → Nat → Nat) (flt : Nat → Mode → Val → Val → Val → Nat × Nat)
    (a b x : Nat) : Nat × Nat :=
  if isI c.fmt then (int c.w a b x % 2 ^ c.w, 0)
  else
    let md := c.g.mode rm
    flt c.fmt md (readF md.fz c.fmt a) (readF md.fz c.fmt b) (readF md.fz c.fmt x)

/-- A captured element-wise form. -/
def lanes (mask : Reg3) (cls : Nat → Bool) (rm : Reg3) (fd : Reg) (xs : List Reg)
    (op : Cap → Nat → Nat → Nat → Nat → Nat × Nat) : M Unit := do
  let c ← captured mask
  plainForm c cls rm c.fmt fd xs (op c)

/-! ## Arithmetic (R208-R210) -/

/-- VADD and VSUB. -/
def addForm (isSub : Bool) (fd fa fb : Reg) (mask rm : Reg3) (lift : Bool) : M Unit := do
  let c ← captured mask
  if isFun (c.g.getF fa.toNat).tag || isFun (c.g.getF fb.toNat).tag then funAdd c isSub lift rm fd fa fb
  else
    plainForm c isIF rm c.fmt fd [fa, fb] fun _ a b x =>
      splitOp c rm (fun w a b _ => if isSub then a + 2 ^ w - b else a + b)
        (fun f md a b _ => if isSub then subF f md a b else addF f md a b) a b x

/-- R208: a + b. -/
def execVadd (fd fa fb : Reg) (mask rm : Reg3) (lift : Bool) (s : State) : Host.Outcome State Fault Refusal :=
  instr (addForm false fd fa fb mask rm lift) s

/-- R208: a - b. -/
def execVsub (fd fa fb : Reg) (mask rm : Reg3) (lift : Bool) (s : State) : Host.Outcome State Fault Refusal :=
  instr (addForm true fd fa fb mask rm lift) s

/-- R208, R212: a x b; in function mode each row is scaled by element 0 of fb's row. -/
def execVmul (fd fa fb : Reg) (mask rm : Reg3) (s : State) : Host.Outcome State Fault Refusal := instr (do
  let c ← captured mask
  if isFun (c.g.getF fa.toNat).tag then
    let md := { c.g.mode rm with fz := false }
    let b := c.g.getF fb.toNat
    funMap c fd fa [fa.toNat, fb.toNat] fun j u =>
      mulF c.fmt md (decodeF c.fmt u) (decodeF c.fmt ((b.elems c.w j 0 1).getD 0 0))
  else
    plainForm c isIF rm c.fmt fd [fa, fb] fun _ a b x =>
      splitOp c rm (fun _ a b _ => a * b) (fun f md a b _ => mulF f md a b) a b x) s

/-- R208, R136: a / b. -/
def execVdiv (fd fa fb : Reg) (mask rm : Reg3) (s : State) : Host.Outcome State Fault Refusal :=
  instr (lanes mask isIF rm fd [fa, fb] fun c _ a b _ =>
    if isI c.fmt then
      let (q, _, fl) := divI c.w true a b
      (q, fl)
    else
      let md := c.g.mode rm
      divF c.fmt md (readF md.fz c.fmt a) (readF md.fz c.fmt b)) s

/-- R208, R136: the remainder. -/
def execVrem (fd fa fb : Reg) (mask : Reg3) (s : State) : Host.Outcome State Fault Refusal :=
  instr (lanes mask isI 0 fd [fa, fb] fun c _ a b _ =>
    let (_, r, fl) := divI c.w true a b
    (r, fl)) s

/-- VMIN and VMAX (R135, R211). -/
def minmaxForm (isMax nan : Bool) (fd fa fb : Reg) (mask : Reg3) : M Unit := do
  let c ← captured mask
  require (isIF c.fmt) 8
  require (!nan || isF c.fmt) 6
  plainForm c isIF 0 c.fmt fd [fa, fb] fun _ a b _ =>
    if isI c.fmt then (minmaxI c.w isMax a b, 0) else minmaxF c.fmt (c.g.mode 0).fz isMax nan a b

/-- R208: the lesser. -/
def execVmin (fd fa fb : Reg) (mask : Reg3) (nan : Bool) (s : State) : Host.Outcome State Fault Refusal :=
  instr (minmaxForm false nan fd fa fb mask) s

/-- R208: the greater. -/
def execVmax (fd fa fb : Reg) (mask : Reg3) (nan : Bool) (s : State) : Host.Outcome State Fault Refusal :=
  instr (minmaxForm true nan fd fa fb mask) s

/-- R208: bitwise AND. -/
def execVand (fd fa fb : Reg) (mask : Reg3) (s : State) : Host.Outcome State Fault Refusal :=
  instr (lanes mask isI 0 fd [fa, fb] fun _ _ a b _ => (a &&& b, 0)) s

/-- R208: bitwise OR. -/
def execVor (fd fa fb : Reg) (mask : Reg3) (s : State) : Host.Outcome State Fault Refusal :=
  instr (lanes mask isI 0 fd [fa, fb] fun _ _ a b _ => (a ||| b, 0)) s

/-- R208: bitwise XOR. -/
def execVxor (fd fa fb : Reg) (mask : Reg3) (s : State) : Host.Outcome State Fault Refusal :=
  instr (lanes mask isI 0 fd [fa, fb] fun _ _ a b _ => (a ^^^ b, 0)) s

/-- R208: a shifted left by b's low log2(w) bits. -/
def execVsll (fd fa fb : Reg) (mask : Reg3) (s : State) : Host.Outcome State Fault Refusal :=
  instr (lanes mask isI 0 fd [fa, fb] fun c _ a b _ => (a * 2 ^ (b % c.w) % 2 ^ c.w, 0)) s

/-- R208: a shifted right, zeros in. -/
def execVsrl (fd fa fb : Reg) (mask : Reg3) (s : State) : Host.Outcome State Fault Refusal :=
  instr (lanes mask isI 0 fd [fa, fb] fun c _ a b _ => (a / 2 ^ (b % c.w), 0)) s

/-- R208: a shifted right, copies of the sign bit in. -/
def execVsra (fd fa fb : Reg) (mask : Reg3) (s : State) : Host.Outcome State Fault Refusal :=
  instr (lanes mask isI 0 fd [fa, fb] fun c _ a b _ => (((BitVec.ofNat c.w a).sshiftRight (b % c.w)).toNat, 0)) s

/-- The magnitude of a with a sign, as VABS, VNEG and VSGNJ give it (R209). -/
def withSign (f : Nat) (fz : Bool) (neg : Bool) (a : Nat) : Nat × Nat :=
  match readF fz f a with
  | .nan sig => (canonNan f, if sig then fNV else 0)
  | .fin _ man _ => (if man = 0 then signPat f neg else a % 2 ^ (fmtWidth f - 1) + signPat f neg, 0)
  | .inf _ => (a % 2 ^ (fmtWidth f - 1) + signPat f neg, 0)

/-- The sign bit of a pattern of w bits. -/
def signBit (w a : Nat) : Bool := a / 2 ^ (w - 1) % 2 == 1

/-- R208: the absolute value. -/
def execVabs (fd fa : Reg) (mask : Reg3) (s : State) : Host.Outcome State Fault Refusal :=
  instr (lanes mask isIF 0 fd [fa] fun c _ a _ _ =>
    if isI c.fmt then (if signBit c.w a then 2 ^ c.w - a else a, 0)
    else withSign c.fmt (c.g.mode 0).fz false a) s

/-- R208, R212: the negation. -/
def execVneg (fd fa : Reg) (mask : Reg3) (s : State) : Host.Outcome State Fault Refusal := instr (do
  let c ← captured mask
  if isFun (c.g.getF fa.toNat).tag then
    funMap c fd fa [fa.toNat] fun _ u => withSign c.fmt false (!signBit c.w u) u
  else
    plainForm c isIF 0 c.fmt fd [fa] fun _ a _ _ =>
      if isI c.fmt then ((2 ^ c.w - a) % 2 ^ c.w, 0)
      else withSign c.fmt (c.g.mode 0).fz (!signBit c.w a) a) s

/-- R208: the square root. -/
def execVsqrt (fd fa : Reg) (mask rm : Reg3) (s : State) : Host.Outcome State Fault Refusal :=
  instr (lanes mask isF rm fd [fa] fun c _ a _ _ =>
    let md := c.g.mode rm
    sqrtF c.fmt md (readF md.fz c.fmt a)) s

/-- R208: a x b + c, fused. -/
def execVmadd (fd fa fb fc : Reg) (mask rm : Reg3) (s : State) : Host.Outcome State Fault Refusal :=
  instr (lanes mask isIF rm fd [fa, fb, fc] fun c _ a b x =>
    splitOp c rm (fun _ a b x => a * b + x) (fun f md a b x => fmaF f md a b x) a b x) s

/-- R208: a x b - c, fused. -/
def execVmsub (fd fa fb fc : Reg) (mask rm : Reg3) (s : State) : Host.Outcome State Fault Refusal :=
  instr (lanes mask isIF rm fd [fa, fb, fc] fun c _ a b x =>
    splitOp c rm (fun w a b x => a * b + 2 ^ w - x) (fun f md a b x => fmaF f md a b x.negate) a b x) s

/-- R208: -(a x b) + c, fused. -/
def execVnmadd (fd fa fb fc : Reg) (mask rm : Reg3) (s : State) : Host.Outcome State Fault Refusal :=
  instr (lanes mask isIF rm fd [fa, fb, fc] fun c _ a b x =>
    splitOp c rm (fun w a b x => wrap w ((x : Int) - (a * b : Nat))) (fun f md a b x => fmaF f md a.negate b x) a b x) s

/-- R208: the magnitude of a with the sign of b. -/
def execVsgnj (fd fa fb : Reg) (mask : Reg3) (s : State) : Host.Outcome State Fault Refusal :=
  instr (lanes mask isF 0 fd [fa, fb] fun c _ a b _ => withSign c.fmt (c.g.mode 0).fz (signBit c.w b) a) s

/-- R208, R212: a, bit for bit. -/
def execVmv (fd fa : Reg) (mask : Reg3) (s : State) : Host.Outcome State Fault Refusal := instr (do
  let c ← captured mask
  if isFun (c.g.getF fa.toNat).tag then funMove c fd fa
  else plainForm c (fun _ => true) 0 c.fmt fd [fa] fun _ a _ _ => (a, 0)) s

/-- R208: a where bit k of m[c] is 1, else b. -/
def execVsel (fd fa fb : Reg) (mc mask : Reg3) (s : State) : Host.Outcome State Fault Refusal :=
  instr (lanes mask isA 0 fd [fa, fb] fun c k a b _ => (if (c.g.getM mc).getLsbD k then a else b, 0)) s

/-- The wide format of VWMAC (R213). -/
def wideFmt (f : Nat) : Nat := match f with | 0 => 2 | 1 => 2 | 2 => 3 | 6 => 8 | 7 => 8 | 8 => 9 | _ => 0xF

/-- R213: a x b + c in the wide format. -/
def execVwmac (fd fa fb fc : Reg) (mask rm : Reg3) (s : State) : Host.Outcome State Fault Refusal := instr (do
  let c ← captured mask
  let wf := wideFmt c.fmt
  require (wf != 0xF) 8
  let ww := fmtWidth wf
  let gd := c.grp * (ww / c.w)
  require (gd ≤ 8) 8
  require (rm == 0 || isF c.fmt) 6
  require (aligned c.grp [fa, fb] && aligned gd [fd, fc]) 4
  require (!groupsMeet fd.toNat gd fa.toNat c.grp && !groupsMeet fd.toNat gd fb.toNat c.grp) 4
  let md := c.g.mode rm
  let op := fun (_ : Nat) a b x =>
    if isI c.fmt then (wrap ww (signed c.w a * signed c.w b + signed ww x), 0)
    else fmaF wf md (readF md.fz c.fmt a) (readF md.fz c.fmt b) (readF md.fz wf x)
  let wide := fun (r : Reg) => c.g.tile r.toNat gd ww c.rc c.vl
  finishTile c 1 fd.toNat gd wf (c.sources [fa, fb] ++ c.g.physGroup fc.toNat gd)
    (sweep c.active op 0 (wide fd) (c.tile fa.toNat) (c.tile fb.toNat) (wide fc))) s

/-- The class word of a pattern (R209). -/
def classWord (f p : Nat) : Nat :=
  match decodeF f p with
  | .inf neg => if neg then 2 ^ 0 else 2 ^ 7
  | .nan sig => if sig then 2 ^ 8 else 2 ^ 9
  | .fin neg man _ =>
    if man = 0 then (if neg then 2 ^ 3 else 2 ^ 4)
    else if man < 2 ^ fmtMan f then (if neg then 2 ^ 2 else 2 ^ 5)
    else if neg then 2 ^ 1 else 2 ^ 6

/-- The integer format of a width. -/
def intFmt (w : Nat) : Nat := match w with | 8 => 0 | 16 => 1 | 32 => 2 | _ => 3

/-- R209: the class word of each element. -/
def execVclass (fd fa : Reg) (mask : Reg3) (s : State) : Host.Outcome State Fault Refusal := instr (do
  let c ← captured mask
  plainForm c isF 0 (intFmt c.w) fd [fa] fun _ a _ _ => (classWord c.fmt a, 0)) s

/-! ## Conversion (R214) -/

/-- The stored O4 byte that holds elements 2p and 2p + 1 of row j of a group (R127). -/
def Regs.o4Byte (g : Regs) (x j p : Nat) : Nat :=
  let t := g.getF (x + p / 2048)
  let i := p % 2048
  if tagBasis t.tag = 0 ∧ 2 * i ≥ tagLen t.tag then 0 else t.row j / 2 ^ (8 * i) % 256

/-- The values of n elements of an O4 row (R127). -/
def Regs.o4Row (g : Regs) (x j n : Nat) : List Int :=
  (List.range n).map fun i =>
    let (lo, hi) := o4Pair (g.o4Byte x j (i / 2))
    if i % 2 = 0 then lo else
      let t := g.getF (x + i / 4096)
      if tagBasis t.tag = 0 ∧ i % 4096 ≥ tagLen t.tag then 0 else hi

/-- An integer as a value. -/
def Val.ofZ (z : Int) : Val := .fin (decide (z < 0)) z.natAbs 0

/-- The mode of a conversion's element: stochastic rounding by logical index where it applies (R214). -/
def Cap.cvtMode (c : Cap) (rm : Reg3) (srOk : Bool) (k : Nat) : Mode :=
  let code := if rm = 0 then bits c.g.frm.toNat 2 0 else rm.toNat - 1
  let code := if code = 5 ∧ !srOk then 0 else code
  ⟨code, c.g.frm.getLsbD 8, if code = 5 then stochastic c.g.seed k else 0⟩

/-- Converts one element, neither format O4 (R126, R214). -/
def convert (src dst : Nat) (md : Mode) (a : Nat) : Nat × Nat :=
  let ws := fmtWidth src
  let wt := fmtWidth dst
  if src = dst then
    if isI src then (a, 0)
    else match decodeF src a with
      | .nan true => (canonNan src, fNV)
      | _ => (a, 0)
  else if isI src then
    if isI dst then
      let z := signed ws a
      if z > 2 ^ (wt - 1) - 1 then (2 ^ (wt - 1) - 1, fNV)
      else if z < -(2 ^ (wt - 1)) then (2 ^ (wt - 1), fNV)
      else (wrap wt z, 0)
    else roundVal dst md (ofInt ws a)
  else if isI dst then toInt wt md (readF md.fz src a)
  else roundVal dst md (readF md.fz src a)

/-- The value of an element that converts to O4. -/
def valueOf (src : Nat) (fz : Bool) (a : Nat) : Val :=
  if isI src then ofInt (fmtWidth src) a else readF fz src a

/-- The values of n elements of row j of the group at field x, for a conversion to O4 (R127, R214). -/
def Regs.valueRow (g : Regs) (x grp fmt w j n : Nat) : List Val :=
  if fmt = 0xA then (g.o4Row x j n).map Val.ofZ
  else (g.groupRow x grp w j n).map (valueOf fmt (g.frm.getLsbD 8))

/-- The writes of O4 rows given as bytes, n elements to a row. -/
def Regs.o4Writes (g : Regs) (x grp : Nat) (rows : List (List Nat)) (n : Nat) : List TileWrite :=
  (List.range grp).map fun r =>
    let len := min (n - min n (r * 4096)) 4096
    (g.phys (x + r), ⟨plainTag 0xA rows.length len,
      rows.map fun es => packRow 8 ((es.drop (r * 2048)).take ((len + 1) / 2))⟩)

/-- R214: converts to the format the minor opcode names. -/
def execVcvt (format : BitVec 4) (fd fa : Reg) (mask rm : Reg3) (s : State) : Host.Outcome State Fault Refusal := instr (do
  let c ← captured mask
  let dst := format.toNat
  let wt := fmtWidth dst
  let gd := max 1 (c.grp * wt / c.w)
  require (gd ≤ 8) 8
  let srOk := (isFloat dst && decide (wt < c.w)) || dst == 0xA
  require (rm != 6 || srOk) 6
  require (aligned c.grp [fa] && aligned gd [fd]) 4
  let md := c.cvtMode rm srOk
  let sources := c.sources [fa]
  if dst = 0xA then
    let pairs := (c.vl + 1) / 2
    let rows := (List.range c.rc).map fun j =>
      let xs := (c.g.valueRow fa.toNat c.grp c.fmt c.w j c.vl).toArray
      (List.range pairs).map fun p =>
        let k := j * c.vl + 2 * p
        if c.active k then
          let at_ := fun i : Nat => xs.getD i (.fin false 0 0)
          let (byte, f0, f1) := o4Encode (md k) (md (k + 1)) (at_ (2 * p)) (at_ (2 * p + 1))
          (byte, [(k, f0), (k + 1, f1)])
        else (c.g.o4Byte fd.toNat j p, [])
    finishWrites c 1 (c.g.o4Writes fd.toNat gd (rows.map fun r => r.map (·.1)) c.vl) sources
      ((rows.flatMap fun r => r.flatMap (·.2)).filter fun e => e.2 != 0)
  else
    let old := c.g.tile fd.toNat gd wt c.rc c.vl
    let none := List.replicate c.count 0
    if c.fmt = 0xA then
      let xs := ((List.range c.rc).flatMap fun j => c.g.o4Row fa.toNat j c.vl).toArray
      finishTile c 1 fd.toNat gd dst sources (sweep c.active (fun k _ _ _ =>
        let z := xs.getD k 0
        if isI dst then (wrap wt z, 0) else roundVal dst (md k) (Val.ofZ z)) 0 old none none none)
    else
      finishTile c 1 fd.toNat gd dst sources (sweep c.active (fun k a _ _ =>
        convert c.fmt dst (md k) a) 0 old (c.tile fa.toNat) none none)) s

/-! ## Compares (R215) -/

/-- A mask from its low bits. -/
def maskFrom (bs : List Bool) : Mask :=
  BitVec.ofNat 32768 (bs.foldr (fun b a => 2 * a + if b then 1 else 0) 0)

/-- The bits of a compare or mask form merged under the governing mask: bits at and above RC x VL clear. -/
def Cap.mergeMask (c : Cap) (old : Mask) (res : List Bool) : Mask :=
  maskFrom (((List.range c.count).zip res).map fun e => if c.active e.1 then e.2 else old.getLsbD e.1)

/-- A compare into m[d]. `cmp` gives the bit and the flags of an active element. -/
def compares (md : Reg3) (fa fb : Reg) (mask : Reg3) (cls : Nat → Bool) (cmp : Nat → Bool → Nat → Nat → Bool × Nat) :
    M Unit := do
  let c ← captured mask
  require (cls c.fmt) 8
  require (aligned c.grp [fa, fb]) 4
  if c.count = 0 then queueLanes c 1 0
  else
    let fz := c.g.frm.getLsbD 8
    let rs := (List.range c.count).zipWith (fun k (e : Nat × Nat) =>
        if c.active k then cmp c.fmt fz e.1 e.2 else (false, 0))
      ((c.tile fa.toNat).zip (c.tile fb.toNat))
    let flags := flagged (rs.map fun r => (0, r.2))
    checkEnabled flags
    updRegs fun g => g.setM md (c.mergeMask (g.m.get md.toFin) (rs.map (·.1)))
    queueLanes c 1 (joinFlags flags)
  advance

/-- A compare of values: the bit for a NaN operand, whether a quiet NaN sets NV, and the test of the order. -/
def floatCmp (f : Nat) (fz : Bool) (nan quietNv : Bool) (test : Int → Bool) (a b : Nat) : Bool × Nat :=
  let x := readF fz f a
  let y := readF fz f b
  if x.isNan || y.isNan then (nan, if quietNv then fNV else sigFlag x ||| sigFlag y)
  else (test (cmpVal x y), 0)

/-- R215: equal. -/
def execVcmpEq (md : Reg3) (fa fb : Reg) (mask : Reg3) (s : State) : Host.Outcome State Fault Refusal :=
  instr (compares md fa fb mask isIF fun f fz a b =>
    if isI f then (a == b, 0) else floatCmp f fz false false (· == 0) a b) s

/-- R215: not equal. -/
def execVcmpNe (md : Reg3) (fa fb : Reg) (mask : Reg3) (s : State) : Host.Outcome State Fault Refusal :=
  instr (compares md fa fb mask isIF fun f fz a b =>
    if isI f then (a != b, 0) else floatCmp f fz true false (· != 0) a b) s

/-- R215: less, signed. -/
def execVcmpLt (md : Reg3) (fa fb : Reg) (mask : Reg3) (s : State) : Host.Outcome State Fault Refusal :=
  instr (compares md fa fb mask isIF fun f fz a b =>
    if isI f then (decide (signed (fmtWidth f) a < signed (fmtWidth f) b), 0)
    else floatCmp f fz false true (fun z => decide (z < 0)) a b) s

/-- R215: less or equal, signed. -/
def execVcmpLe (md : Reg3) (fa fb : Reg) (mask : Reg3) (s : State) : Host.Outcome State Fault Refusal :=
  instr (compares md fa fb mask isIF fun f fz a b =>
    if isI f then (decide (signed (fmtWidth f) a ≤ signed (fmtWidth f) b), 0)
    else floatCmp f fz false true (fun z => decide (z ≤ 0)) a b) s

/-- R215: less, unsigned. -/
def execVcmpLtu (md : Reg3) (fa fb : Reg) (mask : Reg3) (s : State) : Host.Outcome State Fault Refusal :=
  instr (compares md fa fb mask isI fun _ _ a b => (decide (a < b), 0)) s

/-- R215: less or equal, unsigned. -/
def execVcmpLeu (md : Reg3) (fa fb : Reg) (mask : Reg3) (s : State) : Host.Outcome State Fault Refusal :=
  instr (compares md fa fb mask isI fun _ _ a b => (decide (a ≤ b), 0)) s

/-- R215: unordered. -/
def execVcmpUnord (md : Reg3) (fa fb : Reg) (mask : Reg3) (s : State) : Host.Outcome State Fault Refusal :=
  instr (compares md fa fb mask isIF fun f fz a b =>
    if isI f then (false, 0) else floatCmp f fz true false (fun _ => false) a b) s

/-! ## Mask forms (R216) -/

/-- A logical form on masks. -/
def maskForm (md ma mb mask : Reg3) (op : Mask → Mask → Mask) : M Unit := do
  let c ← captured mask
  if c.count = 0 then queueLanes c 1 0
  else
    let r := op (c.g.getM ma) (c.g.getM mb)
    let low : Mask := BitVec.ofNat 32768 (2 ^ c.count - 1)
    updRegs fun g => g.setM md (((g.m.get md.toFin &&& ~~~c.mask) ||| (r &&& c.mask)) &&& low)
    queueLanes c 1 0
  advance

/-- R216: and. -/
def execVmand (md ma mb mask : Reg3) (s : State) : Host.Outcome State Fault Refusal :=
  instr (maskForm md ma mb mask (· &&& ·)) s

/-- R216: or. -/
def execVmor (md ma mb mask : Reg3) (s : State) : Host.Outcome State Fault Refusal :=
  instr (maskForm md ma mb mask (· ||| ·)) s

/-- R216: exclusive or. -/
def execVmxor (md ma mb mask : Reg3) (s : State) : Host.Outcome State Fault Refusal :=
  instr (maskForm md ma mb mask (· ^^^ ·)) s

/-- R216: a and not b. -/
def execVmandn (md ma mb mask : Reg3) (s : State) : Host.Outcome State Fault Refusal :=
  instr (maskForm md ma mb mask (fun a b => a &&& ~~~b)) s

/-- R216: the count of active set bits. -/
def execVmpop (rd : Reg) (ma mask : Reg3) (s : State) : Host.Outcome State Fault Refusal := instr (do
  let c ← captured mask
  let a := c.g.getM ma
  writeS rd (BitVec.ofNat 64 ((List.range c.count).filter fun k => c.active k && a.getLsbD k).length)
  queueLanes c 1 0
  advance) s

end Sys2Proof.Machine
end

