-- ==== Sys2Proof/Machine/Batch.lean ====
section
/-!
DEFINITION. Batch.lean: the run-ahead probe of the pages of a vector-class memory instruction (R279, R250), its outcome
and reports (R280-R283), the progress index (R408), reads of many elements with their packets to peers (R365), and
stores of many elements (R324).
-/

namespace Sys2Proof.Machine

/-! ## Accesses -/

/-- One element's access: logical index, virtual address, bytes. -/
structure Acc where
  k : Nat
  va : Nat
  n : Nat
  deriving DecidableEq, Repr

/-- What an instruction sweeps: its accesses in logical order, the PIX position of an index, and the fields of its batch
report: FIRST of an index in the lengths that it reports, KIND, element bytes (0 where two elements share a byte), base,
lengths and steps (R282; log 15). -/
structure Sweep where
  accs : List Acc
  pos : Nat → Nat
  first : Nat → Nat
  kind : Nat
  elemBytes : Nat
  base : Word
  lens : List Word
  steps : List Word

/-- The pages an access touches. -/
def Acc.pages (a : Acc) : List Nat :=
  if a.n = 0 then [] else
  (List.range ((a.va + a.n - 1) / 65536 + 1 - a.va / 65536)).map (a.va / 65536 + ·)

/-- The pages of some accesses, in order of the first that touches each (R279). -/
def pagesOf (as : List Acc) : List Nat :=
  (as.foldl (fun ps a => a.pages.foldl (fun (ps : List Nat) g => if ps.contains g then ps else g :: ps) ps) []).reverse

/-- A PIX position (R408). -/
def pixWord (plane row elem : Nat) : Nat := plane * 2 ^ 32 + row * 2 ^ 16 + elem

/-- The position of logical index k in planes of rc rows of vl elements. -/
def pixAt (rc vl k : Nat) : Nat :=
  let n := max (rc * vl) 1
  pixWord (k / n) (k % n / max vl 1) (k % n % max vl 1)

/-- Records the position of a stop in PIX (R295, R408). -/
def setPix (w : Nat) : M Unit := updRegs fun g => { g with pix := BitVec.ofNat 64 w }

/-- The batch report of a sweep with its first faulting access and the non-present pages. -/
def Sweep.report (w : Sweep) (p : Nat) (a : Acc) (pages : List Nat) : List Word :=
  batchReport p w.kind w.elemBytes w.base w.lens w.steps (w.first a.k)
    (if w.kind = 2 ∨ w.kind = 4 then [] else (pages.map (· * 65536)).take 7)

/-- Traps PERMISSION at an access; PIX holds its position (R280, R408). -/
def Sweep.deny {α : Type} (w : Sweep) (a : Acc) : M α := do
  throw (.trap ⟨cPERM, BitVec.ofNat 64 a.va, 0, none, none, some (w.pos a.k)⟩)

/-- Traps TRANSLATION at an access, with the batch of non-present pages; PIX holds its position (R280, R408). -/
def Sweep.miss {α : Type} (w : Sweep) (cause : Nat) (a : Acc) (pages : List Nat) : M α := do
  let p ← curPart
  throw (.trap ⟨cause, BitVec.ofNat 64 a.va, 0, none, some (w.report p a pages), some (w.pos a.k)⟩)

/-! ## Probes (R279, R280, R250) -/

/-- Probes pages in order. -/
def probePages (pages : List Nat) (need : Need) : M (List (Nat × Probe)) :=
  pages.mapM fun g => do
    let r ← probe (g * 65536) need
    pure (g, r)

/-- What the probe of a page gave. -/
def pageResult (ps : List (Nat × Probe)) (g : Nat) : Probe := (tget ps g).getD .absent

/-- Whether a probe failed. -/
def Probe.failed (p : Probe) : Bool := match p with | .ok .. => false | _ => true

/-- Whether an access touches a page whose probe failed. -/
def Acc.fails (ps : List (Nat × Probe)) (a : Acc) : Bool := a.pages.any fun g => (pageResult ps g).failed

/-- Whether the first failing page of an access lacks a right. -/
def Acc.denied (ps : List (Nat × Probe)) (a : Acc) : Bool :=
  match a.pages.find? fun g => (pageResult ps g).failed with
  | some g => (pageResult ps g).isDenied
  | none => false

/-- The non-present pages. -/
def absentPages (ps : List (Nat × Probe)) : List Nat := (ps.filter fun e => e.2 == .absent).map (·.1)

/-- The window rule (R250): accesses partly inside the scratchpad window are refused. -/
def Sweep.windowRule (w : Sweep) : M Unit :=
  match w.accs with
  | [] => pure ()
  | a :: _ =>
    let inside := w.accs.map fun a => inWindow a.va && inWindow (a.va + a.n - 1)
    let touching := w.accs.map fun a => inWindow a.va || inWindow (a.va + a.n - 1)
    if touching.any (fun x => x) && !inside.all fun x => x then w.deny a else pure ()

/-- Probes everything: a failure stops the instruction with nothing performed (R280). -/
def Sweep.probeAll (w : Sweep) (need : Need) (cause : Nat) : M (List (Nat × Probe)) := do
  w.windowRule
  let ps ← probePages (pagesOf w.accs) need
  match w.accs.find? (·.fails ps) with
  | none => pure ps
  | some a => if a.denied ps then w.deny a else w.miss cause a (absentPages ps)

/-- Probes a load: at TL 0 non-present pages are left to the batch outcome (R280); gives the first faulting access. -/
def Sweep.probeLoad (w : Sweep) : M (List (Nat × Probe) × Option Acc) := do
  w.windowRule
  let ps ← probePages (pagesOf w.accs) needR
  match w.accs.find? (·.fails ps) with
  | none => pure (ps, none)
  | some a =>
    if a.denied ps then w.deny a
    else
      let g ← curRegs
      if g.tl ≠ 0 then w.miss cLOAD a (absentPages ps) else pure (ps, some a)

/-! ## Resuming (R281, R295, R408) -/

/-- Whether the instruction is the reissue of the batch load that trapped (R281). -/
def reissue : M Bool := do
  let h ← curHart
  let s ← get
  pure ((h.first || h.retry) && h.regs.fem != 0 && s.curRank.femPc == some h.regs.pc)

/-- The logical index from which an instruction goes on that has been stopped part-way (R295, R408). -/
def Hart.resumeAt (h : Hart) (rc vl : Nat) : Nat :=
  let x := h.regs.pix.toNat
  if (h.first && x / 2 ^ 63 == 1) || h.partway.isSome then
    (bits x 47 32 * rc + bits x 31 16) * vl + bits x 15 0
  else 0

/-- The logical index from which the instruction in progress goes on. -/
def resumeAt (rc vl : Nat) : M Nat := do
  let h ← curHart
  pure (h.resumeAt rc vl)

/-- How many logical indices an instruction that can be stopped performs on this turn; only one that is the oldest of its
hart, at TL 0, can be stopped (R295, R409). -/
def portion : M (Option Nat) := do
  let s ← get
  let h := s.hart s.cur
  match h.limit with
  | some n => pure (some n)
  | none =>
    if h.regs.tl == 0 && h.queue.isEmpty && s.curRank.requests.isEmpty then
      match s.quota with
      | some n =>
        updHart fun h => { h with limit := some n }
        pure (some n)
      | none => pure none
    else pure none

/-- Keeps the entries of pages that have passed their probe. -/
def keepPages (ps : List (Nat × Probe)) : M Unit :=
  ps.forM fun p => match p.2 with
    | .ok _ e => keepProbe (p.1 * 65536) e
    | _ => pure ()

/-- Stops an instruction part-way (R295, R408): PIX holds the first index not performed; `grp` is the size of its element
groups. It goes on from there on the hart's next turn, on the pages that have been probed, unless it is taken. -/
def stopPart {α : Type} (ps : List (Nat × Probe)) (grp rc vl k : Nat) : M α := do
  keepPages ps
  change fun s => s.noteHeld 0 (s.beforeOf s.cur)
  setPix (2 ^ 63 + pixAt rc vl k)
  updHart fun h => { h with partway := some grp, limit := none }
  change State.dropRequests
  stall

/-- Elements of an element group of a unit-stride, and of a strided or indexed access (R114). -/
def unitGroup (w : Nat) : Nat := 4096 / max w 1
def indexGroup : Nat := 32

/-! ## Pieces: accesses cut at 64-byte lines, with their homes -/

/-- A piece of an access with its place. -/
structure Piece where
  va : Nat
  n : Nat
  pl : Place
  e : Option Entry
  deriving Repr

/-- The place of an address on a page that passed its probe. -/
def State.placeIn (s : State) (ps : List (Nat × Probe)) (va : Nat) : Place × Option Entry :=
  match pageResult ps (va / 65536) with
  | .ok _ (some e) => (s.placeOf e va, some e)
  | _ => (.pad (va % 2 ^ 21), none)

/-- Cuts n bytes at an address into pieces within 64-byte lines. -/
def cutLines (fuel va n : Nat) : List (Nat × Nat) :=
  match fuel with
  | 0 => []
  | fuel + 1 =>
    if n = 0 then [] else
    let m := min n (64 - va % 64)
    (va, m) :: cutLines fuel (va + m) (n - m)

/-- The pieces of n bytes at an address. -/
def State.piecesAt (s : State) (ps : List (Nat × Probe)) (va n : Nat) : List Piece :=
  (cutLines (n / 64 + 2) va n).map fun x =>
    let (pl, e) := s.placeIn ps x.1
    ⟨x.1, x.2, pl, e⟩

/-- Whether a piece is read through a MODE 2 page (R277). -/
def Piece.cached (x : Piece) : Bool := cachedBy x.e

/-! ## Reading -/

/-- A read wanted from a peer: request key, peer, first byte, end, and the pages it is translated by (R365, R372). -/
structure Want where
  key : Nat
  peer : Nat
  lo : Nat
  hi : Nat
  pages : List Nat
  deriving Repr

/-- What a piece wants from a peer: its line under MODE 2 without a copy, else its part of the 256-byte block. -/
def State.wantOf (s : State) (x : Piece) : Option Want :=
  match x.pl with
  | .peer q key =>
    if x.cached then
      if (s.usableCopy x.e (dieOf (coreOf s.cur)) q (key / 64)).isSome then none
      else some ⟨2 ^ 90 + q * 2 ^ 60 + key / 64 * 2 + 1, q, key / 64 * 64, key / 64 * 64 + 64, [x.va / 65536]⟩
    else some ⟨2 ^ 90 + q * 2 ^ 60 + key / 256 * 2, q, key, key + x.n, [x.va / 65536]⟩
  | _ => none

/-- Wants with those of one key joined, in order of the first. -/
def joinWants (ws : List Want) : List Want :=
  (ws.foldl (fun (acc : List Want) w =>
    if acc.any fun a => a.key == w.key then
      acc.map fun a => if a.key = w.key then { a with lo := min a.lo w.lo, hi := max a.hi w.hi, pages := a.pages ++ w.pages } else a
    else w :: acc) []).reverse

/-- Sends every read the pieces need from peers, and waits for the replies. -/
def awaitPeers (xs : List Piece) : M (List Want) := do
  let s ← get
  let ws := joinWants (xs.filterMap s.wantOf)
  if ws.isEmpty then pure []
  else
    drainFor fun e => ws.any fun w => e.peer == some w.peer
    let rs ← ws.mapM fun w => request w.key w.peer (.read w.lo (w.hi - w.lo)) [] w.pages true
    if rs.any Option.isNone then stall else pure ws

/-- Reads one piece; reads from peers have been answered. -/
def readPiece (ws : List Want) (x : Piece) : M (List Byte) := do
  match x.pl with
  | .peer q key =>
    counted x.va x.e
    let s ← get
    match s.usableCopy x.e (dieOf (coreOf s.cur)) q (key / 64) with
    | some bs =>
      useCopy x.va x.e q (key / 64) bs
      pure (sbOverlay (s.hart s.cur).sb (some q) key ((bs.drop (key % 64)).take x.n))
    | none =>
      match s.wantOf x with
      | none => pure (List.replicate x.n 0)
      | some w0 =>
        let w := (ws.find? fun w => w.key == w0.key).getD w0
        match (s.curRank.requests.find? fun r => r.key == w.key).bind (·.reply) with
        | none => stall
        | some r =>
          if r.poison then
            poisoned x.va (2 ^ 60 * (q + 1) + key / 64)
            pure (List.replicate x.n 0)
          else
            if x.cached && s.freshReply w.key then useCopy x.va x.e q (key / 64) r.bytes
            pure ((List.range x.n).map fun i => r.bytes.getD (key - w.lo + i) 0)
  | pl => readAt x.va x.n pl x.e

/-- Whether a place is device memory. -/
def Place.isMemory (pl : Place) : Bool :=
  match pl with
  | .pad _ => false
  | _ => true

/-- Reads accesses on pages that passed their probes, in order. -/
def readAccs (ps : List (Nat × Probe)) (as : List Acc) : M (List (List Byte)) := do
  let s ← get
  let xs := as.map fun a => s.piecesAt ps a.va a.n
  let ws ← awaitPeers xs.flatten
  let bs ← xs.mapM fun x => do
    let parts ← x.mapM (readPiece ws)
    pure parts.flatten
  if xs.any fun x => x.any fun y => y.pl.isMemory then unchecked
  pure bs

/-! ## Storing -/

/-- Parts that travel together: their peer and 256-byte block, and the parts (R365). -/
abbrev Parcel := (Option Nat × Nat) × List StorePart

/-- The bytes of a parcel. -/
def Parcel.size (p : Parcel) : Nat := (p.2.map fun x => x.bytes.length).sum

/-- Adds a part to the youngest parcel of its peer and block, unless that would exceed 256 bytes (R365); parcels are listed
youngest first. In pattern order only the youngest of all takes another part (R310). -/
def addPart (ordered : Bool) (ps : List Parcel) (b : Option Nat × Nat) (x : StorePart) : List Parcel :=
  match ps with
  | [] => [(b, [x])]
  | p :: rest =>
    if p.1 = b then
      if Parcel.size p + x.bytes.length ≤ 256 then (p.1, p.2 ++ [x]) :: rest else (b, [x]) :: p :: rest
    else if ordered || !rest.any fun r => r.1 == b then (b, [x]) :: p :: rest
    else p :: addPart ordered rest b x

/-- The checks a speculative node's stores make before any is performed (R49). -/
def specChecks (xs : List Piece) : M Unit := xs.forM fun x => specCheck x.va x.n x.pl

/-- Stores pieces that have passed every check, in logical order: store-buffer entries that each cover one 256-byte block of
one home or peer, with the tags of their own accesses (R326, R365). `fills` says whether an element may fill a receive slot
(R65); a push's are performed in pattern order (R310). An instruction that reaches a peer runs under guarded issue as a
whole (R391, R392; log 10). -/
def storePieces (xs : List (Piece × List Byte)) (fills ordered : Bool) : M Unit := do
  drainQueue
  xs.forM fun x => counted x.1.va x.1.e
  let s ← get
  let spec := s.curSpeculative
  let parcels ← xs.foldlM (fun (ps : List Parcel) x => do
    match x.1.pl with
    | .pad off =>
      change fun s => s.storePad off x.2
      pure ps
    | .home key =>
      if spec then
        change fun s => s.storeShadow x.1.va x.2
        pure ps
      else
        change fun s => s.clearShadow x.1.va x.1.n
        pure (addPart ordered ps (none, key / 256) ⟨x.1.va, key, x.2⟩)
    | .peer q key => pure (addPart ordered ps (some q, key / 256) ⟨x.1.va, key, x.2⟩)) []
  let held := parcels.any fun p => p.1.1.isSome
  parcels.reverse.forM fun p =>
    let tags := (p.2.flatMap fun x => s.curRank.tagsOf x.va x.bytes.length).eraseDups
    pushStore ⟨p.1.1, p.2, tags, held, fills, true, ordered⟩

/-- Cuts bytes into the pieces of an access. -/
def pieceBytes (xs : List Piece) (bs : List Byte) : List (Piece × List Byte) :=
  match xs with
  | [] => []
  | x :: rest => (x, bs.take x.n) :: pieceBytes rest (bs.drop x.n)

/-- Stores bytes by accesses, all pages having passed; an access that goes to a peer runs under guarded issue (R294). -/
def storeAccs (ps : List (Nat × Probe)) (as : List (Acc × List Byte)) (fills : Bool) (ordered : Bool := false) : M Unit := do
  let s ← get
  let xs := as.flatMap fun a => pieceBytes (s.piecesAt ps a.1.va a.1.n) a.2
  specChecks (xs.map (·.1))
  storePieces xs fills ordered

/-! ## Costs to the scratchpad (R252, R316 counter 7) -/

/-- What a sweep costs: issue cycles, and half-cycles of the scratchpad beyond one for each window. -/
structure Cost where
  cycles : Nat
  extra : Nat

/-- The cost of a strided sweep of n elements: one list for each run of constant stride, an address for each logical element
that is accessed (R252). -/
def stridedCost (stride : Int) (n : Nat) (runs : List (List (Option Nat))) : Cost :=
  let hits := runs.flatten.filterMap id
  if !hits.isEmpty && hits.all inWindow then ⟨padCycles stride n runs, padExtra stride runs⟩ else ⟨ceilDiv n 32, 0⟩

/-- Counts half-cycles of the scratchpad on the hart's core (R316). -/
def countExtra (cost : Cost) : M Unit := do
  if cost.extra ≠ 0 then change fun s => s.updCore (coreOf s.cur) fun c => c.count 7 cost.extra

/-- Places a memory instruction in the queue and counts its half-cycles. -/
def enqueueMem (cls flags groups : Nat) (cost : Cost) : M Unit := do
  enqueue cls flags groups cost.cycles
  countExtra cost

/-- Counts the element groups and half-cycles of the part of an instruction that has been performed when it stops, on the
core that performed it (R316). -/
def countPart (groups : Nat) (cost : Cost) : M Unit := do
  change fun s => s.updCore (coreOf s.cur) fun c => c.count 3 groups
  countExtra cost

end Sys2Proof.Machine
end

