-- ==== Sys2Proof/Machine/Copy.lean ====
section
/-!
DEFINITION. Copy.lean: the codec of compressed buffers (R267-R270), the copy channels and what they deliver (R259-R262),
and the copy instructions of major 0x3B (R304-R307).
-/

namespace Sys2Proof.Machine

/-! ## The codec (R268, R270) -/

/-- The code of line k in a line map (R268). -/
def lineCode (map k : Nat) : Nat := map / 4 ^ k % 4

/-- Verbatim lines among the first k. -/
def verbatimBelow (map k : Nat) : Nat := ((List.range k).filter fun i => lineCode map i == 2).length

/-- What line k of a block is: zero, or verbatim line i (R268). -/
def lineSource (map k : Nat) : Option Nat :=
  match lineCode map k, k with
  | 0, _ => none
  | 1, k + 1 => lineSource map k
  | _, k => some (verbatimBelow map k)

/-- Whether a map is well formed for a block whose GRANS field is given (R270). -/
def mapOk (map grans : Nat) : Bool :=
  lineCode map 0 != 1 && ((List.range 64).all fun k => lineCode map k != 3) && verbatimBelow map 64 == grans

/-- The line map of a block of 4,096 bytes given as its lines (R268). -/
def mapOf (prev : Option (List Byte)) (ls : List (List Byte)) : List Nat :=
  match ls with
  | [] => []
  | l :: rest =>
    (if l.all fun b => b == 0 then 0 else if some l = prev then 1 else 2) :: mapOf (some l) rest

/-- Cuts bytes into lines of 64. -/
def linesOf (n : Nat) (bs : List Byte) : List (List Byte) :=
  (List.range n).map fun i => (bs.drop (64 * i)).take 64

/-- The stored form of a block of 4,096 bytes: its bytes, whether it is raw, and GRANS (R268). -/
def encodeBlock (bs : List Byte) : List Byte × Bool × Nat :=
  let ls := linesOf 64 bs
  let codes := mapOf none ls
  let v := (codes.filter fun c => c == 2).length
  if 64 * (v + 1) ≥ 4096 then (bs, true, 63) else
  let map := codes.foldr (fun c a => a * 4 + c) 0
  let body := ((ls.zip codes).filter fun e => e.2 == 2).flatMap (·.1)
  (leBytes 16 map ++ body ++ List.replicate 48 0, false, v)

/-- A directory entry's fields (R267). -/
def dirRaw (w : Nat) : Bool := bits w 31 31 == 1
def dirGrans (w : Nat) : Nat := bits w 30 25
def dirOff (w : Nat) : Nat := bits w 24 0

/-- The stored block a directory entry names, in the data area from `data`. -/
def packedBlock (data w : Nat) : PackedBlock := ⟨(data + 64 * dirOff w) % 2 ^ 64, dirGrans w, dirRaw w, false, false⟩

/-- The header of a compressed buffer meets R267. -/
def headerOk (ws : List Nat) : Bool :=
  bits (ws.getD 0 0) 7 0 == 1 && ws.getD 0 0 / 2 ^ 10 == 0 && ws.getD 2 0 % 64 == 0 && ((ws.drop 3).take 5).all fun w => w == 0

/-- The bytes of a block's stored form. -/
def PackedBlock.size (b : PackedBlock) : Nat := if b.raw then 4096 else 64 * (b.grans + 1)

/-! ## Bytes with poison -/

/-- Bytes and the offsets of those that are poisoned. -/
structure Chunk where
  bytes : List Byte
  bad : List Nat
  deriving Repr

/-- n poisoned bytes (R270). -/
def Chunk.poisoned (n : Nat) : Chunk := ⟨List.replicate n 0, List.range n⟩

/-- A part of a chunk. -/
def Chunk.part (c : Chunk) (at_ n : Nat) : Chunk :=
  ⟨(List.range n).map fun i => c.bytes.getD (at_ + i) 0,
    (c.bad.filter fun i => decide (at_ ≤ i) && decide (i < at_ + n)).map (· - at_)⟩

/-- Chunks end to end. -/
def joinChunks (cs : List Chunk) : Chunk :=
  cs.foldl (fun a c => ⟨a.bytes ++ c.bytes, a.bad ++ c.bad.map (· + a.bytes.length)⟩) ⟨[], []⟩

/-- Runs of consecutive numbers in a rising list. -/
def runsOf (xs : List Nat) : List (Nat × Nat) :=
  xs.foldr (fun x rs => match rs with
    | (a, n) :: rest => if x + 1 = a then (x, n + 1) :: rest else (x, 1) :: (a, n) :: rest
    | [] => [(x, 1)]) []

/-! ## Sources of a transfer -/

/-- The place of an address under the entries a transfer was probed with. -/
def State.copyPlace (s : State) (t : Transfer) (va : Nat) : Place :=
  match tget t.pages (va / 65536) with
  | some e => s.placeOf e va
  | none => .pad (va % 2 ^ 21)

/-- The node that issued a transfer, while it is still placed as it was. -/
def State.transferNode (s : State) (t : Transfer) : Option (Nat × Node) :=
  match s.slotOf t.part t.handle with
  | some k =>
    match s.node t.part k with
    | some n => if n.placedAt = t.placedAt ∧ n.state = .running then some (k, n) else none
    | none => none
  | none => none

/-- The request for a piece of a source on a peer. -/
def State.copyAsk (s : State) (t : Transfer) (x : Nat × Nat) : Option (Nat × Packet) :=
  match s.copyPlace t x.1 with
  | .peer q key => some (q, .read key x.2)
  | _ => none

/-- One piece of a source, replies from peers being there. -/
def State.sourcePiece (s : State) (core : Nat) (t : Transfer) (rs : List ((Nat × Packet) × Reply)) (x : Nat × Nat) : Chunk :=
  match s.copyPlace t x.1 with
  | .pad off =>
    let ranges := (s.core core).padPoison
    ⟨getBytes (s.core core).pad off x.2,
      if ranges.isEmpty then [] else (List.range x.2).filter fun i => (hitRange ranges (off + i) 1).isSome⟩
  | .home key =>
    let bs := s.homeBytes key x.2
    let bad := s.badBytes key x.2
    match s.transferNode t with
    | some (_, n) =>
      ⟨(List.range bs.length).zipWith (fun i b => (tget n.shadow (x.1 + i)).getD b) bs,
        (List.range x.2).filter fun i =>
          if (tget n.shadow (x.1 + i)).isSome then n.shadowBad.contains (x.1 + i) else bad.contains i⟩
    | none => ⟨bs, bad⟩
  | .peer q key =>
    match rs.find? fun r => r.1 == (q, Packet.read key x.2) with
    | some (_, r) => if r.poison then Chunk.poisoned x.2 else ⟨(List.range x.2).map fun i => r.bytes.getD i 0, []⟩
    | none => Chunk.poisoned x.2

/-- An access of a transfer through a MODE 3 page is counted (R278). -/
def State.countUse (s : State) (core : Nat) (t : Transfer) (va : Nat) : State :=
  match tget t.pages (va / 65536) with
  | some e => s.countMigrate (dieOf core) va e
  | none => s

/-- A read of a source is counted, in the channel of a local home too (R288). -/
def State.countRead (s : State) (core : Nat) (t : Transfer) (va n : Nat) : State :=
  let s1 := s.countUse core t va
  match s.copyPlace t va with
  | .home key => s1.countLines key n false
  | _ => s1

/-- Reads bytes of a source; none while a reply from a peer is still to come. -/
def State.sourceRead (s : State) (core : Nat) (t : Transfer) (va n : Nat) : Option Chunk × State :=
  let xs := cutLines (n / 64 + 2) va n
  let asks := xs.filterMap (s.copyAsk t)
  match s.fetchAll asks with
  | (none, s1) => (none, s1)
  | (some rs, s1) =>
    let s2 := xs.foldl (fun s x => s.countRead core t x.1 x.2) s1
    (some (joinChunks (xs.map fun x => s1.sourcePiece core t (asks.zip rs) x)), s2)

/-- n free bytes (log 28). -/
def State.freeBytes (s : State) (n : Nat) : List Byte × State :=
  ((List.range n).map fun i => BitVec.ofNat 8 (Config.freeWord (s.free + i)).toNat, { s with free := s.free + n })

/-- A line of a block that is delivered in its stored form: beyond its stored bytes the spec states no content (R269;
log 28). -/
def State.storedLine (s : State) (core : Nat) (t : Transfer) (b : PackedBlock) (k : Nat) : Option Chunk × State :=
  if 64 * k < b.size then s.sourceRead core t (b.addr + 64 * k) 64
  else
    let (bs, s1) := s.freeBytes 64
    (some ⟨bs, []⟩, s1)

/-- A line of a stored block's content (R268-R270): none while a reply is still to come. -/
def State.packedLine (s : State) (core : Nat) (t : Transfer) (b : PackedBlock) (k : Nat) : Option Chunk × State :=
  if b.beyond then
    let (bs, s1) := s.freeBytes 64
    (some ⟨bs, []⟩, s1)
  else if b.raw then s.sourceRead core t (b.addr + 64 * k) 64
  else if b.stored then s.storedLine core t b k
  else
    match s.sourceRead core t b.addr b.size with
    | (none, s1) => (none, s1)
    | (some c, s1) =>
      let map := leNat (c.bytes.take 16)
      if !mapOk map b.grans || c.bad.any fun i => decide (i < 16) then (some (Chunk.poisoned 64), s1)
      else match lineSource map k with
        | none => (some ⟨List.replicate 64 0, []⟩, s1)
        | some i => (some (c.part (16 + 64 * i) 64), s1)

/-! ## Delivery (R259, R260) -/

/-- The bytes the next piece of a transfer holds, at most `most`. -/
def Transfer.next (t : Transfer) (most : Nat) : Nat :=
  let d := (t.dst + t.delivered) % 2 ^ 64
  let a := (t.src + t.delivered) % 2 ^ 64
  min (min most (t.len - t.delivered)) (min (64 - d % 64) (64 - a % 64))

/-- The content of the next n bytes; those that fill a scratchpad are expanded at the latest there (R269). -/
def State.transferRead (s : State) (core : Nat) (t : Transfer) (n : Nat) : Option Chunk × State :=
  match t.packed with
  | none => s.sourceRead core t ((t.src + t.delivered) % 2 ^ 64) n
  | some blocks =>
    let o := t.src + t.delivered
    let b := (blocks[o / 4096 - t.src / 4096]?).getD ⟨0, 0, false, true, false⟩
    let filled := inWindow ((t.dst + t.delivered) % 2 ^ 64)
    match s.packedLine core t { b with stored := b.stored && !filled } (o % 4096 / 64) with
    | (some c, s1) => (some (c.part (o % 64) n), s1)
    | (none, s1) => (none, s1)

/-- Writes a chunk at a local home (R260, R396); copied bytes fill no receive slot (R65). -/
def State.putChunk (s : State) (key : Nat) (c : Chunk) : State :=
  (runsOf c.bad).foldl (fun s r => s.poisonHome (key + r.1) r.2) (s.storeHome key c.bytes false)

/-- Writes a chunk to a scratchpad. -/
def Core.putChunk (x : Core) (off : Nat) (c : Chunk) : Core :=
  let y := x.putPad off c.bytes
  { y with padPoison := (runsOf c.bad).map (fun r => (off + r.1, r.2)) ++ y.padPoison }

/-- A channel of a core, and its write. -/
def Core.channel (c : Core) (ch : Nat) : Channel := c.channels.toList.getD ch Channel.reset
def Core.setChannel (c : Core) (ch : Nat) (x : Channel) : Core := { c with channels := c.channels.setIfInBounds ch x }

/-- Counts n delivered bytes of a channel's first transfer: POS, the charges (R346), and the end of the transfer. Bytes of a
charge whose ARRIVE has no answer yet are counted off once it is accepted. -/
def State.countDelivered (s : State) (core ch : Nat) (t : Transfer) (n : Nat) : State :=
  let t1 := { t with delivered := t.delivered + n, sent := none }
  let s1 := s.updCore core fun c =>
    let x := c.channel ch
    c.setChannel ch { x with
      pos := x.pos + BitVec.ofNat 64 n
      queue := if t1.delivered ≥ t1.len then x.queue.drop 1 else t1 :: x.queue.drop 1 }
  t.charges.foldl (fun s b => match b.peer with
    | none => (s.logLine t.part (b.key / 64)).barDischarge t.part b.key n
    | some q =>
      if b.waiting then
        match s.slotOf t.part t.handle with
        | some k => s.updRank t.part k t.rank fun r => { r with early := r.early + n }
        | none => s
      else s.emit q (.object .discharge b.key [BitVec.ofNat 64 n]) .none) s1

/-- Changes a channel's first transfer. -/
def State.setTransfer (s : State) (core ch : Nat) (t : Transfer) : State :=
  s.updCore core fun c => c.setChannel ch { c.channel ch with queue := t :: (c.channel ch).queue.drop 1 }

/-- Drops shadow bytes that a copy of a node no longer speculative replaces at their homes (R49, R51). -/
def State.clearCopied (s : State) (t : Transfer) (va n : Nat) : State :=
  match s.transferNode t with
  | some (k, _) => s.updNode t.part k fun x => x.dropShadow va n
  | none => s

/-- Delivers n bytes at the next place of a transfer (R259): to the scratchpad; at a local home, or in the shadow of a
speculative node (R49); or by a write packet, which fills no receive slot and says which bytes are poisoned (R65, R270).
Gives the bytes done with, or none while the packet is under way. -/
def State.deliverChunk (s : State) (core ch : Nat) (t : Transfer) (n : Nat) (c : Chunk) : Option Nat × State :=
  let d := (t.dst + t.delivered) % 2 ^ 64
  match s.copyPlace t d with
  | .pad off => (some n, (s.updCore core (·.putChunk off c)).countDelivered core ch t n)
  | .home key =>
    let s1 := if t.spec then
        match s.transferNode t with
        | some (k, _) => s.updNode t.part k fun x => x.putShadow d c.bytes c.bad
        | none => s
      else ((s.clearCopied t d n).logRange t.part key n).putChunk key c
    (some n, (s1.countUse core t d).countDelivered core ch t n)
  | .peer q key =>
    if s.copying (.peer q key) then (none, s) else
    let pk := Packet.write [(key, c.bytes)] false ((runsOf c.bad).map fun r => (key + r.1, r.2))
    let o := Origin.copy t.part t.handle t.rank
    if (s.peer q).failed then (some n, (s.lose q 65536 pk o).countDelivered core ch t n)
    else if s.canSend q pk then
      let s1 := (s.leavePart t.part).countUse core t d
      (none, (s1.send q pk o).setTransfer core ch { t with sent := some (q, (s.peer q).nextSeq, n) })
    else (none, s)

/-- Whether the next piece of a transfer may be delivered now. Its source is read, and the read counted, only then (R278). -/
def State.copyRoom (s : State) (t : Transfer) : Bool :=
  match s.copyPlace t ((t.dst + t.delivered) % 2 ^ 64) with
  | .peer q key => !s.copying (.peer q key) && ((s.peer q).failed || s.canSend q (.write [(key, [])] false []))
  | _ => true

/-- Delivers the next piece of a channel's first transfer: the bytes done with, or none when it must wait. -/
def State.deliverPiece (s : State) (core ch : Nat) (t : Transfer) (most : Nat) : Option Nat × State :=
  match t.sent with
  | some (q, seq, n) =>
    if (s.peer q).unacked.any fun u => u.seq == seq then (none, s) else (some n, s.countDelivered core ch t n)
  | none =>
    let n := t.next most
    if !s.copyRoom t then (none, s) else
    match s.transferRead core t n with
    | (none, s1) => (none, s1)
    | (some c, s1) => s1.deliverChunk core ch t n c

/-- The first transfer of a channel. -/
def State.transfer (s : State) (core ch : Nat) : Option Transfer :=
  ((s.core core).channel ch).queue.head?

/-- Delivers up to `left` bytes of a channel, in order. -/
def State.deliverFrom (s : State) (core ch left fuel : Nat) : State :=
  match fuel with
  | 0 => s
  | fuel + 1 =>
    if left = 0 then s else
    match s.transfer core ch with
    | none => s
    | some t =>
      match s.deliverPiece core ch t left with
      | (some n, s1) => s1.deliverFrom core ch (left - n) fuel
      | (none, s1) => s1

/-- R260: a copy channel delivers bytes. -/
def execCopyChannelDeliver (core channel count : Nat) (s : State) : Host.Outcome State Fault Refusal :=
  .next (if core < Config.cores ∧ channel < 4 then s.deliverFrom core channel count count else s)

/-- R262: an idle channel of the resume core is raised to the recorded mark. -/
def Channel.raise (x : Channel) : Channel :=
  match x.mark with
  | none => x
  | some m =>
    if !x.queue.isEmpty then x
    else if x.pos.toNat < m.toNat then { x with pos := m, issued := m, mark := none } else { x with mark := none }

/-- R262. -/
def execChannelMarkRaise (core channel : Nat) (s : State) : Host.Outcome State Fault Refusal :=
  .next (if core < Config.cores ∧ channel < 4 then
    s.updCore core fun c => c.setChannel channel (c.channel channel).raise
  else s)

/-! ## Acceptance (R305, R306) -/

/-- A byte range of one source or destination page, in the order of the bytes (R279). -/
structure CopyPart where
  va : Nat
  n : Nat
  need : Need

/-- Cuts n bytes at an address at page ends: (offset from the start, address, bytes). -/
def cutPages (fuel off va n : Nat) : List (Nat × Nat × Nat) :=
  match fuel with
  | 0 => []
  | fuel + 1 =>
    if n = 0 then [] else
    let m := min n (65536 - va % 65536)
    (off, va, m) :: cutPages fuel (off + m) ((va + m) % 2 ^ 64) (n - m)

/-- Merges two lists of parts by the offset of their first byte, the sources first (R279; log 25). -/
def mergeParts (fuel : Nat) (xs ys : List (Nat × Nat × Nat)) : List CopyPart :=
  match fuel with
  | 0 => []
  | fuel + 1 =>
    match xs, ys with
    | [], [] => []
    | (_, a, n) :: xs, [] => ⟨a, n, needR⟩ :: mergeParts fuel xs []
    | [], (_, a, n) :: ys => ⟨a, n, needW⟩ :: mergeParts fuel [] ys
    | (o, a, n) :: xs, (p, b, m) :: ys =>
      if o ≤ p then ⟨a, n, needR⟩ :: mergeParts fuel xs ((p, b, m) :: ys)
      else ⟨b, m, needW⟩ :: mergeParts fuel ((o, a, n) :: xs) ys

/-- Probes the parts; a failure stops the instruction (R280). Gives the probes by part. -/
def probeParts (base : Word) (cause : Nat) (xs : List CopyPart) : M (List (CopyPart × Probe)) := do
  let ps ← xs.mapM fun x => do
    let r ← probe x.va x.need
    pure (x, r)
  match ps.find? fun e => e.2.failed with
  | none => pure ps
  | some (x, r) =>
    if r.isDenied then throw (.trap ⟨cPERM, BitVec.ofNat 64 x.va, 0, none, none, some 0⟩)
    else
      let p ← curPart
      let g ← curRegs
      let pages := ((ps.filter fun e => e.2 == .absent).map fun e => pageOf e.1.va).eraseDups
      throw (.trap ⟨cause, BitVec.ofNat 64 x.va, 0, none, some
        (batchReport p 3 1 base g.dlen.toList g.dstep.toList 0 (pages.take 7)), some 0⟩)

/-- A channel accepts a transfer and gives its completion position (R305); a full channel keeps the hart at the
instruction (R259). -/
def accept (rd : Reg) (channel : BitVec 2) (src dst len : Nat) (packed : Option (List PackedBlock))
    (ps : List (CopyPart × Probe)) : M Unit := do
  ps.forM fun e => match e.2 with
    | .ok pl _ => if e.1.need.w then specCheck e.1.va e.1.n pl else pure ()
    | _ => pure ()
  drainQueue
  drainFor fun _ => true
  let s ← get
  let x := ((s.core (coreOf s.cur)).channel channel.toNat).raise
  if x.queue.length ≥ 16 then stall
  let (p, k, r) := (s.hart s.cur).node.getD (64, 0, 0)
  let target := x.issued + BitVec.ofNat 64 len
  let t : Transfer := {
    hart := s.cur, part := p, handle := s.handle p k, rank := r, placedAt := ((s.node p k).map (·.placedAt)).getD 0
    spec := s.curSpeculative, src := src, dst := dst, len := len, delivered := 0
    pages := ps.filterMap fun e => match e.2 with
      | .ok _ (some y) => some (e.1.va / 65536, y)
      | _ => none
    packed := packed, charges := [], sent := none }
  change fun s => s.updCore (coreOf s.cur) fun c =>
    c.setChannel channel.toNat { x with issued := target, queue := x.queue ++ [t] }
  writeS rd target
  enqueue 9 0 1 1
  advance

/-- A count of 0 accepts nothing and returns the issued position (R305). -/
def acceptNone (rd : Reg) (channel : BitVec 2) : M Unit := do
  drainQueue
  let s ← get
  change fun s => s.updCore (coreOf s.cur) fun c => c.setChannel channel.toNat (c.channel channel.toNat).raise
  writeS rd ((s.core (coreOf s.cur)).channel channel.toNat).raise.issued
  enqueue 9 0 0 1
  advance

/-- R305: queues a copy. -/
def execCpy (rd ra rb rc : Reg) (channel : BitVec 2) (s : State) : Host.Outcome State Fault Refusal := instr (do
  let dst ← readS ra
  let src ← readS rb
  let n ← readS rc
  require (decide (n.toNat < 2 ^ 32)) 6
  if n = 0 then acceptNone rd channel
  else
    let len := n.toNat
    let fuel := len / 65536 + 2
    let ps ← probeParts dst cSTORE
      (mergeParts (2 * fuel) (cutPages fuel 0 src.toNat len) (cutPages fuel 0 dst.toNat len))
    accept rd channel src.toNat dst.toNat len none ps) s

/-- Reads the words of a header on pages that pass a probe as reads. -/
def headerWords (base : Nat) (cause : Nat) : M (List Nat) := do
  let ps ← probeParts (BitVec.ofNat 64 base) cause [⟨base, 64, needR⟩]
  let pages := ps.map fun e => (e.1.va / 65536, e.2)
  let bs ← readAccs pages [⟨0, base, 64⟩]
  pure ((List.range 8).map fun i => leNat ((bs.flatten.drop (8 * i)).take 8))

/-- Reads directory entries b0, b0 + 1, ... of a buffer (R267). -/
def directory (base cause b0 n : Nat) : M (List Nat) := do
  let va := (base + 64 + 4 * b0) % 2 ^ 64
  let ps ← probeParts (BitVec.ofNat 64 base) cause
    ((cutPages (n / 16384 + 2) 0 va (4 * n)).map fun x => ⟨x.2.1, x.2.2, needR⟩)
  let pages := ps.map fun e => (e.1.va / 65536, e.2)
  let bs ← readAccs pages ((List.range n).map fun i => ⟨i, (va + 4 * i) % 2 ^ 64, 4⟩)
  pure (bs.map leNat)

/-- Whether a block is expanded before it reaches a destination in memory (R269): the levels of its path, in order, are the
memory-side cache of a source in memory and the fabric endpoint of one on a peer. -/
def State.expands (s : State) (ps : List (CopyPart × Probe)) (xpoint src : Nat) : Bool :=
  let pl := (s.placeIn (ps.map fun e => (e.1.va / 65536, e.2)) src).1
  let remote := match pl with
    | .peer .. => true
    | _ => false
  (xpoint == 2 && pl.isMemory) || (xpoint != 1 && remote)

/-- R306: queues a copy of a compressed buffer's content. -/
def execCpyX (rd ra rb rc : Reg) (channel : BitVec 2) (offset : Word) (s : State) : Host.Outcome State Fault Refusal :=
  instr (do
    let dst ← readS ra
    let hdr ← readS rb
    let n ← readS rc
    require (decide (n.toNat < 2 ^ 32) && n.toNat % 4096 == 0 && offset.toNat % 4096 == 0) 6
    if hdr.toNat % 64 ≠ 0 then trap cALIGN hdr
    let ws ← headerWords hdr.toNat cSTORE
    require (headerOk ws && bits (ws.getD 0 0) 9 8 != 0) 11
    if n = 0 then acceptNone rd channel
    else
      let len := n.toNat
      let b0 := offset.toNat / 4096
      let nblk := len / 4096
      let known := min nblk (ws.getD 1 0 - min b0 (ws.getD 1 0))
      let dir ← directory hdr.toNat cSTORE b0 known
      let blocks := dir.map (packedBlock (ws.getD 2 0)) ++ List.replicate (nblk - known) ⟨0, 0, false, true, false⟩
      let srcs := ((List.range known).zip blocks).flatMap fun b =>
        (cutPages 2 (4096 * b.1) b.2.addr b.2.size).map fun x => (4096 * b.1, x.2)
      let fuel := len / 65536 + 2
      let ps ← probeParts dst cSTORE (mergeParts (srcs.length + fuel) srcs (cutPages fuel 0 dst.toNat len))
      let s ← get
      let mark := fun x : Nat × PackedBlock =>
        let d := (dst.toNat + 4096 * x.1) % 2 ^ 64
        { x.2 with stored := !(inWindow d && inWindow (d + 4095)) && !s.expands ps (bits (ws.getD 0 0) 9 8) x.2.addr }
      accept rd channel offset.toNat dst.toNat len (some (((List.range nblk).zip blocks).map mark)) ps) s

/-- R307: waits until a channel has reached a position. -/
def execCwait (rd ra : Reg) (channel : BitVec 2) (s : State) : Host.Outcome State Fault Refusal := instr (do
  drainQueue
  let a ← readS ra
  let s ← get
  let pos := ((s.core (coreOf s.cur)).channel channel.toNat).pos
  if (pos - a).toInt < 0 then block .cwait
  writeS rd pos
  advance) s

end Sys2Proof.Machine
end

