-- ==== Sys2Proof/Machine/CrossLane.lean ====
section
/-!
DEFINITION. CrossLane.lean: the fixed reduction tree (R139-R141) and the cross-lane forms of major 0x2D (R219-R225).
-/

namespace Sys2Proof.Machine

/-! ## The fixed tree (R139) -/

/-- How a tree builds and joins its nodes; every operation gives the flags it raises. -/
structure TreeOps (α : Type) where
  leaf : Nat → α × Nat
  step : α → Nat → α × Nat
  join : α → α → α × Nat

/-- A node with the flags raised in it, each at the last active element it took in. -/
structure TreeNode (α : Type) where
  val : Option α
  last : Nat
  fl : List (Nat × Nat)

/-- One block of elements (R139). -/
def blockNode {α : Type} (t : TreeOps α) (act : Nat → Bool) (ks : List Nat) : TreeNode α :=
  ks.foldl (fun n k =>
    if act k then
      let (v, f) := match n.val with
        | none => t.leaf k
        | some a => t.step a k
      ⟨some v, k, n.fl ++ [(k, f)]⟩
    else n) ⟨none, ks.headD 0, []⟩

/-- Joins a pair of nodes. DESIGN CHOICE: a condition of the join is reported in TLANE at the last active element of the right
one; R134 gives a node of the tree no element (log 40). -/
def joinNodes {α : Type} (t : TreeOps α) (a b : TreeNode α) : TreeNode α :=
  match a.val, b.val with
  | some x, some y =>
    let (v, f) := t.join x y
    ⟨some v, b.last, a.fl ++ b.fl ++ [(b.last, f)]⟩
  | some _, none => a
  | none, _ => b

/-- Joins nodes in pairs; an unpaired last one is carried up. -/
def pairUp {α : Type} (t : TreeOps α) : List (TreeNode α) → List (TreeNode α)
  | a :: b :: rest => joinNodes t a b :: pairUp t rest
  | rest => rest

/-- Pairs until one node remains. -/
def collapse {α : Type} (t : TreeOps α) : Nat → List (TreeNode α) → TreeNode α
  | 0, ns => ns.headD ⟨none, 0, []⟩
  | fuel + 1, ns => if ns.length ≤ 1 then ns.headD ⟨none, 0, []⟩ else collapse t fuel (pairUp t ns)

/-- The tree over elements 0 to n - 1 (R139). -/
def fixedTree {α : Type} (t : TreeOps α) (act : Nat → Bool) (n : Nat) : TreeNode α :=
  collapse t 16 ((List.range (ceilDiv n 8)).map fun b =>
    blockNode t act ((List.range (min 8 (n - 8 * b))).map (8 * b + ·)))

/-! ## Operations of VRED and VSCAN (R219, R220, R140) -/

/-- Whether the operation is legal (R220). -/
def redLegal (f : Nat) (op : Nat) (nan dw dot : Bool) : Bool :=
  (isI f || (isF f && decide (op ≤ 2))) && (!nan || (isF f && (op == 1 || op == 2))) &&
    (!dw || (op == 0 && (f == 8 || f == 9))) && (!dot || op == 0)

/-- The integer operation. -/
def redInt (w op a b : Nat) : Nat :=
  match op with
  | 0 => (a + b) % 2 ^ w
  | 1 => minmaxI w false a b
  | 2 => minmaxI w true a b
  | 3 => min a b
  | 4 => max a b
  | 5 => a &&& b
  | 6 => a ||| b
  | _ => a ^^^ b

/-- The node operation on patterns. -/
def redOp (f : Nat) (md : Mode) (op : Nat) (nan : Bool) (a b : Nat) : Nat × Nat :=
  if isI f then (redInt (fmtWidth f) op a b, 0)
  else if op = 0 then addF f md (readF md.fz f a) (readF md.fz f b)
  else minmaxF f md.fz (op == 2) nan a b

/-- The result of a tree without active elements (R220). -/
def redIdentity (f op : Nat) : Nat :=
  let w := fmtWidth f
  match op with
  | 1 => if isI f then 2 ^ (w - 1) - 1 else infPat f
  | 2 => if isI f then 2 ^ (w - 1) else signPat f true + infPat f
  | 3 => 2 ^ w - 1
  | 5 => 2 ^ w - 1
  | _ => 0

/-- An element taken as a value by itself: a NaN is the canonical one, a signalling NaN sets NV, and a subnormal input is
flushed where FZ applies (R125, R132). -/
def takeElem (fz : Bool) (f p : Nat) : Nat × Nat :=
  match readF fz f p with
  | .nan s => (canonNan f, if s then fNV else 0)
  | .fin neg 0 _ => (signPat f neg, 0)
  | _ => (p, 0)

/-- The tree operations over elements a and, for a dot product, b. -/
def plainTree (f : Nat) (md : Mode) (op : Nat) (nan : Bool) (a : Array Nat) (b : Option (Array Nat)) : TreeOps Nat where
  leaf := fun k => match b with
    | none => if isI f then (a.getD k 0, 0) else takeElem md.fz f (a.getD k 0)
    | some b =>
      if isI f then (a.getD k 0 * b.getD k 0 % 2 ^ fmtWidth f, 0)
      else mulF f md (readF md.fz f (a.getD k 0)) (readF md.fz f (b.getD k 0))
  step := fun acc k => match b with
    | none => redOp f md op nan acc (a.getD k 0)
    | some b =>
      if isI f then ((a.getD k 0 * b.getD k 0 + acc) % 2 ^ fmtWidth f, 0)
      else fmaF f md (readF md.fz f (a.getD k 0)) (readF md.fz f (b.getD k 0)) (readF md.fz f acc)
  join := redOp f md op nan

/-- One combination of the double-word tree (R140). -/
def dwJoin (f : Nat) (x y : Nat × Nat) : (Nat × Nat) × Nat :=
  let add := fun (p q : Nat × Nat) =>
    let (r, fl) := addF f Mode.rne (decodeF f p.1) (decodeF f q.1)
    ((r, p.2 ||| q.2 ||| fl) : Nat × Nat)
  let sub := fun (p q : Nat × Nat) =>
    let (r, fl) := subF f Mode.rne (decodeF f p.1) (decodeF f q.1)
    ((r, p.2 ||| q.2 ||| fl) : Nat × Nat)
  let s := add (x.1, 0) (y.1, 0)
  let t := sub s (x.1, 0)
  let e := add (sub (x.1, 0) (sub s t)) (sub (y.1, 0) t)
  let e := add (add e (x.2, 0)) (y.2, 0)
  let hi := add s e
  let lo := sub e (sub hi s)
  ((hi.1, lo.1), hi.2 ||| lo.2)

/-- The leaf of the double-word tree (R140). -/
def dwLeaf (f : Nat) (a : Array Nat) (b : Option (Array Nat)) (k : Nat) : (Nat × Nat) × Nat :=
  match b with
  | none =>
    let (x, fl) := takeElem false f (a.getD k 0)
    ((x, 0), fl)
  | some b =>
    let x := decodeF f (a.getD k 0)
    let y := decodeF f (b.getD k 0)
    let (p, f1) := mulF f Mode.rne x y
    let (q, f2) := fmaF f Mode.rne x y (decodeF f p).negate
    ((p, q), f1 ||| f2)

/-- The double-word tree. -/
def dwTree (f : Nat) (a : Array Nat) (b : Option (Array Nat)) : TreeOps (Nat × Nat) where
  leaf := dwLeaf f a b
  step := fun acc k =>
    let (l, f1) := dwLeaf f a b k
    let (v, f2) := dwJoin f acc l
    (v, f1 ||| f2)
  join := dwJoin f

/-- The checks of VRED and VSCAN and their operands. -/
def redStart (op : Reg3) (nan dw : Bool) (fa fb : Reg) (mask : Reg3) :
    M (Cap × Array Nat × Option (Array Nat) × List Nat) := do
  let c ← captured mask
  let dot := fb != 0
  require (redLegal c.fmt op.toNat nan dw dot) 8
  require (aligned c.grp ([fa] ++ if dot then [fb] else [])) 4
  pure (c, (c.tile fa.toNat).toArray, if dot then some (c.tile fb.toNat).toArray else none,
    c.sources ([fa] ++ if dot then [fb] else []))

/-- The result of the reduction over the first n elements: value and, for .dw, its low part; with the flags. -/
def reduceTo (c : Cap) (op : Nat) (nan dw : Bool) (a : Array Nat) (b : Option (Array Nat)) (n : Nat) :
    List Nat × List (Nat × Nat) :=
  if dw then
    let t := fixedTree (dwTree c.fmt a b) c.active n
    let (hi, lo) := t.val.getD (0, 0)
    ([hi, lo], t.fl)
  else
    let t := fixedTree (plainTree c.fmt (c.g.mode 0) op nan a b) c.active n
    ([t.val.getD (redIdentity c.fmt op)], t.fl)

/-- Flags by rising logical index. -/
def flagsByIndex (n : Nat) (fl : List (Nat × Nat)) : List (Nat × Nat) :=
  (List.range n).filterMap fun k =>
    let f := joinFlags (fl.filter fun e => e.1 == k)
    if f = 0 then none else some (k, f)

/-- R221: reduces the tile into one row of one element, or of hi and lo. -/
def execVred (op : Reg3) (nan dw : Bool) (fd fa fb : Reg) (mask : Reg3) (s : State) : Host.Outcome State Fault Refusal :=
  instr (do
    let (c, a, b, sources) ← redStart op nan dw fa fb mask
    let (vs, fl) := reduceTo c op.toNat nan dw a b c.count
    finishWrites c 3 [(c.g.phys fd.toNat, ⟨plainTag c.fmt 1 vs.length, [packRow c.w vs]⟩)] sources
      (if joinFlags fl = 0 then [] else flagsByIndex c.count (fl.filter fun e => e.2 != 0))) s

/-- R222: each active element becomes the reduction of the active elements up to it. -/
def execVscan (op : Reg3) (nan dw : Bool) (fd fa fb : Reg) (mask : Reg3) (s : State) : Host.Outcome State Fault Refusal :=
  instr (do
    let (c, a, b, sources) ← redStart op nan dw fa fb mask
    require (aligned c.grp [fd] && (!dw || decide (fd.toNat + 2 * c.grp ≤ 32))) 4
    let res := (List.range c.count).map fun k =>
      if c.active k then
        let (vs, fl) := reduceTo c op.toNat nan dw a b (k + 1)
        some (vs, joinFlags fl)
      else none
    let pick := fun (i : Nat) (old : List Nat) =>
      (res.zip old).map fun e => match e.1 with
        | some (vs, f) => (vs.getD i 0, if i = 0 then f else 0)
        | none => (e.2, 0)
    let write := fun (d i : Nat) => c.g.groupWrites d c.grp c.fmt
      (rowsOf c.vl c.rc ((pick i (c.tile d)).map (·.1))) c.vl
    finishWrites c 3 (write fd.toNat 0 ++ if dw then write (fd.toNat + c.grp) 1 else []) sources
      (flagged (pick 0 (c.tile fd.toNat)))) s

/-! ## Permutations (R223-R225) -/

/-- A form that moves elements: the value of each active logical index. -/
def moveForm (c : Cap) (fd : Reg) (xs : List Reg) (f : Nat → Nat) : M Unit :=
  let none := List.replicate c.count 0
  finishTile c 3 fd.toNat c.grp c.fmt (c.sources xs)
    (sweep c.active (fun k _ _ _ => (f k, 0)) 0 (c.tile fd.toNat) none none none)

/-- R223: element x of the row, x from the index tile. -/
def execVperm (fd fa fb : Reg) (mask : Reg3) (s : State) : Host.Outcome State Fault Refusal := instr (do
  let c ← captured mask
  require (isA c.fmt) 8
  require (aligned c.grp [fd, fa, fb]) 4
  let a := (c.tile fa.toNat).toArray
  let b := (c.tile fb.toNat).toArray
  moveForm c fd [fa, fb] fun k =>
    let x := b.getD k 0
    if x < c.vl then a.getD (k / c.vl * c.vl + x) 0 else 0) s

/-- R223: slides each row by s[b]. -/
def execVslide (fd fa rb : Reg) (mask : Reg3) (s : State) : Host.Outcome State Fault Refusal := instr (do
  let c ← captured mask
  require (isA c.fmt) 8
  require (aligned c.grp [fd, fa]) 4
  let a := (c.tile fa.toNat).toArray
  let n := (c.g.getS rb).toInt
  moveForm c fd [fa] fun k =>
    let i : Int := (k % c.vl : Nat) - n
    if 0 ≤ i ∧ i < c.vl then a.getD (k / c.vl * c.vl + i.toNat) 0 else 0) s

/-- Whether an element pattern is a zero of either sign (R224). -/
def isZeroPat (f p : Nat) : Bool := if isI f then p == 0 else p % 2 ^ (fmtWidth f - 1) == 0

/-- R224: packs the active non-zero elements and their indices; VL becomes their number. -/
def execVcompress (fd fa fb : Reg) (mask : Reg3) (s : State) : Host.Outcome State Fault Refusal := instr (do
  let c ← captured mask
  require (isA c.fmt && c.rc == 1) 8
  let gi := max 1 (c.grp * 32 / c.w)
  require (gi ≤ 8) 8
  require (aligned c.grp [fd, fa] && aligned gi [fb]) 4
  require (!groupsMeet fd.toNat c.grp fb.toNat gi) 4
  let kept := ((List.range c.vl).zip (c.tile fa.toNat)).filter fun e => c.active e.1 && !isZeroPat c.fmt e.2
  let n := kept.length
  finishWrites c 3 (c.g.groupWrites fd.toNat c.grp c.fmt [kept.map (·.2)] n ++
    c.g.groupWrites fb.toNat gi 2 [kept.map (·.1)] n) (c.sources [fa]) []
  updRegs fun g => { g with vl := BitVec.ofNat 64 n }) s

/-- R225: the c-th active element takes element c of the source. -/
def execVexpand (fd fa : Reg) (mask : Reg3) (s : State) : Host.Outcome State Fault Refusal := instr (do
  let c ← captured mask
  require (isA c.fmt) 8
  require (aligned c.grp [fd, fa]) 4
  let place := ((List.range c.count).foldl (fun (a : Array Nat × Nat) k =>
    (a.1.push a.2, if c.active k then a.2 + 1 else a.2)) (#[], 0)).1
  let a := (c.tile fa.toNat).toArray
  moveForm c fd [fa] fun k => a.getD (place.getD k 0) 0) s

/-- R223: the low bits of s[a] in every active element. -/
def execVbcast (fd ra : Reg) (mask : Reg3) (s : State) : Host.Outcome State Fault Refusal := instr (do
  let c ← captured mask
  require (isA c.fmt) 8
  require (aligned c.grp [fd]) 4
  let v := (c.g.getS ra).toNat % 2 ^ c.w
  moveForm c fd [] fun _ => v) s

/-- R223: transposes a square tile. -/
def execVtrans (fd fa : Reg) (mask : Reg3) (s : State) : Host.Outcome State Fault Refusal := instr (do
  let c ← captured mask
  require (isA c.fmt && c.vl == c.rc) 8
  require (aligned c.grp [fd, fa]) 4
  let a := (c.tile fa.toNat).toArray
  moveForm c fd [fa] fun k => a.getD (k % c.vl * c.vl + k / c.vl) 0) s

/-- R223: the count of set bits of m[a] below each logical index. -/
def execViota (fd : Reg) (ma mask : Reg3) (s : State) : Host.Outcome State Fault Refusal := instr (do
  let c ← captured mask
  require (isI c.fmt) 8
  require (aligned c.grp [fd]) 4
  let m := c.g.getM ma
  let below := ((List.range c.count).foldl (fun (a : Array Nat × Nat) k =>
    (a.1.push a.2, if m.getLsbD k then a.2 + 1 else a.2)) (#[], 0)).1
  moveForm c fd [] fun k => below.getD k 0 % 2 ^ c.w) s

end Sys2Proof.Machine
end

