-- ==== Sys2Proof/Machine/Fetch.lean ====
section
/-!
DEFINITION. Fetch.lean: entering an instruction line (R90, R99-R101), the checks before an instruction executes (R105,
R106), whether a hart executes at all (R88, R405), and the line a test instruction is placed in.
-/

namespace Sys2Proof.Machine

/-! ## Lines (R90, R100, R101) -/

/-- The number whose bytes are a line. -/
def lineBits (bs : List Byte) : BitVec 512 := BitVec.ofNat 512 (leNat bs)

/-- Reads a line of a peer: a cached copy under MODE 2, or one read packet behind the hart's earlier packets (R101).
Poisoned bytes trap POISON_CONSUMED. -/
def fetchPeer (addr : Word) (peer key : Nat) (e : Option Entry) : M (List Byte) := do
  let s ← get
  match s.usableCopy e (dieOf (coreOf s.cur)) peer (key / 64) with
  | some bs =>
    useCopy addr.toNat e peer (key / 64) bs
    pure bs
  | none =>
    drainFor fun e => e.peer == some peer
    let r ← demand (2 ^ 104 + addr.toNat) peer (.read key 64) [] [addr.toNat / 65536] false
    if r.poison then trap cPOISON addr
    else
      let s ← get
      if cachedBy e && s.freshReply (2 ^ 104 + addr.toNat) then useCopy addr.toNat e peer (key / 64) r.bytes
      pure r.bytes

/-- A line read through a MODE 3 translation is counted as it is performed (R278). -/
def countedNow (va : Nat) (e : Option Entry) : M Unit :=
  match e with
  | some x => change fun s => s.countMigrate (dieOf (coreOf s.cur)) va x
  | none => pure ()

/-- The 64 bytes of a line at a line address (R101). DESIGN CHOICE: the element size in the batch report of a line read that
finds no translation is the 64 bytes of the line; R282 names no element of a fetch (log 11). -/
def fetchLine (addr : Word) : M (List Byte) := do
  if inWindow addr.toNat then trap cPERM addr
  else
    match ← probe addr.toNat needX with
    | .absent => translationTrap cFETCH addr 64 none
    | .denied _ => trap cPERM addr
    | .ok pl e =>
      match pl with
      | .home key =>
        countedNow addr.toNat e
        let s ← get
        if (s.poisonIn key 64).isSome then trap cPOISON addr
        else
          set (s.countChannel key false)
          pure (s.homeBytes key 64)
      | .peer q key =>
        let bs ← fetchPeer addr q key e
        countedNow addr.toNat e
        pure bs
      | .pad _ => trap cPERM addr

/-- Checks the convoy that starts at a head of the hart's line (R105). -/
def checkConvoy (l : Line) (i : Nat) : M Unit := do
  let s ← get
  match convoyConflict (isFC (coreOf s.cur)) l.bits i with
  | some (cls, j) => trap cCONVOY (BitVec.ofNat 64 (j * 16 + cls))
  | none => updHart fun h => { h with convoyStart := true }

/-- The line the hart executes from, with the head index at PC: its copy, or a line entered now (R90, R99). -/
def enterLine : M (Line × Nat) := do
  let h ← curHart
  let pc := h.regs.pc
  let i := (pc.toNat % 64 - 2) / 2
  match h.line with
  | some l =>
    if startsConvoy l.bits 32 i then checkConvoy l i
    pure (l, i)
  | none =>
    checkTarget pc
    let addr := pc - BitVec.ofNat 64 (pc.toNat % 64)
    let bs ← fetchLine addr
    let l : Line := ⟨addr, lineBits bs⟩
    match lineFault l.bits i with
    | some why => trap cLINE (addr + BitVec.ofNat 64 why)
    | none =>
      updHart fun h => { h with line := some l }
      checkConvoy l i
      pure (l, i)

/-! ## A hart's turn -/

/-- What a hart finds at its PC: an instruction to execute, or a turn that has ended in a state. -/
inductive Fetched where
  | run (i : Instr) (s : State)
  | over (s : State)

/-- The state after a line entry that did not end with an instruction, from the state before it (R101; log 1). A trap waits
until the queue is empty (R404). -/
def fetchOver (s0 : State) (e : Stop) (s : State) : State :=
  match e with
  | .trap t => if (s0.hart s0.cur).queue.isEmpty then s.dropRequests.takeTrap s.cur t else s0.awaiting
  | .block b => s.updHart s.cur fun h => { h with blocked := some b }
  | .stall => s.waiting
  | .again => s0.awaiting
  | .ended => s

/-- Fetches and decodes for the hart that runs; a bit pattern that is no instruction traps ILLEGAL (R106, R107). -/
def State.fetch1 (s : State) : Fetched :=
  match enterLine s with
  | .error e s1 => .over (fetchOver s e s1)
  | .ok (l, i) s1 =>
    match decodeAt l.bits i with
    | .ok x => .run x s1
    | .error r => .over (conclude s1 (illegal r.why s1))

/-- Whether a hart is to be taken at its next instruction boundary: its core drains, or a YIELD of another hart of its node
has begun to pre-empt the node (R390, R356). -/
def State.taken (s : State) (h : Nat) : Bool :=
  (s.core (coreOf h)).quarState == 1 ||
    (match (s.hart h).node with
    | some (p, k, _) => match (s.node p k).bind (·.leaving) with
      | some j => j != h
      | none => false
    | none => false)

/-- The logical index an instruction that has stopped part-way resumes from (R408). -/
def Regs.position (g : Regs) : Nat :=
  let x := g.pix.toNat
  (bits x 47 32 * g.rc.toNat + bits x 31 16) * g.vl.toNat + bits x 15 0

/-- Elements to the next boundary of the element groups of an instruction that has stopped part-way (R295). -/
def Hart.toBoundary (h : Hart) : Nat :=
  match h.partway with
  | some n => (n - h.regs.position % max n 1) % max n 1
  | none => 0

/-- Whether a hart waits in a BAR whose arrival has been counted (R340). -/
def Hart.arrived (h : Hart) : Bool := h.blocked == some .barrier || h.blocked == some .barrierPending

/-- Whether a hart is inside an instruction: it has an effect under way (R393), or stands between two elements of one
element group (R295). A BAR that waits has its arrival behind it. -/
def State.inside (s : State) (h : Nat) : Bool :=
  (match (s.hart h).node with
  | some (p, k, r) => !(s.hart h).arrived && (s.rank p k r).requests.any (·.effect)
  | none => false) || (s.hart h).toBoundary != 0

/-- Whether a hart executes on its turn: it runs a node, does not wait for the pager at TL 0 (R88, R405), and is not to be
taken where it stands (R409). -/
def State.executes (s : State) (h : Nat) : Bool :=
  match (s.hart h).node with
  | some (p, k, r) => !(s.rank p k r).waitBatch && (!s.taken h || s.inside h)
  | none => false

/-- The kill of a context that was resumed after its wait of R405 ended with an unresolved page (R413). -/
def State.killResumed (s : State) (h : Nat) : Option State :=
  match (s.hart h).node with
  | some (p, k, r) =>
    let x := s.rank p k r
    if x.unresolved then some (s.killHart h x.waitTrap.1 x.waitTrap.2.1 x.waitTrap.2.2) else none
  | none => none

/-- A hart's turn up to the instruction it executes. A hart that is to be taken inside an element group only ends the
group. -/
def State.turn (s : State) (h : Nat) : Fetched :=
  let n := (s.hart h).toBoundary
  let s := { s with cur := h, quota := if s.taken h && n != 0 then some n else s.quota }
  if !s.executes h then .over s
  else
    match s.killResumed h with
    | some s1 => .over s1
    | none => s.fetch1

/-- Whether an entry of the agenda is a device event (log 1). -/
def isEvent (i : Instr) : Bool := (toRaw i).isNone

/-- Whether the device acts on an event now: without power, only on powering up (R18). -/
def State.hears (s : State) (i : Instr) : Bool := s.powered || i == .powerUp

/-- Bytes stored at a home by a party outside the harts; a frame that does not exist takes none. -/
def State.storeOutside (s : State) (loc : Nat) (bs : List Byte) : State :=
  if frameExists (homePool loc) (homeFrame loc) then s.storeHome loc bs false else s

/-- A buffer slot freed and granted anew: its generation advances as a node slot's does (R32, R335; log 18). -/
def State.regrant (s : State) (p slot base size : Nat) : State :=
  s.updPart p fun x =>
    let gen := match tget x.buffers slot with
      | some b => nextGen b.gen
      | none => 1
    { x with buffers := tput x.buffers slot ⟨gen, base, size, [], []⟩ }

/-- A page mapped to device registers; it replaces the partition's earlier mapping of that page (R392; log 49). -/
def State.mapPage (s : State) (x : RegPage) : State :=
  { s with regPages := x :: s.regPages.filter fun y => !(y.part == x.part && y.page == x.page) }

/-- The ports that do not route to a peer (R366). -/
def State.setRoutes (s : State) (peer : Nat) (closed : List Nat) : State := { s with routes := tput s.routes peer closed }

/-- Cycles pass on a core: in every 64 it has as many issue cycles as its duty grants, spread evenly, and the rest are gated
(R120, R316). The cycles of a settling gate are counted when the gate closes (R386). -/
def Core.pass (c : Core) (now n : Nat) : Core :=
  if c.settling then c else
  let issue := (now + n) * c.duty / 64 - now * c.duty / 64
  (c.count 0 issue).count 1 (n - issue)

/-- Time passes, and the schedule's first turn is taken off (log 1, log 2). -/
def State.begin (s : State) : State :=
  let n := Config.elapsed s.ticks
  { s with
    agenda := s.agenda.drop 1, now := s.now + n, ticks := s.ticks + 1, quota := none
    cores := s.cores.map fun c => (c.1, c.2.pass s.now n) }

/-- The turn a step takes: the schedule's first, or the work of the hart that ran last. -/
def State.nextTurn (s : State) : Turn := s.agenda.headD .own

/-! ## Placing a test instruction (log 33) -/

/-- A line with one head at its first place and the head's tail at its end (R91, R92). -/
def wordsLine (ws : List (BitVec 16)) : List Byte :=
  let tail := (ws.drop 1).flatMap fun w => leBytes 2 w.toNat
  leBytes 2 0x0800 ++ leBytes 2 (ws.headD 0).toNat ++ List.replicate (60 - tail.length) 0 ++ tail

/-- The translation of the page at address 0 to frame 0 of pool 0, all rights. -/
def testEntry : Entry where
  part := 0
  ctx := 0
  vpn := 0
  large := false
  peer := 511
  mode := 0
  r := true
  w := true
  x := true
  sd := false
  wcls := false
  migreq := false
  thr := 0
  acnt := 0
  pool := 0
  frame := 0
  rframe := 0

/-- A one-hart node record with ENTRY at head 0 of the line at address 0. -/
def testRecord : NodeRecord where
  addr := 0
  entry := 2
  tstamp := 0
  tsv := false
  group := 0
  params := Vector.replicate 4 0
  operands := []
  donectr := 0
  held := false
  harts := 1
  cls := 2
  prio := 0

/-- That node, running on hart 0. -/
def testNode : Node where
  record := testRecord
  state := .running
  preds := 0
  level := 0
  passes := 0
  readyAt := 0
  placedAt := 0
  ranks := [(0, Rank.start (some 0))]
  saved := none
  cancel := .none
  sched := none
  issued := none
  pcyc := 0
  hcyc := 0
  since := 0
  gcount := 1
  gepoch := 0
  chmark := 0
  shadow := []
  shadowBad := []
  leaving := none

/-- A partition with core 0, frame 0 of pool 0 and every right of a hart, holding that node. -/
def testPart : Partition where
  cores := [0]
  frames := [(0, 0)]
  tables := []
  windows := []
  slots := 2
  access := [⟨.memory, .hart, 0xFF⟩, ⟨.egress, .hart, 0xFF⟩, ⟨.dispatcher, .hart, 0xFF⟩]
  enable := false
  accepted := 0
  dropped := 0
  reads := 0
  lastHandle := 0
  inserts := []
  keystone := 0
  specMax := 64
  det := false
  commits := 0
  aborts := 0
  lastTs := none
  relyK := 16
  relyMode := 0
  klogBase := 0
  klogPages := 0
  snapshot := none
  klog := []
  kept := []
  between := none
  own := []
  keptSince := []
  sinceKeystone := 0
  unlogged := false
  rolledBack := []
  csaBase := 0
  csaUsed := []
  csaSlots := 0
  elog := Ring.reset
  acctRet := 0
  acctCanc := 0
  acctFail := 0
  acctPcyc := 0
  acctHcyc := 0
  chr := []
  coll := []
  collCount := []
  nodes := [(1, testNode)]
  gens := []
  links := []
  reservation := none
  buffers := []
  teardown := .none

/-- Hart 0 running that node at head 0 of the line at address 0 (R76). -/
def testHart : Hart :=
  { Hart.reset with
    regs := { Regs.reset with
      pc := 2
      s := Regs.reset.s.set 6 1
      nodeid := 0x10001
      groupid := 0x8000000000010001 }
    node := some (0, 1, 0) }

/-- What placing an instruction for the next step sets: stage 3 with that partition, hart 0 in its turn, the page
translated in core 0's TLB, and the line in memory (log 33). -/
def State.placed (s : State) (ws : List (BitVec 16)) : State :=
  let c := s.core 0
  { s with
    agenda := []
    cur := 0
    powered := true
    st := { s.st with stage := 3, busy := false }
    parts := tput s.parts 0 testPart
    harts := tput s.harts 0 testHart
    cores := tput s.cores 0 { c with tlb := testEntry :: c.tlb }
    mem := putBytes s.mem 0 (wordsLine ws) }

end Sys2Proof.Machine
end

