-- ==== Sys2Proof/Machine/System.lean ====
section
/-!
DEFINITION. System.lean: NOP, BRK, TRAP, TRET, IDLE, MFSR, MTSR and TLBI (R182-R189, R397, R407), with the system register
map (R188).
-/

namespace Sys2Proof.Machine

/-- R182. -/
def execNop (s : State) : Host.Outcome State Fault Refusal := instr advance s

/-- R182. -/
def execBrk (code : Reg) (s : State) : Host.Outcome State Fault Refusal := instr (do
  drainQueue
  trap cBREAK (code.setWidth 64)) s

/-- R182: TEPC is the return address. -/
def execTrap (service : Reg) (s : State) : Host.Outcome State Fault Refusal := instr (do
  drainQueue
  let ret ← returnAddress
  throw (.trap ⟨cSYSCALL, service.setWidth 64, 0, some ret, none, none⟩)) s

/-- The poison record after a return from a level to an address: the return from a POISON_CONSUMED trap clears it when it
goes elsewhere than to the instruction that trapped (R397). -/
def Rank.afterReturn (r : Rank) (level : Nat) (t : Word) : Rank :=
  match r.poisonAt.find? fun x => x.1 == level with
  | some (_, pc) =>
    { r with poisonAt := r.poisonAt.filter fun x => x.1 != level, poison := if t = pc then r.poison else none }
  | none => r

/-- TRET (R183, R397, R407): the pending batch is awaited, then the hart returns. -/
def tretCore : M Unit := do
  drainQueue
  let g ← curRegs
  let level := g.tl.toNat
  if level = 0 then illegal 7
  else
    let b := g.bank level
    if b.cause.getLsbD 15 then block .pager
    else
      checkTarget b.epc
      change fun s => s.updCurRank fun r => r.afterReturn level b.epc
      updHart fun h => { h.trapReturn b.epc with blocked := none }
      change State.dropRequests
      ended

/-- R183. -/
def execTret (s : State) : Host.Outcome State Fault Refusal := instr tretCore s

/-- Whether a cancel is pending on the node of the hart that runs (R53). -/
def State.cancelPending (s : State) : Bool :=
  match (s.hart s.cur).node with
  | some (p, k, _) =>
    match s.node p k with
    | some n => n.cancel == .pending
    | none => false
  | none => false

/-- R185: IDLE ends while a cancel is pending, once one has become pending on a hart that waits, and at a resume. -/
def execIdle (s : State) : Host.Outcome State Fault Refusal := instr (do
  drainQueue
  let s ← get
  if s.cancelPending || s.curRank.idled then
    change fun s => s.updCurRank fun r => { r with idled := false }
    advance
  else block .idle) s

/-! ## The system register map (R188) -/

/-- Whether a register may be read and written at a trap level; none when the number is not in the map. -/
def sysAccess (n tl : Nat) : Option (Bool × Bool) :=
  match n with
  | 0x000 | 0x001 | 0x002 | 0x010 | 0x011 | 0x012 | 0x020 | 0x021 | 0x022 | 0x028 | 0x029 | 0x02A | 0x060 | 0x070
  | 0x071 | 0x101 => some (true, true)
  | 0x030 | 0x031 | 0x110 | 0x111 | 0x112 | 0x113 => some (true, decide (1 ≤ tl))
  | 0x040 | 0x041 | 0x042 | 0x043 | 0x050 | 0x051 | 0x052 | 0x100 | 0x200 | 0x201 | 0x202 | 0x203 =>
    some (true, false)
  | 0x120 | 0x121 | 0x122 | 0x123 => some (decide (1 ≤ tl), decide (tl = 2))
  | _ => none

/-- Set bits of a mask at indices below n, rising. -/
def setBits (m : Mask) (n : Nat) : List Nat := (List.range n).filter fun k => m.getLsbD k

/-- FEM's summary (R189). -/
def femSummary (m : Mask) : Word :=
  if m = 0 then 0 else
  let ks := setBits m 32768
  BitVec.ofNat 64 (2 ^ 63 + ks.length * 2 ^ 32 + ks.getLastD 0 * 2 ^ 16 + ks.headD 0)

/-- The value of a system register (R188). -/
def readSys (g : Regs) (c : Core) (n : Nat) : Word :=
  match n with
  | 0x000 => g.vl | 0x001 => g.rc | 0x002 => g.vtype | 0x010 => g.fflags | 0x011 => g.frm | 0x012 => g.atc
  | 0x020 => g.dlen.get 0 | 0x021 => g.dlen.get 1 | 0x022 => g.dlen.get 2
  | 0x028 => g.dstep.get 0 | 0x029 => g.dstep.get 1 | 0x02A => g.dstep.get 2
  | 0x030 => g.pix | 0x031 => femSummary g.fem
  | 0x040 => (c.channels.get 0).pos | 0x041 => (c.channels.get 1).pos
  | 0x042 => (c.channels.get 2).pos | 0x043 => (c.channels.get 3).pos
  | 0x050 => g.hartid | 0x051 => g.nodeid | 0x052 => g.groupid | 0x060 => g.seed | 0x070 => g.loopcnt
  | 0x071 => g.rrb | 0x100 => g.tl.setWidth 64 | 0x101 => g.tvec
  | 0x110 => g.trap1.cause | 0x111 => g.trap1.epc | 0x112 => g.trap1.val | 0x113 => g.trap1.lane
  | 0x120 => g.trap2.cause | 0x121 => g.trap2.epc | 0x122 => g.trap2.val | 0x123 => g.trap2.lane
  | 0x200 => c.marginSet | 0x201 => c.replayLimit | 0x202 => c.replayCount | 0x203 => c.quarWord
  | _ => 0

/-- FRM after a write: RM codes 6 and 7 leave RM (R129). -/
def frmWrite (old v : Word) : Word :=
  BitVec.ofNat 64 (bits v.toNat 8 8 * 256 + (if bits v.toNat 2 0 ≥ 6 then bits old.toNat 2 0 else bits v.toNat 2 0))

/-- TCAUSE after a write: CAUSE alone (R402). -/
def causeWrite (old v : Word) : Word := (old &&& 0xC000) ||| (v &&& 0xFF)

/-- A trap bank after a write of its register i (R402; TLANE keeps its 48 bits, log 6). -/
def TrapBank.write (b : TrapBank) (i : Nat) (v : Word) : TrapBank :=
  match i with
  | 0 => { b with cause := causeWrite b.cause v }
  | 1 => { b with epc := v }
  | 2 => { b with val := v }
  | _ => { b with lane := v &&& 0xFFFFFFFFFFFF }

/-- A write of a system register under its field map (R186). -/
def writeSys (g : Regs) (n : Nat) (v : Word) : Regs :=
  match n with
  | 0x000 => g.setVl v
  | 0x001 => g.setRc v
  | 0x002 => g.setVt v
  | 0x010 => { g with fflags := v &&& 0x7F }
  | 0x011 => { g with frm := frmWrite g.frm v }
  | 0x012 => { g with atc := v &&& 0x7F }
  | 0x020 => g.setDlen 0 v | 0x021 => g.setDlen 1 v | 0x022 => g.setDlen 2 v
  | 0x028 => g.setDstep 0 v | 0x029 => g.setDstep 1 v | 0x02A => g.setDstep 2 v
  | 0x030 => { g with pix := v &&& 0xC000FFFFFFFFFFFF }
  | 0x031 => if v = 0 then { g with fem := 0 } else g
  | 0x060 => { g with seed := v }
  | 0x070 => { g with loopcnt := v }
  | 0x071 => { g.stageMasks (bits v.toNat 7 4) with rrb := v &&& 0xFF }
  | 0x101 => { g with tvec := v &&& 0x01FFFFFFFFFFFFC0 }
  | 0x110 | 0x111 | 0x112 | 0x113 => { g with trap1 := g.trap1.write (n % 16) v }
  | 0x120 | 0x121 | 0x122 | 0x123 => { g with trap2 := g.trap2.write (n % 16) v }
  | _ => g

/-- R186. -/
def execMfsr (rd : Reg) (number : BitVec 12) (s : State) : Host.Outcome State Fault Refusal := instr (do
  drainQueue
  let g ← curRegs
  match sysAccess number.toNat g.tl.toNat with
  | none => illegal 6
  | some (r, _) =>
    require r 7
    let s ← get
    writeS rd (readSys g (s.core (coreOf s.cur)) number.toNat)
    advance) s

/-- R186: a write of VL traps as SETVL does while VREJ is set. -/
def execMtsr (ra : Reg) (number : BitVec 12) (s : State) : Host.Outcome State Fault Refusal := instr (do
  drainQueue
  let g ← curRegs
  match sysAccess number.toNat g.tl.toNat with
  | none => illegal 6
  | some (_, w) =>
    require w 7
    if number = 0 then needVtype
    let a ← readS ra
    updRegs fun g => writeSys g number.toNat a
    advance) s

/-! ## TLBI (R187) -/

/-- Whether a range of addresses meets what a TLBI is about: everything, or the 2 MiB around an address, which hold its page
of either size (R272). -/
def tlbRegion (va : Option Nat) (a n : Nat) : Bool :=
  match va with
  | none => true
  | some v => decide (a < v / 2 ^ 21 * 2 ^ 21 + 2 ^ 21) && decide (v / 2 ^ 21 * 2 ^ 21 < a + n)

/-- Whether a packet of a rank of a partition that was translated by a page a TLBI is about is on its way, or waits for its
place (R187, R368). -/
def State.packetsOut (s : State) (p : Nat) (va : Option Nat) : Bool :=
  let own := fun o : Origin => match o with
    | .rank q _ _ _ pages _ => q == p && pages.any fun g => tlbRegion va (g * 65536) 65536
    | _ => false
  s.peers.any fun e => (e.2.unacked.any fun u => own u.origin) || e.2.waiting.any fun w => own w.2

/-- The harts that run nodes of a partition. -/
def State.hartsOf (s : State) (p : Nat) : List Nat :=
  (s.harts.filter fun e => match e.2.node with
    | some (q, _, _) => q == p
    | none => false).map (·.1)

/-- The ranges a command reads: its source, or the list of a GATHER and the row under way, whose address has been read
(R313). -/
def Command.sources (x : Command) : List (Nat × Nat) :=
  if x.op = 2 then (x.src, 8 * (x.total / max x.len 1)) :: (x.row.toList.map fun r => (r.2, x.len)) else [(x.src, x.len)]

/-- Whether an access of a partition that a TLBI waits for is still to be performed: a store in a store buffer, a packet, an
instruction in progress, a transfer of a copy channel, an engine command (R187, R331). -/
def State.tlbBusy (s : State) (p : Nat) (va : Option Nat) : Bool :=
  s.packetsOut p va ||
    ((s.hartsOf p).any fun h =>
      ((s.hart h).sb.any fun x => x.parts.any fun y => tlbRegion va y.va y.bytes.length) ||
        (h != s.cur && (s.hart h).translations.any fun g => tlbRegion va (g.1 * 65536) 65536)) ||
    (s.cores.any fun c => c.2.channels.toList.any fun ch => ch.queue.any fun t =>
      t.part == p && t.pages.any fun g => tlbRegion va (g.1 * 65536) 65536) ||
    s.commands.any fun c => c.2.part == p && !c.2.ended && c.2.sources.any fun r => tlbRegion va r.1 r.2

/-- TLBI of a page or of everything (R187): entries go from every TLB and the copies of the page with them (R277), the
stores in the partition's store buffers drain, and the hart waits for every other access translated before. -/
def tlbi (va : Option Nat) : M Unit := do
  drainQueue
  let g ← curRegs
  require (g.tl != 0) 7
  let s ← get
  let p := (s.hart s.cur).part
  let s1 := match va with
    | some a => s.invalidatePage p a
    | none => s.invalidate p none
  let hit := fun x : StoreEntry => x.parts.any fun y => tlbRegion va y.va y.bytes.length
  let s2 := (s1.hartsOf p).foldl (fun s h => s.drainAll h fun x => hit x && (x.peer.isNone && !x.held || h == s.cur)) s1
  set s2
  if s2.tlbBusy p va then stall
  advance

/-- R187. -/
def execTlbiAll (s : State) : Host.Outcome State Fault Refusal := instr (tlbi none) s

/-- R187. -/
def execTlbiVa (ra : Reg) (s : State) : Host.Outcome State Fault Refusal := instr (do
  let a ← readS ra
  tlbi (some a.toNat)) s

end Sys2Proof.Machine
end

