-- ==== Sys2Proof/Machine/Create.lean ====
section
/-!
DEFINITION. Create.lean: the task node record (R25-R28), its checks and the creation of a node (R29-R34), and the joins
a placement makes (R83).
-/

namespace Sys2Proof.Machine

/-! ## The record (R25-R27) -/

/-- The n words of some bytes. -/
def wordsOf (n : Nat) (bs : List Byte) : List Nat := (List.range n).map fun i => leNat ((bs.drop (8 * i)).take 8)

/-- Declarations in use: word 0 and word 1 of each (R26, R27). -/
def declarations (ws : List Nat) : List (Nat × Nat) :=
  (List.range (bits (ws.getD 0 0) 20 19)).map fun i => (ws.getD (8 + 2 * i) 0, ws.getD (9 + 2 * i) 0)

/-- The record that sixteen words read from an address give (R25, R26). -/
def recordOf (addr : Nat) (ws : List Nat) : NodeRecord :=
  let hdr := ws.getD 0 0
  let tsv := bits hdr 18 18 == 1
  { addr := BitVec.ofNat 64 addr
    entry := BitVec.ofNat 64 (ws.getD 1 0)
    tstamp := if tsv then BitVec.ofNat 64 (ws.getD 2 0) else 0
    tsv := tsv
    group := BitVec.ofNat 64 (ws.getD 3 0)
    params := Vector.ofFn fun i : Fin 4 => BitVec.ofNat 64 (ws.getD (4 + i.val) 0)
    operands := (declarations ws).map fun o => ⟨bits o.1 58 57, bits o.1 56 0, bits o.2 31 0⟩
    donectr := BitVec.ofNat 64 (ws.getD 14 0)
    held := bits hdr 17 17 == 1
    harts := bits hdr 16 13
    cls := bits hdr 12 11
    prio := bits hdr 10 8 }

/-- Whether a timestamp may not enter in deterministic mode: it repeats an uncommitted node's, or is not above the last
committed one (R29). -/
def Partition.lateStamp (x : Partition) (ts : Nat) : Bool :=
  (x.nodes.any fun n => n.2.record.tstamp.toNat == ts) || (match x.lastTs with
    | some l => decide (ts ≤ l)
    | none => false)

/-- The checks of R29 on the record's content, in order; 0 when none fails. -/
def Partition.recordStatus (x : Partition) (ws : List Nat) : Nat :=
  let hdr := ws.getD 0 0
  let ops := declarations ws
  if bits hdr 7 0 ≠ 1 then 0x02
  else if bits hdr 16 13 = 0 ∨ bits hdr 16 13 > 8 then 0x03
  else if bits hdr 12 11 = 3 then 0x04
  else if bits hdr 63 21 ≠ 0 ∨ (ops.any fun o => bits o.1 63 59 != 0 || bits o.2 63 32 != 0) = true then 0x05
  else if (ops.any fun o => bits o.1 58 57 == 0 || bits o.2 31 0 == 0) = true then 0x06
  else if x.det = true ∧ bits hdr 18 18 = 0 then 0x07
  else if x.det = true ∧ x.lateStamp (ws.getD 2 0) = true then 0x08
  else 0

/-! ## Creation (R29-R34) -/

/-- The lowest number from k on that a rising list lacks. -/
def firstGap (k : Nat) (xs : List Nat) : Nat :=
  match xs with
  | [] => k
  | j :: rest => if j = k then firstGap (k + 1) rest else if j < k then firstGap k rest else k

/-- The lowest-numbered free slot of a partition's table (R31). -/
def Partition.freeNode (x : Partition) : Option Nat :=
  let k := firstGap 1 (x.nodes.map (·.1))
  if k < x.slots then some k else none

/-- What a schedule table adds to a template (R69). -/
structure Issued where
  table : Nat
  index : Nat
  run : Nat
  prio : Nat
  entry : SchedEntry
  deriving DecidableEq, Repr

/-- A node as created, at a step (R34, R43, R69). -/
def newNode (r : NodeRecord) (t : Option Issued) (ticks : Nat) : Node :=
  let r := match t with
    | some i => { r with held := false, prio := i.prio, params := r.params.set 3 i.entry.arg }
    | none => r
  { record := r
    state := if r.held then .held else .ready
    preds := 0
    level := r.prio
    passes := 0
    readyAt := ticks
    placedAt := 0
    ranks := []
    saved := none
    cancel := .none
    sched := t.map fun i => (i.table, i.index, i.run)
    issued := t.map (·.entry)
    pcyc := 0
    hcyc := 0
    since := 0
    gcount := 0
    gepoch := 0
    chmark := 0
    shadow := []
    shadowBad := []
    leaving := none }

/-- RESULT and NODE's s[d]: STATUS and HANDLE (R28). -/
def resultWord (status handle : Nat) : Nat := status * 2 ^ 32 + handle

/-- A creation that fails with a STATUS: a FAILED node under a handle when a slot is free, and an error record (R29, R30,
R419). Gives the handle, 0 when no node was made. -/
def State.failCreate (s : State) (p addr status : Nat) : Nat × State :=
  match s.part p with
  | none => (0, s)
  | some x =>
    match x.freeNode with
    | none => (0, s.record 0x01 p Who.none [addr, status])
    | some k =>
      let s1 := s.updPart p fun x => { x with gens := tput x.gens k (nextGen (x.gen k)), acctFail := x.acctFail + 1 }
      (x.handle k, s1.record 0x01 p { Who.none with node := x.handle k } [addr, status])

/-- Makes a node from the words of a record: STATUS, handle, state (R29). -/
def State.create (s : State) (p addr : Nat) (ws : List Nat) (t : Option Issued) : Nat × Nat × State :=
  match s.part p with
  | none => (0x0A, 0, s)
  | some x =>
    let st := x.recordStatus ws
    if st ≠ 0 then
      let (h, s1) := s.failCreate p addr st
      (st, h, s1)
    else match x.freeNode with
      | none => (0x0A, 0, s)
      | some k => (0, x.handle k, s.setNode p k (newNode (recordOf addr ws) t s.ticks))

/-- The outcome of the dispatcher's own read of a record, on the insert and template paths (R30, R69). -/
inductive Made where
  | pending
  | made (status handle : Nat)
  deriving DecidableEq, Repr

/-- Reads a record, makes its node and writes RESULT (R25-R30). A misaligned address is unreadable (log 37). DESIGN CHOICE: of a
record that can be read and not written the node is made all the same, RESULT stays as it was and no error record is written;
R28 names no such case (log 37). -/
def State.makeNode (s : State) (p addr : Nat) (t : Option Issued) : Made × State :=
  if addr % 128 ≠ 0 then
    let (h, s1) := s.failCreate p addr 0x01
    (.made 0x01 h, s1)
  else
    match s.devRead p addr 128 with
    | (.pending, s1) => (.pending, s1)
    | (.unreadable, s1) =>
      let (h, s2) := s1.failCreate p addr 0x01
      (.made 0x01 h, s2)
    | (.bytes bs, s1) =>
      let (st, h, s2) := s1.create p addr (wordsOf 16 bs) t
      (.made st h, (s2.devWrite p (addr + 0x78) (leBytes 8 (resultWord st h))).2)

/-! ## The join of a placement (R83) -/

/-- The outcome of a join at placement. -/
inductive Joined where
  | joined (gid : Word)
  | pending
  | failed
  deriving DecidableEq, Repr

/-- Joins all harts of a node to its group, at the group's home (R83). DESIGN CHOICE: a GROUP address that is not aligned to 64
fails the placement as a malformed object does; R83 does not name it (log 37). The line of the object is logged, or the
effect leaves the partition (R399). -/
def State.joinGroup (s : State) (p handle : Nat) (group : Word) (harts : Nat) : Joined × State :=
  let a := group.toNat
  if a = 0 then (.joined (BitVec.ofNat 64 (2 ^ 63 + handle)), s)
  else if a % 64 ≠ 0 then (.failed, s)
  else
    let (r, s1) := s.devAccess p a needRW
    match r with
    | .ok (.home key) =>
      let (ws, s2) := (s1.logLine p (key / 64)).joinHome key harts
      if ws.headD 0 = aOk then (.joined group, s2) else (.failed, s2)
    | .ok (.peer q key) =>
      match (s1.leavePart p).fetch q (.object .join key [BitVec.ofNat 64 harts]) with
      | (none, s2) => (.pending, s2)
      | (some rep, s2) => if rep.poison ∨ rep.words.headD 0 ≠ aOk then (.failed, s2) else (.joined group, s2)
    | _ => (.failed, s1)

end Sys2Proof.Machine
end

