-- ==== Sys2Proof/Machine/Matrix.lean ====
section
/-!
DEFINITION. Matrix.lean: self-describing blocks (R137, R138), the accumulation of MMA (R142), and the Palette
instructions of major 0x34 (R236-R247).
-/

namespace Sys2Proof.Machine

/-! ## Slots -/

/-- The Palette slot of a number on the core of the hart that runs. -/
def paletteSlot (p : Reg) : M Slot := do
  let s ← get
  pure ((s.core (coreOf s.cur)).slot p.toNat)

/-- Writes a Palette slot. -/
def setSlot (p : Reg) (x : Slot) : M Unit := change fun s => s.updCore (coreOf s.cur) (·.setSlot p.toNat x)

/-- R239: claims a slot; the claim makes its first attempt when its convoy starts, and retires once it has been granted. -/
def execMclaim (pd : Reg) (s : State) : Host.Outcome State Fault Refusal := instr (do
  enqueue 6 0 1 1 (some pd.toNat)
  advance) s

/-- R240: frees a held slot, once every earlier instruction has retired. -/
def execMrel (pa : Reg) (s : State) : Host.Outcome State Fault Refusal := instr (do
  drainQueue
  let s ← get
  let x ← paletteSlot pa
  if x.owner = some s.cur then setSlot pa x.release
  enqueue 6 0 1 1
  advance) s

/-- Fills a held slot. -/
def fillSlot (pd : Reg) (m : Matrix) : M Unit := do
  let x ← paletteSlot pd
  setSlot pd { x with content := some m }

/-- The matrix of a held and FILLED slot, else ILLEGAL WHY 9 (R237). -/
def filled (p : Reg) : M Matrix := do
  let s ← get
  let x ← paletteSlot p
  match x.content with
  | some m => if x.owner = some s.cur then pure m else illegal 9
  | none => illegal 9

/-- The slot is held by the hart, else ILLEGAL WHY 9. -/
def needHeld (p : Reg) : M Unit := do
  let s ← get
  let x ← paletteSlot p
  require (x.owner == some s.cur) 9

/-! ## Self-describing blocks (R137, R138) -/

/-- Elements of a block: 62 in the 8-bit class, 124 in the 4-bit class. -/
def blockElems (wide4 : Bool) : Nat := if wide4 then 124 else 62

/-- Byte i of a block. -/
def blockByte (b i : Nat) : Nat := b / 2 ^ (8 * i) % 256

/-- Whether the format byte is legal for the class. -/
def blockLegal (wide4 : Bool) (b : Nat) : Bool :=
  let f := blockByte b 0
  if wide4 then f == 0x0A || f == 0x0C else f == 0x00 || f == 0x04 || f == 0x05

/-- The payload of a block as values before the scale (R127, R137). -/
def blockVals (wide4 : Bool) (b : Nat) : List Val :=
  let f := blockByte b 0
  if wide4 then
    (List.range 62).flatMap fun i =>
      let x := blockByte b (2 + i)
      if f = 0x0A then
        let (lo, hi) := o4Pair x
        [Val.ofZ lo, Val.ofZ hi]
      else [ofInt 4 (x % 16), ofInt 4 (x / 16)]
  else (List.range 62).map fun i =>
    let x := blockByte b (2 + i)
    if f = 0 then ofInt 8 x else decodeF f x

/-! ## MMA (R142, R244) -/

/-- The value of a slot element: O4 elements are held as signed bytes. -/
def slotVal (f p : Nat) : Val := if f = 0xA ∨ f = 0 then ofInt 8 p else decodeF f p

/-- Whether a value is the infinity of a sign. -/
def Val.isInf (neg : Bool) (v : Val) : Bool := match v with | .inf n => n == neg | _ => false

/-- The exact sum of products (R142): infinities of both signs set NV, whatever else the group holds and in whatever
order. -/
def exactSum (ps : List (Val × Nat)) : Val × Nat :=
  match ps with
  | [] => (.fin false 0 0, 0)
  | p :: rest =>
    let (v, f) := rest.foldl (fun a x =>
      let (v, f) := addVal Mode.rne a.1 x.1
      (v, a.2 ||| x.2 ||| f)) p
    (v, if (ps.any fun x => x.1.isInf true) && ps.any fun x => x.1.isInf false then f ||| fNV else f)

/-- One group added to an accumulator: acc := rne32(acc + rne32(S)). -/
def mmaGroup (acc : Nat × Nat) (sum : Val × Nat) : Nat × Nat :=
  let (t, f1) := roundVal 8 Mode.rne sum.1
  let (r, f2) := addF 8 Mode.rne (decodeF 8 acc.1) (decodeF 8 t)
  (r, acc.2 ||| sum.2 ||| f1 ||| f2)

/-- Cuts a list into groups of n, the last one short. -/
def groupsOf {α : Type} (n : Nat) (xs : List α) : List (List α) :=
  (List.range (ceilDiv xs.length n)).map fun g => (xs.drop (g * n)).take n

/-- A row of A times a column of B from ordinary pages. -/
def mmaPlain (fa fb group : Nat) (acc : Nat) (a b : List Nat) : Nat × Nat :=
  (groupsOf group ((a.zip b).map fun e => mulVal (slotVal fa e.1) (slotVal fb e.2))).foldl
    (fun acc g => mmaGroup acc (exactSum g)) (acc, 0)

/-- A row of INT8 blocks of A times a column of B, modulo 2^32. -/
def mmaInt (acc : Nat) (a b : List Nat) : Nat :=
  wrap 32 ((acc : Int) + ((a.zip b).map fun e => signed 8 e.1 * signed 8 e.2).foldl (· + ·) 0)

/-- A scaled value. -/
def Val.scale (v : Val) (k : Int) : Val := match v with | .fin n m e => .fin n m (e + k) | w => w

/-- One group of described blocks (R138, R142). -/
def mmaBlock (wide4 : Bool) (acc : Nat × Nat) (x y : Nat) : Nat × Nat :=
  let bad := !blockLegal wide4 x || !blockLegal wide4 y
  let nan := fun b => blockLegal wide4 b && blockByte b 1 == 255
  let vals := fun b =>
    if !blockLegal wide4 b then List.replicate (blockElems wide4) (.fin false 0 0)
    else if blockByte b 1 = 255 then List.replicate (blockElems wide4) (.nan false)
    else blockVals wide4 b
  let (s, f) := exactSum (((vals x).zip (vals y)).map (fun e => mulVal e.1 e.2) ++ [(.fin false 0 0, 0)])
  let k : Int := (blockByte x 1 : Int) - 127 + (blockByte y 1 - 127)
  mmaGroup acc (s.scale k, f ||| if bad || nan x || nan y then fNV else 0)

/-- How two slots and an accumulator format pair (R244). -/
inductive Pairing where
  | plain (group rate : Nat)
  | int8
  | blocks (wide4 : Bool)
  deriving DecidableEq, Repr

/-- The legal pairings (R244). -/
def slotPairing (a b : Matrix) (acc : Nat) : Option Pairing :=
  match a.described, b.described with
  | some (wa, colA, na), some (wb, colB, nb) =>
    if wa == wb && !colA && colB && na == nb && acc == 8 then some (.blocks wa) else none
  | none, none =>
    let two := fun f => f == 6 || f == 7
    let one := fun f => f == 4 || f == 5
    if acc = 8 ∧ two a.fmt ∧ two b.fmt then some (.plain 32 1)
    else if acc = 8 ∧ one a.fmt ∧ one b.fmt then some (.plain 64 2)
    else if acc = 8 ∧ a.fmt = 0xA ∧ b.fmt = 0xA then some (.plain 128 4)
    else if acc = 2 ∧ a.fmt = 0 ∧ b.fmt = 0 then some .int8
    else none
  | _, _ => none

/-- Column c of a matrix. -/
def Matrix.column (m : Matrix) (c : Nat) : List Nat :=
  match m.described with
  | some (_, true, _) => m.data.getD c []
  | _ => m.data.map fun r => r.getD c 0

/-- R244: accumulates the product of two slots. -/
def execMma (fd pa pb : Reg) (mask : Reg3) (s : State) : Host.Outcome State Fault Refusal := instr (do
  let c ← captured mask
  settleClaims
  let a ← filled pa
  let b ← filled pb
  require (b.rows == a.cols && c.count == a.rows * b.cols) 8
  match slotPairing a b c.fmt with
  | none => illegal 8
  | some pr =>
    require (aligned c.grp [fd]) 4
    let arows := a.data.toArray
    let bcols := ((List.range b.cols).map b.column).toArray
    let op := fun k acc (_ _ : Nat) =>
      let x := arows.getD (k / b.cols) []
      let y := bcols.getD (k % b.cols) []
      match pr with
      | .plain group _ => mmaPlain a.fmt b.fmt group acc x y
      | .int8 => (mmaInt acc x y, 0)
      | .blocks w4 => (x.zip y).foldl (fun acc e => mmaBlock w4 acc e.1 e.2) (acc, 0)
    let none := List.replicate c.count 0
    let old := c.tile fd.toNat
    let rs := (sweep c.active op 0 old old none none).map fun r => (r.1, r.2 &&& (fNV ||| fOF ||| fNX))
    let rate := match pr with
      | .plain _ r => r
      | .int8 => 2
      | .blocks w4 => if w4 then 4 else 2
    let ws := c.g.groupWrites fd.toNat c.grp c.fmt (rowsOf c.vl c.rc (rs.map (·.1))) c.vl
    if c.count ≠ 0 then
      checkStorage ws (c.sources [fd])
      checkEnabled (flagged rs)
      writeTiles ws
    let cycles := mmaCycles (a.rows * a.cols * b.cols) rate
    enqueue 5 (joinFlags (flagged rs)) cycles cycles
    advance) s

/-! ## MLOAD (R241-R243) -/

/-- Which form of MLOAD. -/
inductive LoadForm where
  | plain | transposed | gather
  deriving DecidableEq, Repr

/-- The formats of ordinary pages (R241). -/
def slotFormat (f : Nat) : Bool := f == 6 || f == 7 || f == 4 || f == 5 || f == 0 || f == 0xA

/-- The entry of a page, when it is present. -/
def pageEntry (ps : List (Nat × Probe)) (g : Nat) : Option Entry :=
  match pageResult ps g with
  | .ok _ e => e
  | _ => none

/-- Whether a page is self-describing, and its class, where a translation is present; the scratchpad is ordinary (R243). -/
def pageKind (ps : List (Nat × Probe)) (g : Nat) : Option (Option Bool) :=
  match pageResult ps g with
  | .ok _ (some e) | .denied e => some (if e.sd then some e.wcls else none)
  | .ok _ none => some none
  | .absent => none

/-- Probes an access to pages of one kind: a failure stops it (R243, R300). -/
def Sweep.probeKind (w : Sweep) (kind : Option Bool) (need : Need) (cause : Nat) : M (List (Nat × Probe)) := do
  w.windowRule
  let ps ← probePages (pagesOf w.accs) need
  let odd := fun (a : Acc) => a.pages.any fun g => match pageKind ps g with
    | some k => k != kind
    | none => false
  match w.accs.find? fun a => a.fails ps || odd a with
  | none => pure ps
  | some a =>
    if odd a then illegal 8
    else if a.denied ps then w.deny a
    else w.miss cause a (absentPages ps)

/-- A matrix from memory rows of patterns, transposed or not. -/
def matrixOf (t : Bool) (nrows ncols fmt : Nat) (rows : List (List Nat)) : Matrix :=
  if t then ⟨ncols, nrows, fmt, none, (List.range ncols).map fun c => rows.map fun r => r.getD c 0⟩
  else ⟨nrows, ncols, fmt, none, rows⟩

/-- Signed bytes of an O4 row of bytes. -/
def o4Signed (bs : List Nat) : List Nat := bs.flatMap fun b =>
  let (lo, hi) := o4Pair b
  [wrap 8 lo, wrap 8 hi]

/-- Places a Palette transfer of some bytes in the queue (R114). -/
def enqueuePl (flags bytes : Nat) : M Unit := enqueue 6 flags (ceilDiv bytes 512) (max 1 (ceilDiv bytes 512))

/-- The sweep of a Palette transfer: its report gives the instruction's dimensions (R241, R282). -/
def Cap.paletteSweep (c : Cap) (base : Word) (cols eb : Nat) (accs : List Acc) : Sweep :=
  let at_ := fun k => pixWord 0 (k / max cols 1) (k % max cols 1)
  ⟨accs, at_, at_, 4, if c.fmt = 0xA ∧ eb = 1 then 0 else eb, base, c.g.dlen.toList, c.g.dstep.toList⟩

/-- MLOAD of described blocks: one memory row a slot row, or transposed a slot column (R243). DESIGN CHOICE: an address that
is no multiple of 64 is not refused, since R247 names no such check: the 64 bytes at it are read as the block (log 50). -/
def mloadBlocks (c : Cap) (form : LoadForm) (pd : Reg) (w4 : Bool) (base : Word) (rows cols : Nat) (rowAddr : Nat → Nat) :
    M Unit := do
  require (form != .gather) 8
  require (rows * cols * 64 ≤ 32768) 8
  let accs := (List.range rows).flatMap fun t => (List.range cols).map fun i =>
    (⟨t * cols + i, (rowAddr t + 64 * i) % 2 ^ 64, 64⟩ : Acc)
  let ps ← (c.paletteSweep base cols 64 accs).probeKind (some w4) needR cLOAD
  let bs ← readAccs ps accs
  let elems := cols * blockElems w4
  let data := rowsOf cols rows (bs.map leNat)
  fillSlot pd (if form = .transposed then ⟨elems, rows, 0, some (w4, true, cols), data⟩
    else ⟨rows, elems, 0, some (w4, false, cols), data⟩)
  enqueuePl 0 (rows * cols * 64)

/-- MLOAD of the elements of ordinary pages (R241). Of a page not yet resident nothing says whether it is described, so that
VTYPE's format is not judged (R243). -/
def mloadElems (c : Cap) (form : LoadForm) (pd : Reg) (known : Bool) (base : Word) (rows cols : Nat)
    (rowAddr : Nat → Nat) : M Unit := do
  let o4 := c.fmt == 0xA
  require (!known || (slotFormat c.fmt && (!o4 || cols % 2 == 0))) 8
  require (rows * cols * c.w / 8 ≤ 32768) 8
  let per := if o4 then 2 else 1
  let eb := if o4 then 1 else c.w / 8
  let n := ceilDiv cols per
  let accs := (List.range rows).flatMap fun t => (List.range n).map fun i =>
    (⟨t * cols + per * i, (rowAddr t + eb * i) % 2 ^ 64, eb⟩ : Acc)
  let ps ← (c.paletteSweep base cols eb accs).probeKind none needR cLOAD
  let bs ← readAccs ps accs
  let data := (rowsOf n rows (bs.map leNat)).map fun r => if o4 then o4Signed r else r
  fillSlot pd (matrixOf (form == .transposed) rows cols c.fmt data)
  enqueuePl 0 (rows * n * eb)

/-- MLOAD, plain, .t and .g (R241, R243). -/
def mloadForm (form : LoadForm) (pd ra fb : Reg) (disp : Word) : M Unit := do
  drainQueue
  let c ← captured 0
  needHeld pd
  let base := c.g.getS ra + disp
  let cols := c.g.dlen[0].toNat
  let rows := if form = .gather then c.vl else c.g.dlen[1].toNat
  let step := c.g.dstep[1]
  if rows = 0 ∨ cols = 0 then
    require (slotFormat c.fmt && (c.fmt != 0xA || cols % 2 == 0)) 8
    fillSlot pd (if form = .transposed then ⟨cols, rows, c.fmt, none, []⟩ else ⟨rows, cols, c.fmt, none, []⟩)
    enqueuePl 0 0
  else
    let idx := (c.g.groupRow fb.toNat (ceilDiv c.vl 512) 32 0 c.vl).toArray
    let rowAddr := fun t : Nat =>
      let n := if form = .gather then idx.getD t 0 else t
      (base + BitVec.ofNat 64 n * step).toNat
    let kind ← probePages [rowAddr 0 / 65536] needR
    match pageKind kind (rowAddr 0 / 65536) with
    | some (some w4) => mloadBlocks c form pd w4 base rows cols rowAddr
    | k => mloadElems c form pd k.isSome base rows cols rowAddr
  advance

/-- R241: fills a slot, rows as in memory. -/
def execMload (pd ra : Reg) (disp : Word) (s : State) : Host.Outcome State Fault Refusal :=
  instr (mloadForm .plain pd ra 0 disp) s

/-- R241: fills a slot transposed. -/
def execMloadT (pd ra : Reg) (disp : Word) (s : State) : Host.Outcome State Fault Refusal :=
  instr (mloadForm .transposed pd ra 0 disp) s

/-- R241: fills a slot with rows gathered by an index tile. -/
def execMloadG (pd ra fb : Reg) (disp : Word) (s : State) : Host.Outcome State Fault Refusal :=
  instr (mloadForm .gather pd ra fb disp) s

/-- Reads the elements of one array for MLOAD.csr, given their indices (R242). A fault is reported with the instruction's
base and dimensions, and the element by its index in the array (R241, R282). -/
def csrRead (c : Cap) (base : Word) (array eb : Nat) (ks : List Nat) : M (List Nat) := do
  let accs := ks.map fun k => (⟨k, (array + eb * k) % 2 ^ 64, eb⟩ : Acc)
  let ps ← (c.paletteSweep base 65536 eb accs).probeKind none needR cLOAD
  let bs ← readAccs ps accs
  pure (bs.map leNat)

/-- The matrix of compressed sparse rows read from memory, with the flags of its rows (R242). -/
def csrMatrix (c : Cap) (base : Word) (rows cols : Nat) : M (Matrix × List (Nat × Nat)) := do
  let words ← csrRead c base base.toNat 8 [0, 1, 2, 3]
  require (words.getD 3 0 == 0) 8
  let ptr := (← csrRead c base (words.getD 0 0) 4 (List.range (rows + 1))).toArray
  let entries := (List.range rows).flatMap fun t =>
    let lo := ptr.getD t 0
    (List.range (ptr.getD (t + 1) 0 - lo)).map fun i => (t, lo + i)
  let cs ← csrRead c base (words.getD 1 0) 4 (entries.map (·.2))
  let placed := (entries.zip cs).filter fun e => e.2 < cols
  let vs ← csrRead c base (words.getD 2 0) (c.w / 8) (placed.map fun e => e.1.2)
  let cells := ((placed.map fun e => (e.1.1, e.2)).zip vs).toArray
  let grid := cells.foldl (fun (a : Array Nat) e => a.setIfInBounds (e.1.1 * cols + e.1.2) e.2)
    (Array.replicate (rows * cols) 0)
  let badRow := fun t : Nat => decide (ptr.getD (t + 1) 0 < ptr.getD t 0) ||
    (entries.zip cs).any fun e => e.1.1 == t && decide (e.2 ≥ cols)
  pure (⟨rows, cols, c.fmt, none, rowsOf cols rows grid.toList⟩,
    (List.range rows).filterMap fun t => if badRow t then some (t * cols, fNV) else none)

/-- R242: builds a dense matrix from compressed sparse rows. -/
def execMloadCsr (pd ra : Reg) (disp : Word) (s : State) : Host.Outcome State Fault Refusal := instr (do
  drainQueue
  let c ← captured 0
  needHeld pd
  require (slotFormat c.fmt && c.fmt != 0xA) 8
  let cols := c.g.dlen[0].toNat
  let rows := c.g.dlen[1].toNat
  require (rows * cols * c.w / 8 ≤ 32768) 8
  let base := c.g.getS ra + disp
  if base.toNat % 8 ≠ 0 then trap cALIGN base
  if rows = 0 ∨ cols = 0 then
    fillSlot pd ⟨rows, cols, c.fmt, none, []⟩
    enqueuePl 0 0
  else
    let (m, flags) ← csrMatrix c base rows cols
    checkEnabled flags
    fillSlot pd m
    enqueuePl (joinFlags flags) (rows * cols * c.w / 8)
  advance) s

/-- R245: stores the tile as DLEN1 rows of DLEN0 elements. -/
def execMstore (fd ra : Reg) (disp : Word) (s : State) : Host.Outcome State Fault Refusal := instr (do
  let c ← captured 0
  let cols := c.g.dlen[0].toNat
  let rows := c.g.dlen[1].toNat
  require (c.fmt != 0xA && rows * cols == c.count) 8
  require (aligned c.grp [fd]) 4
  let base := c.g.getS ra + disp
  let eb := c.w / 8
  let accs := (List.range c.count).map fun k =>
    (⟨k, (base + BitVec.ofNat 64 (k / cols) * c.g.dstep[1] + BitVec.ofNat 64 (k % cols * eb)).toNat, eb⟩ : Acc)
  let ps ← (c.paletteSweep base cols eb accs).probeAll needW cSTORE
  storeAccs ps (accs.zip ((c.tile fd.toNat).map (leBytes eb))) false
  enqueuePl 0 (c.count * eb)
  advance) s

end Sys2Proof.Machine
end

