-- ==== Sys2Proof/Machine/VecMem.lean ====
section
/-!
DEFINITION. VecMem.lean: the vector memory forms of major 0x38 (R290-R302): loads with batch faults and reissue, stores,
VST.seg, VSTRED, VAMO and the moves of FEM.
-/

namespace Sys2Proof.Machine

/-! ## Loads -/

/-- The first step of a batch load: whether it is a reissue; any other first instruction clears FEM (R281). -/
def startLoad : M Bool := do
  let re ← reissue
  let h ← curHart
  if !re && h.first && h.regs.fem != 0 then clearFem
  pure re

/-- Traps ALIGNMENT at the lowest misaligned element (R292 step 6). -/
def checkAligned (as : List Acc) : M Unit :=
  match as.find? fun a => a.va % max a.n 1 != 0 with
  | some a => trap cALIGN (BitVec.ofNat 64 a.va)
  | none => pure ()

/-- Clears FEM after the reissue has completed (R281). -/
def endReissue : M Unit := do
  clearFem
  change fun s => s.updCurRank fun r => { r with femPc := none }

/-- The writes of planes of rows to groups d, d + G, ... (R293). -/
def Cap.planeWrites (c : Cap) (d planes : Nat) (vals : List Nat) : List TileWrite :=
  (List.range planes).flatMap fun p =>
    c.g.groupWrites (d + p * c.grp) c.grp c.fmt (rowsOf c.vl c.rc ((vals.drop (p * c.count)).take c.count)) c.vl

/-- The accesses of a sweep below a logical index. -/
def Sweep.below (w : Sweep) (k : Nat) : Sweep := { w with accs := w.accs.filter fun a => decide (a.k < k) }

/-- A vector-class memory instruction as it sweeps from a logical index on: its planes, what it accesses there, the size of
its element groups, a number that every place where it can be stopped is a multiple of, and its cost up to an index. -/
structure Job where
  planes : Nat
  from_ : Nat
  sweep : Sweep
  grp : Nat
  unit : Nat
  cost : Nat → Cost

/-- Where a job stops on this turn, when it does not come to its end (R295). -/
def Job.stop (j : Job) (n : Nat) (part : Option Nat) : Option Nat :=
  (part.map fun m => ceilDiv (j.from_ + m) (max j.unit 1) * max j.unit 1).filter fun k => decide (k < n)

/-- Element groups of a job up to an index (R114). -/
def Job.groups (j : Job) (n : Nat) : Nat := groupSpan j.grp j.from_ n

/-- Performs a batch load (R280, R281, R296): `zero` elements read as +0 without an access; `pick` takes an element's
value from the bytes read. -/
def runLoad (c : Cap) (re : Bool) (d : Nat) (job : Job) (zero : Nat → Bool) (sources : List Nat)
    (pick : Nat → Nat → Nat) : M Unit := do
  checkAligned job.sweep.accs
  let n := job.planes * c.count
  if n = 0 then
    if re then endReissue
    enqueueMem 7 0 0 (job.cost 0)
    advance
  else
    let olds := (List.range job.planes).flatMap fun p => c.tile (d + p * c.grp)
    checkStorage (c.planeWrites d job.planes olds) sources
    let (ps, fault) ← job.sweep.probeLoad
    let stop ← if fault.isNone then do pure (job.stop n (← portion)) else pure none
    let upTo := stop.getD n
    let good := (job.sweep.below upTo).accs.filter fun a => !a.fails ps
    let bs ← readAccs ps good
    let start := (((List.range n).zip olds).map fun e => if zero e.1 && decide (e.1 < upTo) then 0 else e.2).toArray
    let vals := (good.zip bs).foldl (fun (a : Array Nat) e => a.setIfInBounds e.1.k (pick e.1.k (leNat e.2))) start
    writeTiles (c.planeWrites d job.planes vals.toList)
    match stop, fault with
    | some k, _ =>
      countPart (job.groups k) (job.cost k)
      stopPart ps job.grp c.rc c.vl k
    | none, none =>
      if re then endReissue
      enqueueMem 7 0 (job.groups n) (job.cost n)
      advance
    | none, some a =>
      let left := (job.sweep.accs.filter (·.fails ps)).map (·.k)
      let bad := (left.foldl (fun (m : Array Bool) k => m.setIfInBounds k true) (Array.replicate n false)).toList
      updRegs fun g => { g with fem := maskFrom bad }
      change fun s => s.updCurRank fun r => { r with femPc := some c.g.pc }
      job.sweep.miss cLOAD a (absentPages ps)

/-- Which logical indices an instruction sweeps: active, in FEM for a reissue, at or above a stop's position (R281,
R295). -/
def Cap.swept (c : Cap) (re : Bool) (from_ : Nat) (k : Nat) : Bool :=
  c.active k && (!re || c.g.fem.getLsbD k) && decide (from_ ≤ k)

/-- Address plus a byte offset, modulo 2^64. -/
def addrAt (base : Word) (off : Nat) : Nat := (base + BitVec.ofNat 64 off).toNat

/-- The sweep of a unit-stride form (R282, R293). -/
def Cap.unitSweep (c : Cap) (base : Word) (ks : List Nat) : Sweep :=
  let o4 := c.fmt == 0xA
  let eb := if o4 then 1 else c.w / 8
  ⟨ks.map fun k => ⟨k, addrAt base (if o4 then k / 2 else k * eb), eb⟩, pixAt c.rc c.vl, pixWord 0 0, 2, c.w / 8, base,
    [BitVec.ofNat 64 c.count, 1, 1], [BitVec.ofNat 64 (c.w / 8), 0, 0]⟩

/-- The cost of n elements of a unit-stride form: one aligned block of 256 bytes for each half-cycle (R114, R251). -/
def Cap.unitCost (c : Cap) (n : Nat) : Cost := ⟨ceilDiv (n * c.w) 4096, 0⟩

/-- A unit-stride job over the elements of a list. -/
def Cap.unitJob (c : Cap) (from_ : Nat) (base : Word) (ks : List Nat) : Job :=
  ⟨1, from_, c.unitSweep base ks, unitGroup c.w, if c.fmt = 0xA then 2 else 1,
    fun hi => c.unitCost (hi - from_)⟩

/-- The nibble of an O4 element in its byte. -/
def pickElem (fmt : Nat) (k v : Nat) : Nat := if fmt = 0xA then v / 16 ^ (k % 2) % 16 else v

/-- R296: unit-stride load. -/
def execVld (fd ra : Reg) (mask : Reg3) (disp : Word) (s : State) : Host.Outcome State Fault Refusal := instrLoad (do
  let re ← startLoad
  let c ← captured mask
  require (aligned c.grp [fd]) 4
  let k0 ← resumeAt c.rc c.vl
  let job := c.unitJob k0 (c.g.getS ra + disp) ((List.range c.count).filter (c.swept re k0))
  runLoad c re fd.toNat job (fun _ => false) [] (pickElem c.fmt)) s

/-- The index group (R293): its size and its check. -/
def indexTile (c : Cap) (fd fb : Reg) : M (List Nat × List Nat) := do
  let gi := max 1 (c.grp * 32 / c.w)
  require (gi ≤ 8) 8
  require (aligned c.grp [fd]) 4
  require (aligned gi [fb] && !groupsMeet fd.toNat c.grp fb.toNat gi) 4
  pure (c.g.tile fb.toNat gi 32 c.rc c.vl, c.g.physGroup fb.toNat gi)

/-- The sweep of an indexed form. -/
def Cap.indexSweep (c : Cap) (base : Word) (idx : List Nat) (ks : List Nat) : Sweep :=
  let a := idx.toArray
  let eb := c.w / 8
  ⟨ks.map fun k => ⟨k, addrAt base (a.getD k 0 * eb), eb⟩, pixAt c.rc c.vl, pixAt c.rc c.vl, 3, eb, base, c.g.dlen.toList,
    c.g.dstep.toList⟩

/-- An indexed job over the elements of a list; its cost is that of every active element (R252). -/
def Cap.indexJob (c : Cap) (from_ : Nat) (base : Word) (idx : List Nat) (ks : List Nat) : Job :=
  let cost := fun hi => stridedCost 0 (hi - from_) [(c.indexSweep base idx (List.range c.count)).accs.map fun a =>
    if decide (from_ ≤ a.k) && decide (a.k < hi) && c.active a.k then some a.va else none]
  ⟨1, from_, c.indexSweep base idx ks, indexGroup, 1, cost⟩

/-- R296: indexed load. -/
def execVldx (fd ra fb : Reg) (mask : Reg3) (disp : Word) (s : State) : Host.Outcome State Fault Refusal :=
  instrLoad (do
    let re ← startLoad
    let c ← captured mask
    require (isA c.fmt) 8
    let (idx, src) ← indexTile c fd fb
    let k0 ← resumeAt c.rc c.vl
    let job := c.indexJob k0 (c.g.getS ra + disp) idx ((List.range c.count).filter (c.swept re k0))
    runLoad c re fd.toNat job (fun _ => false) src (fun _ v => v)) s

/-- The planes of a multi-dimensional form, with its checks (R293). -/
def planesOf (c : Cap) (fd : Reg) : M Nat := do
  let n := c.g.dlen[2].toNat
  require (isA c.fmt && decide (n * c.grp ≤ 8) && decide (n * c.count ≤ 32768)) 8
  require (aligned c.grp [fd] && decide (fd.toNat + n * c.grp ≤ 32)) 4
  pure n

/-- Whether an element of a plane is accessed (R293). -/
def Cap.inside (c : Cap) (k : Nat) : Bool :=
  let r := k % max c.count 1
  decide (r % max c.vl 1 < c.g.dlen[0].toNat) && decide (r / max c.vl 1 < c.g.dlen[1].toNat)

/-- The address of an element of a multi-dimensional form. -/
def Cap.planeAddr (c : Cap) (base : Word) (k : Nat) : Nat :=
  let r := k % max c.count 1
  (base + BitVec.ofNat 64 (r % max c.vl 1) * c.g.dstep[0] + BitVec.ofNat 64 (r / max c.vl 1) * c.g.dstep[1] +
    BitVec.ofNat 64 (k / max c.count 1) * c.g.dstep[2]).toNat

/-- The sweep of a multi-dimensional form. -/
def Cap.planeSweep (c : Cap) (base : Word) (ks : List Nat) : Sweep :=
  ⟨(ks.filter c.inside).map fun k => ⟨k, c.planeAddr base k, c.w / 8⟩, pixAt c.rc c.vl, pixAt c.rc c.vl, 2, c.w / 8, base,
    c.g.dlen.toList, c.g.dstep.toList⟩

/-- A multi-dimensional job over the elements of a list: each row of a plane is a run of constant stride (R252). -/
def Cap.planeJob (c : Cap) (planes from_ : Nat) (base : Word) (ks : List Nat) : Job :=
  let runs := fun hi => (List.range (planes * c.rc)).map fun r => (List.range c.vl).map fun i =>
    let k := r * c.vl + i
    if decide (from_ ≤ k) && decide (k < hi) && c.active k && c.inside k then some (c.planeAddr base k) else none
  ⟨planes, from_, c.planeSweep base ks, indexGroup, 1, fun hi => stridedCost c.g.dstep[0].toInt (hi - from_) (runs hi)⟩

/-- R296: multi-dimensional load. -/
def execVldD (fd ra : Reg) (mask : Reg3) (disp : Word) (s : State) : Host.Outcome State Fault Refusal := instrLoad (do
  let re ← startLoad
  let c ← captured mask
  let planes ← planesOf c fd
  let k0 ← resumeAt c.rc c.vl
  let ks := (List.range (planes * c.count)).filter (c.swept re k0)
  let job := c.planeJob planes k0 (c.g.getS ra + disp) ks
  runLoad c re fd.toNat job (fun k => c.swept re k0 k && !c.inside k) [] (fun _ v => v)) s

/-- R297: fault-only-first load. -/
def execVldFf (fd ra : Reg) (mask : Reg3) (disp : Word) (s : State) : Host.Outcome State Fault Refusal := instr (do
  let c ← captured mask
  require (isA c.fmt) 8
  require (aligned c.grp [fd]) 4
  let sw := c.unitSweep (c.g.getS ra + disp) ((List.range c.count).filter c.active)
  checkAligned sw.accs
  if c.count = 0 then
    enqueueMem 7 0 0 (c.unitCost 0)
    advance
  else
    checkStorage (c.planeWrites fd.toNat 1 (c.tile fd.toNat)) []
    sw.windowRule
    let ps ← probePages (pagesOf sw.accs) needR
    let (rc, vl) ← match sw.accs.find? (·.fails ps) with
      | none => pure (c.rc, c.vl)
      | some a =>
        if a.k = 0 ∨ c.g.tl ≠ 0 then
          if a.denied ps then sw.deny a
          else ({ sw with kind := 3 } : Sweep).miss cLOAD a (a.pages.filter fun g => pageResult ps g == .absent)
        else if a.k < c.vl then pure (1, a.k) else pure (a.k / c.vl, c.vl)
    let good := sw.accs.filter fun a => a.k < rc * vl
    let bs ← readAccs ps good
    let t : Cap := { c with rc := rc, vl := vl }
    let vals := (good.zip bs).foldl (fun (a : Array Nat) e => a.setIfInBounds e.1.k (leNat e.2))
      (t.tile fd.toNat).toArray
    writeTiles (t.planeWrites fd.toNat 1 vals.toList)
    updRegs fun g => { g with rc := BitVec.ofNat 64 rc, vl := BitVec.ofNat 64 vl }
    enqueueMem 7 0 (ceilDiv (rc * vl) (unitGroup c.w)) (c.unitCost c.count)
    advance) s

/-! ## Stores -/

/-- Performs a store of elements: aligned, probed as a whole, then stored (R280, R299). -/
def runStore (c : Cap) (job : Job) (data : Nat → List Byte) : M Unit := do
  drainQueue
  checkAligned job.sweep.accs
  let n := job.planes * c.count
  let ps ← job.sweep.probeAll needW cSTORE
  let stop := job.stop n (← portion)
  storeAccs ps ((job.sweep.below (stop.getD n)).accs.map fun a => (a, data a.k)) true
  match stop with
  | some k =>
    countPart (job.groups k) (job.cost k)
    stopPart ps job.grp c.rc c.vl k
  | none =>
    enqueueMem 8 0 (job.groups n) (job.cost n)
    advance

/-- The bytes of the elements of a tile. -/
def Cap.elemBytes (c : Cap) (d : Nat) : Nat → List Byte :=
  let a := (c.tile d).toArray
  fun k => leBytes (c.w / 8) (a.getD k 0)

/-- R299: unit-stride store; O4 is stored by whole bytes under m0 (R292). -/
def execVst (fd ra : Reg) (mask : Reg3) (disp : Word) (s : State) : Host.Outcome State Fault Refusal := instr (do
  let c ← captured mask
  let o4 := c.fmt == 0xA
  require (!o4 || (mask == 0 && c.count % 2 == 0)) 8
  require (aligned c.grp [fd]) 4
  let k0 ← resumeAt c.rc c.vl
  let base := c.g.getS ra + disp
  if o4 then
    let a := (c.tile fd.toNat).toArray
    let ks := ((List.range (c.count / 2)).map (2 * ·)).filter fun k => decide (k0 ≤ k + 1)
    runStore c (c.unitJob k0 base ks) fun k => [BitVec.ofNat 8 (a.getD k 0 + 16 * a.getD (k + 1) 0)]
  else
    runStore c (c.unitJob k0 base ((List.range c.count).filter (c.swept false k0))) (c.elemBytes fd.toNat)) s

/-- R299: indexed store. -/
def execVstx (fd ra fb : Reg) (mask : Reg3) (disp : Word) (s : State) : Host.Outcome State Fault Refusal := instr (do
  let c ← captured mask
  require (isA c.fmt) 8
  let (idx, _) ← indexTile c fd fb
  let k0 ← resumeAt c.rc c.vl
  runStore c (c.indexJob k0 (c.g.getS ra + disp) idx ((List.range c.count).filter (c.swept false k0)))
    (c.elemBytes fd.toNat)) s

/-- R299: multi-dimensional store. -/
def execVstD (fd ra : Reg) (mask : Reg3) (disp : Word) (s : State) : Host.Outcome State Fault Refusal := instr (do
  let c ← captured mask
  let planes ← planesOf c fd
  let k0 ← resumeAt c.rc c.vl
  let ks := (List.range (planes * c.count)).filter (c.swept false k0)
  let a := ((List.range planes).flatMap fun p => c.tile (fd.toNat + p * c.grp)).toArray
  runStore c (c.planeJob planes k0 (c.g.getS ra + disp) ks) fun k => leBytes (c.w / 8) (a.getD k 0)) s

/-- Byte n of a register's stored rows, one after the other (R78, R300). -/
def Tile.storageByte (t : Tile) (n : Nat) : Nat :=
  let b := rowBytes t.tag
  if b = 0 then 0 else t.row (n / b) / 2 ^ (8 * (n % b)) % 256

/-- One self-describing block (R137, R300). -/
def segBlock (fmt scale : Nat) (es : List Nat) : List Byte :=
  let payload := if fmt = 0xA then
      (List.range 62).map fun i => BitVec.ofNat 8 (es.getD (2 * i) 0 + 16 * es.getD (2 * i + 1) 0)
    else (List.range 62).map fun i => BitVec.ofNat 8 (es.getD i 0)
  BitVec.ofNat 8 fmt :: BitVec.ofNat 8 scale :: payload

/-- R300: stores the tile as self-describing blocks. DESIGN CHOICE: a scale byte of 0xFF is stored raw, as R300 stores every
scale byte, though R138 says that the device writes no such block (log 40). -/
def execVstSeg (fd ra fb : Reg) (disp : Word) (s : State) : Host.Outcome State Fault Refusal := instr (do
  let c ← captured 0
  require (c.fmt == 0 || c.fmt == 4 || c.fmt == 5 || c.fmt == 0xA) 8
  require (aligned c.grp [fd]) 4
  let base := c.g.getS ra + disp
  if base.toNat % 64 ≠ 0 then trap cALIGN base
  let wide4 := c.fmt == 0xA
  let e := blockElems wide4
  let nb := ceilDiv c.count e
  let accs := (List.range nb).map fun n => (⟨n, addrAt base (64 * n), 64⟩ : Acc)
  let sw : Sweep := ⟨accs, fun n => pixAt c.rc c.vl (n * e), pixWord 0 0, 3, 64, base, c.g.dlen.toList, c.g.dstep.toList⟩
  let ps ← sw.probeKind (some wide4) needW cSTORE
  let tile := c.tile fd.toNat
  let scale := c.g.getF fb.toNat
  storeAccs ps (accs.map fun a => (a, segBlock c.fmt (scale.storageByte a.k) ((tile.drop (a.k * e)).take e))) false
  enqueueMem 8 0 (ceilDiv (64 * nb) 512) ⟨ceilDiv (64 * nb) 512, 0⟩
  advance) s

/-! ## VSTRED (R301) -/

/-- One addition at a home: integer, or fused with the scale; absent scale is 1 (R301). -/
def redElem (fmt : Nat) (scale : Option Nat) (x old : Nat) : Nat :=
  if isI fmt then (old + x) % 2 ^ fmtWidth fmt
  else (fmaF fmt Mode.rne ((scale.map (decodeF fmt)).getD (.fin false 1 0)) (decodeF fmt x) (decodeF fmt old)).1

/-- The additions of a packet at local homes. -/
def State.vstredHome (s : State) (fmt : Nat) (scale : Option Nat) (elems : List (Nat × Nat)) : State :=
  let n := fmtWidth fmt / 8
  elems.foldl (fun s e =>
    ((s.putHome e.1 (leBytes n (redElem fmt scale e.2 (leNat (s.homeBytes e.1 n))))).countChannel e.1 false).countChannel
      e.1 true) s

/-- An element of an instruction that updates memory: its access, its place, and its operand. -/
structure Update where
  acc : Acc
  piece : Piece
  operand : Nat

/-- The updates of some accesses with the operands of a tile. -/
def State.updatesOf (s : State) (ps : List (Nat × Probe)) (as : List Acc) (vals : Array Nat) : List Update :=
  as.map fun a =>
    let (pl, e) := s.placeIn ps a.va
    ⟨a, ⟨a.va, a.n, pl, e⟩, vals.getD a.k 0⟩

/-- One addition to the scratchpad or a local home. -/
def redLocal (fmt : Nat) (scale : Option Nat) (x : Update) : M Unit := do
  let _ ← atomicAt x.acc.va x.acc.n x.piece.pl x.piece.e (fun old => some (redElem fmt scale x.operand old))
    (fun _ => .vstred fmt none []) false
  pure ()

/-- The packets of a VSTRED to peers: 256 payload bytes of consecutive indices each, by peer (R301). -/
def redPackets (per : Nat) (xs : List Update) : List (Nat × List Update) :=
  let keyed := xs.filterMap fun x => match x.piece.pl with
    | .peer q _ => some ((x.acc.k / per, q), x)
    | _ => none
  ((keyed.map (·.1)).eraseDups).map fun b => (b.2, (keyed.filter fun x => x.1 == b).map (·.2))

/-- An element of a packet to a peer. -/
def Update.elem (x : Update) : Nat × Word :=
  match x.piece.pl with
  | .peer _ key => (key, BitVec.ofNat 64 x.operand)
  | _ => (0, 0)

/-- The numbers of the pages of some updates. -/
def updatePages (xs : List Update) : List Nat := (xs.map fun x => x.acc.va / 65536).eraseDups

/-- The objects the updates of a packet are tagged with (R326). -/
def Rank.tagsOfAll (r : Rank) (xs : List Update) : List Nat :=
  (xs.flatMap fun x => r.tagsOf x.acc.va x.acc.n).eraseDups

/-- Sends a packet of a VSTRED; it has no reply. -/
def sendRed (fmt : Nat) (scale : Option Word) (p : Nat × List Update) : M Unit :=
  change fun s => (s.leaveFor s.cur).emit p.1 (.vstred fmt scale (p.2.map Update.elem))
    (s.originOf s.cur (s.curRank.tagsOfAll p.2) (updatePages p.2) true)

/-- R301: adds the elements into memory at their homes. -/
def execVstred (fd ra rb : Reg) (mask : Reg3) (disp : Word) (s : State) : Host.Outcome State Fault Refusal := instr (do
  drainQueue
  let c ← captured mask
  require (c.fmt == 2 || c.fmt == 3 || isF c.fmt) 8
  require (isF c.fmt || rb == 0) 8
  require (aligned c.grp [fd]) 4
  let k0 ← resumeAt c.rc c.vl
  let per := 2048 / max c.w 1
  let job : Job := { c.unitJob k0 (c.g.getS ra + disp) ((List.range c.count).filter (c.swept false k0)) with
    grp := per, unit := per }
  checkAligned job.sweep.accs
  let ps ← job.sweep.probeAll needRW cSTORE
  let stop := job.stop c.count (← portion)
  let scale := if rb = 0 then none else some ((c.g.getS rb).toNat % 2 ^ c.w)
  let s ← get
  let xs := s.updatesOf ps (job.sweep.below (stop.getD c.count)).accs (c.tile fd.toNat).toArray
  specChecks (xs.map (·.piece))
  let packets := redPackets per xs
  drainFor fun e => packets.any fun p => e.peer == some p.1
  xs.forM fun x => match x.piece.pl with
    | .peer .. => counted x.acc.va x.piece.e
    | _ => redLocal c.fmt scale x
  packets.forM (sendRed c.fmt (scale.map (BitVec.ofNat 64)))
  let groups := groupSpan (unitGroup c.w) k0
  match stop with
  | some k =>
    countPart (groups k) (job.cost k)
    stopPart ps per c.rc c.vl k
  | none =>
    enqueueMem 8 0 (groups c.count) (job.cost c.count)
    advance) s

/-! ## VAMO (R302) -/

/-- Elements of a packet to a peer: the peer and its 256-byte block, and the elements (R365). -/
abbrev Bundle := (Nat × Nat) × List Update

/-- Adds an element to the youngest packet of its block that has room for it: a packet carries at most 256 bytes of operands
(R365). Packets are listed youngest first. -/
def addUpdate (most : Nat) (ps : List Bundle) (b : Nat × Nat) (x : Update) : List Bundle :=
  match ps with
  | [] => [(b, [x])]
  | p :: rest =>
    if p.1 = b then if p.2.length < most then (p.1, p.2 ++ [x]) :: rest else (b, [x]) :: p :: rest
    else if rest.any fun r => r.1 == b then p :: addUpdate most rest b x
    else (b, [x]) :: p :: rest

/-- The VAMO packets to peers, in order. -/
def amoPackets (most : Nat) (xs : List Update) : List Bundle :=
  (xs.foldl (fun ps x => match x.piece.pl with
    | .peer q key => addUpdate most ps (q, key / 256) x
    | _ => ps) []).reverse

/-- Sends the packet of a number, behind the hart's earlier stores to its peer, and gives its reply once it is there. -/
def askUpdate (op n : Nat) (i : Nat) (p : Bundle) : M (Option Reply) := do
  drainFor fun e => e.peer == some p.1.1
  let s ← get
  request (2 ^ 91 + i) p.1.1 (.vamo op n (p.2.map Update.elem)) (s.curRank.tagsOfAll p.2) (updatePages p.2) true

/-- Takes the old values of a packet's elements from its reply. -/
def takeOlds (w : Nat) (p : Bundle) (r : Reply) (vals : Array Nat) : M (Array Nat) := do
  if r.poison then
    match p.2.head? with
    | some x => poisoned x.acc.va (2 ^ 60 * (p.1.1 + 1) + p.1.2 * 4)
    | none => pure ()
  pure (((List.range p.2.length).zip p.2).foldl (fun (a : Array Nat) e =>
    a.setIfInBounds e.2.acc.k ((r.words.getD e.1 0).toNat % 2 ^ w)) vals)

/-- One update at the scratchpad or a local home; those at peers have been made. -/
def amoLocal (op : Nat) (vals : Array Nat) (x : Update) : M (Array Nat) := do
  match x.piece.pl with
  | .peer .. => pure vals
  | pl =>
    let v ← atomicAt x.acc.va x.acc.n pl x.piece.e (fun o => some (amoNew op x.acc.n o x.operand))
      (fun _ => .vamo op x.acc.n []) true
    pure (vals.setIfInBounds x.acc.k v)

/-- Performs updates: those at peers first, whose replies the instruction waits for, then the others (R302). -/
def runUpdates (c : Cap) (op : Nat) (ps : List (Nat × Probe)) (xs : List Update) (vals : Array Nat) : M (Array Nat) := do
  let n := c.w / 8
  let packets := amoPackets (256 / max n 1) xs
  if !packets.isEmpty then keepPages ps
  let replies ← ((List.range packets.length).zip packets).mapM fun p => askUpdate op n p.1 p.2
  if replies.any Option.isNone then stall
  xs.forM fun x => match x.piece.pl with
    | .peer .. => counted x.acc.va x.piece.e
    | _ => pure ()
  let vals ← (packets.zip replies).foldlM (fun vals p => takeOlds c.w p.1 (p.2.getD Reply.lost) vals) vals
  xs.foldlM (amoLocal op) vals

/-- R302: one atomic per active element. -/
def execVamo (op : BitVec 4) (fd ra fb : Reg) (mask : Reg3) (disp : Word) (s : State) :
    Host.Outcome State Fault Refusal := instr (do
  drainQueue
  let c ← captured mask
  require (c.fmt == 2 || c.fmt == 3) 8
  require (aligned c.grp [fd]) 4
  let k0 ← resumeAt c.rc c.vl
  let base := c.g.getS ra + disp
  let ks := (List.range c.count).filter (c.swept false k0)
  let (job, src) ← if fb = 0 then pure (c.unitJob k0 base ks, []) else do
    let (idx, src) ← indexTile c fd fb
    pure (c.indexJob k0 base idx ks, src)
  checkAligned job.sweep.accs
  let old := c.tile fd.toNat
  if c.count ≠ 0 then checkStorage (c.planeWrites fd.toNat 1 old) (c.sources [fd] ++ src)
  let ps ← job.sweep.probeAll needRW cSTORE
  let stop := job.stop c.count (← portion)
  let s ← get
  let xs := s.updatesOf ps (job.sweep.below (stop.getD c.count)).accs old.toArray
  specChecks (xs.map (·.piece))
  let vals ← runUpdates c op.toNat ps xs old.toArray
  if c.count ≠ 0 then writeTiles (c.planeWrites fd.toNat 1 vals.toList)
  match stop with
  | some k =>
    countPart (job.groups k) (job.cost k)
    stopPart ps job.grp c.rc c.vl k
  | none =>
    enqueueMem 8 0 (job.groups c.count) (job.cost c.count)
    advance) s

/-! ## FEM (R298) -/

/-- R298: copies FEM into a mask register. -/
def execVldFem (md : Reg3) (s : State) : Host.Outcome State Fault Refusal := instr (do
  let g ← curRegs
  updRegs fun x => x.setM md g.fem
  enqueue 7 0 1 1
  advance) s

/-- R298: copies a mask register into FEM. -/
def execVstFem (md : Reg3) (s : State) : Host.Outcome State Fault Refusal := instr (do
  let g ← curRegs
  updRegs fun x => { x with fem := g.getM md }
  enqueue 8 0 1 1
  advance) s

end Sys2Proof.Machine
end

