-- ==== Sys2Proof/Machine/Stream.lean ====
section
/-!
DEFINITION. Stream.lean: stream registers: patterns (R263-R265), the stages of the half-chains (R266), and QBIND, QREL,
pops and pushes (R308-R311).
-/

namespace Sys2Proof.Machine

/-! ## Patterns (R263-R265) -/

/-- Word i of the bound pattern table. -/
def Stream.word (t : Stream) (i : Nat) : Word := t.words.getD i 0

def Stream.base (t : Stream) : Word := t.word 0
def Stream.scale (t : Stream) : Nat := (t.word 2).toNat
def Stream.dims (t : Stream) : Nat := bits (t.word 1).toNat 63 60 + 1
def Stream.isStore (t : Stream) : Bool := (t.word 1).getLsbD 59
def Stream.st2 (t : Stream) : Bool := (t.word 1).getLsbD 58
def Stream.st1 (t : Stream) : Bool := (t.word 1).getLsbD 57
def Stream.st0 (t : Stream) : Bool := (t.word 1).getLsbD 56
def Stream.mfmt (t : Stream) : Nat := bits (t.word 1).toNat 55 52
def Stream.extent (t : Stream) (i : Nat) : Nat := (t.word (4 + 2 * i)).toNat
def Stream.step (t : Stream) (i : Nat) : Word := t.word (5 + 2 * i)

/-- Whether BASE names a compressed buffer (R263). -/
def Stream.packed (t : Stream) : Bool := if t.isStore then t.st2 else t.st0

/-- Elements of the pattern (R265). -/
def Stream.total (t : Stream) : Nat := ((List.range t.dims).map t.extent).foldl (· * ·) 1

/-- Width of an element in memory; INT4 has 4 bits (R123). -/
def memWidth (f : Nat) : Nat := if f = 0xC then 4 else fmtWidth f

/-- Indices of element e, dimension 0 first (R265). -/
def mixedRadix (counts : List Nat) (e : Nat) : List Nat :=
  match counts with
  | [] => []
  | c :: rest => (if c = 0 then 0 else e % c) :: mixedRadix rest (if c = 0 then 0 else e / c)

/-- The address, or content offset, of element e (R265), and the nibble a 4-bit element takes there: low for an even index
in dimension 0, high for an odd one (log 28). -/
def Stream.locate (t : Stream) (e : Nat) : Nat × Nat :=
  let cs := mixedRadix ((List.range t.dims).map t.extent) e
  let off := ((List.range t.dims).zip cs).foldl (fun (a : Word) x => a + BitVec.ofNat 64 x.2 * t.step x.1) 0
  (((if t.packed then 0 else t.base) + off).toNat, if memWidth t.mfmt = 4 then cs.headD 0 % 2 else 0)

/-- The row of scales an element takes (R266). -/
def Stream.scaleRow (t : Stream) (e : Nat) : Nat := e / max (t.extent 0) 1

/-- The memory formats of dequantise (R266). -/
def quantFmt (f : Nat) : Bool := f == 0 || f == 4 || f == 5 || f == 0xA || f == 0xC || f == 6 || f == 7

/-- Whether MFMT is legal for the enabled stages (R266): dequantise has its list, and quantise rounds to any format of memory
(R123). -/
def Stream.mfmtOk (t : Stream) : Bool :=
  if t.st1 && !t.isStore then quantFmt t.mfmt else decide (t.mfmt ≤ 0xA) || (t.st1 && t.mfmt == 0xC)

/-- R309's checks of a table, its header apart. -/
def Stream.tableOk (t : Stream) : Bool :=
  t.word 3 == 0 && bits (t.word 1).toNat 51 0 == 0 && t.mfmtOk &&
    (!(t.isStore && t.st2) || (t.dims == 1 && (t.step 0).toNat == max 1 (memWidth t.mfmt / 8))) &&
    (!t.st1 || t.scale % 4 == 0)

/-! ## Binding -/

/-- Accesses on pages that must all pass; what they are for is an element position (R280). A report lists their pages, beside
the lengths and steps captured (R282; log 11). -/
def streamSweep (g : Regs) (eb : Nat) (base : Word) (pos : Nat → Nat) (accs : List Acc) : Sweep :=
  ⟨accs, pos, pos, 3, eb, base, g.dlen.toList, g.dstep.toList⟩

/-- The header words of the buffer of a stream, read on pages that pass a probe. -/
def Stream.header (t : Stream) (cause : Nat) : M (List Nat) := headerWords t.base.toNat cause

/-- Writes stored blocks from block b on at successive granules, with their directory entries (R311): all or nothing on
their pages, and in pattern order (R310). -/
def writeBlocks (t : Stream) (cause b : Nat) (blocks : List (List Byte)) : M Unit := do
  if blocks.isEmpty then pure ()
  else
    let ws ← t.header cause
    let data := ws.getD 2 0
    let start ← if b = 0 then pure 0 else do
      let d ← directory t.base.toNat cause (b - 1) 1
      let e := packedBlock data (d.headD 0)
      pure (dirOff (d.headD 0) + e.size / 64)
    let parts := (blocks.foldl (fun (acc : List (Acc × List Byte) × Nat × Nat) bs =>
      let (out, k, g) := acc
      let (stored, raw, v) := encodeBlock bs
      let entry := raw.toNat * 2 ^ 31 + v * 2 ^ 25 + g % 2 ^ 25
      (out ++ [((⟨2 * k, (data + 64 * g) % 2 ^ 64, stored.length⟩ : Acc), stored),
          ((⟨2 * k + 1, (t.base.toNat + 64 + 4 * (b + k)) % 2 ^ 64, 4⟩ : Acc), leBytes 4 entry)],
        k + 1, g + stored.length / 64)) ([], 0, start)).1
    let g ← curRegs
    let sw := streamSweep g 64 t.base (fun _ => 0) (parts.map (·.1))
    let ps ← probePages (pagesOf sw.accs) needW
    match sw.accs.find? (·.fails ps) with
    | none => storeAccs ps parts false true
    | some a => if a.denied ps then sw.deny a else sw.miss cause a (absentPages ps)

/-- Bytes of content below element c of a compress stream: element e is at e times STEP_0, its width (R265, R266), and a
4-bit element has a byte of its own (log 28). -/
def Stream.taken (t : Stream) (c : Nat) : Nat := min c t.total * max 1 (memWidth t.mfmt / 8)

/-- QREL of a register (R311). -/
def release (q : Reg3) : M Unit := do
  let g ← curRegs
  match g.getQ q with
  | none => pure ()
  | some t =>
    let end_ := t.taken t.consumed
    if t.isStore && t.st2 && decide (end_ % 4096 ≠ 0) then
      writeBlocks t cSTORE (end_ / 4096) [(List.range 4096).map fun i => t.block.getD i 0]
    updRegs fun g => g.setQ q none

/-- R309: binds a stream register. -/
def execQbind (qd : Reg3) (ra : Reg) (s : State) : Host.Outcome State Fault Refusal := instr (do
  drainQueue
  release qd
  let a ← readS ra
  if a.toNat % 64 ≠ 0 then trap cALIGN a
  let g ← curRegs
  let sw := streamSweep g 1 a (fun _ => 0) [⟨0, a.toNat, 288⟩]
  let ps ← probePages (pagesOf sw.accs) needR
  match sw.accs.find? (·.fails ps) with
  | some x => if x.denied ps then sw.deny x else sw.miss cLOAD x (absentPages ps)
  | none =>
    let bs ← readAccs ps sw.accs
    let t : Stream := ⟨(List.range 36).map fun i => BitVec.ofNat 64 (leNat ((bs.flatten.drop (8 * i)).take 8)), 0, []⟩
    require t.tableOk 11
    if t.packed then
      require (t.base.toNat % 64 == 0) 11
      let ws ← t.header cLOAD
      require (headerOk ws) 11
    updRegs fun g => g.setQ qd (some t)
    enqueue 9 0 1 1
    advance) s

/-- R311: unbinds a stream register. -/
def execQrel (qd : Reg3) (s : State) : Host.Outcome State Fault Refusal := instr (do
  drainQueue
  release qd
  enqueue 9 0 1 1
  advance) s

/-! ## Expanding (R266, R268) -/

/-- The content bytes of accesses into a compressed buffer: none beyond NBLK. Blocks are found by their directory
entries; a malformed block reads as poisoned zeros. -/
def readExpanded (t : Stream) (cause : Nat) (w : Sweep) : M (List (Option (List Byte))) := do
  if w.accs.isEmpty then pure []
  else
    let ws ← t.header cause
    let nblk := ws.getD 1 0
    let lines := (w.accs.flatMap fun a =>
      (List.range ((a.va + a.n - 1) / 64 + 1 - a.va / 64)).map (a.va / 64 + ·)).eraseDups.filter fun l => decide (l / 64 < nblk)
    let blocks := (lines.map (· / 64)).eraseDups
    let dir ← blocks.mapM fun b => do
      let d ← directory t.base.toNat cause b 1
      pure (b, packedBlock (ws.getD 2 0) (d.headD 0))
    let whole := dir.map fun d => (⟨0, d.2.addr, d.2.size⟩ : Acc)
    let ps ← probePages (pagesOf whole) needR
    match whole.find? (·.fails ps) with
    | some x => if x.denied ps then w.deny x else w.miss cause x (absentPages ps)
    | none =>
      let maps ← readAccs ps ((dir.filter fun d => !d.2.raw).map fun d => ⟨0, d.2.addr, 16⟩)
      let mapOf := ((dir.filter fun d => !d.2.raw).zip maps).map fun x => (x.1.1, leNat x.2)
      let found ← lines.mapM fun l => do
        match dir.find? fun d => d.1 == l / 64 with
        | none => pure (l, List.replicate 64 (0 : Byte))
        | some (_, b) =>
          if b.raw then
            let r ← readAccs ps [⟨0, b.addr + 64 * (l % 64), 64⟩]
            pure (l, r.flatten)
          else
            let map := (tget mapOf (l / 64)).getD 0
            if !mapOk map b.grans then
              poisoned b.addr (2 ^ 80 + b.addr / 64)
              pure (l, List.replicate 64 (0 : Byte))
            else match lineSource map (l % 64) with
              | none => pure (l, List.replicate 64 (0 : Byte))
              | some i =>
                let r ← readAccs ps [⟨0, b.addr + 16 + 64 * i, 64⟩]
                pure (l, r.flatten)
      pure (w.accs.map fun a =>
        if (a.va + a.n - 1) / 4096 < nblk then
          some ((List.range a.n).map fun i => (((tget found ((a.va + i) / 64)).getD []).getD ((a.va + i) % 64) 0))
        else none)

/-! ## Values -/

/-- The value of an element of a format from its byte or word and nibble; O4 by pairs (R127). -/
def memValue (f : Nat) (fz : Bool) (v nib : Nat) : Val :=
  if f = 0xA then
    let p := o4Pair v
    Val.ofZ (if nib = 0 then p.1 else p.2)
  else if f = 0xC then ofInt 4 (v / 16 ^ nib % 16)
  else if isI f then ofInt (fmtWidth f) v
  else readF fz f v

/-- The raw pattern of an element from its byte or word and nibble. -/
def memPattern (f v nib : Nat) : Nat := if memWidth f = 4 then v / 16 ^ nib % 16 else v

/-- The exact quotient of two values up to a sticky bit, with the flags it raises. -/
def divVal (a b : Val) : Val × Nat :=
  match a, b with
  | .nan s, y => (.nan false, (if s then fNV else 0) ||| sigFlag y)
  | x, .nan s => (.nan false, (if s then fNV else 0) ||| sigFlag x)
  | .inf _, .inf _ => (.nan false, fNV)
  | .inf n, .fin m _ _ => (.inf (n != m), 0)
  | .fin n _ _, .inf m => (.fin (n != m) 0 0, 0)
  | .fin n x e, .fin m y k =>
    if y = 0 then if x = 0 then (.nan false, fNV) else (.inf (n != m), fDZ)
    else if x = 0 then (.fin (n != m) 0 0, 0)
    else
      let (z, d) := quotient x y 300
      (.fin (n != m) z (e - k + d), 0)

/-- A value rounded to an integer or floating format: pattern and flags; a 4-bit integer saturates as an INT8 does. -/
def roundTo (f : Nat) (md : Mode) (v : Val × Nat) : Nat × Nat :=
  if f = 0xC ∨ isI f = true then
    let (p, fl) := toInt (memWidth f) md v.1
    (p, fl ||| v.2)
  else finishF f md v

/-! ## Scales -/

/-- The rows of scales that elements from e on need, each with the first logical index that takes it. -/
def Stream.scaleRows (t : Stream) (ks : List Nat) : List (Nat × Nat) :=
  ks.foldl (fun (rs : List (Nat × Nat)) k =>
    let r := t.scaleRow (t.consumed + k)
    if rs.any fun x => x.1 == r then rs else rs ++ [(r, k)]) []

/-- What reading scales takes: their rows, accesses and probed pages. -/
structure Scales where
  rows : List (Nat × Nat)
  accs : List Acc
  pages : List (Nat × Probe)

/-- Probes the pages of some rows of scales (R266, R280). -/
def probeScales (t : Stream) (cause : Nat) (pos : Nat → Nat) (rows : List (Nat × Nat)) : M Scales := do
  let accs := rows.map fun r => (⟨r.2, (t.scale + 4 * r.1) % 2 ^ 64, 4⟩ : Acc)
  let g ← curRegs
  let sw := streamSweep g 4 (t.word 2) pos accs
  let ps ← probePages (pagesOf accs) needR
  match accs.find? (·.fails ps) with
  | some a => if a.denied ps then sw.deny a else sw.miss cause a (absentPages ps)
  | none => pure ⟨rows, accs, ps⟩

/-- The scales of the probed rows. -/
def Scales.read (x : Scales) : M (Table Nat) := do
  let bs ← readAccs x.pages x.accs
  pure ((x.rows.zip bs).foldl (fun (m : Table Nat) e => tput m e.1.1 (leNat e.2)) [])

/-- The scales of a tile whose elements are given; none without dequantise or quantise. -/
def scalesFor (t : Stream) (cause : Nat) (pos : Nat → Nat) (ks : List Nat) : M Scales :=
  if t.st1 then probeScales t cause pos (t.scaleRows ks) else pure ⟨[], [], []⟩

/-- Scale of element e, as a value. -/
def Stream.scaleOf (t : Stream) (fz : Bool) (scales : Table Nat) (e : Nat) : Val :=
  readF fz 8 ((tget scales (t.scaleRow e)).getD 0)

/-- The cost of moving a tile of n elements, some of which are accessed: each run along dimension 0 has one stride, and a
pattern of one dimension whose step is its element is unit-stride (R251, R252). -/
def Stream.cost (t : Stream) (n eb : Nat) (accs : List Acc) : Cost × Nat :=
  if t.packed || (t.dims == 1 && (t.step 0).toNat == eb) then (⟨ceilDiv (n * eb) 512, 0⟩, ceilDiv (n * eb) 512)
  else
    let at_ := accs.foldl (fun (a : Array (Option Nat)) x => a.setIfInBounds x.k (some x.va)) (Array.replicate n none)
    let rows := ((List.range n).map fun k => t.scaleRow (t.consumed + k)).eraseDups
    let runs := rows.map fun r => ((List.range n).filter fun k => t.scaleRow (t.consumed + k) == r).map fun k => at_.getD k none
    (stridedCost (t.step 0).toInt n runs, ceilDiv n indexGroup)

/-! ## Pops (R310) -/

/-- O4 rows of values encoded pair by pair, in row order (R128): each row as bytes, and the flags by logical index. Values
are given with their indices and the flags they have raised. -/
def o4Rows (md : Mode) (rows : List (List (Nat × Val × Nat))) : List (List Nat) × List (Nat × Nat) :=
  let zero : Nat × Val × Nat := (0, .fin false 0 0, 0)
  let coded := rows.map fun row => (List.range ((row.length + 1) / 2)).map fun p =>
    let (k, v, f) := row.getD (2 * p) zero
    let (j, u, g) := row.getD (2 * p + 1) zero
    let (b, f0, f1) := o4Encode md md v u
    (b, if 2 * p + 1 < row.length then [(k, f0 ||| f), (j, f1 ||| g)] else [(k, f0 ||| f)])
  (coded.map fun r => r.map (·.1), coded.flatMap fun r => r.flatMap (·.2))

/-- Tile order of a pop: place i takes element e, transposed or not (R266). -/
def Stream.source (t : Stream) (rc vl i : Nat) : Nat := if t.st2 then i % max vl 1 * rc + i / max vl 1 else i

/-- The tile a pop writes, and the flags of its elements: `found` gives each element's pattern in memory, or nothing past the
last one (R265, R266). -/
def popTile (t : Stream) (c : Cap) (scales : Table Nat) (fd : Nat) (found : Array (Option Nat)) :
    List TileWrite × List (Nat × Nat) :=
  let n := c.count
  let md : Mode := ⟨0, c.g.frm.getLsbD 8, 0⟩
  let order := (List.range n).map (t.source c.rc c.vl)
  let value := fun k => match found.getD k none with
    | some v =>
      let e := t.consumed + k
      mulVal (memValue t.mfmt md.fz v (t.locate e).2) (t.scaleOf md.fz scales e)
    | none => (.fin false 0 0, 0)
  if t.st1 && c.fmt == 0xA then
    let (rows, fl) := o4Rows md (rowsOf c.vl c.rc (order.map fun k => (k, value k)))
    (c.g.o4Writes fd c.grp rows c.vl, flagsByIndex n fl)
  else
    let one := fun k => if t.st1 then roundTo c.fmt md (value k) else match found.getD k none with
      | some v => (memPattern t.mfmt v (t.locate (t.consumed + k)).2, 0)
      | none => (0, 0)
    let vals := order.map fun k => (k, one k)
    (c.planeWrites fd 1 (vals.map (·.2.1)), flagsByIndex n (vals.map fun x => (x.1, x.2.2)))

/-- The bytes of a pop's elements; free bytes for content the spec does not give (log 28). -/
def popBytes (t : Stream) (sw : Sweep) (ps : List (Nat × Probe)) (eb : Nat) : M (List Nat) := do
  let raw ← if t.packed then readExpanded t cLOAD sw else do
    let bs ← readAccs ps sw.accs
    pure (bs.map some)
  raw.mapM fun b => match b with
    | some bs => pure (leNat bs)
    | none => do
      let w ← freshFree
      pure (w.toNat % 256 ^ eb)

/-- R310: pops the next tile. -/
def execVmvPop (fd : Reg) (qa : Reg3) (s : State) : Host.Outcome State Fault Refusal := instr (do
  let c ← captured 0
  let bound := (c.g.getQ qa).filter fun t => !t.isStore
  match bound with
  | some t => require (t.st1 || t.mfmt == c.fmt) 8
  | none => pure ()
  require (aligned c.grp [fd]) 4
  match bound with
  | none => illegal 10
  | some t =>
    let n := c.count
    let ks := (List.range n).filter fun k => decide (t.consumed + k < t.total)
    let eb := max 1 (memWidth t.mfmt / 8)
    let accs := ks.map fun k => (⟨k, (t.locate (t.consumed + k)).1, eb⟩ : Acc)
    checkAligned accs
    if n ≠ 0 then checkStorage (c.planeWrites fd.toNat 1 (List.replicate n 0)) []
    let pos := pixAt c.rc c.vl
    let sw := streamSweep c.g eb t.base pos accs
    let ps ← if t.packed then pure [] else sw.probeAll needR cLOAD
    let sc ← scalesFor t cLOAD pos ks
    let words ← popBytes t sw ps eb
    let scales ← sc.read
    let found := (ks.zip words).foldl (fun (a : Array (Option Nat)) x => a.setIfInBounds x.1 (some x.2))
      (Array.replicate n none)
    let (ws, fl) := popTile t c scales fd.toNat found
    checkEnabled fl
    if n ≠ 0 then writeTiles ws
    updRegs fun g => g.setQ qa (some { t with consumed := t.consumed + n })
    let (cost, groups) := t.cost n eb accs
    enqueueMem 7 (joinFlags fl) groups cost
    advance) s

/-! ## Pushes (R310) -/

/-- An element of a push as it goes to memory: its logical index, the parts it writes, and its flags. A part is nibble 0 or 1
of the byte at the element's address in a 4-bit format, else the element. -/
structure Pushed where
  k : Nat
  parts : List (Nat × Nat)
  fl : Nat

/-- A 4-bit row of values as O4 pairs (R128). An element in an odd slot belongs to the even one before it; `low` is the low
nibble before the first. An escaped even slot writes both nibbles of its byte, and its odd slot none. -/
def o4Pushed (md : Nat → Mode) (low : Nat) (vs : List (Nat × Nat × Val × Nat)) : List Pushed :=
  match vs with
  | [] => []
  | (k, slot, v, f) :: rest =>
    if slot = 1 then
      let even : Val := if low = 8 then .fin false 96 0 else .fin false 0 0
      let (b, _, f1) := o4Encode (md k) (md k) even v
      ⟨k, if low = 8 then [] else [(1, b / 16)], f ||| f1⟩ :: o4Pushed md 0 rest
    else
      let mate := match rest with
        | (_, 1, u, _) :: _ => u
        | _ => .fin false 0 0
      let (b, f0, _) := o4Encode (md k) (md k) v mate
      ⟨k, if b % 16 = 8 then [(0, 8), (1, b / 16)] else [(0, b % 16)], f ||| f0⟩ :: o4Pushed md (b % 16) rest

/-- What a push moves: the RC rows summed into one (R139), or the tile; patterns and flags. -/
def Stream.reduced (t : Stream) (c : Cap) (fa : Nat) : List (Nat × Nat) :=
  let tile := (c.tile fa).toArray
  if t.st0 then (List.range c.vl).map fun i =>
    let col := ((List.range c.rc).map fun j => tile.getD (j * c.vl + i) 0).toArray
    let r := fixedTree (plainTree c.fmt (c.g.mode 0) 0 false col none) (fun _ => true) c.rc
    (r.val.getD 0, joinFlags r.fl)
  else tile.toList.map fun v => (v, 0)

/-- The first n elements of a push, quantised or as they are (R266); `low` is the low nibble before the first. Elements past
the pattern's last one are discarded (R265): they are no O4 mates, and they raise no flags. -/
def Stream.pushed (t : Stream) (c : Cap) (fa low n : Nat) (scales : Table Nat) : List Pushed :=
  let pats := (t.reduced c fa).take n
  let fz := c.g.frm.getLsbD 8
  let o4 := ((List.range c.rc).flatMap fun j => if c.fmt = 0xA then c.g.o4Row fa j c.vl else []).toArray
  let md := fun k => c.cvtMode 0 (decide (memWidth t.mfmt < c.w) || t.mfmt == 0xA) (t.consumed + k)
  let elems := (List.range pats.length).zip pats
  if t.st1 then
    let vs := elems.map fun x =>
      let v := if c.fmt = 0xA then Val.ofZ (o4.getD x.1 0) else valueOf c.fmt fz x.2.1
      let q := divVal v (t.scaleOf fz scales (t.consumed + x.1))
      (x.1, (t.locate (t.consumed + x.1)).2, q.1, q.2 ||| x.2.2)
    if t.mfmt = 0xA then o4Pushed md low vs
    else vs.map fun x =>
      let (p, f) := roundTo t.mfmt (md x.1) (x.2.2.1, x.2.2.2)
      ⟨x.1, [(x.2.1, p)], f⟩
  else elems.map fun x => ⟨x.1, [((t.locate (t.consumed + x.1)).2, x.2.1)], x.2.2⟩

/-- Sets a nibble of a byte, or the byte. -/
def setPart (w nib v old : Nat) : Nat :=
  if w ≠ 4 then v else if nib = 0 then old / 16 * 16 + v % 16 else old % 16 + v % 16 * 16

/-- The bytes at the addresses that 4-bit elements are pushed to, in order of the first, over their old content. -/
def nibbleBytes (w : Nat) (old : Table Nat) (xs : List (Acc × Pushed)) : List (Acc × Nat) :=
  xs.foldl (fun (out : List (Acc × Nat)) x =>
    let put := fun v => x.2.parts.foldl (fun v p => setPart w p.1 p.2 v) v
    if x.2.parts.isEmpty then out
    else if out.any fun y => y.1.va == x.1.va then
      out.map fun y => if y.1.va = x.1.va then (y.1, put y.2) else y
    else out ++ [(x.1, put ((tget old x.1.va).getD 0))]) []

/-- The content bytes a compress stream takes from some elements (R266); a 4-bit element has a byte, over free content
(log 28). -/
def contentBytes (w : Nat) (free : List Byte) (xs : List Pushed) : List Byte :=
  if w = 4 then
    (xs.zip free).map fun x => BitVec.ofNat 8 (x.1.parts.foldl (fun v p => setPart 4 p.1 p.2 v) x.2.toNat)
  else xs.flatMap fun x => leBytes (w / 8) ((x.parts.headD (0, 0)).2)

/-- The low nibble before the first element of a push that begins in an odd slot: of the element before it in the block
begun, or of its byte in memory (log 28). -/
def Stream.lowBefore (t : Stream) (ps : List (Nat × Probe)) (ks : List Nat) : M Nat := do
  let (va, nib) := t.locate t.consumed
  if t.mfmt ≠ 0xA ∨ nib = 0 ∨ ks.isEmpty then pure 0
  else if t.packed then pure ((t.block.getD ((t.taken t.consumed - 1) % 4096) 0).toNat % 16)
  else
    let bs ← readAccs ps [⟨0, va, 1⟩]
    pure (leNat bs.flatten % 16)

/-- Gives a compress stream its elements, and writes the blocks that are full (R266, R311). -/
def compressPush (t : Stream) (xs : List Pushed) (next : Nat) : M Stream := do
  let w := memWidth t.mfmt
  let s0 := t.taken t.consumed
  let s1 ← get
  let (free, s2) := s1.freeBytes (t.taken next - s0)
  set s2
  let bytes := contentBytes w free xs
  let buf := (List.range (s0 % 4096)).map (fun i => t.block.getD i 0) ++ bytes ++ free.drop bytes.length
  let full := t.taken next / 4096 - s0 / 4096
  writeBlocks t cSTORE (s0 / 4096) ((List.range full).map fun i => (buf.drop (4096 * i)).take 4096)
  pure { t with consumed := next, block := buf.drop (4096 * full) }

/-- Stores the elements of a push in pattern order (R310). -/
def plainPush (t : Stream) (ps : List (Nat × Probe)) (xs : List (Acc × Pushed)) : M Unit := do
  let w := memWidth t.mfmt
  if w = 4 then
    let vas := (xs.map (·.1.va)).eraseDups
    let olds ← readAccs ps (vas.map fun a => ⟨0, a, 1⟩)
    let old : Table Nat := (vas.zip olds).map fun x => (x.1, leNat x.2)
    storeAccs ps ((nibbleBytes w old xs).map fun x => (x.1, [BitVec.ofNat 8 x.2])) false true
  else
    storeAccs ps (xs.map fun x => (x.1, leBytes (w / 8) ((x.2.parts.headD (0, 0)).2))) true true

/-- R310: pushes a tile. -/
def execVmvPush (qd : Reg3) (fa : Reg) (s : State) : Host.Outcome State Fault Refusal := instr (do
  drainQueue
  let c ← captured 0
  let bound := (c.g.getQ qd).filter fun t => t.isStore
  match bound with
  | some t =>
    require (t.st1 || t.mfmt == c.fmt) 8
    require (!t.st0 || isIF c.fmt) 8
  | none => pure ()
  require (aligned c.grp [fa]) 4
  match bound with
  | none => illegal 10
  | some t =>
    let m := if t.st0 then c.vl else c.count
    let ks := (List.range m).filter fun k => decide (t.consumed + k < t.total)
    let eb := max 1 (memWidth t.mfmt / 8)
    let accs := ks.map fun k => (⟨k, (t.locate (t.consumed + k)).1, eb⟩ : Acc)
    checkAligned accs
    let pos := pixAt c.rc c.vl
    let ps ← if t.packed then pure [] else (streamSweep c.g eb t.base pos accs).probeAll needW cSTORE
    let sc ← scalesFor t cSTORE pos ks
    let low ← t.lowBefore ps ks
    let scales ← sc.read
    let kept := t.pushed c fa.toNat low ks.length scales
    let fl := (kept.map fun x => (x.k, x.fl)).filter fun e => e.2 != 0
    checkEnabled fl
    let next := t.consumed + c.count
    let t1 ← if t.packed then compressPush t kept next else do
      plainPush t ps (accs.zip kept)
      pure { t with consumed := next }
    updRegs fun g => g.setQ qd (some t1)
    let (cost, groups) := t.cost m eb accs
    enqueueMem 8 (joinFlags fl) groups cost
    advance) s

end Sys2Proof.Machine
end

