-- ==== Sys2Proof/Machine/Sync.lean ====
section
/-!
DEFINITION. Sync.lean: the instructions of major 0x40 (R337-R351): sync objects, fences, barriers, groups, work counters
and PUBLISH, with the grant of a waiting ACQ (R328) and the exchange of a buffer (R335).
-/

namespace Sys2Proof.Machine

/-! ## Objects (R339) -/

/-- Shadowed bytes of a node that is no longer speculative leave for their home before an object operation on them. -/
def settleShadow (va n key : Nat) : M Unit := do
  let s ← get
  let bs := s.homeBytes key n
  let now := s.shadowed va bs
  if !s.curSpeculative then set ((if now = bs then s else s.putHome key now).clearShadow va n)

/-- The checks of R339, steps 1 to 3, and the place of an object of n bytes. The entry found serves the instruction until it
ends, a wait included (R344, R393). -/
def objectPlace (a : Word) (n : Nat) : M Place := do
  if a.toNat % n ≠ 0 then trap cALIGN a
  else if inWindow a.toNat then trap cPERM a
  else
    match ← probe a.toNat needRW with
    | .absent => translationTrap cSTORE a n none
    | .denied _ => trap cPERM a
    | .ok pl e =>
      counted a.toNat e
      keepProbe a.toNat e
      pure pl

/-- Where an operation on an object goes, the hart's stores to it performed first (R325): a local home, or a peer. -/
def objectHome (a : Word) (n : Nat) : M (Option Nat × Nat) := do
  match ← objectPlace a n with
  | .home key =>
    drainFor fun e => e.meets none key n
    change fun s => s.logFor s.cur key n
    settleShadow a.toNat n key
    let s ← get
    pure (none, if n ≤ 64 then s.redirect key else key)
  | .peer q key =>
    drainQueue
    drainFor fun e => e.peer == some q
    pure (some q, key)
  | .pad _ => trap cPERM a

/-- The request keys of an object operation and of the read that checks a remote object. -/
def opKey : Nat := 2 ^ 100
def checkKey : Nat := 2 ^ 101

/-- The words a remote operation answers; a lost one traps POISON_CONSUMED (R378). -/
def answered (a : Word) (r : Reply) : M (List Word) := if r.poison then trap cPOISON a else pure r.words

/-- A remote operation, awaited with the hart runnable. -/
def remoteOp (a : Word) (q key : Nat) (op : ObjOp) (args : List Word) : M (List Word) := do
  let r ← demand opKey q (.object op key args) [] [a.toNat / 65536] false
  answered a r

/-- A reply awaited with the hart blocked; the request is gone once it is answered. -/
def pollReply (a : Word) (key peer : Nat) (pk : Packet) (b : Block) : M Reply := do
  let s ← get
  let waiting := s.curRank.requests.any fun q => q.key == key
  if !waiting && !(s.peer peer).failed && !s.canSend peer pk then block b
  else
    match ← request key peer pk [] [a.toNat / 65536] false with
    | none => block b
    | some r =>
      change fun s => s.updCurRank fun x => { x with requests := x.requests.filter fun q => q.key != key }
      pure r

/-- A reply awaited with the hart runnable; the request is gone once it is answered. -/
def takeReply (a : Word) (key peer : Nat) (pk : Packet) : M Reply := do
  let r ← demand key peer pk [] [a.toNat / 65536] false
  change fun s => s.updCurRank fun x => { x with requests := x.requests.filter fun q => q.key != key }
  pure r

/-- Whether a remote object of 64 bytes is well formed, by a read of it. -/
def remoteOk (a : Word) (q key : Nat) (ok : List Byte → Bool) : M Bool := do
  let r ← demand checkKey q (.read key 64) [] [a.toNat / 65536] false
  if r.poison then trap cPOISON a else pure (ok r.bytes)

/-- Reserved fields of a sync object and of a barrier, in their bytes. -/
def syncBytesOk (bs : List Byte) : Bool :=
  let w := fun i => leNat ((bs.drop (8 * i)).take 8)
  bits (w 0) 62 35 == 0 && bits (w 2) 31 1 == 0 && ((List.range 4).all fun i => bits (w (3 + i)) 62 57 == 0) && w 7 == 0
def barBytesOk (bs : List Byte) : Bool := bits (leNat ((bs.drop 8).take 8)) 23 11 == 0 && (bs.drop 16).all fun b => b == 0

/-! ## Sync objects (R326-R330, R341, R342) -/

/-- The holder word of the hart that runs (R342). -/
def State.holder (s : State) : Word :=
  match (s.hart s.cur).node with
  | some (p, k, r) => BitVec.ofNat 64 (2 ^ 63 + r * 2 ^ 32 + s.handle p k)
  | none => 0

/-- Refreshes a binding view (R326). -/
def Rank.bind (r : Rank) (va : Nat) (regions : List Word) : Rank :=
  { r with binding := (va, regions) :: r.binding.filter fun b => b.1 != va }

/-- The pages of a region word (R327). -/
def regionPages (w : Word) : List Nat :=
  if w.toNat / 2 ^ 63 = 1 then (List.range (bits w.toNat 15 0 + 1)).map fun i => (bits w.toNat 56 16 + i) * 65536 else []

/-- Drops a die's cached copies that lie in some regions of a partition (R328): read under an address of one, or lying in a
frame that one maps to. -/
def State.dropRegions (s : State) (die p : Nat) (regions : List Word) : State :=
  let homes := (regions.flatMap regionPages).filterMap fun va => match s.devPlace p va ⟨false, false, false⟩ with
    | .ok (.peer q key) => some (q, key / 64)
    | _ => none
  s.dropCopies fun c => c.die == die &&
    ((c.pages.any fun x => x.part == p && regions.any fun w => regionHas w (c.pageUnder x) 1) ||
      homes.any fun h => h.1 == c.peer && decide (h.2 ≤ c.line) && decide (c.line < h.2 + 1024))

/-- What a granted ACQ does on the hart that runs (R328): the view is refreshed and cached copies are dropped. -/
def State.acquired (s : State) (va : Nat) (regions : List Word) : State :=
  (s.updCurRank fun r => r.bind va regions).dropRegions (dieOf (coreOf s.cur)) (s.hart s.cur).part regions

/-- The outcome of an ACQ by the words its home answers. -/
def acqAnswer (a : Word) (ws : List Word) : M Unit := do
  if ws.headD 0 = aReserved then illegal 11
  else if ws.headD 0 = aLost then trap cPOISON a
  else
    if ws.getD 1 0 = 1 then change fun s => s.acquired a.toNat (ws.drop 2)
    advance

/-- R328: acquires a sync object, waiting while another holds it. -/
def execAcq (ra : Reg) (s : State) : Host.Outcome State Fault Refusal := instr (do
  drainQueue
  let a ← readS ra
  let h ← curHart
  if h.blocked = some .refused then trap cPOISON a
  guarded
  let (peer, key) ← objectHome a 64
  let s ← get
  match peer with
  | none =>
    let (r, s1) := s.acqHome key s.holder (.hart s.cur a.toNat)
    set s1
    match r with
    | none => block .acq
    | some ws => acqAnswer a ws
  | some q =>
    let r ← pollReply a opKey q (.object .acq key [s.holder]) .acq
    let ws ← answered a r
    acqAnswer a ws) s

/-- R328: a waiting ACQ is granted at its object's home. -/
def execAcqGrant (object : Nat) (s : State) : Host.Outcome State Fault Refusal := .next (
  if s.objectLost object then s else
  match s.acqs.find? fun a => a.1 == object with
  | none => s
  | some (_, .hart h va) =>
    let s1 := { s with cur := h }
    match (s1.logFor h object 64).acqHome object s1.holder (.hart h va) with
    | (some (c :: 1 :: regions), s2) =>
      if c = aOk then { s1.completed ((s2.acquired va regions).updHart h Hart.advance) with cur := s.cur } else s
    | _ => s
  | some (_, .peer q seq holder) =>
    match s.acqHome object holder (.peer q seq holder) with
    | (some ws, s2) => s2.sendReply q seq ⟨[], ws, false⟩
    | (none, _) => s)

/-- Whether a store of the rank that runs, tagged with an object, is still to be delivered (R329). -/
def State.taggedOut (s : State) (va : Nat) : Bool :=
  let mine := fun o : Origin => match o, (s.hart s.cur).node with
    | .rank p h r tags _ _, some (p', k, r') => p == p' && h == s.handle p k && r == r' && tags.contains va
    | _, _ => false
  s.peers.any fun e => (e.2.unacked.any fun u => mine u.origin) || e.2.waiting.any fun w => mine w.2

/-- R329: releases a sync object once its tagged stores have been performed. -/
def execRel (ra : Reg) (s : State) : Host.Outcome State Fault Refusal := instr (do
  drainQueue
  let a ← readS ra
  guarded
  let (peer, key) ← objectHome a 64
  drainFor fun e => e.tags.contains a.toNat
  let s ← get
  if s.taggedOut a.toNat then stall
  let ws ← match peer with
    | none => do
      let (ws, s1) := s.relHome key s.holder
      set s1
      pure ws
    | some q => remoteOp a q key .rel [s.holder]
  if ws.headD 0 = aReserved then illegal 11
  advance) s

/-- R341: binds a region to a sync object. -/
def execBind (ra rb : Reg) (s : State) : Host.Outcome State Fault Refusal := instr (do
  drainQueue
  let a ← readS ra
  let w ← readS rb
  guarded
  let (peer, key) ← objectHome a 64
  let s ← get
  let ok ← match peer with
    | none => pure (s.syncOk key)
    | some q => remoteOk a q key syncBytesOk
  require ok 11
  require (w.getLsbD 63 && bits w.toNat 62 57 == 0) 6
  require (!(regionPages w).any fun va => inWindow va || decide (va ≥ 2 ^ 57)) 11
  let ws ← match peer with
    | none => do
      let (ws, s1) := s.bindHome key w
      set s1
      pure ws
    | some q => remoteOp a q key .bind [w]
  require (ws.headD 0 == aOk) 11
  change fun s => s.updCurRank fun r => r.bind a.toNat (ws.drop 1)
  advance) s

/-! ## Fences (R331-R334, R343) -/

/-- Whether a home lies in a pool of a compute die (R13, R331). -/
def poolOnDie (die key : Nat) : Bool := homePool key == 2 * die || homePool key == 2 * die + 1

/-- Whether a remote effect of the rank that runs is still to be performed (R331). -/
def State.effectsOut (s : State) : Bool :=
  s.peers.any fun e => (e.2.unacked.any fun u => s.isOf s.cur u.origin) || e.2.waiting.any fun w => s.isOf s.cur w.2

/-- Waits until the earlier accesses within a scope have been performed (R331), stores to device registers under .sys among
them, and gives the status word (R332). -/
def fence (scope : Nat) : M Word := do
  drainQueue
  let s ← get
  let die := dieOf (coreOf s.cur)
  drainFor fun e => match scope with
    | 0 | 1 => false
    | 2 => e.peer.isNone && e.parts.any fun x => poolOnDie die x.key
    | 3 => e.peer.isNone
    | _ => true
  if scope < 4 then pure 0
  else
    let s ← get
    if s.effectsOut then stall
    if scope ≥ 5 && s.posted.any fun x => x.hart == s.cur then
      change fun s => { s with posted := s.posted.map fun x => if x.hart = s.cur then { x with held := false } else x }
      stall
    let lost := s.curRank.lost
    if lost ≠ 0 then change fun s => s.updCurRank fun r => { r with lost := 0 }
    pure (BitVec.ofNat 64 (min lost 0xFFFFFFFF * 2 ^ 32 + if lost = 0 then 0 else 1))

/-- R343: a fence with its scope. -/
def execFence (scope : Reg3) (rd : Reg) (s : State) : Host.Outcome State Fault Refusal := instr (do
  require (decide (scope.toNat ≤ 5)) 6
  let w ← fence scope.toNat
  writeS rd w
  advance) s

/-- Traps POISON_CONSUMED when the rank has read poisoned data (R397). -/
def poisonTrap : M Unit := do
  let s ← get
  match s.curRank.poison with
  | none => pure ()
  | some va =>
    let g := (s.hart s.cur).regs
    change fun s => s.updCurRank fun r => { r with poisonAt := (g.tl.toNat + 1, g.pc) :: r.poisonAt }
    trap cPOISON (BitVec.ofNat 64 va)

/-- R333, R343: waits until the data checks of the earlier loads have ended; poison traps. -/
def execEfence (rd : Reg) (s : State) : Host.Outcome State Fault Refusal := instr (do
  let _ ← fence 3
  let h ← curHart
  if h.unchecked ≠ 0 then stall
  poisonTrap
  writeS rd 0
  advance) s

/-! ## Barriers (R344-R348) -/

/-- Whether a transfer was issued by the hart and node that run, on one of some channels (R346). -/
def State.ownTransfer (s : State) (t : Transfer) : Bool :=
  match (s.hart s.cur).node with
  | some (p, k, _) => t.hart == s.cur && t.part == p && t.handle == s.handle p k
  | none => false

/-- Bytes not yet delivered of the hart's transfers on the channels of a mask (R346). -/
def State.undelivered (s : State) (mask : Nat) : Nat :=
  ((List.range 4).map fun n =>
    if mask / 2 ^ n % 2 = 0 then 0 else
    ((((s.core (coreOf s.cur)).channels.toList.getD n Channel.reset).queue.filter s.ownTransfer).map fun t =>
      t.len - t.delivered).sum).sum

/-- Charges the hart's transfers on the channels of a mask to a barrier. -/
def State.chargeTransfers (s : State) (mask : Nat) (b : Charge) : State :=
  s.updCore (coreOf s.cur) fun c => { c with channels := c.channels.mapIdx fun n x =>
    if mask / 2 ^ n % 2 = 0 then x
    else { x with queue := x.queue.map fun t => if s.ownTransfer t then { t with charges := b :: t.charges } else t } }

/-- The answer to an ARRIVE at a peer has come (R346): an accepted charge stands, and what has been delivered meanwhile is
counted off; of one refused nothing stays. -/
def State.settleCharges (s : State) (q key : Nat) (accepted : Bool) : State :=
  let early := s.curRank.early
  let mine := fun t : Transfer => match (s.hart s.cur).node with
    | some (p, k, r) => t.part == p && t.handle == s.handle p k && t.rank == r
    | none => false
  let settle := fun c : Charge =>
    if c.waiting then if accepted then some { c with waiting := false } else none else some c
  let s1 := { s with cores := s.cores.map fun (c : Nat × Core) => (c.1, { c.2 with channels := c.2.channels.map fun (x : Channel) =>
    { x with queue := x.queue.map fun t => if mine t then { t with charges := t.charges.filterMap settle } else t } }) }
  let s2 := s1.updCurRank fun r => { r with early := 0 }
  if accepted && early != 0 then s2.emit q (.object .discharge key [BitVec.ofNat 64 early]) .none else s2

/-- The outcome of an arrival by the words its home answers: the mark is set (R345, R346). -/
def arriveAnswer (a : Word) (ws : List Word) : M Unit := do
  let c := ws.headD 0
  if c = aReserved then illegal 11
  else if c = aGroup then illegal 12
  else if c = aOverflow then trap cBARRIER a
  else change fun s => s.updCurRank fun r => { r with mark := some (a.toNat, (ws.getD 1 0).toNat) }

/-- An arrival (R346): a fence, the checks, the update at the barrier's home. -/
def arrival (a b : Word) : M Unit := do
  guarded
  let _ ← fence 4
  let (peer, key) ← objectHome a 64
  let s ← get
  let p := (s.hart s.cur).part
  let gid := (s.hart s.cur).regs.groupid
  let mask := b.toNat % 16
  let ok ← match peer with
    | none => pure (s.barOk key)
    | some q =>
      if gid = 0 ∨ b.toNat ≥ 16 then remoteOk a q key barBytesOk else pure true
  require ok 11
  require (gid != 0) 12
  require (decide (b.toNat < 16)) 6
  let charge := s.undelivered mask
  let mark := match s.curRank.mark with
    | some (va, ph) => if va = a.toNat then some ph else none
    | none => none
  match peer with
  | none =>
    let (ws, s1) := s.arriveHome p key gid charge mark none
    set s1
    arriveAnswer a ws
    change fun s => s.chargeTransfers mask ⟨none, key, false⟩
  | some q =>
    let count := match s.privateGroup p gid with
      | some k => ((s.node p k).map (·.gcount)).map fun n => BitVec.ofNat 64 n
      | none => none
    let word := fun o : Option Word => [if o.isSome then 1 else 0, o.getD 0]
    let pk := Packet.object .arrive key
      ([gid, BitVec.ofNat 64 charge] ++ word (mark.map fun n => BitVec.ofNat 64 n) ++ word count)
    let sent := s.curRank.requests.find? fun r => r.key == opKey
    match sent with
    | none =>
      if !(s.peer q).failed && !s.canSend q pk then stall
      if !(s.peer q).failed then
        change fun s => (s.chargeTransfers mask ⟨some q, key, true⟩).updCurRank fun r => { r with early := 0 }
      let r ← demand opKey q pk [] [a.toNat / 65536] false
      let ws ← answered a r
      arriveAnswer a ws
    | some r =>
      match r.reply with
      | none => stall
      | some rep =>
        let accepted := !rep.poison && rep.words.headD 0 == aOk
        change fun s => s.settleCharges q key accepted
        if accepted then change fun s => s.bindBarrier ⟨p, some q, key, gid, none⟩
        let ws ← answered a rep
        arriveAnswer a ws

/-- What a wait finds at the barrier's home: whether it is well formed, its phase and its pending bytes (R348). -/
def barrierWords (a : Word) (waiting : Bool) (b : Block) : M (List Word) := do
  match ← objectHome a 64 with
  | (none, key) =>
    change fun s => s.barLook (s.hart s.cur).part key
    let s ← get
    pure (s.waitHome key)
  | (some q, key) =>
    let pk := Packet.object .wait key []
    let r ← if waiting then pollReply a checkKey q pk b else takeReply a checkKey q pk
    answered a r

/-- The wait at a barrier (R348); `phaseBlock` marks a hart that waits for the phase to change, `pendBlock` one that
waits for PENDING to be 0. A hart that waits already stays blocked whatever is written to the barrier (R344); `again` says
that a wait begun before goes on. -/
def barrierWait (a : Word) (phaseBlock pendBlock : Block) (again : Bool) : M Unit := do
  let h ← curHart
  let now := h.blocked
  let waiting := again || now == some phaseBlock || now == some pendBlock
  let ws ← barrierWords a waiting (if now = some phaseBlock then phaseBlock else pendBlock)
  if ws.headD 0 = aReserved ∧ !waiting then illegal 11
  let s ← get
  let matched := s.curRank.mark == some (a.toNat, (ws.getD 1 0).toNat)
  if matched then block phaseBlock
  else if now ≠ some phaseBlock ∧ ws.getD 2 0 ≠ 0 then block pendBlock
  else
    change fun s => s.updCurRank fun r => { r with mark := none }
    advance

/-- R346. -/
def execArrive (ra rb : Reg) (s : State) : Host.Outcome State Fault Refusal := instr (do
  drainQueue
  let a ← readS ra
  let b ← readS rb
  arrival a b
  advance) s

/-- R348. -/
def execWait (ra : Reg) (s : State) : Host.Outcome State Fault Refusal := instr (do
  drainQueue
  let a ← readS ra
  barrierWait a .wait .waitPending false) s

/-- R348, R340: an arrival and a wait; an arrival already counted is not repeated (R408). -/
def execBar (ra : Reg) (s : State) : Host.Outcome State Fault Refusal := instr (do
  drainQueue
  let a ← readS ra
  let h ← curHart
  let counted := h.blocked == some .barrier || h.blocked == some .barrierPending || (h.first && h.regs.pix.getLsbD 62)
  if !counted then arrival a 0
  barrierWait a .barrier .barrierPending true) s

/-! ## Groups and work counters (R349, R350) -/

/-- R349, R82. -/
def execJoin (rd ra : Reg) (s : State) : Host.Outcome State Fault Refusal := instr (do
  drainQueue
  let a ← readS ra
  guarded
  let (peer, key) ← objectHome a 64
  let s ← get
  if (s.hart s.cur).regs.groupid ≠ 0 then
    writeS rd 1
    advance
  else
    let ws ← match peer with
      | none => do
        let (ws, s1) := s.joinHome key 1
        set s1
        pure ws
      | some q => remoteOp a q key .join [1]
    if ws.headD 0 = aReserved then writeS rd 2
    else
      updRegs fun g => { g with groupid := a }
      writeS rd 0
    advance) s

/-- A LEAVE of the hart's group (R84): a group on a peer is left by a request. -/
def leaveOwn : M Unit := do
  let s ← get
  let p := (s.hart s.cur).part
  let gid := (s.hart s.cur).regs.groupid
  if gid ≠ 0 then
    match (if (s.privateGroup p gid).isSome then none else some (s.devPlace p gid.toNat needRW)) with
    | some (.ok (.peer q key)) =>
      let _ ← remoteOp gid q key .leave []
      change fun s => ((s.noteGroup p gid).barriersOf p gid).leftBarriers p gid
    | _ => change fun s => s.leaveGroup p gid
    updRegs fun g => { g with groupid := 0 }

/-- R349, R82. -/
def execLeave (rd : Reg) (s : State) : Host.Outcome State Fault Refusal := instr (do
  drainQueue
  let g ← curRegs
  guarded
  leaveOwn
  writeS rd (if g.groupid = 0 then 1 else 0)
  advance) s

/-- R86, R350: claims elements from a work counter. -/
def execClaim (rd ra rb : Reg) (s : State) : Host.Outcome State Fault Refusal := instr (do
  drainQueue
  needVtype
  let a ← readS ra
  let b ← readS rb
  let g ← curRegs
  let place ← objectPlace a 16
  guarded
  let n := min b.toNat g.vlt
  let ws ← match place with
    | .home key => do
      drainFor fun e => e.meets none key 16
      change fun s => s.logFor s.cur key 16
      settleShadow a.toNat 16 key
      let s ← get
      let (ws, s1) := s.claimHome key n
      set s1
      pure ws
    | .peer q key => do
      drainFor fun e => e.peer == some q
      remoteOp a q key .claim [BitVec.ofNat 64 n]
    | .pad _ => trap cPERM a
  writeS rd (ws.getD 0 0)
  updRegs fun x => { x with vl := ws.getD 1 0 }
  advance) s

/-! ## Shadow and publish (R335, R351) -/

/-- The buffer of a handle, when its generation is current (R351). -/
def Partition.bufferOf (x : Partition) (handle : Nat) : Option (Nat × Buffer) :=
  match tget x.buffers (handle / 65536) with
  | some b => if handle < 2 ^ 32 ∧ handle ≠ 0 ∧ b.gen = handle % 65536 then some (handle / 65536, b) else none
  | none => none

/-- The buffer of a PUBLISH that has passed its check and waits: the handle's slot, whose generation may have moved
since (R335). -/
def Partition.bufferOnce (x : Partition) (handle : Nat) : Option (Nat × Buffer) :=
  (tget x.buffers (handle / 65536)).map fun b => (handle / 65536, b)

/-- Whether a command of a number has been accepted for a buffer slot before the PUBLISH under way of the rank that runs
began (R335). -/
def State.publishes (s : State) (p slot : Nat) (c : Nat × Command) : Bool :=
  c.2.part == p && c.2.slot == slot && decide (c.1 < s.curRank.publishing.getD s.nextCommand)

/-- The commands a PUBLISH of a buffer slot waits for and judges. -/
def State.commandsFor (s : State) (p slot : Nat) : List Command :=
  (s.commands.filter (s.publishes p slot)).map (·.2)

/-- Where a byte of a buffer's front stands now (R284). -/
def Buffer.home (b : Buffer) (key : Nat) : Nat :=
  b.moves.foldl (fun k m => if m.1 ≤ k ∧ k < m.1 + 65536 then m.2 + (k - m.1) else k) key

/-- A buffer's front, page by page: home and bytes. -/
def Buffer.pieces (b : Buffer) : List (Nat × Nat) :=
  (List.range ((b.base % 65536 + b.size + 65535) / 65536)).map fun i =>
    let lo := max b.base ((b.base / 65536 + i) * 65536)
    (b.home lo, min (b.base + b.size) ((b.base / 65536 + i + 1) * 65536) - lo)

/-- The bytes of a buffer's front. -/
def State.frontBytes (s : State) (b : Buffer) : List Byte := b.pieces.flatMap fun x => s.homeBytes x.1 x.2

/-- Writes pieces of memory in order, each logged for the hart that runs and counted in its channels (R399, R288). -/
def State.putPieces (s : State) (xs : List (Nat × Nat)) (bs : List Byte) : State :=
  match xs with
  | [] => s
  | x :: rest =>
    (((s.logFor s.cur x.1 x.2).putHome x.1 (bs.take x.2)).countLines x.1 x.2 true).putPieces rest (bs.drop x.2)

/-- Publishes a buffer whose commands have ended (R335): the status and the state after the one step. -/
def State.publish (s : State) (p slot : Nat) (b : Buffer) : Nat × State :=
  let cs := s.commandsFor p slot
  let s0 := { s with commands := s.commands.filter fun c => !s.publishes p slot c }
  let s1 := b.pieces.foldl (fun s x => s.countLines x.1 x.2 false) s0
  let front := s.frontBytes b
  let keep := fun s : State => s.updPart p fun x => { x with
    buffers := tput x.buffers slot { b with shadow := cellsOf 0 front } }
  if cs.any fun c => c.gen != b.gen then (2, keep s1)
  else if cs.any (·.unresolved) then (3, keep s1)
  else (0, keep (s1.putPieces b.pieces (getBytes b.shadow 0 b.size)))

/-- PUBLISH: blocks until the commands accepted for the buffer have ended (R335, R351). -/
def publishCore (rd ra : Reg) : M Unit := do
  drainQueue
  let a ← readS ra
  require (decide (a.toNat < 2 ^ 32)) 6
  let s ← get
  let p := (s.hart s.cur).part
  let begun := (s.hart s.cur).blocked == some .publish
  match (s.part p).bind fun x => if begun then x.bufferOnce a.toNat else x.bufferOf a.toNat with
  | none => trap cHANDLE a
  | some (slot, b) =>
    guarded
    if !begun then change fun s => s.updCurRank fun r => { r with publishing := some s.nextCommand }
    let s ← get
    if (s.commandsFor p slot).any fun c => !c.ended then block .publish
    else
      let (code, s1) := s.publish p slot b
      set s1
      writeS rd (BitVec.ofNat 64 code)
      advance

/-- R351. -/
def execPublish (rd ra : Reg) (s : State) : Host.Outcome State Fault Refusal := instr (publishCore rd ra) s

/-- The PUBLISH at which a hart is blocked, as its registers. -/
def Hart.publishing (h : Hart) : Option (Reg × Reg) :=
  match h.blocked, h.line with
  | some .publish, some l =>
    match decodeAt l.bits ((h.regs.pc.toNat % 64 - 2) / 2) with
    | .ok (.publish rd ra) => some (rd, ra)
    | _ => none
  | _, _ => none

/-- R335: the exchange, once every command accepted for the buffer has ended. -/
def execPublishExchange (hart : Nat) (s : State) : Host.Outcome State Fault Refusal := .next (
  match (s.hart hart).publishing with
  | some (rd, ra) =>
    let s1 := { s with cur := hart }
    { conclude s1 (publishCore rd ra s1) with cur := s.cur }
  | none => s)

end Sys2Proof.Machine
end

