-- ==== Sys2Proof/Machine/Tasks.lean ====
section
/-!
DEFINITION. Tasks.lean: NODE, EDGE, DONE, CANCEL, CHKC, SNEXT and SLOTFREE (R352-R355, R357-R360).
-/

namespace Sys2Proof.Machine

/-- Whether the access table grants the hart's partition a right at the dispatcher (R38, R352). -/
def State.hartRight (s : State) (bit : Nat) : Bool :=
  (s.rights (s.hart s.cur).part .dispatcher .hart).getLsbD bit

/-- Whether the hart's partition may send through fabric egress (R38). -/
def State.hartEgress (s : State) : Bool := (s.rights (s.hart s.cur).part .egress .hart).getLsbD 6

/-! ## NODE and EDGE (R353, R354) -/

/-- The words of the record NODE names, and where it lies (R353). -/
def nodeWords (a : Word) : M (Option Nat × Nat × List Nat) := do
  let (peer, key) ← objectHome a 128
  match peer with
  | none =>
    let s ← get
    pure (none, key, wordsOf 16 (s.homeBytes key 128))
  | some q =>
    let r ← demand checkKey q (.read key 128) [] [a.toNat / 65536] false
    if r.poison then trap cPOISON a else pure (some q, key, wordsOf 16 r.bytes)

/-- R353: creates a node from the record at s[a]. -/
def execNode (rd ra : Reg) (s : State) : Host.Outcome State Fault Refusal := instr (do
  drainQueue
  let a ← readS ra
  let s ← get
  if !s.hartRight 3 then
    writeS rd (BitVec.ofNat 64 (resultWord 0x0B 0))
    advance
  else
    guarded
    let (peer, key, ws) ← nodeWords a
    let s ← get
    let (st, h, s1) := s.create (s.hart s.cur).part a.toNat ws none
    let w := leBytes 8 (resultWord st h)
    set (match peer with
      | none => (s1.logFor s1.cur (key + 0x78) 8).storeHome (key + 0x78) w false
      | some q => (s1.leaveFor s1.cur).emit q (.write [(key + 0x78, w)] false []) (s1.originOf s1.cur [] [a.toNat / 65536] false))
    writeS rd (BitVec.ofNat 64 (resultWord st h))
    advance) s

/-- EDGE on the node table: the code, in the order of R354, and the effect (R34, R35). -/
def State.edge (s : State) (p pred succ : Nat) : Nat × State :=
  match s.part p with
  | none => (4, s)
  | some x =>
    match x.slotOf succ with
    | none => (4, s)
    | some j =>
      match tget x.nodes j with
      | none => (4, s)
      | some n =>
        if n.state ≠ .held then (2, s)
        else if pred = 0 then
          (1, s.setNode p j (if n.preds > 0 then { n with state := .waiting }
            else { n with state := .ready, readyAt := s.ticks }))
        else if pred = succ then (7, s)
        else match x.slotOf pred with
          | none => (3, s)
          | some i =>
            if n.preds ≥ 65535 ∨ x.links.length ≥ 4 * x.slots then (6, s)
            else (0, (s.setNode p j { n with preds := n.preds + 1 }).updPart p fun x =>
              { x with links := x.links ++ [(i, j)] })

/-- R354: adds an edge, or releases a held node. -/
def execEdge (rd ra rb : Reg) (s : State) : Host.Outcome State Fault Refusal := instr (do
  drainQueue
  let a ← readS ra
  let b ← readS rb
  require (decide (a.toNat < 2 ^ 32) && decide (b.toNat < 2 ^ 32)) 6
  let s ← get
  if !s.hartRight 3 then writeS rd 5
  else
    guarded
    let s ← get
    let (code, s1) := s.edge (s.hart s.cur).part a.toNat b.toNat
    set s1
    writeS rd (BitVec.ofNat 64 code)
  advance) s

/-! ## DONE (R355) -/

/-- The last DONE of a node (R34, R358): RETIRED, or COMMIT_WAIT in deterministic mode. -/
def State.lastDone (s : State) (p k : Nat) : State :=
  if ((s.part p).map (·.det)).getD false then
    (s.decideCancels p (s.handle p k) 2).updNode p k fun n => { n.charge s.now with state := .commitWait, cancel := .none }
  else s.finishNode p k .retired

/-- A hart ends its part: it is freed, and the node ends with its last rank (R355). -/
def State.endRank (s : State) : State :=
  let s1 := s.freeHart s.cur
  match (s.hart s.cur).node with
  | none => s1
  | some (p, k, r) =>
    let s2 := s1.updRank p k r fun _ => { Rank.start none with done := true }
    match s2.node p k with
    | some n => if n.ranks.all fun e => e.2.done then s2.lastDone p k else s2
    | none => s2

/-- DONE: the poison check (R397), the effects and copies out, the stream registers, the group, the hart (R355). -/
def doneCore : M Unit := do
  drainQueue
  poisonTrap
  drainFor fun _ => true
  change fun s => { s with
    posted := s.posted.map fun x => if x.hart = s.cur then { x with held := false } else x }
  let s ← get
  if s.undelivered 15 ≠ 0 then stall
  (List.range 8).forM fun q => release (BitVec.ofNat 3 q)
  drainQueue
  drainFor fun _ => true
  leaveOwn
  change State.endRank
  ended

/-- R355. -/
def execDone (s : State) : Host.Outcome State Fault Refusal := instr doneCore s

/-! ## CANCEL and CHKC (R357, R358) -/

/-- Applies CANCEL to the node of a handle by a hart of the same partition: its code, or the wait for a decision. -/
def cancelBy (rd : Reg) (a : Word) (p : Nat) (own : Option Nat) : M Unit := do
  let s ← get
  match s.slotOf p a.toNat with
  | none =>
    writeS rd 3
    advance
  | some k =>
    if own = some k then
      change fun s => if (s.node p k).map (·.cancel) = some .delivered then s else s.cancelComes p k
      writeS rd 5
      advance
    else
      let (r, s1) := s.cancelNode p k
      set s1
      match r with
      | some code =>
        writeS rd (BitVec.ofNat 64 code)
        advance
      | none =>
        change fun s => s.updCurRank fun x => { x with cancelling := some (a, none) }
        block .cancel

/-- R357: cancels a node, waiting until the outcome is decided. -/
def execCancel (rd ra : Reg) (s : State) : Host.Outcome State Fault Refusal := instr (do
  drainQueue
  let a ← readS ra
  require (decide (a.toNat < 2 ^ 32)) 6
  let s ← get
  match s.curRank.cancelling with
  | some (_, none) => block .cancel
  | some (_, some code) =>
    change fun s => s.updCurRank fun x => { x with cancelling := none }
    writeS rd (BitVec.ofNat 64 code)
    advance
  | none =>
    if !s.hartRight 4 then
      writeS rd 4
      advance
    else
      guarded
      let h ← curHart
      cancelBy rd a h.part (h.node.map fun x => x.2.1)) s

/-- R358: reports a cancel; the first report decides it as DELIVERED. -/
def execChkc (rd : Reg) (s : State) : Host.Outcome State Fault Refusal := instr (do
  drainQueue
  let h ← curHart
  let s ← get
  match h.node with
  | none => writeS rd 0
  | some (p, k, _) =>
    match ((s.node p k).map (·.cancel)).getD .none with
    | .none => writeS rd 0
    | .delivered => writeS rd 1
    | .pending =>
      change fun s => (s.decideCancels p (s.handle p k) 1).updNode p k fun n => { n with cancel := .delivered }
      writeS rd 1
  advance) s

/-! ## The schedule (R359, R360) -/

/-- The node of the hart that runs. -/
def State.curNode (s : State) : Option Node := (s.hart s.cur).node.bind fun x => s.node x.1 x.2.1

/-- What SNEXT gives (R359). -/
def Node.snext (n : Node) (k : Nat) : Word :=
  match n.issued, n.sched with
  | some e, some (t, i, _) =>
    match k with
    | 0 => e.word0
    | 1 => e.template
    | 2 => e.arg
    | _ => BitVec.ofNat 64 (2 ^ 63 + t * 2 ^ 16 + i)
  | _, _ => 0

/-- R359. -/
def execSnext (rd : Reg) (k : BitVec 2) (s : State) : Host.Outcome State Fault Refusal := instr (do
  drainQueue
  let s ← get
  writeS rd ((s.curNode.map fun n => n.snext k.toNat).getD 0)
  advance) s

/-- The receive slot of a micro-batch in one of the areas, when it is filled with it (R64, R360). -/
def SchedTable.slotOf (x : SchedTable) (act : Bool) (mb : Nat) : Option Nat :=
  let i := mb % max 1 (if act then x.actSlots else x.gradSlots)
  if tget (if act then x.actFilled else x.gradFilled) i = some mb then some i else none

/-- R360: frees a receive slot and sends a slot message. DESIGN CHOICE: without the EGRESS right the message cannot be sent
(R38), and the instruction traps PERMISSION before any effect, as a hart's access that is denied does (R39; log 17). -/
def execSlotfree (ra : Reg) (gradient : Bool) (s : State) : Host.Outcome State Fault Refusal := instr (do
  drainQueue
  let a ← readS ra
  require (decide (a.toNat < 4096)) 6
  let s ← get
  match s.curNode.bind fun n => n.sched.bind fun t => n.issued.map fun e => (t, e) with
  | none => illegal 12
  | some ((t, _, run), e) =>
    let x := s.sched t
    require (x.run == run && x.state == SchedState.running) 12
    match x.slotOf (!gradient) a.toNat with
    | none => illegal 12
    | some i =>
      let peer := if gradient then bits e.word0.toNat 34 26 else bits e.word0.toNat 43 35
      if peer ≠ 511 && !s.hartEgress then trap cPERM a
      guarded
      drainFor fun y => y.peer == some peer
      change fun s =>
        let x := s.sched t
        s.setSched t (if gradient then { x with gradFilled := tdel x.gradFilled i }
          else { x with actFilled := tdel x.actFilled i })
      if peer ≠ 511 then change fun s => (s.leaveFor s.cur).emit peer (.slotMessage t (!gradient)) .none
  advance) s

end Sys2Proof.Machine
end

