-- ==== Sys2Proof/Machine/Preempt.lean ====
section
/-!
DEFINITION. Preempt.lean: the context save area (R410-R413): what a pre-empted node's slot holds, its save and its
resume; YIELD (R356); and the declared scratchpad extent (R258).
-/

namespace Sys2Proof.Machine

/-! ## The declared scratchpad extent (R258) -/

/-- Joins an interval to a rising list of disjoint intervals. -/
def addExtent (xs : List (Nat × Nat)) (a b : Nat) : List (Nat × Nat) :=
  match xs with
  | [] => [(a, b)]
  | (c, d) :: rest =>
    if b < c then (a, b) :: (c, d) :: rest
    else if d < a then (c, d) :: addExtent rest a b
    else addExtent rest (min a c) (max b d)

/-- A node's declared scratchpad extent as scratchpad intervals (R258). -/
def NodeRecord.padExtent (r : NodeRecord) : List (Nat × Nat) :=
  (r.operands.filter fun o => inWindow o.addr).foldl (fun xs o =>
    let a := o.addr % 2 ^ 21
    addExtent xs a (min (a + o.bytes) (2 ^ 21))) []

/-- Whether slot i of the scratchpad lies wholly inside an extent. -/
def slotInside (xs : List (Nat × Nat)) (i : Nat) : Bool := xs.any fun x => decide (x.1 ≤ 1024 * i) && decide (1024 * i + 1024 ≤ x.2)

/-! ## Frames (R411) -/

/-- The numbers of the thirty hart system registers (R411, R188). -/
def frameRegs : List Nat :=
  [0x000, 0x001, 0x002, 0x010, 0x011, 0x012, 0x020, 0x021, 0x022, 0x028, 0x029, 0x02A, 0x030, 0x031, 0x050, 0x051, 0x052,
   0x060, 0x070, 0x071, 0x100, 0x101, 0x110, 0x111, 0x112, 0x113, 0x120, 0x121, 0x122, 0x123]

/-- The fault record of a rank (R411). -/
def faultWord (g : Regs) (r : Rank) : Nat :=
  let b := fun (x : Bool) (n : Nat) => if x then 2 ^ n else 0
  b r.waitBatch 0 + b (g.trap1.cause.getLsbD 15) 1 + b (g.trap2.cause.getLsbD 15) 2 +
    b r.unresolved 4 + b (g.trap1.cause.getLsbD 14) 5 + b (g.trap2.cause.getLsbD 14) 6

/-- A stream register's 4,608 bytes; byte 4,392 tells whether it is bound (log 34). -/
def streamBytes (q : Option Stream) : List Byte :=
  match q with
  | none => List.replicate 4608 0
  | some t =>
    t.words.flatMap wordBytes ++ leBytes 8 t.consumed ++ (List.range 4096).map (fun i => t.block.getD i 0) ++
      1 :: List.replicate 215 0

/-- The granules of a tile, its rows one behind the other (R78, R411). -/
def Tile.granules (t : Tile) : List Byte :=
  let b := rowBytes t.tag
  let data := (List.range (tagRows t.tag)).flatMap fun j => leBytes b (t.row j)
  data ++ List.replicate (256 * tagGranules t.tag - data.length) 0

/-- The fields of a frame with their offsets (R411). -/
def frameFields (g : Regs) (c : Core) (r : Rank) : List (Nat × List Byte) :=
  [(0, wordBytes g.pc ++ leBytes 8 (faultWord g r)),
   (0x40, (List.range 32).flatMap fun i => wordBytes (g.getS (BitVec.ofNat 5 i))),
   (0x140, frameRegs.flatMap fun n => wordBytes (readSys g c n)),
   (0x240, g.f.toList.flatMap fun t => wordBytes t.tag),
   (0x1000, g.q.toList.flatMap streamBytes),
   (0xA000, (List.range 7).flatMap fun i => leBytes 4096 (g.getM (BitVec.ofNat 3 (i + 1))).toNat),
   (0x11000, leBytes 4096 g.fem.toNat),
   (0x12000, g.f.toList.flatMap Tile.granules)]

/-! ## Reading a frame back -/

/-- n bytes of an array as a number. -/
def numberAt (bs : Array Byte) (off n : Nat) : Nat := leNat ((List.range n).map fun i => bs.getD (off + i) 0)

/-- A word of an array. -/
def wordAt (bs : Array Byte) (off : Nat) : Word := BitVec.ofNat 64 (numberAt bs off 8)

/-- Whether a saved tag is legal (R146, R147). -/
def tagLegal (t : Word) : Bool := t == 0 || (tagAccepted t && (!isFun t || shapeLegal (tagFmt t) (tagDegs t)))

/-- The tiles of a frame, granules packed in register order. -/
def tilesAt (bs : Array Byte) (tags : List Word) (off : Nat) : List Tile :=
  match tags with
  | [] => []
  | t :: rest =>
    let b := rowBytes t
    ⟨t, (List.range (tagRows t)).map fun j => BitVec.ofNat 16384 (numberAt bs (off + j * b) b)⟩ ::
      tilesAt bs rest (off + 256 * tagGranules t)

/-- A stream register of a frame. -/
def streamAt (bs : Array Byte) (off : Nat) : Option Stream :=
  if bs.getD (off + 4392) 0 = 0 then none else
  some ⟨(List.range 36).map fun i => wordAt bs (off + 8 * i), numberAt bs (off + 288) 8,
    (List.range 4096).map fun i => bs.getD (off + 296 + i) 0⟩

/-- A trap bank of a frame, PEND and UNRES as FAULT gives them (R413). -/
def bankAt (bs : Array Byte) (off : Nat) (pend unres : Bool) : TrapBank :=
  ⟨(wordAt bs off &&& 0xFF) ||| (if pend then 0x8000 else 0) ||| (if unres then 0x4000 else 0), wordAt bs (off + 8),
    wordAt bs (off + 16), wordAt bs (off + 24) &&& 0xFFFFFFFFFFFF⟩

/-- The registers a frame gives to a hart; none when the frame is malformed (R411, R412; log 34). -/
def frameRegsAt (bs : Array Byte) (hart handle : Nat) : Option Regs :=
  let w := fun i => wordAt bs (0x140 + 8 * i)
  let fault := numberAt bs 8 8
  let tags := (List.range 32).map fun i => wordAt bs (0x240 + 8 * i)
  let vt := w 2
  let legal := tags.all tagLegal && decide ((tags.map tagGranules).sum ≤ Config.granules) &&
    decide (1 ≤ (w 1).toNat) && decide ((w 1).toNat ≤ 16) && decide ((w 0).toNat * (w 1).toNat ≤ 32768) &&
    (vt.getLsbD 63 || vtSupported vt) && decide ((w 20).toNat ≤ 2)
  if !legal then none else
  let f := tilesAt bs tags 0x12000
  some {
    pc := wordAt bs 0
    s := Vector.ofFn fun i : Fin 32 => if i.val = 0 then 0 else wordAt bs (0x40 + 8 * i.val)
    f := Vector.ofFn fun i : Fin 32 => f.getD i.val Tile.empty
    m := Vector.ofFn fun i : Fin 8 => if i.val = 0 then 0 else BitVec.ofNat 32768 (numberAt bs (0xA000 + 4096 * (i.val - 1)) 4096)
    q := Vector.ofFn fun i : Fin 8 => streamAt bs (0x1000 + 4608 * i.val)
    vl := w 0
    rc := w 1
    vtype := if vt.getLsbD 63 then vt &&& 0x800000000000FFFF else vt
    fflags := w 3 &&& 0x7F
    frm := frmWrite 0 (w 4)
    atc := w 5 &&& 0x7F
    dlen := Vector.ofFn fun i : Fin 3 => w (6 + i.val) &&& 0xFFFFFFFF
    dstep := Vector.ofFn fun i : Fin 3 => w (9 + i.val)
    pix := w 12 &&& 0xC000FFFFFFFFFFFF
    fem := BitVec.ofNat 32768 (numberAt bs 0x11000 4096)
    hartid := BitVec.ofNat 64 hart
    nodeid := BitVec.ofNat 64 handle
    groupid := w 16
    seed := w 17
    loopcnt := w 18
    rrb := w 19 &&& 0xFF
    tl := BitVec.ofNat 2 (w 20).toNat
    tvec := w 21 &&& 0x01FFFFFFFFFFFFC0
    trap1 := bankAt bs (0x140 + 8 * 22) (bits fault 1 1 == 1) (bits fault 5 5 == 1)
    trap2 := bankAt bs (0x140 + 8 * 26) (bits fault 2 2 == 1) (bits fault 6 6 == 1) }

/-! ## Ranges of a partition's memory, by the device -/

/-- Bytes written at a place: at a local home, or at most 256 to a packet (R365). -/
def State.writePlace (s : State) (pl : Place) (bs : List Byte) : State :=
  match pl with
  | .home key => s.storeHome key bs false
  | .peer q key => (List.range (ceilDiv bs.length 256)).foldl (fun s i =>
      s.emit q (.write [(key + 256 * i, (bs.drop (256 * i)).take 256)] false []) .none) s
  | .pad _ => s

/-- Writes bytes of any length, page by page. -/
def State.writeRange (s : State) (p va : Nat) (bs : List Byte) : State :=
  (cutPages (bs.length / 65536 + 2) 0 va bs.length).foldl (fun s x =>
    let part := (bs.drop x.1).take x.2.2
    let s1 := s.recordWalk p x.2.1 Who.none (s.walk p x.2.1).2
    match s1.devEntry p x.2.1 needW with
    | .ok e => (s1.cuts x.2.1 part.length).foldl (fun s c =>
        s.writePlace (s.placeOf e c.1) ((part.drop (c.1 - x.2.1)).take c.2)) s1
    | .error _ => s1) s

/-- An access as the packets of at most 256 bytes that make it (R365). -/
def cutAccess (x : Place × Nat) : List (Place × Nat) :=
  match x.1 with
  | .peer q key => (List.range (ceilDiv x.2 256)).map fun i => (.peer q (key + 256 * i), min 256 (x.2 - 256 * i))
  | _ => [x]

/-- The accesses that read a range; none when a page cannot be read. -/
def State.rangeParts (s : State) (p va n : Nat) : Option (List (Place × Nat)) :=
  (cutPages (n / 65536 + 2) 0 va n).foldr (fun x acc => acc.bind fun rest =>
    match s.devPlaces p x.2.1 x.2.2 with
    | .ok xs => some (xs.flatMap cutAccess ++ rest)
    | .error _ => none) (some [])

/-- The bytes of several ranges, the replies of the peers in order. -/
def State.joinRanges (s : State) (ranges : List (List (Place × Nat))) (rs : List Reply) : List (List Byte) :=
  match ranges with
  | [] => []
  | xs :: rest => s.joinReads xs rs :: s.joinRanges rest (rs.drop (peerReads xs).length)

/-- The records of the walks that reading several ranges makes (R274). -/
def State.recordRanges (s : State) (p : Nat) (rs : List (Nat × Nat)) : State :=
  (rs.flatMap fun r => (cutPages (r.2 / 65536 + 2) 0 r.1 r.2).map fun x => x.2.1).foldl (fun s va =>
    s.recordWalk p va Who.none (s.walk p va).2) s

/-- What reading several ranges gives. -/
inductive RangesRead where
  | ready (bs : List (List Byte))
  | unreadable
  | pending
  deriving Repr

/-- Reads several ranges of a partition's memory, all at once. A range of which a peer answers with poisoned data cannot be
read (log 37). -/
def State.readRanges (s : State) (p : Nat) (rs : List (Nat × Nat)) : RangesRead × State :=
  let parts := rs.map fun r => s.rangeParts p r.1 r.2
  if parts.any Option.isNone then (.unreadable, s.recordRanges p rs) else
  let xs := parts.map fun o => o.getD []
  match s.fetchAll (peerReads xs.flatten) with
  | (none, s1) => (.pending, s1)
  | (some replies, s1) =>
    if replies.any (·.poison) then (.unreadable, s1.recordRanges p rs)
    else (.ready (s1.joinRanges xs replies), (s1.recordRanges p rs).countReads xs.flatten)

/-! ## Save (R258, R393, R409-R411) -/

/-- The address of a context save slot (R410). -/
def Partition.slotVa (x : Partition) (slot : Nat) : Nat := bits x.csaBase.toNat 56 20 * 2 ^ 20 + 0x500000 * slot

/-- Whether every page of a slot can be written (R410). -/
def State.slotWritable (s : State) (p va : Nat) : Bool :=
  (List.range 80).all fun i => match s.devPlace p (va + 65536 * i) needW with
    | .ok _ => true
    | .error _ => false

/-- The free slots of a partition, rising. -/
def Partition.freeSaves (x : Partition) : List Nat := (List.range x.csaSlots).filter fun n => !x.csaUsed.contains n

/-- Whether every store of a hart can leave its store buffer at once: no entry of a push has to wait for a packet (R310). -/
def State.pushSettled (s : State) (h : Nat) : Bool :=
  let es := (s.hart h).sb.filter (·.ordered)
  es.all fun e => e.peer == (es.head?.map (·.peer)).getD none && !s.pushWaits h e

/-- Whether a node can leave its core: no copy-channel transfer of it is outstanding (R258), the data checks of its loads
have ended (R396; log 11), their issue queues are empty, none of its harts is inside an instruction (R393, R295), and their stores can leave. -/
def State.settled (s : State) (p k : Nat) : Bool :=
  match s.node p k with
  | none => true
  | some n =>
    let mine := fun t : Transfer => t.part == p && t.handle == s.handle p k
    !(s.cores.any fun c => c.2.channels.toList.any fun ch => ch.queue.any mine) &&
      n.placed.all fun e => (s.hart e.2).iq.isEmpty && (s.hart e.2).unchecked == 0 && !s.inside e.2 && s.pushSettled e.2

/-- The held stores of a hart to device registers leave (R391). -/
def State.releasePosted (s : State) (h : Nat) : State :=
  let free := fun x : Posted => if x.hart = h then { x with held := false } else x
  { s with posted := s.posted.map free }

/-- Whether the last instruction of a hart holds every effect that it has put under guarded issue (R393). -/
def State.withdraws (s : State) (h : Nat) : Bool :=
  match (s.hart h).heldFrom with
  | some (_, n) => n != 0 && s.heldCount h == n
  | none => false

/-- The last instruction of a hart is withdrawn: its held effects go, and it executes again from its start (R393). -/
def State.withdrawHeld (s : State) (h : Nat) : State :=
  match (s.hart h).heldFrom with
  | none => s
  | some (b, _) =>
    let x := s.hart h
    let s1 := s.setHart h { x with
      sb := x.sb.filter (!·.held), heldFrom := none, queue := [], running := none, line := none, partway := none
      limit := none, probed := [], regs := b.regs.undone x.regs }
    let s2 := { s1 with posted := s1.posted.filter fun y => !(y.hart == h && y.held) }
    match x.node with
    | some (p, k, r) => s2.updRank p k r fun y => { y with samples := b.samples }
    | none => s2

/-- Counts the convoy of an instruction that has stopped part-way, on the core that performed its first part (R316). -/
def State.countStopped (s : State) (h : Nat) : State :=
  if (s.hart h).partway.isSome then s.updCore (coreOf h) (·.count 2 1) else s

/-- A hart taken at its oldest instruction not yet retired (R409): an instruction whose guarded effects are all held is
withdrawn (R393); those that may retire have done so, the others are undone, a counted arrival is in PIX (R408), and stores
that have completed have left (log 10). -/
def State.takeHart (s : State) (h : Nat) : State :=
  let s0 := if s.withdraws h then s.withdrawHeld h else s.countStopped h
  let s1 := s0.retireReady h 64
  let s2 := (if (s1.hart h).arrived then s1.updHart h fun x => { x with
      regs := { x.regs with pix := 0x4000000000000000 } } else s1).undo h
  (s2.releasePosted h).drainAll h fun _ => true

/-- The node of a slot leaves its core with its progress saved in a context save slot. -/
def State.save (s : State) (p k slot : Nat) : State :=
  match s.part p, s.node p k with
  | some x, some n =>
    let placed := n.placed
    let s1 := placed.foldl (fun s e => s.takeHart e.2) s
    let c := s1.core (coreOf ((placed.map (·.2)).headD 0))
    let va := x.slotVa slot
    let ext := n.record.padExtent
    let size := (ext.map fun e => e.2 - e.1).sum
    let ranks := (placed.map fun e => 2 ^ e.1).sum
    let head := leBytes 8 (x.handle k) ++ leBytes 8 ranks ++ leBytes 8 size ++ List.replicate 16360 0
    let tags := (List.range 2048).flatMap fun i => leBytes 8 (if slotInside ext i then ((tget c.tags i).getD 0).toNat else 0)
    let s2 := s1.writeRange p va (head ++ tags)
    let s3 := placed.foldl (fun s e => (frameFields (s.hart e.2).regs c (s.rank p k e.1)).foldl (fun s y =>
      s.writeRange p (va + 0x10000 + 0x50000 * e.1 + y.1) y.2) s) s2
    let s4 := ext.foldl (fun s e => s.writeRange p (va + 0x300000 + e.1) (getBytes c.pad e.1 (e.2 - e.1))) s3
    let mark := (c.channels.toList.map fun ch => ch.pos.toNat).foldl max 0
    let s5 := placed.foldl (fun s e =>
      let idle := (s.hart e.2).blocked == some .idle
      (s.freeHart e.2).updRank p k e.1 fun r => { r with
        hart := none, saved := true, idled := r.idled || idle, requests := [], publishing := none }) s4
    (s5.updNode p k fun n => { n.charge s.now with
        state := .ready, saved := some slot, leaving := none
        chmark := BitVec.ofNat 64 (max mark n.chmark.toNat) }).updPart p fun x =>
      { x with csaUsed := x.csaUsed ++ [slot] }
  | _, _ => s

/-! ## Resume (R412, R413) -/

/-- The outcome of an attempt to restore a node. -/
inductive Resumed where
  | running
  | pending
  | malformed
  deriving DecidableEq, Repr

/-- A hart as a frame restores it. -/
def Hart.resumed (g : Regs) (p k r : Nat) (wait : Bool) : Hart :=
  { Hart.reset with regs := g, node := some (p, k, r), fresh := true, blocked := if wait then some .pager else none }

/-- The ranges of a slot that a resume reads: header, tags, the frames of some ranks, the extent. -/
def slotRanges (va : Nat) (ranks : List Nat) (ext : List (Nat × Nat)) : List (Nat × Nat) :=
  [(va, 24), (va + 0x4000, 16384)] ++ ranks.map (fun r => (va + 0x10000 + 0x50000 * r, 327680)) ++
    ext.map fun e => (va + 0x300000 + e.1, e.2 - e.1)

/-- The extent and its tags written back over what the core holds (R258). -/
def Core.restore (c : Core) (ext : List (Nat × Nat)) (tags : Array Byte) (images : List (List Byte)) : Core :=
  let c1 := (ext.zip images).foldl (fun (c : Core) e => c.putPad e.1.1 e.2) c
  { c1 with tags := (List.range 2048).foldl (fun t i =>
      if slotInside ext i then tput t i (wordAt tags (8 * i)) else t) c1.tags }

/-- Raises the marks of a core's channels (R262). -/
def Core.mark (c : Core) (m : Word) : Core :=
  { c with channels := c.channels.map fun ch =>
      ({ ch with mark := some (BitVec.ofNat 64 (max m.toNat (ch.mark.getD 0).toNat)) }).raise }

/-- Restores the saved node of a slot onto harts, one for each saved rank in order. A CANCEL that had made a cancel pending
reports STALE once the target's handle has been freed, else the decision (R340). -/
def State.restore (s : State) (p k : Nat) (harts : List Nat) : Resumed × State :=
  match s.part p, s.node p k with
  | some x, some n =>
    let slot := n.saved.getD 0
    let va := x.slotVa slot
    let ranks := (n.ranks.filter fun r => r.2.saved).map (·.1)
    let ext := n.record.padExtent
    match s.readRanges p (slotRanges va ranks ext) with
    | (.pending, s1) => (.pending, s1)
    | (.unreadable, s1) => (.malformed, s1)
    | (.ready bss, s1) =>
      let hd := (bss.getD 0 []).toArray
      let frames := ((bss.drop 2).take ranks.length).map List.toArray
      let images := bss.drop (2 + ranks.length)
      let regs := (harts.zip frames).map fun e => frameRegsAt e.2 e.1 (x.handle k)
      if numberAt hd 0 8 ≠ x.handle k ∨ numberAt hd 8 8 ≠ (ranks.map fun r => 2 ^ r).sum ∨ regs.any Option.isNone then
        (.malformed, s1)
      else
        let core := coreOf (harts.headD 0)
        let s2 := s1.updCore core fun c => (c.restore ext (bss.getD 1 []).toArray images).mark n.chmark
        let s3 := (ranks.zip (harts.zip (frames.zip regs))).foldl (fun s e =>
          let (r, h, f, g) := e
          let fault := numberAt f 8 8
          (s.setHart h (Hart.resumed (g.getD Regs.reset) p k r (bits fault 0 0 == 1))).updRank p k r fun y => { y with
            hart := some h, saved := false, waitBatch := bits fault 0 0 == 1, unresolved := bits fault 4 4 == 1
            cancelling := y.cancelling.map fun c => if (s1.slotOf p c.1.toNat).isSome then c else (c.1, some 3) }) s2
        (.running, (s3.updNode p k fun n => { n with saved := none }).freeSave p slot)
  | _, _ => (.malformed, s)

/-! ## YIELD (R356) -/

/-- Harts a node needs at its placement (R44, R412). -/
def Node.needs (n : Node) : Nat :=
  if n.saved.isSome then (n.ranks.filter fun r => r.2.saved).length else n.record.harts

/-- Whether a core is of a node's class (R26). -/
def Node.fitsClass (n : Node) (core : Nat) : Bool := n.record.cls == 2 || (n.record.cls == 1) == isFC core

/-- Free harts of a core. -/
def State.freeHarts (s : State) (core : Nat) : List Nat :=
  ((List.range 8).map fun i => 8 * core + i).filter fun h => (s.hart h).node.isNone

/-- The slot a YIELD of a node would use, when another ready node of the partition waits that fits the core (R356,
R410). -/
def State.yieldSlot (s : State) (p k : Nat) : Option Nat :=
  match s.part p, s.node p k with
  | some x, some n =>
    let core := coreOf ((n.placed.map (·.2)).headD 0)
    let room := (s.freeHarts core).length + n.placed.length
    let other := x.nodes.any fun e =>
      e.1 != k && e.2.state == .ready && decide (n.record.prio ≤ e.2.level) && e.2.fitsClass core && decide (e.2.needs ≤ room)
    if other ∧ x.csaSlots > x.csaUsed.length + 8 then
      match x.freeSaves.head? with
      | some slot => if s.slotWritable p (x.slotVa slot) then some slot else none
      | none => none
    else none
  | _, _ => none

/-- YIELD: the whole node is pre-empted, or nothing happens (R356). While the node's other harts come to the ends of their
instructions the hart waits. DESIGN CHOICE: the pass count of the node is 0; R356 gives its level and its ready time and
leaves the count open (log 45). -/
def yieldCore : M Unit := do
  drainQueue
  let s ← get
  let leave := fun (p k : Nat) (who : Option Nat) => change fun s => s.updNode p k fun n => { n with leaving := who }
  match (s.hart s.cur).node with
  | none => advance
  | some (p, k, _) =>
    match s.yieldSlot p k with
    | none =>
      leave p k none
      advance
    | some slot =>
      leave p k (some s.cur)
      drainFor fun e => e.ordered
      if !s.settled p k then stall
      else
        advance
        change fun s1 => s.completed s1
        change fun s => (s.save p k slot).updNode p k fun n => { n with
          level := n.record.prio, passes := 0, readyAt := s.ticks }
        ended

/-- R356. -/
def execYield (s : State) : Host.Outcome State Fault Refusal := instr yieldCore s

end Sys2Proof.Machine
end

