-- ==== Sys2Proof/Machine/Dispatcher.lean ====
section
/-!
DEFINITION. Dispatcher.lean: the insert window (R40-R42), PART_MODE (R48), placement with its aging (R43-R47, R52, R76,
R83, R412) and commits in timestamp order (R50, R51, R399).
-/

namespace Sys2Proof.Machine

/-! ## The insert window (R40-R42) -/

/-- The value of an access-table entry of the host at a target (R38), for a record of KIND 0x0A. -/
def State.hostEntry (s : State) (p : Nat) (t : Target) : Nat := (s.rights p t .host).toNat

/-- Records a host access that an access table denied (R39). -/
def State.hostDenied (s : State) (p offset : Nat) (t : Target) : State :=
  s.record 0x0A p Who.none [offset, s.hostEntry p t]

/-- A unit's write to INSERT (R41). -/
def State.writeInsert (s : State) (u : AccUnit) (part : Nat) (addr : Word) : State :=
  match s.part part with
  | none => s
  | some x =>
    if x.teardown ≠ .none then s
    else
      let right := (s.rights part .dispatcher u).getLsbD 3
      if x.enable && addr.toNat % 128 == 0 && right then
        s.setPart part { x with
          accepted := x.accepted + 1, inserts := x.inserts ++ [addr]
          kept := if x.det && x.snapshot.isSome then x.kept ++ [addr] else x.kept
          keptSince := if x.det && x.between.isSome then x.keptSince ++ [addr] else x.keptSince }
      else
        let s1 := s.setPart part { x with dropped := x.dropped + 1 }
        if right || u != .host then s1 else s1.hostDenied part 0x000 .dispatcher

/-- R41: a write to INSERT. -/
def execInsert (part : Nat) (addr : Word) (s : State) : Host.Outcome State Fault Refusal := .next (s.writeInsert .host part addr)

/-- R29, R40: the dispatcher reads the oldest accepted record. A node made while the partition is torn down is cancelled
at once (R425). -/
def execInsertRecordRead (part : Nat) (s : State) : Host.Outcome State Fault Refusal := .next (
  match s.part part with
  | none => s
  | some x =>
    match x.inserts with
    | [] => s
    | addr :: rest =>
      match s.makeNode part addr.toNat none with
      | (.pending, s1) => s1
      | (.made _ h, s1) =>
        let s2 := s1.updPart part fun y => { y with
          inserts := rest, reads := y.reads + 1, lastHandle := BitVec.ofNat 64 h }
        if x.teardown = .none then s2 else
        match s2.slotOf part h with
        | some k => (s2.cancelNode part k).2
        | none => s2)

/-- A write to WIN_CTL (R42). -/
def State.writeWinCtl (s : State) (part : Nat) (value : Word) : State :=
  if s.alive part then s.updPart part fun x => { x with enable := value.getLsbD 0 } else s

/-- R42: a write to WIN_CTL. -/
def execWinCtlWrite (part : Nat) (value : Word) (s : State) : Host.Outcome State Fault Refusal :=
  .next (s.writeWinCtl part value)

/-- PART_MODE under its field map: DET changes only while the node table is empty, and entering deterministic mode records
a Keystone (R48, R399). -/
def Partition.writeMode (x : Partition) (v : Word) (now command : Nat) : Partition :=
  let y := { x with keystone := BitVec.ofNat 32 (v.toNat / 2 ^ 32), specMax := BitVec.ofNat 8 (bits v.toNat 15 8) }
  let d := v.getLsbD 0
  if d = x.det ∨ !x.nodes.isEmpty then y
  else if d then { y with det := true }.takeKeystone now command
  else { y with
    det := false, snapshot := none, klog := [], kept := [], unlogged := false, between := none, own := [], keptSince := [] }

/-- A write to PART_MODE (R48). -/
def State.writePartMode (s : State) (part : Nat) (value : Word) : State :=
  if s.alive part then s.updPart part (·.writeMode value s.now s.nextCommand) else s

/-- R48: a write to PART_MODE. -/
def execPartModeWrite (part : Nat) (value : Word) (s : State) : Host.Outcome State Fault Refusal :=
  .next (s.writePartMode part value)

/-! ## Choosing a core (R44-R46) -/

/-- A ready node as the placement scan sees it. -/
structure Ready where
  part : Nat
  slot : Nat
  node : Node
  deriving DecidableEq, Repr

/-- Whether one ready node comes before another: higher level, then older ready time; ties by partition and slot
(log 16). -/
def Ready.before (a b : Ready) : Bool :=
  decide (a.node.level > b.node.level) ||
    (a.node.level == b.node.level && (decide (a.node.readyAt < b.node.readyAt) ||
      (a.node.readyAt == b.node.readyAt && (decide (a.part < b.part) || (a.part == b.part && decide (a.slot ≤ b.slot))))))

/-- Inserts into the scan order. -/
def insertReady (a : Ready) (xs : List Ready) : List Ready :=
  match xs with
  | [] => [a]
  | b :: rest => if a.before b then a :: b :: rest else b :: insertReady a rest

/-- Every ready node in scan order. -/
def State.readyPool (s : State) : List Ready :=
  (s.parts.flatMap fun p => (p.2.nodes.filter fun n => n.2.state == .ready).map fun n => (⟨p.1, n.1, n.2⟩ : Ready)).foldr
    insertReady []

/-- Whether a core is in service (R390). -/
def State.inService (s : State) (c : Nat) : Bool := (s.core c).quarState == 0

/-- The die a placement prefers (R46). -/
def State.preferredDie (s : State) (p : Nat) (r : NodeRecord) : Nat :=
  match r.operands with
  | [] => 0
  | o :: _ =>
    match (s.walk p o.addr).1 with
    | some e => if e.pool ≤ 7 then e.pool / 2 else 0
    | none => 0

/-- Cores in the order a placement tries them (R46). -/
def coreOrder (die cls : Nat) : List Nat :=
  (List.range 4).flatMap fun i =>
    let base := 48 * ((die + i) % 4)
    let mc := (List.range 32).map (base + ·)
    let fc := (List.range 16).map (base + 32 + ·)
    match cls with
    | 0 => mc
    | 1 => fc
    | _ => mc ++ fc

/-- The core kept for the partition's reservation: of its class, the one with the most free harts (R45). -/
def State.reservedCore (s : State) (x : Partition) : Option Nat :=
  match x.reservation.bind fun k => tget x.nodes k with
  | none => none
  | some n =>
    let fit := x.cores.filter fun c => s.inService c && n.fitsClass c
    (fit.foldl (fun (best : Option (Nat × Nat)) c =>
      let f := (s.freeHarts c).length
      match best with
      | none => some (c, f)
      | some (b, m) => if f > m ∨ (f = m ∧ c < b) then some (c, f) else some (b, m)) none).map (·.1)

/-- The core a ready node would be placed on (R44-R46). -/
def State.coreFor (s : State) (x : Partition) (r : Ready) : Option Nat :=
  let kept := if x.reservation = some r.slot then none else s.reservedCore x
  (coreOrder (s.preferredDie r.part r.node.record) r.node.record.cls).find? fun c =>
    x.cores.contains c && s.inService c && kept != some c && decide (r.node.needs ≤ (s.freeHarts c).length)

/-- Whether SPEC_MAX lets a node be placed (R52). DESIGN CHOICE: a pre-empted node, READY with its progress saved, is not
counted among the placed nodes here, as it holds no hart, though it counts as placed for the aborts of R51 (log 38). -/
def Partition.specOk (x : Partition) (slot : Nat) : Bool :=
  if !x.det then true else
  let placed := (x.nodes.filter fun n => n.2.state == .running || n.2.state == .commitWait).length
  let first := (x.nodes.filter fun n => n.2.state == .ready).foldl (fun (best : Option (Nat × Node)) e => match best with
    | none => some e
    | some b => if e.2.record.tstamp.toNat < b.2.record.tstamp.toNat then some e else some b) none
  decide (placed < max 1 x.specMax.toNat) || (first.map (·.1)) == some slot

/-! ## Placement (R47, R76, R83, R412) -/

/-- The registers of a hart at placement (R76). -/
def Regs.placed (r : NodeRecord) (hart handle rank : Nat) (gid : Word) : Regs :=
  { Regs.reset with
    pc := r.entry
    s := Vector.ofFn fun i : Fin 32 =>
      if i.val = 1 then r.params.get 0 else if i.val = 2 then r.params.get 1 else if i.val = 3 then r.params.get 2
      else if i.val = 4 then r.params.get 3 else if i.val = 5 then BitVec.ofNat 64 rank
      else if i.val = 6 then BitVec.ofNat 64 r.harts else 0
    hartid := BitVec.ofNat 64 hart
    nodeid := BitVec.ofNat 64 handle
    groupid := gid }

/-- One pass counted against every other ready node of the partition (R45); a placed reservation is lifted. -/
def Partition.passed (x : Partition) (slot : Nat) : Partition :=
  { x with
    nodes := x.nodes.map fun e =>
      if e.1 != slot && e.2.state == .ready then (e.1, { e.2 with passes := min (e.2.passes + 1) 4096 }) else e
    reservation := if x.reservation = some slot then none else x.reservation }

/-- A new node on its harts, its group joined (R47, R76, R83). -/
def State.launch (s : State) (p k : Nat) (n : Node) (harts : List Nat) (gid : Word) : State :=
  let handle := s.handle p k
  let ranked := (List.range harts.length).zip harts
  let s1 := ranked.foldl (fun s e => s.setHart e.2
    { Hart.reset with regs := Regs.placed n.record e.2 handle e.1 gid, node := some (p, k, e.1) }) s
  s1.setNode p k { n with
    state := .running
    placedAt := s.ticks
    since := s.now
    ranks := ranked.map fun e => (e.1, Rank.start (some e.2))
    gcount := if n.record.group = 0 then harts.length else 0
    gepoch := if n.record.group = 0 then 1 else 0 }

/-- A node whose wait at TL 0 was answered unresolved while it was saved is killed (R405, R413). -/
def State.killUnresolved (s : State) (p k : Nat) : State :=
  match s.node p k with
  | none => s
  | some n =>
    match n.ranks.find? fun r => r.2.unresolved && !r.2.waitBatch with
    | some (_, r) =>
      let (c, epc, val) := r.waitTrap
      s.killHart (r.hart.getD 0) c epc val
    | none => s

/-- Places a ready node on a core (R47, R412). -/
def State.placeOn (s : State) (r : Ready) (core : Nat) : State :=
  let p := r.part
  let k := r.slot
  let harts := (s.freeHarts core).take r.node.needs
  if r.node.saved.isSome then
    match s.restore p k harts with
    | (.pending, s1) => s1
    | (.malformed, s1) =>
      (s1.record 0x09 p { Who.none with node := s.handle p k } [r.node.saved.getD 0]).finishNode p k .failed
    | (.running, s1) =>
      let s2 := s1.updNode p k fun n => { n with state := .running, placedAt := s.ticks, since := s.now }
      (s2.updPart p (·.passed k)).killUnresolved p k
  else
    match s.joinGroup p (s.handle p k) r.node.record.group harts.length with
    | (.pending, s1) => s1
    | (.failed, s1) =>
      (s1.record 0x04 p { Who.none with core := core, node := s.handle p k } [r.node.record.group.toNat]).finishNode p k .failed
    | (.joined gid, s1) => (s1.launch p k r.node harts gid).updPart p (·.passed k)

/-- Whether a node's pass count is to be acted on (R45). -/
def Partition.due (x : Partition) (n : Node) : Bool :=
  n.state == .ready && decide (n.passes ≥ 4096) && (decide (n.level < 7) || x.reservation.isNone)

/-- R44: the dispatcher places at most one ready node, the first in its scan for which a core exists. Pass counts that
have reached 4,096 are acted on first. -/
def execPlaceNode (s : State) : Host.Outcome State Fault Refusal := .next (
  if s.parts.any fun p => p.2.nodes.any fun n => p.2.due n.2 then s else
  let choice := s.readyPool.findSome? fun r =>
    match s.part r.part with
    | some x => if x.specOk r.slot then (s.coreFor x r).map fun c => (r, c) else none
    | none => none
  match choice with
  | some (r, c) => s.placeOn r c
  | none => s)

/-- R45: a pass count of 4,096 raises the node's level, or makes it the partition's reservation. -/
def execPassCountReached (part slot : Nat) (s : State) : Host.Outcome State Fault Refusal := .next (
  match s.part part, s.node part slot with
  | some x, some n =>
    if !x.due n then s
    else if n.level < 7 then s.setNode part slot { n with level := n.level + 1, passes := 0 }
    else s.setPart part { x with reservation := some slot }
  | _, _ => s)

/-! ## Commits (R50, R51, R399) -/

/-- The runs of consecutive bytes of a shadow, each within a 64-byte line. -/
def shadowRuns (t : List (Nat × Byte)) : List (Nat × List Byte) :=
  t.foldr (fun x rs => match rs with
    | (a, bs) :: rest => if x.1 + 1 = a ∧ a % 64 ≠ 0 then (x.1, x.2 :: bs) :: rest else (x.1, [x.2]) :: (a, bs) :: rest
    | [] => [(x.1, [x.2])]) []

/-- Publishes one run of a node's shadow at the home of its address, its line logged and its poisoned bytes poisoned
(R50, R399, R270). DESIGN CHOICE: a run whose page has no present translation or no WRITE right at the commit is dropped, and the
node retires; R50 names no such case (log 38). -/
def State.publishRun (s : State) (p : Nat) (n : Node) (x : Nat × List Byte) : State :=
  let bad := (List.range x.2.length).filter fun i => n.shadowBad.contains (x.1 + i)
  match s.devPlace p x.1 needW with
  | .ok (.home key) => (s.logLine p (key / 64)).putChunk key ⟨x.2, bad⟩
  | .ok (.peer q key) =>
    (s.leavePart p).emit q (.write [(key, x.2)] false ((runsOf bad).map fun r => (key + r.1, r.2))) .none
  | _ => s

/-- Nodes a commit aborts (R51): placed, uncommitted, later, with a read extent that meets a write extent of the
committed node. A pre-empted node has been placed (log 38). -/
def Partition.aborted (x : Partition) (m : NodeRecord) : List Nat :=
  (x.nodes.filter fun e =>
    (e.2.state == .running || e.2.state == .commitWait || e.2.saved.isSome) &&
      decide (m.tstamp.toNat < e.2.record.tstamp.toNat) && extentsMeet e.2.record.readExtents m.writeExtents).map (·.1)

/-- Aborts a node (R51), its saved progress included. -/
def State.abortSaved (s : State) (p k : Nat) : State :=
  let s1 := match (s.node p k).bind (·.saved) with
    | some slot => s.freeSave p slot
    | none => s
  s1.abort p k

/-- R50: the COMMIT_WAIT node with the smallest timestamp publishes its shadows and retires; later nodes that overlap are
aborted, and a Keystone is recorded when it is due. -/
def State.commit (s : State) (p k : Nat) (n : Node) : State :=
  let s1 := (shadowRuns n.shadow).foldl (fun s r => s.publishRun p n r) s
  let s2 := s1.updPart p fun x => { x with
    commits := x.commits + 1, lastTs := some n.record.tstamp.toNat, sinceKeystone := x.sinceKeystone + 1 }
  let victims := ((s2.part p).map fun x => x.aborted n.record).getD []
  let s3 := victims.foldl (fun s j => s.abortSaved p j) (s2.finishNode p k .retired)
  s3.updPart p fun x =>
    if x.keystone ≠ 0 ∧ x.keystone.toNat ≤ x.sinceKeystone then x.takeKeystone s3.now s3.nextCommand
    else x.rebase s3.now s3.nextCommand

/-- R50. -/
def execNodeCommit (part : Nat) (s : State) : Host.Outcome State Fault Refusal := .next (
  match (s.part part).bind fun x => if x.det then x.oldest else none with
  | some (k, n) => if n.state = .commitWait then s.commit part k n else s
  | none => s)

end Sys2Proof.Machine
end

