-- ==== Sys2Proof/Machine/Engine.lean ====
section
/-!
DEFINITION. Engine.lean: ESUB and the engine commands (R312-R314), what the engines write (R324), collectives
(R374-R376), and XCOP (R315, R316, R386-R388).
-/

namespace Sys2Proof.Machine

/-! ## What an engine may read (R39, R250) -/

/-- The entry under which an engine reads an address of a partition. -/
def State.engineEntry (s : State) (p va : Nat) : Except Refused Entry :=
  match (s.walk p va).1 with
  | none => if inWindow va then .error .denied else .error .absent
  | some e => if s.granted p .engine e needR then .ok e else .error .denied

/-- The page addresses of a range. -/
def rangePages (va n : Nat) : List Nat :=
  if n = 0 then [] else (List.range ((va + n - 1) / 65536 + 1 - va / 65536)).map fun i => (va / 65536 + i) * 65536

/-- Whether a range names a page the partition may not read by an engine. -/
def State.rangeDenied (s : State) (p va n : Nat) : Bool :=
  (rangePages va n).any fun a => match s.engineEntry p a with
    | .error .denied => true
    | _ => false

/-- Counts an engine's read of n bytes: of a MODE 3 page on the die of the hart that submitted the command, and in the
channel of a local home (R278, R288). -/
def State.engineCount (s : State) (hart va n : Nat) (e : Entry) : State :=
  let s1 := s.countMigrate (dieOf (coreOf hart)) va e
  match s.placeOf e va with
  | .home key => s1.countLines key n false
  | _ => s1

/-- Records what the walks for the pages of a range skipped, for an engine (R274). -/
def State.recordPages (s : State) (p va n : Nat) : State :=
  (rangePages va n).foldl (fun s a => s.recordWalk p a Who.none (s.walk p a).2) s

/-- The walks for the pages of a range that an ESUB checks are recorded when it ends (R274). -/
def walked (p va n : Nat) : M Unit := do
  let s ← get
  (rangePages va n).forM fun a => match (s.walk p a).2 with
    | [] => pure ()
    | skipped => use (.walk a skipped)

/-- The accesses an engine makes while a command is submitted are counted when the ESUB ends (R278, R288). -/
def engineUses (va n : Nat) (e : Entry) : M Unit := do
  use (.access va e)
  let s ← get
  match s.placeOf e va with
  | .home key => use (.reads key n)
  | _ => pure ()

/-- Bytes an engine reads while a command is submitted: none when a page is not there; a peer is awaited. -/
def engineBytes (p va n : Nat) : M (Option (List Byte)) := do
  walked p va n
  let parts ← (cutLines (n / 64 + 2) va n).mapM fun x => do
    let s ← get
    match s.engineEntry p x.1 with
    | .error _ => pure none
    | .ok e =>
      let got ← match s.placeOf e x.1 with
        | .home key => pure (some (s.homeBytes key x.2))
        | .peer q key => do
          let r ← demand (2 ^ 102 + x.1) q (.read key x.2) [] [x.1 / 65536] false
          pure (if r.poison then none else some r.bytes)
        | .pad _ => pure none
      engineUses x.1 x.2 e
      pure got
  pure (if parts.all Option.isSome then some (parts.flatMap fun o => o.getD []) else none)

/-! ## Commands (R313, R314) -/

/-- The eight words of a command. -/
structure CmdWords where
  w : List Nat

def CmdWords.at (c : CmdWords) (i : Nat) : Nat := c.w.getD i 0
def CmdWords.op (c : CmdWords) : Nat := bits (c.at 0) 63 56
def CmdWords.peer (c : CmdWords) : Nat := bits (c.at 0) 55 47
def CmdWords.rop (c : CmdWords) : Nat := bits (c.at 0) 46 40
def CmdWords.fmt (c : CmdWords) : Nat := bits (c.at 0) 39 36
def CmdWords.len (c : CmdWords) : Nat := bits (c.at 0) 31 0
def CmdWords.src (c : CmdWords) : Nat := c.at 1
def CmdWords.handle (c : CmdWords) : Nat := bits (c.at 2) 31 0
def CmdWords.offset (c : CmdWords) : Nat := c.at 3
def CmdWords.count (c : CmdWords) : Nat := bits (c.at 4) 31 0

/-- Bytes a command charges (R314). -/
def CmdWords.bytes (c : CmdWords) : Nat := if c.op = 2 then c.len * c.count else c.len

/-- The fields are well formed, the group of a REDUCE apart (R313, R314 reason 1). -/
def CmdWords.ok (c : CmdWords) : Bool :=
  bits (c.at 0) 35 32 == 0 && bits (c.at 2) 63 32 == 0 && bits (c.at 4) 63 32 == 0 && c.at 5 == 0 && c.at 6 == 0 &&
    c.at 7 == 0 && c.len != 0 &&
  match c.op with
  | 1 => c.rop == 0 && c.fmt == 0 && c.count == 0
  | 2 => c.rop == 0 && c.fmt == 0
  | 3 => decide (c.rop ≤ 2) && (c.fmt == 2 || c.fmt == 3 || c.fmt == 7 || c.fmt == 8 || c.fmt == 9)
  | _ => false

/-- A partition's descriptor of a collective group: EN, RANK, N, and the address of the rank table (R374). -/
def Partition.collective (x : Partition) (g : Nat) : Bool × Nat × Nat × Nat :=
  let lo := ((tget x.coll (2 * g)).getD 0).toNat
  let hi := ((tget x.coll (2 * g + 1)).getD 0).toNat
  (bits lo 63 63 == 1, bits lo 24 16, bits lo 8 0, bits hi 56 1 * 2)

/-- A command's group is enabled and this device has a rank in it (R375). -/
def Partition.collectiveOk (x : Partition) (g : Nat) : Bool :=
  let (en, rank, n, _) := x.collective g
  decide (g ≤ 15) && en && decide (rank < n)

/-- What the checks of a command give: a reason, or the members of its collective. -/
abbrev Verdict := Except Nat (List Nat)

/-- Whether a collective's contributions leave the device: it has another member (R375). -/
def leaves (members : List Nat) : Bool := members.any fun q => q != 511

/-- Reasons 1 to 3 of R314, in order. The contributions of a REDUCE need EGRESS (R38, R39). -/
def verdict (p : Nat) (x : Partition) (c : CmdWords) : M Verdict := do
  if !c.ok || (c.op == 3 && !x.collectiveOk c.count) then pure (.error 1)
  else
    match x.bufferOf c.handle with
    | none => pure (.error 2)
    | some _ =>
      let s ← get
      let listed := c.op == 2
      walked p c.src (if listed then 0 else c.len)
      if !(s.rights p .memory .engine).getLsbD 1 || s.rangeDenied p c.src (if listed then 8 * c.count else c.len) then
        pure (.error 3)
      else if listed then
        match ← engineBytes p c.src (8 * c.count) with
        | none => pure (.ok [])
        | some bs =>
          let s ← get
          let rows := (List.range c.count).map fun i => leNat ((bs.drop (8 * i)).take 8)
          rows.forM fun a => walked p a c.len
          pure (if rows.any fun a => s.rangeDenied p a c.len then .error 3 else .ok [])
      else if c.op = 3 then
        let (_, _, n, table) := x.collective c.count
        match ← engineBytes p table (2 * n) with
        | none => pure (.error 3)
        | some bs =>
          let members := (List.range n).map fun i => leNat ((bs.drop (2 * i)).take 2)
          let s ← get
          pure (if leaves members && !(s.rights p .egress .engine).getLsbD 6 then .error 3 else .ok members)
      else pure (.ok [])

/-- The command as accepted; the k-th REDUCE of its group since enabling (R375). -/
def CmdWords.command (c : CmdWords) (p hart : Nat) (x : Partition) (barrier : Option (Option Nat × Nat))
    (members : List Nat) : Command where
  part := p
  hart := hart
  op := c.op
  slot := c.handle / 65536
  gen := c.handle % 65536
  offset := c.offset
  src := c.src
  len := c.len
  total := c.bytes
  written := 0
  barrier := barrier
  ended := c.bytes == 0
  unresolved := false
  batch := none
  fmt := c.fmt
  rop := c.rop
  resultPeer := c.peer
  group := c.count
  k := if c.op = 3 then (tget x.collCount c.count).getD 0 + 1 else 0
  rank := (x.collective c.count).2.1
  members := members
  sentShare := false
  row := none

/-- Puts an accepted command into the queue. -/
def State.addCommand (s : State) (c : Command) : State :=
  let s1 := { s with commands := tput s.commands s.nextCommand c, nextCommand := s.nextCommand + 1 }
  if c.op = 3 then s1.updPart c.part fun x => { x with collCount := tput x.collCount c.group c.k } else s1

/-- Commands in the engines' queue. -/
def State.queued (s : State) : Nat := (s.commands.filter fun c => !c.2.ended).length

/-- Whether a charge fits (R314 reason 5): asked of a barrier's home. `before` are the bytes of this instruction's
earlier commands. -/
def chargeFits (a : Word) (b : Option (Option Nat × Nat)) (c before n : Nat) : M Bool := do
  let s ← get
  match b with
  | none => pure true
  | some (none, key) => pure (decide (barPending (s.homeWord (key + 8)) + before + n ≤ 16777215))
  | some (some q, key) =>
    let r ← demand (2 ^ 103 + c) q (.object .charge key [BitVec.ofNat 64 n]) [] [a.toNat / 65536] false
    let ws ← answered a r
    pure (ws.headD 0 == aOk)

/-- Takes the active commands in order (R314): the reason of each, 0 when accepted; accepted commands are given back. -/
def takeCommands (a : Word) (p : Nat) (x : Partition) (barrier : Option (Option Nat × Nat)) (cs : List (Nat × CmdWords)) :
    M (List (Nat × Nat) × List (CmdWords × List Nat)) :=
  cs.foldlM (fun (acc : List (Nat × Nat) × List (CmdWords × List Nat)) (c : Nat × CmdWords) => do
    match ← verdict p x c.2 with
    | .error r => pure (acc.1 ++ [(c.1, r)], acc.2)
    | .ok members =>
      let s ← get
      let charged := s.curRank.requests.any fun q => q.key == 2 ^ 103 + c.1
      if !charged && decide (s.queued + acc.2.length ≥ Config.engineQueueDepth) then pure (acc.1 ++ [(c.1, 4)], acc.2)
      else
        let fits ← chargeFits a barrier c.1 (acc.2.map fun y => y.1.bytes).sum c.2.bytes
        if fits then pure (acc.1 ++ [(c.1, 0)], acc.2 ++ [(c.2, members)])
        else pure (acc.1 ++ [(c.1, 5)], acc.2)) ([], [])

/-- R312: submits engine commands. -/
def execEsub (md : Reg3) (fa rb : Reg) (mask : Reg3) (s : State) : Host.Outcome State Fault Refusal := instr (do
  let c ← captured mask
  let n := c.count / 8
  require (c.fmt == 3 && c.count % 8 == 0 && decide (n ≤ 64)) 8
  require (aligned c.grp [fa]) 4
  guarded
  let a := c.g.getS rb
  let barrier ← if a = 0 then pure none else do
    let (q, key) ← objectHome a 64
    let s ← get
    let ok ← match q with
      | none => pure (s.barOk key)
      | some q => remoteOk a q key barBytesOk
    require ok 11
    pure (some (q, key))
  let elems := (c.tile fa.toNat).toArray
  let s ← get
  let p := (s.hart s.cur).part
  match s.part p with
  | none => pure ()
  | some x =>
    let cmds := ((List.range n).filter fun i => c.mask.getLsbD (8 * i)).map fun i =>
      (i, (⟨(List.range 8).map fun j => elems.getD (8 * i + j) 0⟩ : CmdWords))
    let (reasons, accepted) ← takeCommands a p x barrier cmds
    accepted.forM fun e => change fun s =>
      let s1 := match barrier with
        | some (none, key) => (s.barCharge key e.1.bytes).getD s
        | _ => s
      s1.addCommand (e.1.command p s.cur ((s1.part p).getD x) barrier e.2)
    let bit := fun i => reasons.any fun r => r.1 == i && r.2 == 0
    let res := (List.range c.count).map fun k => decide (k < n) && bit k
    let old := c.g.getM md
    let m := (old >>> c.count) <<< c.count ||| maskFrom res
    updRegs fun g => g.setM md m
    updHart fun h => { h with esub := BitVec.ofNat 64 ((reasons.filter fun r => decide (r.1 < 16)).map fun r => r.2 * 16 ^ r.1).sum }
  enqueue 10 0 n n
  advance) s

/-! ## Transfers (R314, R324) -/

/-- What an engine's look at a source gives. -/
inductive EngineRead where
  | ready (bs : List Byte)
  | pending
  | absent (va : Nat)
  | failed
  deriving Repr

/-- Reads bytes of a source for a command of a hart; with the bytes or a failure its walks are recorded (R274). -/
def State.engineRead (s : State) (p hart va n : Nat) : EngineRead × State :=
  let xs := cutLines (n / 64 + 2) va n
  let es := xs.map fun x => (x, s.engineEntry p x.1)
  match es.find? fun e => match e.2 with | .ok _ => false | .error _ => true with
  | some (x, .error .absent) => (.absent x.1, s.recordPages p va n)
  | some _ => (.failed, s.recordPages p va n)
  | none =>
    let place := fun e : (Nat × Nat) × Except Refused Entry => match e.2 with
      | .ok y => s.placeOf y e.1.1
      | .error _ => .pad 0
    let ask := es.filterMap fun e => match place e with
      | .peer q key => some (q, Packet.read key e.1.2)
      | _ => none
    match s.fetchAll ask with
    | (none, s1) => (.pending, s1)
    | (some rs, s1) =>
      let parts := es.map fun e => match place e with
        | .home key => if (s1.poisonIn key e.1.2).isSome then none else some (s1.homeBytes key e.1.2)
        | .peer q key => match (ask.zip rs).find? fun r => r.1 == (q, Packet.read key e.1.2) with
          | some (_, r) => if r.poison then none else some ((List.range e.1.2).map fun i => r.bytes.getD i 0)
          | none => none
        | .pad _ => none
      let s2 := es.foldl (fun s e => match e.2 with
        | .ok y => s.engineCount hart e.1.1 e.1.2 y
        | .error _ => s) (s1.recordPages p va n)
      if parts.all Option.isSome then (.ready (parts.flatMap fun o => o.getD []), s2) else (.failed, s2)

/-- A command ends unresolved (R314). -/
def State.endUnresolved (s : State) (c : Nat) : State := s.failCommand c

/-- Changes a command. -/
def State.setCommand (s : State) (c : Nat) (x : Command) : State := { s with commands := tput s.commands c x }

/-- Writes bytes of a command at its next position into the shadow of its buffer, within its size (R313, R324; log 18),
and counts them off its barrier. -/
def State.engineStore (s : State) (c : Nat) (x : Command) (bs : List Byte) (store : Bool) : State :=
  let n := bs.length
  let s1 := s.setCommand c { x with written := x.written + n, ended := decide (x.written + n ≥ x.total) }
  let s2 := if store then s1.updPart x.part fun y => match tget y.buffers x.slot with
      | some b =>
        let off := (x.offset + x.written) % 2 ^ 64
        { y with buffers := tput y.buffers x.slot { b with shadow := putBytes b.shadow off (bs.take (b.size - min off b.size)) } }
      | none => y
    else s1
  match x.barrier with
  | none => s2
  | some (none, key) => (s2.logLine x.part (key / 64)).barDischarge x.part key n
  | some (some q, key) => s2.emit q (.object .discharge key [BitVec.ofNat 64 n]) .none

/-- A fault of a command goes to the pager, and the transfer waits for the reply (R314). -/
def State.engineFault (s : State) (c : Nat) (x : Command) (va : Nat) : State :=
  let s1 := s.setCommand c { x with batch := some s.nextBatch }
  s1.sendBatch (.engine c) (batchReport x.part 3 1 (BitVec.ofNat 64 x.src) [] [] 0 [pageOf va])

/-- Reads the address of the row of a GATHER that begins. -/
def State.nextRow (s : State) (c : Nat) (x : Command) (i left : Nat) (at_ : Nat → Option Nat) :
    Option Nat × Nat × EngineRead × State :=
  match s.engineRead x.part x.hart ((x.src + 8 * i) % 2 ^ 64) 8 with
  | (.ready bs, s1) => (at_ (leNat bs), left, .ready [], s1.setCommand c { x with row := some (i, leNat bs) })
  | (r, s1) => (none, 0, r, s1)

/-- The source address of a command's next byte, and how many bytes lie there (R313). The address of a row of a GATHER is read
once, when the row begins. -/
def State.engineSource (s : State) (c : Nat) (x : Command) : Option Nat × Nat × EngineRead × State :=
  if x.op = 2 then
    let i := x.written / max x.len 1
    let left := x.len - x.written % max x.len 1
    let at_ := fun a : Nat => some ((a + x.written % max x.len 1) % 2 ^ 64)
    match x.row with
    | some (j, a) => if j = i then (at_ a, left, .ready [], s) else s.nextRow c x i left at_
    | none => s.nextRow c x i left at_
  else (some ((x.src + x.written) % 2 ^ 64), x.total - x.written, .ready [], s)

/-! ## Collectives (R375, R376) -/

/-- The header of a command's contribution: LEN, ROP, FMT, PEER, N and the rank table, this device under its own number, so
that members that disagree can be told (R374, R376). -/
def Command.header (x : Command) : List Nat :=
  [x.len, x.rop, x.fmt, x.resultPeer, x.members.length] ++ x.members.map fun q => if q = 511 then Config.ownPeer else q

/-- Whether a share belongs to a command's collective. -/
def Share.of (y : Share) (x : Command) : Bool := y.part == x.part && y.group == x.group && y.k == x.k

/-- Whether two parts belong to one contribution. -/
def Share.same (y z : Share) : Bool :=
  y.part == z.part && y.group == z.group && y.k == z.k && y.rank == z.rank && y.source == z.source && y.header == z.header

/-- Adds a part of a contribution. -/
def State.addShare (s : State) (y : Share) : State :=
  if s.shares.any y.same then
    { s with shares := s.shares.map fun z => if y.same z then { z with data := z.data ++ y.data } else z }
  else { s with shares := s.shares ++ [y] }

/-- The other devices among some numbers of members, each once: 511 is this device, which the members' tables also name by
its number (R374). -/
def otherDevices (members : List Nat) : List Nat :=
  (members.filter fun q => q != 511 && q != Config.ownPeer).eraseDups

/-- Sends a contribution to other devices, at most 256 bytes to a packet (R365). It leaves the partition (R399). -/
def State.sendShare (s : State) (c : Nat) (x : Command) (dests : List Nat) (header : List Nat) (bs : List Byte) : State :=
  dests.foldl (fun s q =>
    (List.range (max 1 (ceilDiv bs.length 256))).foldl (fun s i =>
      (s.leavePart x.part).emit q
        (.reduce x.part x.group x.k x.rank header (256 * i) ((bs.drop (256 * i)).take 256)) (.engine c)) s) s

/-- A collective fails on this member (R376), which tells the other members of its table and those it has heard from by an
empty header (log 27). -/
def State.failCollective (s : State) (c : Nat) (x : Command) : State :=
  let heard := (s.shares.filter fun y => y.of x).map (·.source)
  let s1 := s.sendShare c x (otherDevices (x.members ++ heard)) [] []
  let s2 := (s1.failCommand c).record 0x0C x.part Who.none [x.group, x.k]
  { s2 with shares := s2.shares.filter fun y => !y.of x }

/-- A contribution arrives from another device (R375). One to a collective that has ended here is answered by an empty header,
so that its sender, which holds this device a member, fails it too (R376; log 27). -/
def State.shareArrives (s : State) (y : Share) : State :=
  let begun := match s.part y.part with
    | some x => decide (y.k ≤ (tget x.collCount y.group).getD 0)
    | none => false
  if !begun || s.commands.any (fun c => c.2.op == 3 && !c.2.ended && y.of c.2) then s.addShare y
  else if y.header.isEmpty then s
  else s.emit y.source (.reduce y.part y.group y.k y.rank [] 0 []) .none

/-- A share's data in order, once all of it is there. -/
def Share.whole (y : Share) : Option (List Byte) :=
  let n := y.header.headD 0
  let a := y.data.foldl (fun (a : Array (Option Byte)) d =>
    ((List.range d.2.length).zip d.2).foldl (fun a b => a.setIfInBounds (d.1 + b.1) (some b.2)) a) (Array.replicate n none)
  if a.toList.all Option.isSome then some (a.toList.map fun o => o.getD 0) else none

/-- The result of a collective from its contributions in rank order (R375): the tree of R139, element by element. -/
def collectiveResult (fmt rop : Nat) (parts : List (List Byte)) : List Byte :=
  let w := fmtWidth fmt / 8
  let len := (parts.headD []).length
  (List.range (len / w)).flatMap fun i =>
    let leaves := (parts.map fun b => leNat ((b.drop (w * i)).take w)).toArray
    let t := fixedTree (plainTree fmt Mode.rne rop false leaves none) (fun _ => true) parts.length
    leBytes w (t.val.getD 0)

/-- Whether a contribution agrees with a member's own view of the collective: its header, and its rank, which the rank table
gives to the device it comes from (R374, R376). -/
def Command.agrees (x : Command) (y : Share) : Bool := y.header == x.header && x.members[y.rank]? == some y.source

/-- One step of a REDUCE: its own contribution leaves, or, with every contribution there, bytes of the result are
written on the members that hold it. With a failed member the collective fails (R376). -/
def State.reduceStep (s : State) (c : Nat) (x : Command) (count : Nat) : State :=
  if x.members.any fun q => q != 511 && (s.peer q).failed then s.failCollective c x
  else if !x.sentShare then
    match s.engineRead x.part x.hart x.src x.len with
    | (.ready bs, s1) =>
      let s2 := (s1.setCommand c { x with sentShare := true }).addShare
        ⟨x.part, x.group, x.k, x.rank, 511, x.header, [(0, bs)]⟩
      s2.sendShare c x (otherDevices x.members) x.header bs
    | (.pending, s1) => s1
    | (.absent va, s1) => s1.engineFault c x va
    | (.failed, s1) => s1.failCollective c x
  else
    let mine := s.shares.filter fun y => y.of x
    if mine.any fun y => !x.agrees y then s.failCollective c x
    else
      let parts := (List.range x.members.length).map fun r => (mine.find? fun y => y.rank == r).bind Share.whole
      if parts.all Option.isSome then
        let w := fmtWidth x.fmt / 8
        let out := collectiveResult x.fmt x.rop (parts.map fun o => o.getD [])
        let (rest, s1) := s.freeBytes (x.len % w)
        let n := min count (x.total - x.written)
        let holds := x.resultPeer == 511 || x.resultPeer == Config.ownPeer
        let s2 := s1.engineStore c x (((out ++ rest).drop x.written).take n) holds
        if x.written + n ≥ x.total then { s2 with shares := s2.shares.filter fun y => !y.of x } else s2
      else s

/-- Moves up to `left` bytes of a COPY or GATHER. -/
def State.moveStep (s : State) (c left fuel : Nat) : State :=
  match fuel with
  | 0 => s
  | fuel + 1 =>
    match tget s.commands c with
    | none => s
    | some x =>
      if x.ended || left = 0 then s else
      match s.engineSource c x with
      | (some va, there, _, s1) =>
        let n := min (min left there) (64 - va % 64)
        let y := (tget s1.commands c).getD x
        match s1.engineRead x.part x.hart va n with
        | (.ready bs, s2) => (s2.engineStore c y bs true).moveStep c (left - n) fuel
        | (.pending, s2) => s2
        | (.absent a, s2) => s2.engineFault c y a
        | (.failed, s2) => s2.endUnresolved c
      | (none, _, .absent a, s1) => s1.engineFault c x a
      | (none, _, .failed, s1) => s1.endUnresolved c
      | (none, _, _, s1) => s1

/-- R324: an accepted command writes some of its bytes. -/
def execEngineWrite (command count : Nat) (s : State) : Host.Outcome State Fault Refusal := .next (
  match tget s.commands command with
  | none => s
  | some x =>
    if x.ended || x.batch.isSome then s
    else if x.op = 3 then s.reduceStep command x count
    else s.moveStep command count (count + 1))

/-! ## XCOP (R315, R316) -/

/-- Queues an XCOP and goes on. -/
def xcopDone : M Unit := do
  enqueue 10 0 1 1
  advance

/-- R315 code 0x01: 64 bits of the core's random source are free values (log 31). -/
def execXcopRandom (rd _ra _rb : Reg) (s : State) : Host.Outcome State Fault Refusal := instr (do
  drainQueue
  let w ← freshFree
  writeS rd w
  xcopDone) s

/-- A write of MARGIN_SET (R386): a change of STEP gates the core's issue for 512 cycles. -/
def Core.writeMargin (c : Core) (v : Nat) : Core :=
  let step := min (bits v 7 0) c.floor
  let c1 := { c with esc := bits v 9 8, stepPoint := step }
  if step = c.stepPoint then c1 else { c1.count 1 512 with settling := true }

/-- R386: code 0x08. -/
def execXcopMarginSet (ra _rb : Reg) (s : State) : Host.Outcome State Fault Refusal := instr (do
  drainQueue
  let g ← curRegs
  require (g.tl != 0) 7
  guarded
  change fun s => s.updCore (coreOf s.cur) fun c => c.writeMargin (g.getS ra).toNat
  xcopDone) s

/-- R387: code 0x09. -/
def execXcopReplayLimit (ra _rb : Reg) (s : State) : Host.Outcome State Fault Refusal := instr (do
  drainQueue
  let g ← curRegs
  require (g.tl != 0) 7
  guarded
  let v := (g.getS ra).toNat
  change fun s => s.updCore (coreOf s.cur) fun c => { c with window := bits v 39 16, limit := bits v 15 0 }
  xcopDone) s

/-- R388: code 0x0A. -/
def execXcopReplayCountClear (_ra _rb : Reg) (s : State) : Host.Outcome State Fault Refusal := instr (do
  drainQueue
  let g ← curRegs
  require (g.tl != 0) 7
  guarded
  change fun s => s.updCore (coreOf s.cur) fun c => { c with escn := 0, wincnt := 0, total := 0 }
  xcopDone) s

/-- R316: code 0x10. -/
def execXcopCounterRead (rd ra _rb : Reg) (s : State) : Host.Outcome State Fault Refusal := instr (do
  drainQueue
  let g ← curRegs
  let n := (g.getS ra).toNat
  require (decide (n < 8)) 6
  let s ← get
  writeS rd (BitVec.ofNat 64 ((s.core (coreOf s.cur)).counters.toList.getD n 0))
  xcopDone) s

/-- R316: code 0x11. -/
def execXcopCounterClear (ra _rb : Reg) (s : State) : Host.Outcome State Fault Refusal := instr (do
  drainQueue
  let g ← curRegs
  let n := (g.getS ra).toNat
  require (decide (n < 8)) 6
  guarded
  change fun s => s.updCore (coreOf s.cur) fun c => { c with counters := c.counters.setIfInBounds n 0 }
  xcopDone) s

/-- R315 code 0x20: the reasons of the hart's last ESUB. -/
def execXcopEsubReasons (rd _ra _rb : Reg) (s : State) : Host.Outcome State Fault Refusal := instr (do
  drainQueue
  let h ← curHart
  writeS rd h.esub
  xcopDone) s

end Sys2Proof.Machine
end

