-- ==== Sys2Proof/Machine/Migrate.lean ====
section
/-!
DEFINITION. Migrate.lean: the entries of the inverted tables as the pager and Silven write them (R273, R283, R286), and the
copying of a migrating page line by line to its remapping (R284, R285).
-/

namespace Sys2Proof.Machine

/-! ## Entries and chains (R273, R274, R286) -/

/-- The channel hash and key a page mapped in pools 0-7 gets (R286). -/
def Partition.hashOf (x : Partition) (vpn : Nat) : Nat × Nat :=
  let ranges := (List.range 32).map fun i => (((tget x.chr (2 * i)).getD 0).toNat, ((tget x.chr (2 * i + 1)).getD 0).toNat)
  match ranges.find? fun r => bits r.1 63 63 == 1 && decide (bits r.1 56 16 ≤ vpn) && decide (vpn ≤ bits r.2 56 16) with
  | some (lo, hi) => (bits hi 63 62, bits lo 15 0)
  | none => (0, 0)

/-- The reference that names a frame. -/
def frameRef (pool frame : Nat) : Nat := 2 ^ 31 + pool * 2 ^ 25 + frame

/-- The 32 bytes of the entry that maps a page of a partition's context, with MIG, MIGREQ and ACNT 0 (R273). -/
def State.entryBytes (s : State) (p ctx next : Nat) (x : PageMap) : List Byte :=
  let vpn := x.page / 65536
  let (hash, key) := if x.pool < 8 then ((s.part p).map (·.hashOf vpn)).getD (0, 0) else (0, 0)
  leBytes 8 (2 ^ 63 + x.large.toNat * 2 ^ 62 + p * 2 ^ 56 + ctx * 2 ^ 46 + vpn) ++
    leBytes 8 (x.peer * 2 ^ 55 + x.mode * 2 ^ 53 + x.r.toNat * 2 ^ 52 + x.w.toNat * 2 ^ 51 + x.x.toNat * 2 ^ 50 +
      x.sd.toNat * 2 ^ 49 + x.wcls.toNat * 2 ^ 48 + hash * 2 ^ 46 + x.thr * 2 ^ 40) ++
    leBytes 8 next ++ leBytes 8 (key * 2 ^ 32 + (if x.pool = 15 then x.rframe else 0))

/-- A page is mapped: its entry is written, at the head of the chain of its anchor (R274). -/
def State.makeResident (s : State) (p : Nat) (x : PageMap) : State :=
  let cell := s.anchorCell (p * 1024) (x.page / 65536)
  let s1 := s.writeTbl (s.entryAddr x.pool x.frame) (s.entryBytes p 0 (s.readTbl cell 4) x)
  s1.writeTbl cell (leBytes 4 (frameRef x.pool x.frame))

/-- The cell of a chain, from the cell of a reference on, that holds a given reference (R274). -/
def State.cellOf (s : State) (cell ref fuel : Nat) : Option Nat :=
  match fuel with
  | 0 => none
  | fuel + 1 =>
    let r := s.readTbl cell 4
    if r = ref then some cell
    else if bits r 31 31 != 1 || !s.refOk r then none
    else s.cellOf (s.entryAddr (bits r 28 25) (bits r 24 0) + 16) ref fuel

/-! ## Remapping (R284 step 3) -/

/-- The mode of a page once it has moved (R277): MODE 3 stays where the pairing allows it, and a page in pool 15 is reached
as before, or directly (log 29). -/
def movedMode (mode pool : Nat) : Nat :=
  if pool = 15 then max mode 1 else if pool = 8 ∧ mode = 3 then 3 else 0

/-- R284, step 3: G's entry is written in F's place of the chain, F's entry loses V, and the page is invalidated as TLBI.va
does. -/
def State.remap (s : State) (m : Migration) : State :=
  let fp := homePool m.source
  let ff := homeFrame m.source
  let gp := homePool m.target
  let gf := homeFrame m.target
  let (e, next, _) := s.entryAt fp ff
  let a := s.entryAddr fp ff
  let x : PageMap := {
    page := e.vpn * 65536, large := false, pool := gp, frame := gf, peer := if gp = 15 then m.peer else 511
    mode := movedMode e.mode gp, r := e.r, w := e.w, x := e.x, sd := e.sd, wcls := e.wcls, thr := e.thr, rframe := m.rframe }
  let s1 := s.writeTbl (s.entryAddr gp gf) (s.entryBytes e.part e.ctx next x)
  let s2 := match s.cellOf (s.anchorCell (e.part * 1024 + e.ctx) e.vpn) (frameRef fp ff) 129 with
    | some cell => s1.writeTbl cell (leBytes 4 (frameRef gp gf))
    | none => s1
  (s2.writeTbl a (leBytes 8 (s2.readTbl a 8 % 2 ^ 63))).invalidatePage e.part (e.vpn * 65536)

/-! ## Copying lines (R284 step 2) -/

/-- Where a home named by peer and key stands once the lines copied so far have moved. -/
def State.moved (s : State) (b : Option Nat × Nat) : Option Nat × Nat :=
  let local_ := fun pl : Place => match pl with
    | .peer q key => (some q, key)
    | .home key => (none, s.redirect key)
    | .pad off => (none, off)
  match b.1 with
  | none => local_ (s.forward (.home b.2))
  | some q => local_ (s.forward (.peer q b.2))

/-- A peer's waiting ACQ of an object that has moved to another device goes on to it; a hart's own asks again at its next
turn (R285). -/
def State.forwardAcq (s : State) (peer key : Nat) (w : Waiter) : State :=
  match w with
  | .peer q n holder => s.emit peer (.object .acq key [holder]) (.forward q n)
  | .hart .. => s

/-- The objects in a line that has moved: barriers, charges and waiting ACQs go with it. -/
def State.rekey (s : State) : State :=
  let charge := fun b : Option Nat × Nat => s.moved b
  let acqs := s.acqs.map fun a => (s.moved (none, a.1), a.2)
  let s1 := { s with
    barriers := s.barriers.map fun b => { b with peer := (s.moved (b.peer, b.key)).1, key := (s.moved (b.peer, b.key)).2 }
    acqs := acqs.filterMap fun a => if a.1.1.isNone then some (a.1.2, a.2) else none
    commands := s.commands.map fun c => (c.1, { c.2 with barrier := c.2.barrier.map charge })
    cores := s.cores.map fun c => (c.1, { c.2 with channels := c.2.channels.map fun ch =>
      { ch with queue := ch.queue.map fun t => { t with charges := t.charges.map fun c =>
          { c with peer := (s.moved (c.peer, c.key)).1, key := (s.moved (c.peer, c.key)).2 } } } }) }
  acqs.foldl (fun s a => match a.1.1 with
    | some q => s.forwardAcq q a.1.2 a.2
    | none => s) s1

/-- Writes the migration of a source frame. -/
def State.setMigration (s : State) (m : Migration) : State :=
  let put := fun x : Migration => if x.source = m.source then m else x
  { s with migrations := s.migrations.map put }

/-- The next line of a migrating page reaches G, some of its bytes poisoned; when it was the last, step 3 follows. -/
def State.lineCopied (s : State) (m : Migration) (bs : List Byte) (bad : List Nat) : State :=
  let t := m.target + 64 * m.copied
  let s1 :=
    if m.away then
      let key := m.awayKey (m.source + 64 * m.copied)
      s.emit m.peer (.write [(key, bs)] false (bad.map fun i => (key + i, 1))) (.migration m.source)
    else { s with
      mem := putBytes s.mem t bs
      poisoned := bad.map (fun i => (t + i, 1)) ++ clearRange s.poisoned t 64 }.countChannel t true
  let s2 := (s1.setMigration { m with copied := m.copied + 1, asked := false }).rekey
  if m.copied = 1023 then s2.remap m else s2

/-- Whether an access that could write the page a migration moves from a peer is on its way in this device (R284). -/
def State.pageBusy (s : State) (q first : Nat) : Bool :=
  let inside := fun key : Nat => decide (first ≤ key) && decide (key < first + 65536)
  s.harts.any fun h =>
    (h.2.sb.any fun e => e.peer == some q && e.parts.any fun x => inside x.key) ||
      h.2.translations.any fun y => y.2.pool == 15 && y.2.peer == q && y.2.peerFirst == first

/-- The bytes of which no store may wait in a store buffer when the next line of a page in memory is copied: the line, when
its accesses go to a peer from then on; the page, when its remapping follows (R324, R325). -/
def Migration.settles (m : Migration) : Nat × Nat :=
  if m.copied = 1023 then (m.source, 65536) else if m.away then (m.source + 64 * m.copied, 64) else (m.source, 0)

/-- Drains from every store buffer what lies in n bytes at a home. -/
def State.drainHome (s : State) (key n : Nat) : State :=
  s.harts.foldl (fun s h => s.drainAll h.1 fun e => !e.held && e.meets none key n) s

/-- R284, step 2: the next line of a migration is copied; from a peer's home, by a read over the fabric. A store buffer names
its bytes by their old home, so that the stores there are performed before later accesses name another: a hart's loads find
its own stores, and its stores to one byte keep their order, across the move (R324, R325). -/
def State.copyLine (s : State) (m : Migration) : State :=
  if m.copied ≥ 1024 then s else
  match s.oldPeer m with
  | none =>
    let a := m.source + 64 * m.copied
    let s1 := s.drainHome m.settles.1 m.settles.2
    if s1.harts.any fun h => h.2.sb.any fun e => e.meets none m.settles.1 m.settles.2 then s1
    else (s1.countChannel a false).lineCopied m (getBytes s1.mem a 64) (s1.badBytes a 64)
  | some (q, first) =>
    if !m.asked && s.pageBusy q first then s else
    match (s.setMigration { m with asked := true }).fetch q (.read (first + 64 * m.copied) 64) with
    | (none, s1) => s1
    | (some r, s1) =>
      if r.poison then s1.lineCopied m (List.replicate 64 0) (List.range 64)
      else s1.lineCopied m ((List.range 64).map fun i => r.bytes.getD i 0) []

end Sys2Proof.Machine
end

