-- ==== Sys2Proof/Machine/Schedule.lean ====
section
/-!
DEFINITION. Schedule.lean: the Viaduct schedule tables: START, STOP and loading (R58, R61, R62), the cycle of a running
table (R67-R71), and arriving slot messages (R66).
-/

namespace Sys2Proof.Machine

/-! ## Entries (R56) -/

def SchedEntry.kind (e : SchedEntry) : Nat := bits e.word0.toNat 63 62
def SchedEntry.mb (e : SchedEntry) : Nat := bits e.word0.toNat 61 50
def SchedEntry.stash (e : SchedEntry) : Nat := bits e.word0.toNat 49 44
def SchedEntry.up (e : SchedEntry) : Nat := bits e.word0.toNat 43 35
def SchedEntry.down (e : SchedEntry) : Nat := bits e.word0.toNat 34 26

/-- Whether an entry and its fourth word are well formed (R56, R61). -/
def SchedEntry.ok (e : SchedEntry) (word3 : Nat) : Bool :=
  let peer := fun n : Nat => decide (n < 384) || n == 511
  bits e.word0.toNat 25 0 == 0 && word3 == 0 && peer e.up && peer e.down && (e.kind == 0 || e.template.toNat % 128 == 0)

/-! ## START and STOP (R58, R61, R62) -/

/-- The bits of SCHED_CTL that a write changes. -/
def schedCtlMask : Word := 0x00FFFFFFFFFC0700

/-- Whether a configuration is valid (R61). -/
def SchedTable.configOk (x : SchedTable) : Bool :=
  let c := x.ctl.toNat
  let within := fun lo hi n : Nat => decide (lo ≤ n) && decide (n ≤ hi)
  within 1 512 (bits c 27 18) && within 1 64 (bits c 34 28) && within 1 64 (bits c 41 35) && within 0 64 (bits c 48 42) &&
    within 0 64 (bits c 55 49) && x.base.toNat % 32 == 0 && x.slotBytes.toNat % 64 == 0 && within 64 1048576 x.slotBytes.toNat

/-- The seal words of both areas: address, area, slot (R64). -/
def SchedTable.sealWords (x : SchedTable) : List (Nat × Bool × Nat) :=
  let z := (x.latched.getD 4 0).toNat
  let area : Word → Bool → Nat → List (Nat × Bool × Nat) := fun base act n =>
    (List.range n).map fun i => ((base.toNat + i * z + z - 8) % 2 ^ 64, act, i)
  area (x.latched.getD 2 0) true x.actSlots ++ area (x.latched.getD 3 0) false x.gradSlots

/-- The homes of the seal words that a local page of pools 0-8 holds (R62). -/
def State.sealHomes (s : State) (p : Nat) (x : SchedTable) : List (Nat × Bool × Nat) :=
  x.sealWords.filterMap fun w => match (s.walk p w.1).1 with
    | some e => match e.place w.1 with
      | .home key => some (key, w.2)
      | _ => none
    | none => none

/-- What START latches and clears (R62). -/
def SchedTable.begin (x : SchedTable) : SchedTable :=
  { x with
    latched := [x.ctl, x.base, x.actBase, x.gradBase, x.slotBytes]
    state := .loading
    err := 0
    stall := 7
    fscUp := bits x.ctl.toNat 55 49
    fscDown := bits x.ctl.toNat 48 42
    head := 0
    entries := []
    stash := []
    actFilled := []
    gradFilled := []
    seals := []
    retired := []
    bub := Vector.replicate 7 0
    run := x.run + 1 }

/-- START in a state that takes it (R61, R62): the configuration is checked before the partition's DET. The homes of the
seal words are fixed as loading begins (log 39). -/
def State.schedStart (s : State) (p t : Nat) : State :=
  let x := s.sched t
  if !x.configOk then s.setSched t { x with err := 0x08 }
  else if ((s.part p).map (·.det)).getD false then s.setSched t { x with err := 0x03 }
  else
    let y := x.begin
    s.setSched t { y with seals := s.sealHomes p y }

/-- STOP (R61, R63). DESIGN CHOICE: STOP of a running table that has no live node leaves it in IDLE in the same step; R61
gives the way from STOPPING to IDLE only when the last table node ends (log 44). -/
def State.schedStop (s : State) (t : Nat) : State :=
  let x := s.sched t
  match x.state with
  | .running => (s.setSched t { x with
      state := .stopping, stall := 7, dropEntries := x.dropEntries + BitVec.ofNat 32 (x.len - x.head) }).schedSettle t
  | .loading => s.setSched t { x with state := .idle, stall := 7 }
  | _ => s

/-- A write of SCHED_CTL that has passed the access checks (R58). -/
def State.writeSchedCtl (s : State) (p t : Nat) (v : Word) : State :=
  let x := s.sched t
  match x.state with
  | .idle | .done | .faulted =>
    let s1 := s.setSched t { x with ctl := v &&& schedCtlMask }
    if v.getLsbD 0 then s1.schedStart p t else s1
  | _ => if v.getLsbD 1 then s.schedStop t else s

/-- A host access to a register of a schedule block passes the checks of R57; a denied one is recorded (R39). -/
def State.schedAccess (s : State) (p t offset : Nat) (f : State → State) : State :=
  match s.part p with
  | none => s
  | some x =>
    if x.teardown ≠ .none then s
    else if x.tables.contains t && (s.rights p .dispatcher .host).getLsbD 5 then f s
    else s.hostDenied p offset .dispatcher

/-- R62: a write of SCHED_CTL with START. -/
def execSchedStart (part table : Nat) (value : Word) (s : State) : Host.Outcome State Fault Refusal := .next (
  s.schedAccess part table (0x1000 + 0x100 * table) fun s => s.writeSchedCtl part table (value ||| 1))

/-- R61: a write of SCHED_CTL with STOP. -/
def execSchedStop (part table : Nat) (value : Word) (s : State) : Host.Outcome State Fault Refusal := .next (
  s.schedAccess part table (0x1000 + 0x100 * table) fun s => s.writeSchedCtl part table (value ||| 2))

/-- The entries of an array and whether all are well formed. -/
def entriesOf (n : Nat) (bs : List Byte) : List SchedEntry × Bool :=
  let es := (List.range n).map fun i =>
    let w := fun j => leNat ((bs.drop (32 * i + 8 * j)).take 8)
    ((⟨BitVec.ofNat 64 (w 0), BitVec.ofNat 64 (w 1), BitVec.ofNat 64 (w 2)⟩ : SchedEntry), w 3)
  (es.map (·.1), es.all fun e => e.1.ok e.2)

/-- R61: loading ends. -/
def execSchedLoadComplete (table : Nat) (s : State) : Host.Outcome State Fault Refusal := .next (
  let x := s.sched table
  match s.tableOwner table with
  | none => s
  | some p =>
    if x.state ≠ .loading then s
    else match s.readRanges p [((x.latched.getD 1 0).toNat, 32 * x.len)] with
      | (.pending, s1) => s1
      | (.unreadable, s1) => s1.schedFault table 0x01
      | (.ready bss, s1) =>
        let (es, ok) := entriesOf x.len bss.flatten
        if !ok then s1.schedFault table 0x02
        else if x.seals.length < x.actSlots + x.gradSlots then s1.schedFault table 0x09
        else s1.setSched table { x with state := .running, entries := es })

/-! ## Issue (R67-R69) -/

/-- Whether a receive slot holds a micro-batch. -/
def SchedTable.filled (x : SchedTable) (act : Bool) (mb : Nat) : Bool := (x.slotOf act mb).isSome

/-- HEAD's conditions in the order input, stash, downstream (R67). -/
def SchedTable.conditions (x : SchedTable) (e : SchedEntry) : Bool × Bool × Bool :=
  match e.kind with
  | 1 => (e.up == 511 || x.filled true e.mb, (tget x.stash e.stash).isNone, e.down == 511 || decide (0 < x.fscDown))
  | 2 =>
    let forward := ((List.range x.entries.length).zip x.entries).any fun f =>
      f.2.kind == 1 && f.2.mb == e.mb && x.retired.contains f.1
    (if e.down = 511 then forward else x.filled false e.mb, tget x.stash e.stash == some e.mb,
      e.up == 511 || decide (0 < x.fscUp))
  | 3 =>
    let all := ((List.range x.head).zip x.entries).all fun f => f.2.kind == 0 || x.retired.contains f.1
    (all, true, true)
  | _ => (true, true, true)

/-- The counter, which is also the STALL code, of a cycle whose HEAD fails first as given, no node running (R71). -/
def SchedTable.stallOf (x : SchedTable) (c : Bool × Bool × Bool) : Nat :=
  if !c.1 then
    if (x.entries.drop x.head).all fun e => e.kind != 1 then 2
    else if (x.entries.take x.head).all fun e => e.kind != 2 then 1 else 3
  else if !c.2.1 then 4
  else if !c.2.2 then 5
  else 6

/-- The effects of issuing an entry (R68). -/
def SchedTable.issue (x : SchedTable) (e : SchedEntry) : SchedTable :=
  let y := { x with head := x.head + 1 }
  match e.kind with
  | 1 => { y with stash := tput y.stash e.stash e.mb, fscDown := if e.down = 511 then y.fscDown else y.fscDown - 1 }
  | 2 => { y with fscUp := if e.up = 511 then y.fscUp else y.fscUp - 1 }
  | _ => y

/-- The issue check at HEAD (R67-R69). -/
def State.schedIssue (s : State) (p t : Nat) (e : SchedEntry) : State :=
  let x := s.sched t
  if e.kind = 0 then s.setSched t (x.issue e)
  else
    match s.makeNode p e.template.toNat (some ⟨t, x.head, x.run, bits x.latchedCtl 10 8, e⟩) with
    | (.pending, s1) => s1
    | (.made st _, s1) =>
      if st = 0 then s1.setSched t ((s1.sched t).issue e)
      else if st = 0x0A then s1
      else s1.schedFault t 0x04

/-- One cycle charged (R60, R71). -/
def SchedTable.charge (x : SchedTable) (k : Nat) : SchedTable :=
  { x with
    bub := x.bub.setIfInBounds k (min (x.bub.toList.getD k 0 + 1) 0xFFFFFFFFFFFF)
    stall := k }

/-- R70: one cycle of a running table. Seals, slot messages and retirements have been applied as they came. DESIGN CHOICE: a
cycle in which HEAD's condition fails while an issued node waits in READY is charged to the failing condition, as R71's
table gives it, although R71's list of cases for BUB_CORE names a node in the ready pool (log 44). -/
def execSchedCycle (table : Nat) (s : State) : Host.Outcome State Fault Refusal := .next (
  let x := s.sched table
  match s.tableOwner table with
  | none => s
  | some p =>
    if x.state ≠ SchedState.running then s
    else
      let entry := x.entries[x.head]?
      let conds := (entry.map x.conditions).getD (true, true, true)
      let s1 := match entry with
        | some e => if conds = (true, true, true) then s.schedIssue p table e else s
        | none => s
      let y := s1.sched table
      if y.state ≠ SchedState.running then s1
      else
        let busy := (((s1.part p).map fun z => z.tableNodes table y.run).getD []).any fun n => n.state == .running
        (s1.setSched table (y.charge (if busy then 0 else x.stallOf conds))).schedSettle table)

/-! ## Slot messages (R66) -/

/-- A slot message arrives at a table. -/
def State.slotArrive (s : State) (t : Nat) (activation : Bool) : State :=
  let x := s.sched t
  if x.state ≠ .running then s.setSched t { x with dropMsgs := x.dropMsgs + 1 }
  else
    let n := (if activation then x.fscDown else x.fscUp) + 1
    if n > 64 then s.schedFault t 0x07
    else s.setSched t (if activation then { x with fscDown := n } else { x with fscUp := n })

/-- R66. -/
def execSlotMessage (table : Nat) (activation : Bool) (s : State) : Host.Outcome State Fault Refusal := .next (
  if table < Config.tables then s.slotArrive table activation else s)

end Sys2Proof.Machine
end

