-- ==== Sys2Proof/Machine/Fabric.lean ====
section
/-!
DEFINITION. Fabric.lean: packets that arrive and what they perform (R324, R365, R367, R372, R373), acknowledgements and
replies (R368, R427), retries, resends and port losses (R369-R371), failed peers (R377, R378), and cached copies (R324).
-/

namespace Sys2Proof.Machine

/-! ## The checks of an arriving access (R372) -/

/-- The valid entry of a frame: its own, or that of the large page it belongs to. -/
def State.validEntry (s : State) (pool frame : Nat) : Option Entry :=
  let (e, _, v) := s.entryAt pool frame
  if v then some e else
  let (b, _, vb) := s.entryAt pool (frame / 32 * 32)
  if vb && b.large then some b else none

/-- The valid entry that names a byte's frame of pools 0-8; of a page that has been remapped and whose old home still
forwards (R285), that of its new frame. -/
def State.frameEntry (s : State) (key : Nat) : Option Entry :=
  if !frameExists (homePool key) (homeFrame key) then none
  else (s.validEntry (homePool key) (homeFrame key)).orElse fun _ =>
    (s.migrations.find? (·.has key)).bind fun m => s.validEntry (homePool m.target) (homeFrame m.target)

/-- The accesses a packet makes, with the rights they need. -/
def packetNeeds (p : Packet) : List (Nat × Need) :=
  match p with
  | .read loc _ => [(loc, needR)]
  | .write stores _ _ => stores.map fun x => (x.1, needW)
  | .amo _ _ loc _ | .cas _ loc _ _ | .object _ loc _ | .merged _ loc _ => [(loc, needRW)]
  | .vstred _ _ elems | .vamo _ _ elems => elems.map fun x => (x.1, needRW)
  | .reduce .. | .slotMessage .. => []

/-- The first access of a packet that is refused. -/
def State.refused (s : State) (p : Packet) : Option Nat :=
  ((packetNeeds p).find? fun x => match s.frameEntry x.1 with
    | some e => !s.granted e.part .hart e x.2
    | none => true).map (·.1)

/-- The record of a refused access. -/
def State.recordRefused (s : State) (key peer : Nat) : State :=
  match s.frameEntry key with
  | some e => s.record 0x0D e.part Who.none [key, peer]
  | none => s.deviceRecord 0x0D [key, peer]

/-! ## Performing a packet at its homes -/

/-- A reply of words. -/
def replyOf (ws : List Word) : Reply := ⟨[], ws, false⟩

/-- One atomic add or other update with its old value; the old value of poisoned bytes is poisoned (R396). -/
def State.amoReply (s : State) (op n key : Nat) (operand : Word) : (Nat × Bool) × State :=
  let bad := (s.poisonIn key n).isSome
  let (old, s1) := s.amoHome op n key operand
  ((old, bad), s1)

/-- An object operation at its home (R339): none while an ACQ waits. -/
def State.objectReply (s : State) (peer seq : Nat) (op : ObjOp) (loc : Nat) (args : List Word) :
    Option (List Word) × State :=
  let p := ((s.frameEntry loc).map (·.part)).getD 64
  let key := s.redirect loc
  let a := fun i => args.getD i 0
  let opt := fun i : Nat => if args.getD i 0 = 1 then some (args.getD (i + 1) 0).toNat else none
  match op with
  | .acq => s.acqHome key (a 0) (.peer peer seq (a 0))
  | .rel => let (ws, s1) := s.relHome key (a 0); (some ws, s1)
  | .bind => let (ws, s1) := s.bindHome key (a 0); (some ws, s1)
  | .arrive => let (ws, s1) := s.arriveHome p key (a 0) (a 1).toNat (opt 2) (opt 4); (some ws, s1)
  | .wait => (some (s.waitHome key), (s.barLook p key).countChannel key false)
  | .join => let (ws, s1) := s.joinHome key (a 0).toNat; (some ws, s1)
  | .leave => (some [aOk], (s.leaveHome key).barriersAt key)
  | .claim => let (ws, s1) := s.claimHome key (a 0).toNat; (some ws, s1)
  | .charge => match s.barCharge key (a 0).toNat with
    | some s1 => (some [aOk], s1)
    | none => (some [aOverflow], s)
  | .discharge => (some [aOk], s.barDischarge p key (a 0).toNat)
  | .withdraw => (some [aOk], s.withdrawHome key peer (a 0).toNat)
  | .lost => (some [aOk], s.loseHome key (a 0).toNat)
  | .recheck => (some [aOk], s.recheckHome p key (a 0) (opt 1))

/-- Performs a packet whose accesses are granted: its reply, when it has one now, and the state. -/
def State.performGranted (s : State) (peer seq : Nat) (p : Packet) : Option Reply × State :=
  match p with
  | .read loc len =>
    (some ⟨s.homeBytes loc len, [], (s.poisonIn loc len).isSome⟩, s.countLines loc len false)
  | .write stores fills bad =>
    (none, bad.foldl (fun s r => s.poisonHome r.1 r.2) (stores.foldl (fun s x => s.storeHome x.1 x.2 fills) s))
  | .amo op n loc v =>
    let ((old, bad), s1) := s.amoReply op n loc v
    (some ⟨[], [BitVec.ofNat 64 old], bad⟩, s1)
  | .cas n loc e v =>
    let bad := (s.poisonIn loc n).isSome
    let (old, s1) := s.casHome n loc e v
    (some ⟨[], [BitVec.ofNat 64 old], bad⟩, s1)
  | .vstred fmt scale elems =>
    (none, s.vstredHome fmt (scale.map (·.toNat)) (elems.map fun x => (x.1, x.2.toNat)))
  | .vamo op n elems =>
    let (ws, bad, s1) := elems.foldl (fun (acc : List Word × Bool × State) x =>
      let ((old, b), s1) := acc.2.2.amoReply op n x.1 x.2
      (acc.1 ++ [BitVec.ofNat 64 old], acc.2.1 || b, s1)) ([], false, s)
    (some ⟨[], ws, bad⟩, s1)
  | .reduce part group k rank header offset data =>
    (none, s.shareArrives ⟨part, group, k, rank, peer, header, [(offset, data)]⟩)
  | .slotMessage t act => (none, if t < Config.tables then s.slotArrive t act else s)
  | .object op loc args =>
    let (ws, s1) := s.objectReply peer seq op loc args
    (ws.map replyOf, s1)
  | .merged .. => (none, s)

/-- A packet with its accesses at other keys. -/
def mapPacket (f : Nat → Nat) (p : Packet) : Packet :=
  match p with
  | .read loc n => .read (f loc) n
  | .write stores fills bad => .write (stores.map fun x => (f x.1, x.2)) fills (bad.map fun r => (f r.1, r.2))
  | .amo op n loc v => .amo op n (f loc) v
  | .cas n loc e v => .cas n (f loc) e v
  | .vstred fmt scale elems => .vstred fmt scale (elems.map fun x => (f x.1, x.2))
  | .vamo op n elems => .vamo op n (elems.map fun x => (f x.1, x.2))
  | .object op loc args => .object op (f loc) args
  | .merged n loc cs => .merged n (f loc) cs
  | .reduce .. | .slotMessage .. => p

/-- Copies lines of a migration on, up to a number of them. -/
def State.copyUpTo (s : State) (source n fuel : Nat) : State :=
  match fuel with
  | 0 => s
  | fuel + 1 =>
    match s.migrations.find? fun m => m.source == source with
    | some m => if n ≤ m.copied then s else (s.copyLine m).copyUpTo source n fuel
    | none => s

/-- Forwards a packet of which a byte has moved to another device (R285): the lines of its 256-byte block that are still
here are copied first, so that one home performs all of it (log 29). -/
def State.passOn (s : State) (peer seq : Nat) (p : Packet) : Option State :=
  let keys := (packetNeeds p).map (·.1)
  (s.migrations.find? fun m => m.away && keys.any m.copiedAt).map fun m =>
    let n := (keys.map fun k => (k - m.source) / 256 * 4 + 4).foldl max 0
    (s.copyUpTo m.source n 1024).emit m.peer (mapPacket m.awayKey p) (.forward peer seq)

/-- Whether packets of a source that an old home has forwarded are still to be performed (R285). -/
def State.forwarding (s : State) (source : Nat) : Bool :=
  let mine := fun o : Origin => match o with
    | .forward q _ => q == source
    | _ => false
  s.peers.any fun e => (e.2.unacked.any fun u => mine u.origin) || e.2.waiting.any fun w => mine w.2

/-- Whether the old home of a page that moves to another device holds a packet back (R285). -/
def State.mustHold (s : State) (source : Nat) (p : Packet) : Bool :=
  ((packetNeeds p).any fun x => s.migrations.any fun m => m.away && m.has x.1) && s.forwarding source

/-- Performs one packet in its turn: a refused one is answered by a poisoned reply and recorded (R372). -/
def State.performPacket (s : State) (peer seq : Nat) (p : Packet) : State :=
  match s.refused p with
  | some key => (s.recordRefused key peer).sendReply peer seq Reply.lost
  | none =>
    match s.passOn peer seq p with
    | some s1 => s1
    | none =>
      match s.performGranted peer seq p with
      | (some r, s1) => s1.sendReply peer seq r
      | (none, s1) => s1

/-! ## The order of arrival (R367, R368) -/

/-- Performs the held packets of a peer from E on, while they are there and none is held back (R285). -/
def State.deliverHeld (s : State) (peer fuel : Nat) : State :=
  match fuel with
  | 0 => s
  | fuel + 1 =>
    let x := s.peer peer
    match x.held.find? fun h => h.1 == x.expect with
    | none => s
    | some (n, p) =>
      if s.mustHold peer p then s else
      let s1 := s.setPeer peer { x.keep n none with
        expect := (n + 1) % 65536, held := x.held.filter fun h => h.1 != n }
      (s1.performPacket peer n p).deliverHeld peer fuel

/-- Sends the cumulative acknowledgement of a peer's packets, E − 1, on the next port (R427). -/
def State.sendAck (s : State) (peer : Nat) : State :=
  let port := s.nextPort peer
  let s1 := s.takePort peer
  { s1 with out := .ack peer (((s.peer peer).expect + 65535) % 65536) port :: s1.out }

/-- Sends the kept reply of a number again, on the next port (R427). -/
def State.sendKept (s : State) (peer seq : Nat) : State :=
  match (s.peer peer).kept.find? fun k => k.1 == seq with
  | some (_, some r) =>
    let port := s.nextPort peer
    let s1 := s.takePort peer
    { s1 with out := .reply peer seq port r :: s1.out }
  | _ => s

/-- Performs what a peer's packets allow, and acknowledges them when E has advanced. -/
def State.deliver (s : State) (peer : Nat) : State :=
  let s1 := s.deliverHeld peer 257
  if (s1.peer peer).expect = (s.peer peer).expect then s1 else s1.sendAck peer

/-- A sequenced packet arrives (R367). -/
def State.arrive (s : State) (peer seq : Nat) (p : Packet) : State :=
  let x := s.peer peer
  let d := seqFrom x.expect seq
  if d ≤ 255 then
    if x.held.any fun h => h.1 == seq then s
    else (s.setPeer peer { x with held := (seq, p) :: x.held }).deliver peer
  else if d ≥ 32768 then (s.sendKept peer seq).sendAck peer
  else s

/-- One component of a merged packet performed (R373): at this home, or forwarded as its own packet to the home its line has
moved to (R285). -/
def State.mergedPerform (s : State) (width loc src seq : Nat) (v : Word) : Bool × State :=
  match s.passOn src seq (.amo 0 width loc v) with
  | some s1 => (false, s1)
  | none =>
    let ((old, bad), s1) := s.amoReply 0 width loc v
    (true, s1.keepReply src seq ⟨[], [BitVec.ofNat 64 old], bad⟩)

/-- One component of a merged packet (R373): performed when its number is the next of its source and an earlier forwarded
access of the source does not hold it back (R285); of one performed already the kept reply is sent again (R427). The mask
bit and the state. -/
def State.mergedOne (s : State) (width loc : Nat) (granted : Bool) (c : Nat × Nat × Word) : Bool × State :=
  let (src, seq, v) := c
  let x := s.peer src
  if x.failed then (false, s)
  else if seqFrom x.expect seq ≥ 32768 then (false, s.sendKept src (seq % 65536))
  else if x.expect != seq % 65536 || s.mustHold src (.amo 0 width loc v) then (false, s)
  else
    let s1 := s.setPeer src { x.keep x.expect none with expect := (x.expect + 1) % 65536 }
    let (done, s2) :=
      if granted then s1.mergedPerform width loc src x.expect v else (true, s1.keepReply src x.expect Reply.lost)
    (done, (s2.deliverHeld src 256).sendAck src)

/-- The reply to a merged packet goes to the switch, on the next port. -/
def State.replySwitch (s : State) (peer seq : Nat) (r : Reply) : State :=
  let port := s.nextPort peer
  let s1 := s.takePort peer
  { s1 with out := .reply peer seq port r :: s1.out }

/-- A merged packet (R373): its components in list order; the old value and the mask of those performed go back to the
switch. -/
def State.mergedArrive (s : State) (peer seq width loc : Nat) (cs : List (Nat × Nat × Word)) : State :=
  let bad := s.refused (.merged width loc cs)
  let poison := (s.poisonIn loc width).isSome
  let old := BitVec.ofNat 64 (leNat (s.homeBytes loc width))
  let (mask, s1) := ((List.range cs.length).zip cs).foldl (fun (acc : Nat × State) c =>
    let (done, s1) := acc.2.mergedOne width loc bad.isNone c.2
    (if done then acc.1 + 2 ^ c.1 else acc.1, s1)) (0, s)
  match bad with
  | some key => (s1.recordRefused key peer).replySwitch peer seq Reply.lost
  | none => s1.replySwitch peer seq ⟨[], [old, BitVec.ofNat 64 mask], poison⟩

/-- R367: a packet arrives; what a failed peer sends is discarded (R377). -/
def execFabricPacketArrive (peer seq : Nat) (packet : Packet) (s : State) : Host.Outcome State Fault Refusal := .next (
  match packet with
  | .merged width loc cs => s.mergedArrive peer seq width loc cs
  | p => if (s.peer peer).failed then s else s.arrive peer (seq % 65536) p)

/-! ## Acknowledgements and replies (R368, R427) -/

/-- Sends what waits for a place. -/
def State.release (s : State) (peer : Nat) : State := s.flush peer ((s.peer peer).waiting.length + 1)

/-- What the acknowledgement or the reply of a packet lets go on: HEAD of a log (R420), and the source of a forwarded
packet, whose later packets the old home held back (R285). -/
def State.originDone (s : State) (o : Origin) : State :=
  match o with
  | .log p record => s.recordEnds p record true
  | .forward q _ => s.deliver q
  | _ => s

/-- R427: a cumulative acknowledgement frees packets that have no reply. The writes among the last 256 freed are still known,
since the refusal of one may arrive after it (R372; log 27). -/
def execAckArrive (peer ack : Nat) (s : State) : Host.Outcome State Fault Refusal := .next (
  let x := s.peer peer
  if x.failed then s else
  let done := fun u : Sent => !hasReply u.packet && decide (seqFrom u.seq ack < 32768)
  let s1 := s.setPeer peer { x with
    unacked := x.unacked.filter fun u => !done u
    acked := ((x.unacked.filter done).reverse ++ x.acked).take 256 }
  ((x.unacked.filter done).foldl (fun s u => s.originDone u.origin) s1).release peer)

/-- R427: a reply acknowledges its request; a refusal gives its packet the fate of a lost one (R372), a write that the
cumulative acknowledgement has freed already included. -/
def execReplyArrive (peer seq : Nat) (reply : Reply) (s : State) : Host.Outcome State Fault Refusal := .next (
  let x := s.peer peer
  if x.failed then s else
  match x.unacked.find? fun u => u.seq == seq with
  | none =>
    match x.acked.find? fun u => u.seq == seq with
    | some u =>
      if reply = Reply.lost then
        (s.setPeer peer { x with acked := x.acked.filter fun v => v.seq != seq }).lose peer seq u.packet u.origin
      else s
    | none => s
  | some u =>
    if !hasReply u.packet && reply != Reply.lost then s else
    let s1 := s.setPeer peer { x with unacked := x.unacked.filter fun v => v.seq != seq }
    let s2 := if reply = Reply.lost then s1.lose peer seq u.packet u.origin else s1.setReply u.origin peer seq reply
    let s3 := match u.origin with
      | .forward q _ => s2.deliver q
      | _ => s2
    s3.release peer)

/-! ## Retries and resends (R369-R371) -/

/-- A counter of 24 bits, saturating (R379). -/
def sat24 (n : Nat) : Nat := min n 0xFFFFFF

/-- Sends an unacknowledged packet again, on the given port, which counts it. -/
def State.resendOn (s : State) (peer : Nat) (u : Sent) (port : Nat) : State :=
  let x := s.peer peer
  let y := s.port port
  let s1 := (s.setPeer peer { x with
    unacked := x.unacked.map fun v => if v.seq = u.seq then { v with port := port } else v
    spray := (port + 1) % Config.ports }).setPort port { y with dlresend := sat24 (y.dlresend + 1) }
  { s1 with out := .packet peer u.seq port :: s1.out }

/-- Sends every unacknowledged packet of a peer again over the ports that are open to it. -/
def State.resendAll (s : State) (peer : Nat) : State :=
  (s.peer peer).unacked.foldl (fun s u =>
    let port := s.nextPort peer
    if port < Config.ports then s.resendOn peer u port else s) s

/-- A port goes down with a cause (R371). -/
def State.downPort (s : State) (n cause : Nat) : State :=
  let x := s.port n
  if n ≥ Config.ports ∨ x.state ≠ 1 then s else
  let s1 := s.setPort n { x with state := 2, dcause := cause, inRow := 0 }
  let s2 := { s1 with st := { s1.st with portsIn := if s1.st.portsIn = 0 then 0 else s1.st.portsIn - 1 } }
  let hit := (s2.peers.filter fun e => e.2.unacked.any fun u => u.port == n).map (·.1)
  (hit.foldl (fun s q => s.resendAll q) s2).deviceEvent 2 n

/-- R371: a port's link is lost. -/
def execPortDown (port : Nat) (s : State) : Host.Outcome State Fault Refusal := .next (s.downPort port 3)

/-- R369: a link-level retry; the sixteenth of one flit in a row takes the port down. -/
def execLinkRetry (port : Nat) (sameFlit : Bool) (s : State) : Host.Outcome State Fault Refusal := .next (
  let x := s.port port
  if port ≥ Config.ports ∨ x.state ≠ 1 then s else
  let row := if sameFlit then x.inRow + 1 else 1
  let s1 := s.setPort port { x with lretry := sat24 (x.lretry + 1), inRow := row }
  if row ≥ 16 then s1.downPort port 2 else s1)

/-- R370: the deadlock timer of a packet expires; it is sent again on a port other than the one it last took. -/
def execDeadlockResend (peer seq : Nat) (s : State) : Host.Outcome State Fault Refusal := .next (
  match (s.peer peer).unacked.find? fun u => u.seq == seq with
  | none => s
  | some u =>
    let us := (s.openPorts peer).filter fun n => n != u.port
    match (us.find? fun n => decide ((s.peer peer).spray ≤ n)).orElse fun _ => us.head? with
    | some n => s.resendOn peer u n
    | none => s)

/-! ## Failed peers (R377, R378) -/

/-- Fails the collectives that satisfy a condition and have not ended (R376). -/
def State.failCollectives (s : State) (f : Nat → Command → Bool) : State :=
  (s.commands.filter fun c => c.2.op == 3 && !c.2.ended && f c.1 c.2).foldl (fun s c => s.failCollective c.1 c.2) s

/-- Whether a waiting ACQ is a request of a peer. -/
def Waiter.isPeer (w : Waiter) (q : Nat) : Bool :=
  match w with
  | .peer p _ _ => p == q
  | .hart .. => false

/-- Packets of a peer that an old home has forwarded have nobody to answer any more (R285, R377). -/
def State.dropForwards (s : State) (peer : Nat) : State :=
  let o := fun o : Origin => match o with
    | .forward q n => if q = peer then Origin.none else .forward q n
    | _ => o
  { s with peers := s.peers.map fun e => (e.1, { e.2 with
      unacked := e.2.unacked.map fun u => { u with origin := o u.origin }
      waiting := e.2.waiting.map fun w => (w.1, o w.2) }) }

/-- A peer is declared failed (R377). -/
def State.declareFailed (s : State) (peer : Nat) : State :=
  let x := s.peer peer
  if x.failed || decide (peer ≥ Config.peers) then s else
  let s1 := (s.setPeer peer { x with
    failed := true, unacked := [], waiting := [], held := [], acked := [] }).dropForwards peer
  let s2 := { s1 with acqs := s1.acqs.filter fun a => !a.2.isPeer peer }
  let s3 := s2.failCollectives fun _ c => c.members.contains peer
  let s4 := x.unacked.foldl (fun s u => s.lose peer u.seq u.packet u.origin) s3
  let s5 := x.waiting.foldl (fun s w => s.lose peer 65536 w.1 w.2) s4
  s5.deviceEvent 3 peer

/-- R377: no port has reached the peer for FAILT milliseconds. -/
def execPeerFailDeclare (peer : Nat) (s : State) : Host.Outcome State Fault Refusal := .next (s.declareFailed peer)

/-- R377: the peer's Silven reports a restart. -/
def execPeerRestartReport (peer : Nat) (s : State) : Host.Outcome State Fault Refusal := .next (s.declareFailed peer)

/-- Clears one peer's bit: both numbers restart at 0, and a resynchronisation is sent (R377). -/
def State.clearFailed (s : State) (peer : Nat) : State :=
  if peer < Config.peers ∧ (s.peer peer).failed then
    let s1 := s.setPeer peer Peer.reset
    { s1 with out := .resync peer :: s1.out }
  else s

/-- A W1C write to PEER_FAIL i (R377). -/
def State.writePeerFail (s : State) (index : Nat) (value : Word) : State :=
  ((List.range 64).filter fun k => value.getLsbD k).foldl (fun s k => s.clearFailed (64 * index + k)) s

/-- R377: a W1C write to PEER_FAIL i by the physical function; before stage 3 it is dropped (R19). -/
def execPeerFailClear (index : Nat) (value : Word) (s : State) : Host.Outcome State Fault Refusal :=
  .next (if index < 6 ∧ s.silvenAnswers (0x20480 + 8 * index) then s.writePeerFail index value else s)

/-- R377: a resynchronisation arrives. Packets that still wait for their first sending are sent under new numbers; the
collectives the peer is a member of fail as at a declaration (R376; log 27). -/
def execResyncReceive (peer : Nat) (s : State) : Host.Outcome State Fault Refusal := .next (
  if peer ≥ Config.peers then s else
  let x := s.peer peer
  let s1 := (s.setPeer peer { Peer.reset with failed := x.failed, waiting := x.waiting }).dropForwards peer
  let s2 := { s1 with acqs := s1.acqs.filter fun a => !a.2.isPeer peer }
  let s3 := s2.failCollectives fun _ c => c.members.contains peer
  let s4 := x.unacked.foldl (fun s u => s.lose peer u.seq u.packet u.origin) s3
  (s4.deviceEvent 4 peer).release peer)

/-! ## Cached copies (R324) -/

/-- R324: a die's copy of a peer line is filled from its home, unless a write of this device to the line is on its way, which
the bytes could lack (R175). -/
def execCacheFill (die peer line : Nat) (bytes : List Byte) (s : State) : Host.Outcome State Fault Refusal := .next (
  if bytes.length = 64 ∧ die < 4 ∧ !(s.peer peer).failed ∧ !s.writesTo peer line then
    let same := fun c : Copied => c.die == die && c.peer == peer && c.line == line
    let pages := ((s.copies.find? same).map (·.pages)).getD []
    { s with copies := ⟨die, peer, line, pages, bytes⟩ :: s.copies.filter fun c => !same c }
  else s)

/-- R324: a die's copy of a peer line is dropped. -/
def execCacheDrop (die peer line : Nat) (s : State) : Host.Outcome State Fault Refusal := .next (
  s.dropCopies fun c => c.die == die && c.peer == peer && c.line == line)

end Sys2Proof.Machine
end

