-- ==== Sys2Proof/Machine/Stage.lean ====
section
/-!
DEFINITION. Stage.lean: the staged start (R18-R24), firmware and SPDM (R423), the creation of partitions (R37) and their
teardown (R425).
-/

namespace Sys2Proof.Machine

/-! ## Start, restart, loss of power (R18, R24) -/

/-- The device as a start from cold leaves it: the flash images are kept (R18), and with them what stands outside the
device: the schedule of the model, elapsed time, host memory, and what has already left the device. -/
def State.cold (s : State) : State :=
  { State.reset with
    agenda := s.agenda
    cur := s.cur
    now := s.now
    ticks := s.ticks
    free := s.free
    flash := s.flash
    host := s.host
    out := s.out
    timeBase := s.now }

/-- R18. -/
def execPowerUp (s : State) : Host.Outcome State Fault Refusal := .next (if s.powered then s else s.cold)

/-- R18. -/
def execPowerLoss (s : State) : Host.Outcome State Fault Refusal := .next { s.cold with powered := false }

/-- R18: a fundamental reset; ATTEMPT counts from power-up (R22). -/
def execFundamentalReset (s : State) : Host.Outcome State Fault Refusal :=
  .next { s.cold with st := { Stage.reset with attempt := s.st.attempt } }

/-- STAGE_STATUS after RESTART (R24). -/
def Stage.restart (x : Stage) : Stage :=
  { Stage.reset with
    attempt := if x.attempt = 255 then 255 else x.attempt + 1
    failCode := x.failCode }

/-- A peer after the restart of this device: every number starts at 0, nothing is outstanding, and its PEER_FAIL bit stands
(R377). -/
def Peer.restart (x : Peer) : Peer := { Peer.reset with failed := x.failed }

/-- A port after a restart: one that was up is to be trained again; one that is down stays down (R371, R379; log 45). -/
def Port.restart (x : Port) : Port := { x with state := if x.state = 1 then 0 else x.state, inRow := 0 }

/-- A write of RESTART, ignored at stage 3 while a partition exists (R24). -/
def State.writeRestart (s : State) : State :=
  if s.st.stage = 3 ∧ !s.parts.isEmpty then s
  else { s with
    st := s.st.restart
    timeBase := s.now
    early := true
    peers := s.peers.map fun e => (e.1, e.2.restart)
    ports := s.ports.map fun e => (e.1, e.2.restart)
    fetched := []
    acqs := [] }

/-- R24. -/
def execRestart (s : State) : Host.Outcome State Fault Refusal := .next s.writeRestart

/-! ## Stages (R19-R23) -/

/-- The current stage fails with a code (R20, R421). -/
def State.failStage (s : State) (code : BitVec 8) : State :=
  let s1 := { s with st := { s.st with fail := true, busy := false, failCode := code } }
  s1.deviceEvent 1 0

/-- Whether a stage's work is in progress. -/
def Stage.running (x : Stage) (n : BitVec 3) : Bool := x.stage == n && x.busy && !x.fail

/-- Whether an image passes its checks (R423). -/
def imageOk (image : FirmwareImage) : Bool := image.signatureOk && decide (Config.minimumVersion ≤ image.version)

/-- R19, R423: stage 0 ends; the first firmware stage in flash has been verified, its version with it. -/
def execStage0Complete (signatureOk : Bool) (s : State) : Host.Outcome State Fault Refusal := .next (
  if !s.st.running 0 then s
  else if signatureOk && (s.flash.filter (·.firstStage)).all imageOk then { s with st := { s.st with stage := 1 } }
  else s.failStage 0x01)

/-- R20: stage 1 ends; every part has been trained to its end. -/
def execStage1Complete (hbm : BitVec 8) (lpOk : Bool) (s : State) : Host.Outcome State Fault Refusal := .next (
  if !s.st.running 1 then s
  else
    let s1 := { s with st := { s.st with hbmOk := hbm, lpOk := lpOk } }
    if hbm ≠ 0xFF then s1.failStage 0x02
    else if !lpOk then s1.failStage 0x03
    else { s1 with st := { s1.st with stage := 2 } })

/-- A core after calibration: quarantined, or in service at its floor (R20, R386, R388). -/
def Core.calibrated (c : Core) (bad : Bool) (floor : Nat) : Core :=
  { c with
    quarState := if bad then 2 else 0
    quarCause := if bad then 1 else 0
    floor := min floor 40
    stepPoint := min floor 40
    wincnt := 0
    settling := false }

/-- R20: stage 2 ends. -/
def execStage2Complete (badCores badPorts floors : List Nat) (s : State) : Host.Outcome State Fault Refusal := .next (
  if !s.st.running 2 then s
  else
    let ports := List.range Config.ports
    let cores := List.range Config.cores
    let s1 := { s with
      ports := ports.map fun n => (n, { s.port n with
        state := if badPorts.contains n then 2 else 1, dcause := if badPorts.contains n then 1 else 0, inRow := 0 })
      cores := cores.map fun c => (c, (s.core c).calibrated (badCores.contains c) (floors.getD c 0))
      st := { s.st with
        portsIn := BitVec.ofNat 7 (ports.filter fun n => !badPorts.contains n).length
        coresIn := BitVec.ofNat 8 (cores.filter fun c => !badCores.contains c).length } }
    let s2 := (ports.filter fun n => badPorts.contains n).foldl (fun s n => s.deviceEvent 2 n) s1
    let good := cores.filter fun c => !badCores.contains c
    if good.any isFC && good.any fun c => !isFC c then
      { s2 with st := { s2.st with stage := 3, busy := false }, timeBase := s2.now, early := false }
    else s2.failStage 0x04)

/-- R21: a watchdog expires. -/
def execStageWatchdogExpiry (s : State) : Host.Outcome State Fault Refusal := .next (
  if s.st.stage ≠ 3 ∧ s.st.busy ∧ !s.st.fail then s.failStage 0x05 else s)

/-! ## Firmware, identity and sessions (R423) -/

/-- R423: an image is taken in unless its signature or its version fails; it replaces the image of its kind. A refusal fails
stage 0 while that runs. -/
def execFirmwareIntake (image : FirmwareImage) (s : State) : Host.Outcome State Fault Refusal := .next (
  if imageOk image then { s with flash := image :: s.flash.filter fun x => x.firstStage != image.firstStage }
  else if s.st.running 0 then s.failStage 0x01
  else s)

/-- Sends an answer. -/
def State.answer (s : State) (a : Answer) : State := { s with out := .doe a :: s.out }

/-- Whether a secure session is established. -/
def State.confirmed (s : State) : Bool := (s.session.map (·.established)).getD false

/-- Answers a request that is supported outside a session only: in a session's secured message it is an ERROR (R423). -/
def State.outsideSession (s : State) (a : Answer) : State := s.answer (if s.secured then .error else a)

/-- Answers a request that is supported in the secured messages of an established session only (R423). -/
def State.within (s : State) (f : State → State) : State := if s.secured && s.confirmed then f s else s.answer .error

/-- R423. -/
def execGetVersion (s : State) : Host.Outcome State Fault Refusal :=
  .next (s.outsideSession .version)

/-- R423. -/
def execGetCapabilities (s : State) : Host.Outcome State Fault Refusal :=
  .next (s.outsideSession .capabilities)

/-- R423. -/
def execNegotiateAlgorithms (s : State) : Host.Outcome State Fault Refusal :=
  .next (s.outsideSession .algorithms)

/-- R423. -/
def execGetDigests (s : State) : Host.Outcome State Fault Refusal :=
  .next (s.outsideSession .digests)

/-- R423. -/
def execGetCertificate (s : State) : Host.Outcome State Fault Refusal :=
  .next (s.outsideSession .certificate)

/-- R423: the signature is the fused key's (log 19). -/
def execChallenge (nonce : BitVec 256) (s : State) : Host.Outcome State Fault Refusal :=
  .next (s.outsideSession (.challengeAuth (Config.identitySign nonce)))

/-- The digest of the flash image of a kind. -/
def State.imageDigest (s : State) (firstStage : Bool) : BitVec 256 :=
  ((s.flash.find? fun x => x.firstStage == firstStage).map (·.digest)).getD 0

/-- R423: measurements 1 to 4; the fourth is of the grants at the last creation or teardown. -/
def execGetMeasurements (s : State) : Host.Outcome State Fault Refusal :=
  .next (s.outsideSession (.measurements
    [Config.bootRomDigest, s.imageDigest true, s.imageDigest false, Config.grantDigest s.measured]))

/-- A session opened with a new key. -/
def State.openSession (s : State) (established : Bool) : State :=
  { s with session := some ⟨established, Config.sessionKey s.free⟩, free := s.free + 1 }

/-- R423: a new session; one already open ends. It is no request of a session's secured messages. -/
def execKeyExchange (s : State) : Host.Outcome State Fault Refusal :=
  .next (if s.secured then s.answer .error else (s.openSession false).answer .keyExchangeRsp)

/-- R423: the session is established; FINISH belongs to its handshake, in the clear or not (log 19). -/
def execFinish (s : State) : Host.Outcome State Fault Refusal := .next (
  match s.session with
  | some x => if x.established then s.answer .error
    else { s with session := some { x with established := true } }.answer .finishRsp
  | none => s.answer .error)

/-- R423. -/
def execKeyUpdate (s : State) : Host.Outcome State Fault Refusal :=
  .next (s.within fun s => (s.openSession true).answer .keyUpdateAck)

/-- R423. -/
def execHeartbeat (s : State) : Host.Outcome State Fault Refusal :=
  .next (s.within (·.answer .heartbeatAck))

/-- R423. -/
def execEndSession (s : State) : Host.Outcome State Fault Refusal :=
  .next (s.within fun s => { s with session := none }.answer .endSessionAck)

/-- R423: IDE_KM QUERY. -/
def execQuery (s : State) : Host.Outcome State Fault Refusal :=
  .next (s.within fun s => s.answer (.ideQueryResp (s.ideKeys.map (·.1))))

/-- R423: IDE_KM KEY_PROG. -/
def execKeyProg (keySet : Nat) (key : BitVec 256) (s : State) : Host.Outcome State Fault Refusal :=
  .next (s.within fun s => { s with ideKeys := tput s.ideKeys keySet key }.answer .keyProgAck)

/-- R423: IDE_KM K_SET_GO. -/
def execKSetGo (keySet : Nat) (s : State) : Host.Outcome State Fault Refusal :=
  .next (s.within fun s =>
    if (tget s.ideKeys keySet).isSome then { s with ideActive := some keySet }.answer .goAck else s.answer .error)

/-- R423: IDE_KM K_SET_STOP. -/
def execKSetStop (keySet : Nat) (s : State) : Host.Outcome State Fault Refusal :=
  .next (s.within fun s =>
    { s with ideActive := if s.ideActive = some keySet then none else s.ideActive }.answer .stopAck)

/-- R423: any request not listed. -/
def execSpdmUnsupportedRequest (s : State) : Host.Outcome State Fault Refusal := .next (s.answer .error)

/-! ## Partitions (R31, R37) -/

/-- A new partition with its grants and every register at reset (R37, R40, R48, R394, R398, R410, R419, R420). -/
def Partition.fresh (g : Grant) : Partition where
  cores := g.cores
  frames := g.frames
  tables := g.tables
  windows := g.windows
  slots := g.slots
  access := g.access
  enable := false
  accepted := 0
  dropped := 0
  reads := 0
  lastHandle := 0
  inserts := []
  keystone := 0
  specMax := 64
  det := false
  commits := 0
  aborts := 0
  lastTs := none
  relyK := 16
  relyMode := 0
  klogBase := 0
  klogPages := 0
  snapshot := none
  klog := []
  kept := []
  between := none
  own := []
  keptSince := []
  sinceKeystone := 0
  unlogged := false
  rolledBack := []
  csaBase := 0
  csaUsed := []
  csaSlots := 0
  elog := Ring.reset
  acctRet := 0
  acctCanc := 0
  acctFail := 0
  acctPcyc := 0
  acctHcyc := 0
  chr := []
  coll := []
  collCount := []
  nodes := []
  gens := []
  links := []
  reservation := none
  buffers := g.buffers.foldl (fun t b => tput t b.slot ⟨1, b.base, b.size, [], []⟩) []
  teardown := .none

/-- Whether Silven can make a grant: nothing of it belongs to another partition, and its sizes are in range (R31, R37). -/
def State.grantOk (s : State) (g : Grant) : Bool :=
  decide (g.part < Config.partitions) && (s.part g.part).isNone && decide (2 ≤ g.slots) &&
    decide (g.slots + (s.parts.map fun p => p.2.slots).sum ≤ 65536) &&
    g.cores.all (fun c => decide (c < Config.cores)) && g.tables.all (fun t => decide (t < Config.tables)) &&
    g.frames.all (fun f => frameExists f.1 f.2) &&
    s.parts.all fun p => !(g.cores.any p.2.cores.contains) && !(g.tables.any p.2.tables.contains) &&
      !(g.frames.any p.2.frames.contains) && !(g.windows.any p.2.windows.contains)

/-- What a partition holds of its grant, for the measurement of the grants (R423). -/
def Partition.grant (x : Partition) (p : Nat) : Grant :=
  ⟨p, x.cores, x.frames, x.tables, x.windows, x.slots, x.access, x.buffers.map fun b => ⟨b.1, b.2.base, b.2.size⟩⟩

/-- The access tables and grants are measured again (R423). -/
def State.measure (s : State) : State := { s with measured := s.parts.map fun e => e.2.grant e.1 }

/-- A granted schedule table starts at reset; run numbers go on, so that no old node is taken for one of its own. -/
def State.freshTable (s : State) (t : Nat) : State := s.setSched t { SchedTable.reset with run := (s.sched t).run }

/-- R19, R37: a partition is created; before stage 3 the request is refused with NOT_READY. -/
def execPartitionCreate (grant : Grant) (s : State) : Host.Outcome State Fault Refusal := .next (
  if s.st.stage ≠ 3 then { s with out := .notReady :: s.out }
  else if s.grantOk grant then
    let s1 := grant.tables.foldl State.freshTable s
    (s1.setPart grant.part (Partition.fresh grant)).measure
  else s)

/-! ## Teardown (R425) -/

/-- Cancels every node of a partition that is not running (R425 step 2). -/
def State.cancelIdle (s : State) (p : Nat) : State :=
  match s.part p with
  | none => s
  | some x => (x.nodes.map (·.1)).foldl (fun s k => match s.node p k with
    | some n => if n.state = .running then s else s.finishNode p k .cancelled
    | none => s) s

/-- R425 steps 1 to 3: the window is destroyed, the tables are stopped, idle nodes are cancelled, and the wait begins. -/
def State.writeTeardown (s : State) (part : Nat) : State :=
  match s.part part with
  | none => s
  | some x =>
    if x.teardown ≠ .none then s
    else
      let s1 := s.updPart part fun x => { x with enable := false }
      let s2 := x.tables.foldl State.schedStop s1
      (s2.cancelIdle part).updPart part fun x => { x with teardown := .waiting }

/-- R425: a write to PART_TEARDOWN. -/
def execPartTeardown (part : Nat) (s : State) : Host.Outcome State Fault Refusal := .next (s.writeTeardown part)

/-- Whether the first byte of a frame of some list begins the frame that holds a home. -/
def inFrames (frames : List (Nat × Nat)) (key : Nat) : Bool := frames.contains (homePool key, homeFrame key)

/-- Frames zeroed (R425 step 5). -/
def State.zeroFrames (s : State) (frames : List (Nat × Nat)) : State :=
  { s with
    mem := s.mem.filter fun c => !inFrames frames c.1
    poisoned := s.poisoned.filter fun r => !inFrames frames r.1 }

/-- A core as a torn-down partition leaves it: scratchpad and Palette zeroed, and no transfer of the partition left
(R425 step 5; log 45). The tag table is kept. -/
def Core.cleared (c : Core) : Core :=
  { c with
    pad := []
    padPoison := []
    slots := Vector.replicate 32 Slot.reset
    channels := c.channels.map fun ch => { ch with queue := [], issued := ch.pos, mark := none } }

/-- Whether a batch is awaited by a partition. -/
def State.batchOf (s : State) (p : Nat) (b : Batch) : Bool :=
  match b.owner with
  | .rank q _ _ _ => q == p
  | .engine c => ((tget s.commands c).map fun x => x.part == p).getD false
  | .migration => false
  | .noOne q => q == p

/-- The waiting ACQs of peers on objects in the frames of a partition that goes are refused, as their accesses are from
then on (R425, R372). -/
def State.refuseAcqs (s : State) (frames : List (Nat × Nat)) : State :=
  let mine := s.acqs.filter fun a => inFrames frames a.1
  mine.foldl (fun s a => match a.2 with
    | .peer q n _ => s.sendReply q n Reply.lost
    | .hart .. => s) { s with acqs := s.acqs.filter fun a => !inFrames frames a.1 }

/-- R425 steps 4 to 7: save slots are freed, storage is zeroed, the access entries and the grants go. -/
def State.releasePart (s : State) (p : Nat) : State :=
  match s.part p with
  | none => s
  | some x =>
    let s1 := x.csaUsed.foldl (fun s slot => s.freeSave p slot) s
    let s2 := x.cores.foldl (fun s c => s.updCore c Core.cleared) ((s1.zeroFrames x.frames).refuseAcqs x.frames)
    let s3 := x.tables.foldl State.freshTable (s2.invalidate p none)
    let s4 := s3.dropCopies fun c => c.pages.any fun y => y.part == p
    { s4 with
      parts := tdel s4.parts p
      batches := s4.batches.filter fun b => !s4.batchOf p b.2
      commands := s4.commands.filter fun c => c.2.part != p
      shares := s4.shares.filter fun y => y.part != p
      barriers := s4.barriers.filter fun b => b.part != p
      regPages := s4.regPages.filter fun y => y.part != p
      migrations := s4.migrations.filter fun m => !(inFrames x.frames m.source || inFrames x.frames m.target ||
        (s.entryAt (homePool m.source) (homeFrame m.source)).1.part == p) }.measure

/-- Kills the running nodes of a partition (R425 step 3). -/
def State.killRunning (s : State) (p : Nat) : State :=
  match s.part p with
  | none => s
  | some x => (x.nodes.map (·.1)).foldl (fun s k => match s.node p k with
    | some n => if n.state = .running then s.kill p k { Who.none with node := s.handle p k } [] else s
    | none => s) s

/-- Whether a partition is in the wait of its teardown. -/
def State.tearing (s : State) (p : Nat) : Bool := ((s.part p).map fun x => x.teardown == .waiting).getD false

/-- R425: the wait of 10 ms expires. -/
def execTeardownWaitExpiry (part : Nat) (s : State) : Host.Outcome State Fault Refusal := .next (
  if s.tearing part then ((s.killRunning part).cancelIdle part).releasePart part else s)

/-- R425: every running node has ended within the wait. -/
def execTeardownNodesEnded (part : Nat) (s : State) : Host.Outcome State Fault Refusal := .next (
  if s.tearing part && !(((s.part part).map (·.nodes)).getD []).any fun n => n.2.state == .running then
    (s.cancelIdle part).releasePart part
  else s)

end Sys2Proof.Machine
end

