-- ==== Sys2Proof/Machine/Margin.lean ====
section
/-!
DEFINITION. Margin.lean: the sequencer's convoys (R113) and retirement (R116), rechecks (R117, R394, R395), margin replay,
escalation and quarantine (R384-R390), guarded release and draining (R324, R391), data checks (R396), and the power
arbiter (R422).
-/

namespace Sys2Proof.Machine

/-! ## The sequencer (R113, R116) -/

/-- The harts of a core. -/
def hartsOfCore (c : Nat) : List Nat := (List.range 8).map fun i => 8 * c + i

/-- Whether an MCLAIM is still to come in the convoy that the hart's last queued instruction belongs to, and the hart goes on
towards it: it does not wait for its queue, nor has it come to a further convoy. -/
def Hart.claimToCome (h : Hart) : Bool :=
  match h.line with
  | none => false
  | some l =>
    let i := (h.regs.pc.toNat % 64 - 2) / 2
    !h.stuck && !h.convoyStart && !startsConvoy l.bits 32 i && (convoyHeads l.bits i).any fun j => match decodeAt l.bits j with
      | .ok (.mclaim _) => true
      | _ => false

/-- Whether a hart's next convoy can reach the sequencer. An MCLAIM makes its first attempt in the step in which its convoy
starts (R239): the convoy waits until its MCLAIMs are queued. DESIGN CHOICE: a hart that waits for its queue before it comes
to an MCLAIM of the convoy lets the convoy start without it, and that MCLAIM makes its attempt when it is queued (log 8). -/
def Hart.convoyReady (h : Hart) : Bool :=
  !h.claimToCome || ((h.queue.dropWhile (·.started)).drop 1).any (·.convoy.isSome)

/-- The classes of a hart's next convoy (R113): that of its oldest entry not yet started; none while a convoy of it runs. -/
def Hart.nextConvoy (h : Hart) : Option (List Nat) :=
  match h.running with
  | some _ => none
  | none => if h.convoyReady then (h.queue.find? fun e => !e.started).bind (·.convoy) else none

/-- The classes of the units that started convoys hold on a core. -/
def State.heldClasses (s : State) (c : Nat) : List Nat :=
  (hartsOfCore c).flatMap fun h => ((s.hart h).running.map (·.classes)).getD []

/-- Whether the units a convoy needs are free (R104, R113). DESIGN CHOICE: an instruction of a convoy holds one unit of its
class, so that another hart's convoy of the class may start beside it where the class has more; R113 gives no number, and
the issue cycles of an instruction are those of every unit of its class, as the worked example has them (log 8). -/
def convoyFits (fc : Bool) (held convoy : List Nat) : Bool :=
  convoy.all fun k => k == 0 || decide (held.count k + convoy.count k ≤ classLimit fc k)

/-- Starts entries of a convoy in order, up to the next convoy (R239, R316). -/
def startEntries (h : Nat) (fresh : Bool) (c : Core) (q : List QueueEntry) : List QueueEntry × Core :=
  match q with
  | [] => ([], c)
  | e :: rest =>
    if e.started then
      let (q1, c1) := startEntries h fresh c rest
      (e :: q1, c1)
    else if !fresh && e.convoy.isSome then (e :: rest, c)
    else
      let (e1, c1) := e.start h c
      let (q1, c2) := startEntries h false c1 rest
      (e1 :: q1, c2)

/-- The next convoy of a hart starts on its core: it holds its units, also for those of its instructions not yet queued. -/
def State.startConvoy (s : State) (h : Nat) (classes : List Nat) : State :=
  let x := s.hart h
  let (q, c) := startEntries h true (s.core (coreOf h)) x.queue
  let before := (x.queue.filter (·.started)).length
  let placed := (q.filter (·.started)).length - before
  (s.setHart h { x with queue := q, running := some ⟨classes, classes.length - placed⟩ }).setCore (coreOf h)
    { c.count 2 1 with served := h % 8 }

/-- Whether an entry waits for its recheck (R117). -/
def QueueEntry.inRecheck (e : QueueEntry) : Bool := e.written && e.recheck == .due

/-- R113: the next convoy of the first hart in round robin whose classes fit the free units starts. None starts behind
the settling gate (R386), or while the recheck queue of 32 is full (R117). DESIGN CHOICE: an instruction of a convoy that
has started, written while the recheck queue holds 32, enters it as a further entry; R117 stops only new convoys (log 8). -/
def State.convoyTurn (s : State) (core : Nat) : State :=
  let s := (hartsOfCore core).foldl (fun s h => s.updHart h Hart.drained) s
  let c := s.core core
  let rechecks := ((hartsOfCore core).map fun h => ((s.hart h).queue.filter (·.inRecheck)).length).sum
  if c.settling || decide (32 ≤ rechecks) then s else
  let ready := (List.range 8).filterMap fun i =>
    let h := 8 * core + (c.served + 1 + i) % 8
    ((s.hart h).nextConvoy).map fun v => (h, v)
  match ready.find? fun x => convoyFits (isFC core) (s.heldClasses core) x.2 with
  | some (h, v) => s.startConvoy h v
  | none => s

/-- R113. -/
def execConvoyStart (core : Nat) (s : State) : Host.Outcome State Fault Refusal := .next (s.convoyTurn core)

/-- The oldest started instruction of a hart that can write its last element group does so; an MCLAIM once its claim has
been granted (R113, R239). -/
def State.writeNext (s : State) (h : Nat) : State :=
  let c := s.core (coreOf h)
  match (s.hart h).queue.findIdx? fun e => e.started && !e.written && !e.claiming h c with
  | some i => s.updHart h fun x => ({ x with queue := x.queue.modify i fun e => { e with written := true } }).drained
  | none => s

/-- Whether the oldest queued instruction of a hart has started and may retire (R113, R116). -/
def State.mayRetire (s : State) (h : Nat) : Bool :=
  ((s.hart h).queue.head?.map (·.started)).getD false && s.canRetire h

/-- An instruction of a hart that has started writes its last element group, and the oldest retires if it may (R116). -/
def State.retireTurn (s : State) (hart : Nat) : State :=
  let s1 := s.writeNext hart
  if s1.mayRetire hart then s1.updHart hart Hart.retireHead else s1

/-- R116. -/
def execInstructionRetire (hart : Nat) (s : State) : Host.Outcome State Fault Refusal := .next (s.retireTurn hart)

/-! ## Escalation (R389) -/

/-- A core after an event of R389: STEP falls, or the core drains. -/
def Core.escalated (c : Core) (exhausted : Bool) : Core :=
  let c1 := { c with escn := min (c.escn + 1) 255, wincnt := 0 }
  if c.esc = 2 ∨ c.stepPoint = 0 then
    if c.quarState = 0 then { c1 with quarState := 1, quarCause := if exhausted && c.stepPoint == 0 then 3 else 2 } else c1
  else c1.writeMargin (c.esc * 256 + (if c.esc = 1 then 0 else c.stepPoint - 1))

/-- The partition that owns a core. -/
def State.coreOwner (s : State) (c : Nat) : Option Nat := (s.parts.find? fun p => p.2.cores.contains c).map (·.1)

/-- A record in the log of the partition that owns a core. -/
def State.coreRecord (s : State) (c kind : Nat) (details : List Nat) : State :=
  match s.coreOwner c with
  | some p => s.record kind p { Who.none with core := c } details
  | none => s

/-- An event of R389 on a core. -/
def State.marginEvent (s : State) (c : Nat) (exhausted : Bool) : State :=
  let x := s.core c
  let n := min (x.wincnt + 1) 65535
  if n > x.limit ∨ exhausted = true then
    let y := { x with wincnt := n }.escalated exhausted
    (s.setCore c y).coreRecord c 0x05 [y.marginSet.toNat, y.replayCount.toNat]
  else s.setCore c { x with wincnt := n }

/-- R384: a replay changes time and counters only. -/
def execPentimentoReplay (core : Nat) (s : State) : Host.Outcome State Fault Refusal := .next (
  if core < Config.cores then
    (s.updCore core fun c => { c.count 6 1 with total := (c.total + 1) % 2 ^ 32 }).marginEvent core false
  else s)

/-- R388: a window ends. -/
def execReplayWindowEnd (core : Nat) (s : State) : Host.Outcome State Fault Refusal :=
  .next (if core < Config.cores then s.updCore core fun c => { c with wincnt := 0 } else s)

/-- R386: the settling gate ends. -/
def execSettleGateEnd (core : Nat) (s : State) : Host.Outcome State Fault Refusal :=
  .next (if core < Config.cores then s.updCore core fun c => { c with settling := false } else s)

/-! ## REPLAY_EXHAUSTED and rechecks (R385, R395) -/

/-- The i oldest queued instructions of a hart write and retire; none while one of them may not. -/
def State.retireBefore (s : State) (h i : Nat) : Option State :=
  match i with
  | 0 => some s
  | i + 1 =>
    let s1 := s.writeNext h
    if s1.mayRetire h then (s1.updHart h Hart.retireHead).retireBefore h i else none

/-- REPLAY_EXHAUSTED of a hart with nothing queued; the trap is entered before a quarantine takes the node (R385). -/
def State.exhausted (s : State) (h : Nat) (val : Word) : State :=
  (s.takeTrap h ⟨cREPLAY, val, 0, none, none, none⟩).marginEvent (coreOf h) true

/-- Drops the requests of the instruction that a hart was trying. -/
def State.dropTried (s : State) (h : Nat) : State :=
  match (s.hart h).node with
  | some (p, k, r) => s.updRank p k r fun y => { y with requests := [] }
  | none => s

/-- TVAL of REPLAY_EXHAUSTED: lane and first element (R385). -/
def replayVal (element lane : Nat) : Word := BitVec.ofNat 64 (lane % 2048 * 65536 + element % 65536)

/-- The i-th queued instruction traps REPLAY_EXHAUSTED: those before it have retired, and of it and those after it nothing
has left the hart (R112, R385). The operations of the issue queue come first. -/
def State.exhaustAt (s : State) (h i element lane : Nat) : State :=
  if !(s.hart h).iq.isEmpty then s else
  match s.retireBefore h i with
  | some s1 => (s1.undo h).exhausted h (replayVal element lane)
  | none => s

/-- The class of the instruction a hart has come to in its line (R104). -/
def Hart.nextClass (h : Hart) : Option Nat :=
  h.line.map fun l =>
    let op := lineOpcode l.bits ((h.regs.pc.toNat % 64 - 2) / 2)
    unitClass op.1 op.2

/-- The instruction a hart has come to traps REPLAY_EXHAUSTED, as long as none of its effects has left and the instructions
before it have retired. -/
def State.exhaustNext (s : State) (h : Nat) (vector : Bool) (val : Word) : State :=
  let x := s.hart h
  let fits := match x.nextClass with
    | some k => (k != 0) == vector
    | none => false
  if fits && x.queue.isEmpty && x.iq.isEmpty && x.blocked.isNone && x.partway.isNone && !s.inside h then (s.dropTried h).exhausted h val
  else s

/-- R385: eight replays in a row have failed: of an element group of the oldest queued instruction that has not written its
last one; with none queued, of the vector or scalar instruction that the hart has come to. -/
def execReplayExhausted (hart : Nat) (vector : Bool) (element lane : Nat) (s : State) : Host.Outcome State Fault Refusal :=
  .next (
    if (s.hart hart).node.isNone then s
    else if !vector then s.exhaustNext hart false 0
    else match (s.hart hart).queue.findIdx? fun e => e.started && !e.written && !e.final with
      | some i => s.exhaustAt hart i element lane
      | none => s.exhaustNext hart true (replayVal element lane))

/-- Sets the recheck mark of the i-th queued instruction. -/
def Hart.agree (h : Hart) (i : Nat) : Hart := { h with queue := h.queue.modify i fun e => { e with recheck := .agreed } }

/-- The oldest instruction of a hart in the recheck queue runs again; behind a settling gate none does (R117, R386, R395).
The kept result is that of the first run, which is the instruction's own (R7). -/
def State.recheckTurn (s : State) (hart : Nat) (outcome : RecheckOutcome) : State :=
  let core := coreOf hart
  if (s.core core).settling then s else
  match (s.hart hart).queue.findIdx? (·.inRecheck) with
  | none => s
  | some i =>
    let pc := (((s.hart hart).queue[i]?).map (·.pc)).getD 0
    match outcome with
    | .agree => (s.updHart hart (·.agree i)).updCore core (·.count 4 1)
    | .majority element _ =>
      let s1 := (s.updHart hart (·.agree i)).updCore core fun c => (c.count 4 2).count 5 1
      let s2 := match (s.hart hart).node with
        | some (p, _, _) => s1.record 0x06 p (s.whoOf hart) [pc.toNat, element]
        | none => s1
      s2.marginEvent core false
    | .allDiffer element lane => (s.updCore core fun c => (c.count 4 2).count 5 1).exhaustAt hart i element lane

/-- R395. -/
def execRecheckRun (hart : Nat) (outcome : RecheckOutcome) (s : State) : Host.Outcome State Fault Refusal :=
  .next (s.recheckTurn hart outcome)

/-! ## Quarantine (R390) -/

/-- The nodes that run on a core: partition and slot. -/
def State.nodesOn (s : State) (c : Nat) : List (Nat × Nat) :=
  ((hartsOfCore c).filterMap fun h => (s.hart h).node.map fun n => (n.1, n.2.1)).eraseDups

/-- The first free context save slot that can be written (R410). -/
def State.quarSlot (s : State) (p : Nat) : Option Nat :=
  match s.part p with
  | some x => x.freeSaves.find? fun n => s.slotWritable p (x.slotVa n)
  | none => none

/-- A node leaves a quarantined core: saved, with level, pass count and ready time kept (R43), or FAILED without a slot. -/
def State.evict (s : State) (p k : Nat) : State :=
  match s.quarSlot p with
  | some slot => s.save p k slot
  | none =>
    ((s.dropHarts p k).record 0x09 p { Who.none with node := s.handle p k } [2 ^ 64 - 1]).finishNode p k .failed

/-- R390: the drain ends once every copy and data check of the core's nodes has ended. -/
def execQuarantineComplete (core : Nat) (s : State) : Host.Outcome State Fault Refusal := .next (
  let ns := s.nodesOn core
  if (s.core core).quarState ≠ 1 ∨ (ns.any fun n => !s.settled n.1 n.2) = true then s
  else
    let s1 := ns.foldl (fun s n => s.evict n.1 n.2) s
    let s2 := s1.updCore core fun c => { c with quarState := 2 }
    let s3 := { s2 with st := { s2.st with coresIn := BitVec.ofNat 8 (s2.st.coresIn.toNat - 1) } }
    s3.coreRecord core 0x07 [(s3.core core).quarWord.toNat])

/-! ## Guarded release and draining (R324, R391) -/

/-- The oldest held store of a hart to a device register leaves the core. -/
def releaseFirst (h : Nat) (xs : List Posted) : List Posted :=
  match xs with
  | [] => []
  | x :: rest => if x.hart = h ∧ x.held = true then { x with held := false } :: rest else x :: releaseFirst h rest

/-- The oldest held effect of a hart may leave once its node is not speculative; the vector instructions before it have
retired when it is held (R391; log 8). -/
def State.releaseHeld (s : State) (hart : Nat) : State :=
  let h := s.hart hart
  let spec := match h.node with
    | some (p, k, _) => s.speculative p k
    | none => false
  if spec then s else
  match h.sb.findIdx? (·.held) with
  | some i => s.setHart hart { h with sb := h.sb.modify i fun e => { e with held := false } }
  | none => { s with posted := releaseFirst hart s.posted }

/-- R391. -/
def execGuardedRelease (hart : Nat) (s : State) : Host.Outcome State Fault Refusal := .next (s.releaseHeld hart)

/-- R324: a store-buffer entry that is not held drains, the oldest to its address first. -/
def execSbDrain (hart index : Nat) (s : State) : Host.Outcome State Fault Refusal := .next (
  let sb := (s.hart hart).sb
  match sb[index]? with
  | none => s
  | some e =>
    let can := match e.peer with
      | none => !e.held
      | some q => !e.held && ((s.peer q).failed || s.canSend q e.packet)
    if can && !s.pushWaits hart e && !((sb.take index).any fun a => a.blocks e) then s.drainAt hart index else s)

/-! ## Data checks (R396) -/

/-- The line an address of a hart names, for the rule of R400. -/
def State.lineOf (s : State) (h va : Nat) : Nat :=
  if inWindow va then 2 ^ 70 + coreOf h * 2 ^ 21 + va % 2 ^ 21
  else match s.devPlace (s.hart h).part va ⟨false, false, false⟩ with
    | .ok (.home key) => key / 64
    | .ok (.peer q key) => 2 ^ 60 * (q + 1) + key / 64
    | _ => 2 ^ 80 + va / 64

/-- The poison record with one more address (R396). -/
def lowerPoison (old : Option Nat) (va : Nat) : Option Nat :=
  some (match old with
    | some a => min a va
    | none => va)

/-- A load's data check has ended before a queued instruction: a precise trap of it returns to that (R112). -/
def QueueEntry.checked (bad : Option Nat) (e : QueueEntry) : QueueEntry :=
  if e.before.unchecked = 0 then e else
  { e with before := { e.before with
      unchecked := e.before.unchecked - 1
      poison := match bad with
        | some va => lowerPoison e.before.poison va
        | none => e.before.poison } }

/-- The data check of a hart's oldest load ends. -/
def Hart.checked (bad : Option Nat) (h : Hart) : Hart :=
  { h with unchecked := h.unchecked - 1, queue := h.queue.map (·.checked bad) }

/-- The record of an uncorrectable line, by the key of a byte, in the log of a partition (R421). -/
def State.recordPoison (s : State) (owner : Option Nat) (key : Nat) : State :=
  match owner with
  | some p => s.record 0x0F p Who.none [s.channel key, key]
  | none => s

/-- A line that a load found uncorrectable is poisoned and recorded (R396, R421). -/
def State.foundPoison (s : State) (owner : Option Nat) (key : Nat) : State :=
  (s.poisonHome (key / 64 * 64) 64).recordPoison owner key

/-- R396, R400: a load's data check ends with poison at an address. -/
def execDataCheckPoison (hart : Nat) (addr : Word) (s : State) : Host.Outcome State Fault Refusal := .next (
  let h := s.hart hart
  match h.node with
  | some (p, k, r) =>
    if h.unchecked = 0 then s
    else
      let s1 := s.updHart hart (Hart.checked (some addr.toNat))
      let s2 := match s1.devPlace p addr.toNat ⟨false, false, false⟩ with
        | .ok (.home key) => if inWindow addr.toNat then s1 else s1.foundPoison (some p) (s1.redirect key)
        | _ => s1
      (s2.notePoison p k r addr.toNat (s.lineOf hart addr.toNat)).2
  | none => s)

/-- A load's data check ends clean (R396). -/
def State.checkClean (s : State) (hart : Nat) : State :=
  if (s.hart hart).unchecked = 0 then s else s.updHart hart (Hart.checked none)

/-- R396. -/
def execDataCheckClean (hart : Nat) (s : State) : Host.Outcome State Fault Refusal := .next (s.checkClean hart)

/-! ## The default turn (log 1) -/

/-- What is left to do for the hart that ran last before it goes on: its oldest queued instruction starts, writes, is
rechecked and retires, or a data check ends; none when nothing is left, or the convoy waits for a claim to come (log 1). -/
def State.ownWork (s : State) : Option State :=
  match (s.hart s.cur).queue with
  | e :: _ =>
    if !e.started then if (s.hart s.cur).convoyReady then some (s.convoyTurn (coreOf s.cur)) else none
    else some (if e.inRecheck then s.recheckTurn s.cur .agree else s.retireTurn s.cur)
  | [] => if (s.hart s.cur).unchecked != 0 then some (s.checkClean s.cur) else none

/-! ## The power arbiter (R422) -/

/-- Whether a hart that waits is blocked in the sense of R88: by a rule that says so (R53, R185, R307, R328, R348, R405,
R407), not while it waits for the commands of a PUBLISH or comes to the trap of a refused ACQ. -/
def Block.blocks (b : Block) : Bool :=
  match b with
  | .publish | .refused => false
  | _ => true

/-- Whether a hart is runnable (R88). -/
def Hart.runnable (h : Hart) : Bool := h.node.isSome && !(h.blocked.map Block.blocks).getD false

/-- Whether a core has a runnable hart (R88). -/
def State.runnable (s : State) (c : Nat) : Bool := (hartsOfCore c).any fun h => (s.hart h).runnable

/-- The duty granted for estimates of power (R422). -/
def dutyFor (cap pfix pdyn : Nat) : Nat :=
  if pfix + pdyn ≤ cap then 64
  else if cap ≤ pfix then 1
  else max 1 (64 * (cap - pfix) / pdyn)

/-- R422: an arbitration interval ends; the power drawn in it, shown by PWR_STAT, is free (log 30). -/
def execArbitrationInterval (pfix pdyn : Nat) (s : State) : Host.Outcome State Fault Refusal := .next (
  let d := dutyFor s.pwrCap pfix pdyn
  { s with
    cores := s.cores.map fun c => (c.1, { c.2 with duty := if s.runnable c.1 then d else 64 })
    pwrDuty := d
    pwrEst := (Config.freeWord s.free).toNat % 65536
    free := s.free + 1 })

end Sys2Proof.Machine
end

