-- ==== Sys2Proof/Machine/Pager.lean ====
section
/-!
DEFINITION. Pager.lean: the pages a batch report asks for (R282, R283), the pager's replies (R405, R407, R413, R314),
migration (R278, R284, R285), and the upkeep of the memory parts: refresh and scrubbing (R288, R424).
-/

namespace Sys2Proof.Machine

/-! ## The pages of a report (R282, R283) -/

/-- A field of word i of a report. -/
def reportField (r : List Word) (i hi lo : Nat) : Nat := bits (r.getD i 0).toNat hi lo

/-- Element (p, j, i) of a report of KIND 2 or 4: its address and bytes. Elements of a row of KIND 4 stand side by side, and
two elements of 4 bits share a byte (log 15). -/
def reportElem (r : List Word) (kind p j i : Nat) : Nat × Nat :=
  let eb := reportField r 0 39 32
  let w : Nat → Word := BitVec.ofNat 64
  let along := if eb = 0 then w (i / 2) else if kind = 4 then w (i * eb) else w i * r.getD 5 0
  ((r.getD 1 0 + along + w j * r.getD 6 0 + w p * r.getD 7 0).toNat, max eb 1)

/-- The 64 KiB pages that bytes touch. -/
def pagesAt (x : Nat × Nat) : List Nat := (List.range ((x.1 + x.2 - 1) / 65536 + 1 - x.1 / 65536)).map (x.1 / 65536 + ·)

/-- The set P of a report as page numbers (R283): the listed pages, or those of the elements from FIRST to the end of the
sweep, of which no more than 32,768 elements stand in a row and 16 rows in a plane of KIND 2. -/
def reportPages (r : List Word) : List Nat :=
  let kind := reportField r 0 47 40
  let len := fun i => (r.getD (2 + i) 0).toNat
  if kind ≠ 2 ∧ kind ≠ 4 then (List.range (reportField r 0 31 16)).map fun i => (r.getD (9 + i) 0).toNat / 65536
  else
    let planes := if kind = 4 then 1 else min (len 2) 8
    let rows := if kind = 4 then min (len 1) 32768 else min (len 1) 16
    let elems := (List.range planes).flatMap fun p => (List.range rows).flatMap fun j =>
      (List.range (min (len 0) 32768)).filterMap fun i =>
        if (r.getD 8 0).toNat ≤ pixWord p j i then some (reportElem r kind p j i) else none
    (elems.flatMap pagesAt).eraseDups

/-- Whether a page is present for a partition. -/
def State.resident (s : State) (p page : Nat) : Bool := (s.walk p (page * 65536)).1.isSome

/-- Whether the pager may map a page as it proposes (R37, R272, R273, R277): the entry is well formed, its frames hold no
page, and frames of memory are the partition's. -/
def State.canMap (s : State) (p : Nat) (x : PageMap) : Bool :=
  let span := if x.large then 32 else 1
  let e : Entry := { testEntry with mode := x.mode, pool := x.pool, peer := x.peer }
  let owned := ((s.part p).map (·.frames)).getD []
  e.pairingOk && decide (x.mode < 4) && decide (x.thr < 16) && decide (x.rframe < 2 ^ 32) && decide (x.page < 2 ^ 57) &&
    x.page % (65536 * span) == 0 && x.frame % span == 0 && (x.pool != 15 || bits x.rframe 24 0 % span == 0) &&
    (List.range span).all fun i =>
      s.refOk (frameRef x.pool (x.frame + i)) && (s.validEntry x.pool (x.frame + i)).isNone &&
        (x.pool == 15 || owned.contains (x.pool, x.frame + i))

/-- Whether a proposed mapping holds a page. -/
def mapHas (x : PageMap) (page : Nat) : Bool :=
  decide (x.page ≤ page * 65536) && decide (page * 65536 < x.page + if x.large then 2 ^ 21 else 2 ^ 16)

/-- The pager makes pages of P resident that are not, and no other (R283): a proposal that it may not carry out, or one of a
large page that would make a page outside P resident, is passed over. -/
def State.pageIn (s : State) (p : Nat) (pages : List Nat) (x : PageMap) : State :=
  let held := (List.range (if x.large then 32 else 1)).map (x.page / 65536 + ·)
  if (held.any fun g => pages.contains g && !s.resident p g) && (held.all fun g => pages.contains g || s.resident p g) &&
    s.canMap p x then s.makeResident p x else s

/-! ## The pager's reply -/

/-- TCAUSE once the reply has arrived: PEND clears, UNRES is as the reply states (R407). -/
def answeredCause (w : Word) (unres : Bool) : Word := (w &&& 0xFF) ||| (if unres then 0x4000 else 0)

/-- An AND or OR of a word of a partition's memory by the device (codes 6 and 7 of R176). -/
def State.devAmo (s : State) (p va op : Nat) (v : Word) : State :=
  let (r, s1) := s.devAccess p va needW
  match r with
  | .ok (.home key) => (s1.amoHome op 8 key v).2
  | .ok (.peer q key) => s1.emit q (.amo op 8 key v) .none
  | _ => s1

/-- The fault record of a saved rank takes a reply (R413): its bit of the batch clears, the unresolved bit is set. -/
def State.replySaved (s : State) (p slot rank level : Nat) (unres : Bool) : State :=
  match s.part p with
  | none => s
  | some x =>
    let va := x.slotVa slot + 0x10000 + 0x50000 * rank + 8
    let s1 := s.devAmo p va 6 (~~~(BitVec.ofNat 64 (2 ^ level)))
    if unres then s1.devAmo p va 7 (BitVec.ofNat 64 (2 ^ (4 + level))) else s1

/-- A trap bank once its batch is answered. -/
def TrapBank.answered (b : TrapBank) (unres : Bool) : TrapBank := { b with cause := answeredCause b.cause unres }

/-- A reply reaches a rank at a trap level: the wait of R405 ends, or PEND clears and a blocked TRET proceeds (R407). -/
def State.replyRank (s : State) (p handle rank level : Nat) (unres : Bool) : State :=
  match s.slotOf p handle with
  | none => s
  | some k =>
    let r := s.rank p k rank
    if r.saved then
      match (s.node p k).bind (·.saved) with
      | some slot => s.replySaved p slot rank level unres
      | none => s
    else
      match r.hart with
      | none => s
      | some h =>
        if level = 0 then
          if !r.waitBatch then s else
          let s1 := s.updRank p k rank fun y => { y with waitBatch := false }
          if unres then s1.killHart h r.waitTrap.1 r.waitTrap.2.1 r.waitTrap.2.2
          else s1.updHart h fun x => { x with blocked := none }
        else s.updHart h fun x => { x with
          regs := x.regs.setBank level ((x.regs.bank level).answered unres)
          blocked := if x.blocked = some .pager then none else x.blocked }

/-- A reply reaches an engine command: it goes on, or ends unresolved (R314, R376). -/
def State.replyEngine (s : State) (c : Nat) (unres : Bool) : State :=
  match tget s.commands c with
  | none => s
  | some x =>
    let s1 := s.setCommand c { x with batch := none }
    if !unres then s1
    else if x.op = 3 then s1.failCollective c { x with batch := none }
    else s1.endUnresolved c

/-- The partition whose memory a report is about (R282). -/
def reportPart (r : List Word) : Nat := reportField r 0 63 58

/-- R283, R407: the pager maps the pages of P that it can, but none that it reports as unresolved, and replies; a page of P
that is still absent is unresolved. -/
def execPagerReply (batch : Nat) (maps : List PageMap) (unresolved : List Nat) (s : State) : Host.Outcome State Fault Refusal := .next (
  match tget s.batches batch with
  | none => s
  | some b =>
    let p := reportPart b.report
    let pages := reportPages b.report
    let offered := maps.filter fun x => !unresolved.any (mapHas x)
    let s1 := offered.foldl (fun s x => s.pageIn p pages x) { s with batches := tdel s.batches batch }
    let unres := pages.any fun g => !s1.resident p g
    match b.owner with
    | .rank q handle rank level => s1.replyRank q handle rank level unres
    | .engine c => s1.replyEngine c unres
    | .migration | .noOne _ => s1)

/-! ## Migration requests (R278) -/

/-- Sets or clears MIGREQ in every TLB copy of a frame's entry. -/
def State.markMigreq (s : State) (pool frame : Nat) (v : Bool) : State :=
  let f := fun e : Entry => if e.pool == pool && e.frame == frame then { e with migreq := v } else e
  { s with
    l2 := s.l2.map fun p => (p.1, p.2.map f)
    cores := s.cores.map fun p => (p.1, { p.2 with tlb := p.2.tlb.map f }) }

/-- R278: a die's copy of a MODE 3 entry has reached its threshold. -/
def execMigrationRequest (die part vpn : Nat) (s : State) : Host.Outcome State Fault Refusal := .next (
  let va := vpn * 2 ^ 16
  match s.inL2 die part va with
  | none => s
  | some e =>
    if e.mode ≠ 3 ∨ e.migreq ∨ e.acnt < 2 ^ e.thr then s else
    let s1 := (s.markMigreq e.pool e.frame true).writeAcnt { e with migreq := true }
    s1.sendBatch .migration (batchReport part 5 0 (BitVec.ofNat 64 va) [] [] 0 [va]))

/-- One bit of word 1 of an entry, written in table memory. -/
def State.setEntryBit (s : State) (pool frame bit : Nat) (v : Bool) : State :=
  let a := s.entryAddr pool frame + 8
  let w := s.readTbl a 8
  s.writeTbl a (leBytes 8 (w - bits w bit bit * 2 ^ bit + (if v then 2 ^ bit else 0)))

/-- R278: Silven declines a request and clears MIGREQ. The frame is named by the key of its first byte. -/
def execMigrationDeclined (frame : Nat) (s : State) : Host.Outcome State Fault Refusal := .next (
  (s.setEntryBit (homePool frame) (homeFrame frame) 45 false).markMigreq (homePool frame) (homeFrame frame) false)

/-! ## Migration (R284, R285) -/

/-- Whether the device holds a home of a page by its number: a buffer's front or a seal word. Silven moves such a page to no
peer (log 29). -/
def State.heldByDevice (s : State) (source : Nat) : Bool :=
  let inside := fun key n : Nat => decide (key < source + 65536) && decide (source < key + n)
  (s.parts.any fun p => p.2.buffers.any fun b => b.2.pieces.any fun x => inside x.1 x.2) ||
    s.scheds.any fun t => t.2.seals.any fun x => inside (s.redirect x.1) 1

/-- Whether Silven may migrate the page of a frame to another (R284): F maps one page of 64 KiB, G holds no page and is no
other partition's, and neither takes part in a migration; a G of pool 15 lies on a peer. -/
def State.migrates (s : State) (source target peer : Nat) : Bool :=
  let (e, _, v) := s.entryAt (homePool source) (homeFrame source)
  let frame := (homePool target, homeFrame target)
  v && !e.large && homeOff source == 0 && homeOff target == 0 && source != target &&
    s.refOk (frameRef (homePool source) (homeFrame source)) && s.refOk (frameRef frame.1 frame.2) &&
    (s.validEntry frame.1 frame.2).isNone &&
    !(s.parts.any fun p => p.1 != e.part && p.2.frames.contains frame) &&
    !(s.migrations.any fun m => [m.source, m.target].any fun k => k == source || k == target) &&
    (homePool target != 15 || (decide (peer < Config.peers) && !s.heldByDevice source))

/-- A page comes to a frame of memory: the frame is the partition's (R37). -/
def Partition.takeFrame (x : Partition) (key : Nat) : Partition :=
  let frame := (homePool key, homeFrame key)
  if homePool key = 15 ∨ x.frames.contains frame = true then x else { x with frames := x.frames ++ [frame] }

/-- R284, step 1: MIG is set in F's entry, and copying begins. A page that goes to a peer leaves the memory a rollback can
restore (R399). -/
def execMigrationStart (source : Nat) (target : MoveTarget) (s : State) : Host.Outcome State Fault Refusal := .next (
  if !s.migrates source target.home target.peer then s else
  let part := (s.entryAt (homePool source) (homeFrame source)).1.part
  let s1 := (s.setEntryBit (homePool source) (homeFrame source) 44 true).updPart part (·.takeFrame target.home)
  let s2 := if homePool target.home = 15 then s1.leavePart part else s1
  { s2 with migrations := ⟨source, target.home, 0, false, target.peer, target.rframe % 2 ^ 32⟩ :: s2.migrations })

/-- R284, step 2: the next line is copied; after the last, step 3 follows. -/
def execMigrationLineCopy (source : Nat) (s : State) : Host.Outcome State Fault Refusal :=
  .next (match s.migrations.find? fun m => m.source == source with
    | some m => s.copyLine m
    | none => s)

/-- Whether a packet has an access in a page at its peer. -/
def packetIn (first : Nat) (p : Packet) : Bool :=
  let inside := fun key : Nat => decide (first ≤ key) && decide (key < first + 65536)
  match p with
  | .read loc _ | .amo _ _ loc _ | .cas _ loc _ _ | .object _ loc _ | .merged _ loc _ => inside loc
  | .write xs _ _ => xs.any fun x => inside x.1
  | .vstred _ _ xs | .vamo _ _ xs => xs.any fun x => inside x.1
  | .reduce .. | .slotMessage .. => false

/-- Whether packets to a peer with an access in a page are still to be performed. -/
def State.packetsIn (s : State) (peer first : Nat) : Bool :=
  (s.peer peer).unacked.any (fun u => packetIn first u.packet) || (s.peer peer).waiting.any fun w => packetIn first w.1

/-- Whether an access that used F's translation is still to be performed (R284, step 4). -/
def State.usesFrame (s : State) (m : Migration) : Bool :=
  let pool := homePool m.source
  let frame := homeFrame m.source
  let old := s.oldPeer m
  let first := (old.map (·.2)).getD m.source
  let inside := fun key : Nat => decide (first ≤ key) && decide (key < first + 65536)
  let hart := fun h : Hart =>
    (h.sb.any fun e => e.peer == old.map (·.1) && e.parts.any fun x => inside x.key) ||
      h.translations.any fun y => y.2.pool == pool && y.2.frame == frame
  let moving := fun t : Transfer => t.pages.any fun y => y.2.pool == pool && y.2.frame == frame
  let here := match old with
    | some (q, _) => s.packetsIn q first
    | none => s.peers.any fun p => p.2.held.any fun x => packetIn m.source x.2
  let copies := m.away && s.packetsIn m.peer (m.awayKey m.source)
  (s.harts.any fun h => hart h.2) || (s.cores.any fun c => c.2.channels.toList.any fun ch => ch.queue.any moving) ||
    here || copies

/-- What the device holds of a page by its number goes with the page once F is free. -/
def State.rehome (s : State) (part source target : Nat) : State :=
  let f := fun key : Nat => if source ≤ key ∧ key < source + 65536 then target + (key - source) else key
  let line := fun x : Nat × List Byte => (f x.1, x.2)
  let moved := fun x : Nat × Bool × Nat => (f x.1, x.2)
  let table := fun t : Nat × SchedTable => (t.1, { t.2 with seals := t.2.seals.map moved })
  let buffer := fun b : Nat × Buffer => (b.1, { b.2 with moves := b.2.moves ++ [(source, target)] })
  let s1 := { s with scheds := s.scheds.map table }
  s1.updPart part fun x => { x with
    klog := x.klog.map line
    own := x.own.map line
    rolledBack := x.rolledBack.map fun n => f (64 * n) / 64
    buffers := x.buffers.map buffer }

/-- R284, step 4: once nothing uses the old translation, the redirect bits are cleared and F is free: it holds no page, and
stays the partition's, whose teardown zeroes it (R37, R425; log 29). -/
def execMigrationFinish (source : Nat) (s : State) : Host.Outcome State Fault Refusal := .next (
  match s.migrations.find? fun m => m.source == source with
  | none => s
  | some m =>
    if m.copied < 1024 ∨ s.usesFrame m = true then s else
    let pool := homePool source
    let frame := homeFrame source
    let part := (s.entryAt pool frame).1.part
    let s1 := { s with migrations := s.migrations.filter fun x => x.source != source }
    let s2 := s1.setEntryBit pool frame 44 false
    if pool = 15 ∨ m.away = true then s2 else s2.rehome part source m.target)

/-! ## Refresh and scrubbing (R288, R424) -/

/-- R424, R288: accesses delayed by a refresh count in CH_REFS. -/
def execRefresh (channel : Nat) (delayed : Nat) (s : State) : Host.Outcome State Fault Refusal := .next (
  if channel ≥ 296 then s else
  let c := (tget s.chans channel).getD ⟨0, 0, 0, 0⟩
  { s with chans := tput s.chans channel { c with refs := min (c.refs + delayed) 0xFFFFFFFFFFFF } })

/-- The partition that owns a frame. -/
def State.frameOwner (s : State) (pool frame : Nat) : Option Nat :=
  (s.parts.find? fun x => x.2.frames.contains (pool, frame)).map (·.1)

/-- The row of a byte in its channel (R287). -/
def rowOf (key : Nat) : Nat :=
  if homePool key = 8 then (homeFrame key * 256 + homeOff key / 256) / 40
  else homeFrame key % 32 * 8 + homeOff key / 8192

/-- A corrected line: its record, at most once per channel in 2^30 cycles (R424). -/
def State.scrubCorrected (s : State) (owner : Option Nat) (key : Nat) : State :=
  let ch := s.channel key
  let due := match tget s.corrected ch with
    | some t => decide (s.now ≥ t + 2 ^ 30)
    | none => true
  match owner with
  | some p => if due then { s.record 0x0E p Who.none [ch, rowOf key] with corrected := tput s.corrected ch s.now } else s
  | none => s

/-- R424: a frame, named by the key of its first byte, is scrubbed; the lists hold line numbers. -/
def execScrub (frame : Nat) (corrected uncorrectable : List Nat) (s : State) : Host.Outcome State Fault Refusal := .next (
  let owner := s.frameOwner (homePool frame) (homeFrame frame)
  if !frameExists (homePool frame) (homeFrame frame) then s else
  let first := homeKey (homePool frame) (homeFrame frame) 0
  let s1 := corrected.foldl (fun s n => s.scrubCorrected owner (first + 64 * (n % 1024))) s
  let bad := fun n : Nat => first + 64 * (n % 1024)
  uncorrectable.foldl (fun s n => (s.poisonLine (bad n)).recordPoison owner (bad n)) s1)

end Sys2Proof.Machine
end

