-- ==== Sys2Proof/Machine/Registers.lean ====
section
/-!
DEFINITION. Registers.lean: writes of device registers under their field maps (R4, R5), by the host or by a hart (R392): the
management region of a virtual function and the Silven register block (R19, R275, R288, R379, R420, R422).
-/

namespace Sys2Proof.Machine

/-! ## Field maps -/

/-- A write to bits that clear where a one is written (W1C, R4). -/
def w1c (n old v : Nat) : Nat := (BitVec.ofNat n old &&& ~~~(BitVec.ofNat n v)).toNat

/-! ## Error-log registers (R420) -/

/-- A write of register i of an error log: BASE, CTL, TAIL, DROP. -/
def Ring.write (r : Ring) (i : Nat) (v : Word) : Ring :=
  match i with
  | 0 => { r with base := v &&& 0x01FFFFFFFFFFF000 }
  | 1 => { r with len := v.setWidth 16 }
  | 2 => { r with tail := v.setWidth 32 }
  | 3 => { r with drop := w1c 32 r.drop v.toNat }
  | _ => r

/-! ## The management region of a partition -/

/-- PART_RELY under its field map (R394). -/
def Partition.writeRely (x : Partition) (v : Word) : Partition :=
  { x with
    relyK := BitVec.ofNat 16 (bits v.toNat 31 16)
    relyMode := if bits v.toNat 1 0 = 3 then x.relyMode else BitVec.ofNat 2 (bits v.toNat 1 0) }

/-- CSA_BASE and CSA_SLOTS, ignored while the node table holds any node (R410). -/
def Partition.writeCsa (x : Partition) (offset : Nat) (v : Word) : Partition :=
  if !x.nodes.isEmpty then x
  else match offset with
    | 0x070 => { x with csaBase := v &&& 0x01FFFFFFFFF00000 }
    | 0x078 => { x with csaSlots := bits v.toNat 15 0 }
    | _ => x

/-- The collective descriptors (R374): the count of a group restarts when EN goes from 0 to 1 (R375). -/
def Partition.writeColl (x : Partition) (i : Nat) (v : Word) : Partition :=
  if i % 2 = 0 then
    let old := (tget x.coll i).getD 0
    { x with
      coll := tput x.coll i (v &&& 0x8000000001FF01FF)
      collCount := if v.getLsbD 63 && !old.getLsbD 63 then tdel x.collCount (i / 2) else x.collCount }
  else { x with coll := tput x.coll i (v &&& 0x01FFFFFFFFFFFFFE) }

/-- The channel-hash ranges (R286). -/
def Partition.writeChr (x : Partition) (i : Nat) (v : Word) : Partition :=
  { x with chr := tput x.chr i (v &&& (if i % 2 = 0 then 0x81FFFFFFFFFFFFFF else 0xC1FFFFFFFFFF0000)) }

/-- A write of a register that belongs to the partition alone (R394, R398, R410, R419, R420, R286, R374); others are
ignored. -/
def Partition.writeReg (x : Partition) (offset : Nat) (v : Word) : Partition :=
  match offset with
  | 0x050 => x.writeRely v
  | 0x058 => { x with klogBase := v &&& 0x01FFFFFFFFFF0000 }
  | 0x060 => { x with klogPages := bits v.toNat 31 0 }
  | 0x070 | 0x078 => x.writeCsa offset v
  | 0x080 | 0x088 | 0x090 | 0x098 => { x with elog := x.elog.write ((offset - 0x080) / 8) v }
  | 0x0A0 => { x with acctRet := x.acctRet &&& ~~~v }
  | 0x0A8 => { x with
      acctCanc := x.acctCanc &&& ~~~(BitVec.ofNat 32 (v.toNat / 2 ^ 32)), acctFail := x.acctFail &&& ~~~(v.setWidth 32) }
  | 0x0B0 => { x with acctPcyc := x.acctPcyc &&& ~~~v }
  | 0x0B8 => { x with acctHcyc := x.acctHcyc &&& ~~~v }
  | _ =>
    if 0x3000 ≤ offset ∧ offset < 0x3200 then x.writeChr ((offset - 0x3000) / 8) v
    else if 0x4000 ≤ offset ∧ offset < 0x4100 then x.writeColl ((offset - 0x4000) / 8) v
    else x

/-- A write of a register of a schedule block (R57, R58); writes to read-only registers are ignored. -/
def State.writeSched (s : State) (p t o : Nat) (v : Word) : State :=
  let x := s.sched t
  match o with
  | 0x00 => s.writeSchedCtl p t v
  | 0x08 => s.setSched t { x with base := v }
  | 0x10 => s.setSched t { x with actBase := v }
  | 0x18 => s.setSched t { x with gradBase := v }
  | 0x20 => s.setSched t { x with slotBytes := v }
  | _ => s

/-- A unit's write to a register of a virtual function's management region (R40, R57). -/
def State.writeManagement (s : State) (u : AccUnit) (p offset : Nat) (v : Word) : State :=
  if !s.alive p then s else
  match offset with
  | 0x000 => s.writeInsert u p v
  | 0x008 => s.writeWinCtl p v
  | 0x040 => s.writePartMode p v
  | _ =>
    if 0x1000 ≤ offset ∧ offset < 0x2000 then
      let t := (offset - 0x1000) / 0x100
      if u = .host then s.schedAccess p t offset fun s => s.writeSched p t (offset % 0x100) v
      else if s.registerGrants u (.management p) offset true then s.writeSched p t (offset % 0x100) v
      else s
    else s.updPart p (·.writeReg offset v)

/-! ## The Silven register block -/

/-- The table registers, written only while no partition exists (R275). -/
def State.writeTableReg (s : State) (offset : Nat) (v : Word) : State :=
  if !s.parts.isEmpty || offset % 8 != 0 then s
  else if offset = 0x100 then
    let b := bits v.toNat 4 0
    let b' := if 10 ≤ b ∧ b ≤ 26 then b else bits s.trAnchor.toNat 4 0
    { s with trAnchor := (v &&& 0x01FFFFFFFFFFFFC0) ||| BitVec.ofNat 64 b' }
  else if 0x140 ≤ offset ∧ offset < 0x1C0 then
    { s with trPool := tput s.trPool ((offset - 0x140) / 8) (v &&& 0x01FFFFFFFFFFFFE0) }
  else if offset = 0x1C0 then { s with trCount := v &&& 0x1FFFFFF }
  else s

/-- PWR_CAP, clamped (R422). -/
def State.writePwrCap (s : State) (v : Word) : State := { s with pwrCap := max 600 (min 2800 (bits v.toNat 15 0)) }

/-- FAB_CTL: a field written 0 keeps its value (R379). -/
def State.writeFabCtl (s : State) (v : Word) : State :=
  let keep := fun old new : Nat => if new = 0 then old else new
  { s with fabFailt := keep s.fabFailt (bits v.toNat 27 16), fabDlt := keep s.fabDlt (bits v.toNat 11 0) }

/-- A channel's counters after a W1C write of register i (R288). -/
def ChannelCount.write (c : ChannelCount) (i v : Nat) : ChannelCount :=
  match i with
  | 0 => { c with rd := w1c 48 c.rd v }
  | 1 => { c with wr := w1c 48 c.wr v }
  | 2 => { c with rowc := w1c 48 c.rowc v }
  | _ => { c with refs := w1c 48 c.refs v }

/-- PORT_STAT after a write (R379). -/
def Port.write (x : Port) (v : Nat) : Port :=
  { x with lretry := w1c 24 x.lretry (bits v 47 24), dlresend := w1c 24 x.dlresend (bits v 23 0) }

/-- A write to the Silven register block that has been let in; one that nothing answers is dropped (R19). -/
def State.writeSilven (s : State) (offset : Nat) (v : Word) : State :=
  if !s.silvenAnswers offset then s
  else if offset = 0x008 then (if v.getLsbD 0 then s.writeRestart else s)
  else if 0x100 ≤ offset ∧ offset ≤ 0x1C0 then s.writeTableReg offset v
  else if 0x10000 ≤ offset ∧ offset < 0x10000 + 32 * 296 then
    let c := (offset - 0x10000) / 32
    let x := (tget s.chans c).getD ⟨0, 0, 0, 0⟩
    { s with chans := tput s.chans c (x.write (offset % 32 / 8) v.toNat) }
  else if 0x20000 ≤ offset ∧ offset < 0x20000 + 8 * 72 then
    let n := (offset - 0x20000) / 8
    s.setPort n ((s.port n).write v.toNat)
  else if offset = 0x20400 then s.writeFabCtl v
  else if 0x20480 ≤ offset ∧ offset < 0x204B0 then s.writePeerFail ((offset - 0x20480) / 8) v
  else if offset = 0x40000 then s.writePwrCap v
  else if 0x50000 ≤ offset ∧ offset ≤ 0x50018 then { s with dlog := s.dlog.write ((offset - 0x50000) / 8) v }
  else if offset = 0x60000 then s.writeTeardown v.toNat
  else s

/-- A write of a register by a unit in an access of a width: only aligned writes of 8 bytes are taken (R40, R57), and the
host's denied ones are recorded (R38, R39). -/
def State.writeRegister (s : State) (u : AccUnit) (space : RegSpace) (offset width : Nat) (v : Word) : State :=
  if offset % 8 ≠ 0 ∨ width ≠ 8 then s else
  match space with
  | .management p => s.writeManagement u p offset v
  | .silven master =>
    if s.dropsHost master u then s
    else if s.silvenGrants master u then s.writeSilven offset v
    else match master with
      | some p => if u = .host ∧ s.silvenAnswers offset = true then s.hostDenied p offset .silven else s
      | none => s

/-- The first store on its way to a register, and the stores without it. -/
def firstPosted (xs : List Posted) : Option (Posted × List Posted) :=
  match xs with
  | [] => none
  | x :: rest => if x.held then (firstPosted rest).map fun y => (y.1, x :: y.2) else some (x, rest)

/-- The oldest store of a hart on its way to a device register reaches it (R392). -/
def State.deliverPosted (s : State) : State :=
  match firstPosted s.posted with
  | some (x, rest) => { s with posted := rest }.writeRegister .hart x.space x.offset x.width x.value
  | none => s

/-! ## The write events -/

/-- R4: a host write to a register. -/
def execRegisterWrite (space : RegSpace) (access : RegAccess) (value : Word) (s : State) :
    Host.Outcome State Fault Refusal := .next (s.writeRegister .host space access.offset access.width value)

/-- R275: a write to TR_ANCHOR, TR_POOLn or TR_POOL15C. -/
def execTableRegisterWrite (offset : Nat) (value : Word) (s : State) : Host.Outcome State Fault Refusal :=
  .next (if s.silvenAnswers offset then s.writeTableReg offset value else s)

/-- R410: a write to CSA_BASE or CSA_SLOTS. -/
def execCsaWrite (part offset : Nat) (value : Word) (s : State) : Host.Outcome State Fault Refusal :=
  .next (if s.alive part then s.updPart part (·.writeCsa offset value) else s)

/-- R422: a write to PWR_CAP. -/
def execPwrCapWrite (value : Word) (s : State) : Host.Outcome State Fault Refusal :=
  .next (if s.silvenAnswers 0x40000 then s.writePwrCap value else s)

/-- R379: a write to FAB_CTL. -/
def execFabCtlWrite (value : Word) (s : State) : Host.Outcome State Fault Refusal :=
  .next (if s.silvenAnswers 0x20400 then s.writeFabCtl value else s)

end Sys2Proof.Machine
end

