-- ==== Sys2Proof/Machine/Special.lean ====
section
/-!
DEFINITION. Special.lean: the special functions of major 0x2C (R217, R218). The exact real is evaluated in fixed point
with 256 fractional bits; the result is any pattern within the stated bound of it, picked by a free choice that depends
on function, format and operand alone (log 13).
-/

namespace Sys2Proof.Machine

/-! ## Fixed point with 256 fractional bits -/

def sfOne : Nat := 2 ^ 256

/-- ln 2. -/
def sfLn2 : Nat := ((List.range 264).map fun k => sfOne / ((k + 1) * 2 ^ (k + 1))).sum

/-- arctan(1/n). -/
def sfAtan (n : Nat) : Int :=
  ((List.range 120).map fun k =>
    let t : Int := (sfOne / ((2 * k + 1) * n ^ (2 * k + 1)) : Nat)
    if k % 2 = 0 then t else -t).foldl (· + ·) 0

/-- π, by Machin's formula. -/
def sfPi : Nat := (16 * sfAtan 5 - 4 * sfAtan 239).toNat

/-- The sum over k < 90 of y^k / ((k + d)!/d!) for y below 2. -/
def sfExpSum (y d : Nat) : Nat :=
  ((List.range 90).foldl (fun (a : Nat × Nat) k => (a.1 + a.2, a.2 * y / ((k + 1 + d) * sfOne))) (0, sfOne)).1

/-- The alternating sum over k < 60 of z^k / (2k + d)! times d!, z a square. -/
def sfTrigSum (z d : Nat) : Nat :=
  ((List.range 60).foldl (fun (a : Int × Nat × Bool) k =>
    (if a.2.2 then a.1 + a.2.1 else a.1 - a.2.1,
      a.2.1 * z / ((2 * k + 1 + d) * (2 * k + 2 + d) * sfOne), !a.2.2)) (0, sfOne, true)).1.toNat

/-- man x 2^exp as fixed point, truncated. -/
def sfOf (man : Nat) (exp : Int) : Nat :=
  let e := exp + 256
  if e ≥ 0 then man * 2 ^ e.toNat else man / 2 ^ (-e).toNat

/-- 2^(n + f): a mantissa with 256 fractional bits and the exponent n - 256. -/
def sfExp2 (x : Int) : Nat × Int :=
  let n := x / (sfOne : Int)
  let f := (x - n * sfOne).toNat
  (sfExpSum (f * sfLn2 / sfOne) 0, n - 256)

/-- ln of a mantissa in [1, 2), by 2 artanh((m - 1)/(m + 1)). -/
def sfLn (m : Nat) : Nat :=
  let z := (m - sfOne) * sfOne / (m + sfOne)
  let z2 := z * z / sfOne
  2 * ((List.range 90).foldl (fun (a : Nat × Nat) k => (a.1 + a.2 / (2 * k + 1), a.2 * z2 / sfOne)) (0, z)).1

/-- sin(π r) for r = man x 2^exp in (0, 1/2]: mantissa and exponent. -/
def sfSinPi (man : Nat) (exp : Int) : Nat × Int :=
  let y := sfOf man exp * sfPi / sfOne
  (man * (sfTrigSum (y * y / sfOne) 1 * sfPi / sfOne), exp - 256)

/-- cos(π r) for r in [0, 1/4]. -/
def sfCosPi (man : Nat) (exp : Int) : Nat × Int :=
  let y := sfOf man exp * sfPi / sfOne
  (sfTrigSum (y * y / sfOne) 0, -256)

/-! ## The exact real of a function (R217) -/

/-- The argument of VSINPI and VCOSPI reduced exactly: |x| modulo 2 in units of 2^-d, and d (R218). -/
def reduce2 (man : Nat) (exp : Int) : Nat × Nat :=
  let d := (-exp).toNat
  (man * 2 ^ exp.toNat % 2 ^ (d + 1), d)

/-- |f(x)| as mantissa and exponent, with its sign, for a finite x whose result is no special value. -/
def realSpecial (op : Nat) (neg : Bool) (man : Nat) (exp : Int) : Bool × Nat × Int :=
  let big := fun (b : Nat) => decide ((Nat.log2 man : Int) + exp ≥ b)
  match op with
  | 0 =>
    if big 13 then (false, 1, if neg then -6000 else 6000)
    else
      let x := sfOf man exp
      let (m, e) := sfExp2 (if neg then -(x : Int) else x)
      (false, m, e)
  | 1 =>
    let k := Nat.log2 man
    let n : Int := (k : Int) + exp
    let l := sfLn (sfOf man (-(k : Int)))
    let z := n * sfOne + (l * sfOne / sfLn2 : Nat)
    (decide (z < 0), z.natAbs, -256)
  | 2 =>
    let (r, d) := reduce2 man exp
    let u := 2 ^ d
    let flip := decide (r > u)
    let r := if flip then r - u else r
    let r := if 2 * r > u then u - r else r
    let (m, e) := sfSinPi r (-(d : Int))
    (neg != flip, m, e)
  | 3 =>
    let (r, d) := reduce2 man exp
    let u := 2 ^ d
    let r := if r > u then 2 * u - r else r
    let flip := decide (2 * r > u)
    let r := if flip then u - r else r
    let (m, e) := if 4 * r ≤ u then sfCosPi r (-(d : Int)) else sfSinPi (u - 2 * r) (-(d : Int) - 1)
    (flip, m, e)
  | 4 =>
    if big 7 then (neg, sfOne - 1, -256)
    else if decide ((Nat.log2 man : Int) + exp ≥ -1) then
      let y := 2 * sfOf man exp
      let (m, e) := sfExp2 ((y * sfOne / sfLn2 : Nat) : Int)
      let ex := m * 2 ^ (e + 256).toNat
      (neg, sfOne - 2 * sfOne * sfOne / (ex + sfOne), -256)
    else
      let y := 2 * sfOf man exp
      let phi := sfExpSum y 1
      (neg, man * (2 * phi * sfOne / (2 * sfOne + y * phi / sfOne)), exp - 256)
  | 5 =>
    let k := 260 + Nat.log2 man
    (neg, 2 ^ k / man, -(k : Int) - exp)
  | _ =>
    let odd := (exp % 2).toNat
    let k := 200 + Nat.log2 man
    (false, isqrt (2 ^ (2 * k) / (man * 2 ^ odd)), -(k : Int) - (exp - odd) / 2)

/-- The bound in units in the last place (R217). -/
def ulps (op f : Nat) : Nat := match op with | 2 => if f = 9 then 2 else 1 | 3 => if f = 9 then 2 else 1 | 4 => 2 | _ => 1

/-- The magnitude of a pattern without sign, infinity counting as the next number (R130). -/
def patMag (f p : Nat) : Nat × Int :=
  let t := fmtMan f
  let e := p / 2 ^ t
  if e = 0 then (p, 1 - (fmtBias f : Int) - t) else (2 ^ t + p % 2 ^ t, (e : Int) - fmtBias f - t)

/-- Whether a magnitude pattern lies within n units in the last place of man x 2^exp. -/
def withinUlps (f n p man : Nat) (exp : Int) : Bool :=
  let (m, e) := patMag f p
  let q := max ((Nat.log2 man : Int) + exp) (1 - fmtBias f) - fmtMan f
  let lo := min e (min exp q)
  let x : Int := (m * 2 ^ (e - lo).toNat : Nat)
  let y : Int := (man * 2 ^ (exp - lo).toNat : Nat)
  decide ((x - y).natAbs ≤ n * 2 ^ (q - lo).toNat)

/-- Whether man x 2^exp lies above the largest finite number (R218). -/
def aboveFinite (f man : Nat) (exp : Int) : Bool :=
  let (m, e) := patMag f (infPat f - 1)
  let lo := min e exp
  decide (m * 2 ^ (e - lo).toNat < man * 2 ^ (exp - lo).toNat)

/-- The pattern a function gives for an exact real: an infinity with OF and NX above the largest finite number, else any
finite one within the bound with NX, and UF when tiny (R132, R217, R218). -/
def pickSpecial (op f : Nat) (fz : Bool) (operand : Nat) (r : Bool × Nat × Int) : Nat × Nat :=
  let (neg, man, exp) := r
  if aboveFinite f man exp then (signPat f neg + infPat f, fOF ||| fNX) else
  let (p0, fl) := roundF f ⟨0, fz, 0⟩ false (2 * man + 1) (exp - 1)
  if fz && (fl &&& fUF) != 0 then (signPat f neg, fl)
  else
    let p := ((p0 : Int) + Config.specialChoice op f operand).toNat
    let p := if p < infPat f && withinUlps f (ulps op f) p man exp then p else p0
    (signPat f neg + p, (fl &&& fUF) ||| fNX)

/-- Whether man x 2^exp is a power of two, and of which exponent. -/
def powerOfTwo (man : Nat) (exp : Int) : Option Int :=
  if man = 2 ^ Nat.log2 man then some ((Nat.log2 man : Int) + exp) else none

/-- One in a format. -/
def onePat (f : Nat) : Nat := fmtBias f * 2 ^ fmtMan f

/-- Whether 2^n is a normal number. -/
def normalExp (f : Nat) (n : Int) : Bool := decide (1 - (fmtBias f : Int) ≤ n) && decide (n ≤ fmtBias f)

/-- A special function on a value in FP32 or FP64 (R217, R218). -/
def specialF (op f : Nat) (fz : Bool) (v : Val) (operand : Nat) : Nat × Nat :=
  match v with
  | .nan sig => (canonNan f, if sig then fNV else 0)
  | .inf neg =>
    match op with
    | 0 => (if neg then 0 else infPat f, 0)
    | 1 => if neg then (canonNan f, fNV) else (infPat f, 0)
    | 2 => (canonNan f, fNV)
    | 3 => (canonNan f, fNV)
    | 4 => (signPat f neg + onePat f, 0)
    | 5 => (signPat f neg, 0)
    | _ => if neg then (canonNan f, fNV) else (0, 0)
  | .fin neg man exp =>
    let general := pickSpecial op f fz operand (realSpecial op neg man exp)
    match op with
    | 0 =>
      if man = 0 then (onePat f, 0)
      else if exp ≥ 0 ∨ man % 2 ^ (-exp).toNat = 0 then
        let n : Int := (if exp ≥ 0 then man * 2 ^ (min exp 64).toNat else man / 2 ^ (-exp).toNat : Nat)
        let n := if neg then -n else n
        if normalExp f n then ((n + fmtBias f).toNat * 2 ^ fmtMan f, 0) else general
      else general
    | 1 =>
      if man = 0 then (signPat f true + infPat f, fDZ)
      else if neg then (canonNan f, fNV)
      else match powerOfTwo man exp with
        | some n => roundF f Mode.rne (decide (n < 0)) n.natAbs 0
        | none => general
    | 2 =>
      let (r, d) := reduce2 man exp
      if man = 0 ∨ r % 2 ^ d = 0 then (signPat f neg, 0)
      else if 2 * r = 2 ^ d then (signPat f neg + onePat f, 0)
      else if 2 * r = 3 * 2 ^ d then (signPat f (!neg) + onePat f, 0)
      else general
    | 3 =>
      let (r, d) := reduce2 man exp
      if r = 0 then (onePat f, 0)
      else if r = 2 ^ d then (signPat f true + onePat f, 0)
      else if 2 * r = 2 ^ d ∨ 2 * r = 3 * 2 ^ d then (0, 0)
      else general
    | 4 => if man = 0 then (signPat f neg, 0) else general
    | 5 =>
      if man = 0 then (signPat f neg + infPat f, fDZ)
      else match powerOfTwo man exp with
        | some n => if normalExp f (-n) then (signPat f neg + (fmtBias f - n).toNat * 2 ^ fmtMan f, 0) else general
        | none => general
    | _ =>
      if man = 0 then (signPat f neg + infPat f, fDZ)
      else if neg then (canonNan f, fNV)
      else general

/-- A special function on a pattern: 16-bit formats go through FP32 (R217). -/
def specialPat (op f : Nat) (fz : Bool) (p : Nat) : Nat × Nat :=
  let v := readF fz f p
  if f = 6 ∨ f = 7 then
    let (r, fl) := specialF op 8 false v (roundVal 8 Mode.rne v).1
    let (z, fl2) := roundVal f ⟨0, fz, 0⟩ (decodeF 8 r)
    (z, fl ||| fl2)
  else specialF op f fz v p

/-! ## Major 0x2C -/

/-- A special function over the tile. -/
def specialForm (op : Nat) (fd fa : Reg) (mask : Reg3) : M Unit := do
  let c ← captured mask
  require (isF c.fmt) 8
  require (aligned c.grp [fd, fa]) 4
  let none := List.replicate c.count 0
  finishTile c 2 fd.toNat c.grp c.fmt (c.sources [fa])
    (sweep c.active (fun _ a _ _ => specialPat op c.fmt (c.g.frm.getLsbD 8) a) 0 (c.tile fd.toNat) (c.tile fa.toNat)
      none none)

/-- R217: 2^x. -/
def execVexp2 (fd fa : Reg) (mask : Reg3) (s : State) : Host.Outcome State Fault Refusal :=
  instr (specialForm 0 fd fa mask) s

/-- R217: log2 x. -/
def execVlog2 (fd fa : Reg) (mask : Reg3) (s : State) : Host.Outcome State Fault Refusal :=
  instr (specialForm 1 fd fa mask) s

/-- R217: sin(πx). -/
def execVsinpi (fd fa : Reg) (mask : Reg3) (s : State) : Host.Outcome State Fault Refusal :=
  instr (specialForm 2 fd fa mask) s

/-- R217: cos(πx). -/
def execVcospi (fd fa : Reg) (mask : Reg3) (s : State) : Host.Outcome State Fault Refusal :=
  instr (specialForm 3 fd fa mask) s

/-- R217: tanh x. -/
def execVtanh (fd fa : Reg) (mask : Reg3) (s : State) : Host.Outcome State Fault Refusal :=
  instr (specialForm 4 fd fa mask) s

/-- R217: 1/x. -/
def execVrcp (fd fa : Reg) (mask : Reg3) (s : State) : Host.Outcome State Fault Refusal :=
  instr (specialForm 5 fd fa mask) s

/-- R217: 1/√x. -/
def execVrsqrt (fd fa : Reg) (mask : Reg3) (s : State) : Host.Outcome State Fault Refusal :=
  instr (specialForm 6 fd fa mask) s

end Sys2Proof.Machine
end

