-- ==== Sys2Proof/Machine/Tags.lean ====
section
/-!
DEFINITION. Tags.lean: the tag table of a core's scratchpad and its instructions of major 0x3A (R254-R257, R303).
-/

namespace Sys2Proof.Machine

/-! ## Entries (R254, R255) -/

/-- The set of a memory address (R254). -/
def tagSet (va : Nat) : Nat := (va / 2 ^ 10 ^^^ va / 2 ^ 18) % 256

/-- A tag entry's fields; the context is always 0 (R37). -/
def tagValid (e : Word) : Bool := e.getLsbD 63
def tagPinned (e : Word) : Bool := e.getLsbD 62
def tagAddr (e : Word) : Nat := bits e.toNat 56 10
def tagCtx (e : Word) : Nat := bits e.toNat 9 0

/-- A valid entry for an address of context 0. -/
def tagEntry (va : Nat) (pin dirty : Bool) : Word :=
  BitVec.ofNat 64 (2 ^ 63 + pin.toNat * 2 ^ 62 + dirty.toNat * 2 ^ 61 + bits va 56 10 * 2 ^ 10)

/-- The entry of a slot. -/
def Core.tagAt (c : Core) (slot : Nat) : Word := (tget c.tags slot).getD 0

/-- Whether an entry describes the block of an address (R256). -/
def tagHits (e : Word) (va : Nat) : Bool := tagValid e && tagAddr e == bits va 56 10 && tagCtx e == 0

/-- The slots of an address's set, by way. -/
def tagSlots (va : Nat) : List Nat := (List.range 8).map (8 * tagSet va + ·)

/-! ## Recency (R256) -/

/-- A slot becomes the most recently used. -/
def Core.useSlot (c : Core) (slot : Nat) : Core := { c with recency := slot :: c.recency.filter fun x => x != slot }

/-- How long ago a slot was used; one never used comes last. -/
def Core.age (c : Core) (slot : Nat) : Nat := (c.recency.findIdx? fun x => x == slot).getD 2048

/-- The slot of largest age among some, the first of equals (log 6). -/
def Core.oldestSlot (c : Core) (xs : List Nat) : Option Nat :=
  xs.foldl (fun best x => match best with
    | none => some x
    | some b => if c.age b < c.age x then some x else some b) none

/-- The suggested victim of a miss (R256). -/
def Core.victim (c : Core) (va : Nat) : Option Nat :=
  match (tagSlots va).find? fun x => !tagValid (c.tagAt x) with
  | some x => some x
  | none => c.oldestSlot ((tagSlots va).filter fun x => !tagPinned (c.tagAt x))

/-- A lookup: the word and the core after it (R256). -/
def Core.tagLookup (c : Core) (va : Nat) : Word × Core :=
  match (tagSlots va).find? fun x => tagHits (c.tagAt x) va with
  | some x => (BitVec.ofNat 64 (2 ^ 63 + x), c.useSlot x)
  | none =>
    match c.victim va with
    | some x => (BitVec.ofNat 64 x, c)
    | none => (BitVec.ofNat 64 (2 ^ 62), c)

/-- An insertion into a slot of the address's set: duplicates are invalidated (R257). -/
def Core.tagInsert (c : Core) (va slot : Nat) (pin dirty : Bool) : Core :=
  let cleared := (tagSlots va).foldl (fun (t : Table Word) x =>
    if x ≠ slot ∧ tagHits (c.tagAt x) va then tput t x (c.tagAt x &&& 0x7FFFFFFFFFFFFFFF) else t) c.tags
  { c with tags := tput cleared slot (tagEntry va pin dirty) }.useSlot slot

/-! ## Instructions (R303) -/

/-- Queues a tag operation after its effect. -/
def tagDone (rd : Reg) (v : Word) (c : Core) : M Unit := do
  change fun s => s.setCore (coreOf s.cur) c
  writeS rd v
  enqueue 9 0 1 1
  advance

/-- R303: looks up an address. -/
def execTlook (rd ra : Reg) (s : State) : Host.Outcome State Fault Refusal := instr (do
  drainQueue
  let a ← readS ra
  let s ← get
  let (w, c) := (s.core (coreOf s.cur)).tagLookup a.toNat
  tagDone rd w c) s

/-- R303: writes an entry; the old one is read. -/
def execTins (rd ra rb : Reg) (s : State) : Host.Outcome State Fault Refusal := instr (do
  drainQueue
  let a ← readS ra
  let b ← readS rb
  let slot := b.toNat % 2048
  require (slot / 8 == tagSet a.toNat && b &&& 0xFFFFFFFFFFFCF800 == 0) 6
  let s ← get
  let c := s.core (coreOf s.cur)
  tagDone rd (c.tagAt slot) (c.tagInsert a.toNat slot (b.getLsbD 16) (b.getLsbD 17))) s

/-- R303: reads and invalidates an entry. -/
def execTinv (rd ra : Reg) (s : State) : Host.Outcome State Fault Refusal := instr (do
  drainQueue
  let a ← readS ra
  require (decide (a.toNat ≤ 2047)) 6
  let s ← get
  let c := s.core (coreOf s.cur)
  let e := c.tagAt a.toNat
  tagDone rd e { c with tags := tput c.tags a.toNat (e &&& 0x7FFFFFFFFFFFFFFF) }) s

end Sys2Proof.Machine
end

