-- ==== Sys2Proof/Machine/Dispatch.lean ====
section
/-!
DEFINITION. Dispatch.lean: the meaning of every instruction and device event, one arm per constructor of Instr.
-/

namespace Sys2Proof.Machine

/-- Executes an instruction or a device event. -/
def exec (i : Instr) (s : State) : Host.Outcome State Fault Refusal :=
  match i with
  | .nop => Sys2Proof.Machine.execNop s
  | .brk code => Sys2Proof.Machine.execBrk code s
  | .trap service => Sys2Proof.Machine.execTrap service s
  | .tret => Sys2Proof.Machine.execTret s
  | .idle => Sys2Proof.Machine.execIdle s
  | .mfsr rd number => Sys2Proof.Machine.execMfsr rd number s
  | .mtsr ra number => Sys2Proof.Machine.execMtsr ra number s
  | .tlbiAll => Sys2Proof.Machine.execTlbiAll s
  | .tlbiVa ra => Sys2Proof.Machine.execTlbiVa ra s
  | .add rd ra rb => Sys2Proof.Machine.execAdd rd ra rb s
  | .sub rd ra rb => Sys2Proof.Machine.execSub rd ra rb s
  | .and rd ra rb => Sys2Proof.Machine.execAnd rd ra rb s
  | .or rd ra rb => Sys2Proof.Machine.execOr rd ra rb s
  | .xor rd ra rb => Sys2Proof.Machine.execXor rd ra rb s
  | .sll rd ra rb => Sys2Proof.Machine.execSll rd ra rb s
  | .srl rd ra rb => Sys2Proof.Machine.execSrl rd ra rb s
  | .sra rd ra rb => Sys2Proof.Machine.execSra rd ra rb s
  | .slt rd ra rb => Sys2Proof.Machine.execSlt rd ra rb s
  | .sltu rd ra rb => Sys2Proof.Machine.execSltu rd ra rb s
  | .umin rd ra rb => Sys2Proof.Machine.execUmin rd ra rb s
  | .umax rd ra rb => Sys2Proof.Machine.execUmax rd ra rb s
  | .smin rd ra rb => Sys2Proof.Machine.execSmin rd ra rb s
  | .smax rd ra rb => Sys2Proof.Machine.execSmax rd ra rb s
  | .mul rd ra rb => Sys2Proof.Machine.execMul rd ra rb s
  | .mulh rd ra rb => Sys2Proof.Machine.execMulh rd ra rb s
  | .mulhu rd ra rb => Sys2Proof.Machine.execMulhu rd ra rb s
  | .div rd ra rb => Sys2Proof.Machine.execDiv rd ra rb s
  | .divu rd ra rb => Sys2Proof.Machine.execDivu rd ra rb s
  | .rem rd ra rb => Sys2Proof.Machine.execRem rd ra rb s
  | .remu rd ra rb => Sys2Proof.Machine.execRemu rd ra rb s
  | .addi rd ra imm => Sys2Proof.Machine.execAddi rd ra imm s
  | .andi rd ra imm => Sys2Proof.Machine.execAndi rd ra imm s
  | .ori rd ra imm => Sys2Proof.Machine.execOri rd ra imm s
  | .xori rd ra imm => Sys2Proof.Machine.execXori rd ra imm s
  | .slli rd ra count => Sys2Proof.Machine.execSlli rd ra count s
  | .srli rd ra count => Sys2Proof.Machine.execSrli rd ra count s
  | .srai rd ra count => Sys2Proof.Machine.execSrai rd ra count s
  | .slti rd ra imm => Sys2Proof.Machine.execSlti rd ra imm s
  | .sltiu rd ra imm => Sys2Proof.Machine.execSltiu rd ra imm s
  | .beq ra rb imm => Sys2Proof.Machine.execBeq ra rb imm s
  | .bne ra rb imm => Sys2Proof.Machine.execBne ra rb imm s
  | .blt ra rb imm => Sys2Proof.Machine.execBlt ra rb imm s
  | .bge ra rb imm => Sys2Proof.Machine.execBge ra rb imm s
  | .bltu ra rb imm => Sys2Proof.Machine.execBltu ra rb imm s
  | .bgeu ra rb imm => Sys2Proof.Machine.execBgeu ra rb imm s
  | .jal rd imm => Sys2Proof.Machine.execJal rd imm s
  | .jalr rd ra imm => Sys2Proof.Machine.execJalr rd ra imm s
  | .loop stages imm => Sys2Proof.Machine.execLoop stages imm s
  | .ldB rd ra imm => Sys2Proof.Machine.execLdB rd ra imm s
  | .ldH rd ra imm => Sys2Proof.Machine.execLdH rd ra imm s
  | .ldW rd ra imm => Sys2Proof.Machine.execLdW rd ra imm s
  | .ldD rd ra imm => Sys2Proof.Machine.execLdD rd ra imm s
  | .ldBu rd ra imm => Sys2Proof.Machine.execLdBu rd ra imm s
  | .ldHu rd ra imm => Sys2Proof.Machine.execLdHu rd ra imm s
  | .ldWu rd ra imm => Sys2Proof.Machine.execLdWu rd ra imm s
  | .stB rd ra imm => Sys2Proof.Machine.execStB rd ra imm s
  | .stH rd ra imm => Sys2Proof.Machine.execStH rd ra imm s
  | .stW rd ra imm => Sys2Proof.Machine.execStW rd ra imm s
  | .stD rd ra imm => Sys2Proof.Machine.execStD rd ra imm s
  | .amoAddD rd rb ra => Sys2Proof.Machine.execAmoAddD rd rb ra s
  | .amoXchgD rd rb ra => Sys2Proof.Machine.execAmoXchgD rd rb ra s
  | .amoUminD rd rb ra => Sys2Proof.Machine.execAmoUminD rd rb ra s
  | .amoUmaxD rd rb ra => Sys2Proof.Machine.execAmoUmaxD rd rb ra s
  | .amoSminD rd rb ra => Sys2Proof.Machine.execAmoSminD rd rb ra s
  | .amoSmaxD rd rb ra => Sys2Proof.Machine.execAmoSmaxD rd rb ra s
  | .amoAndD rd rb ra => Sys2Proof.Machine.execAmoAndD rd rb ra s
  | .amoOrD rd rb ra => Sys2Proof.Machine.execAmoOrD rd rb ra s
  | .amoXorD rd rb ra => Sys2Proof.Machine.execAmoXorD rd rb ra s
  | .amoAddW rd rb ra => Sys2Proof.Machine.execAmoAddW rd rb ra s
  | .amoXchgW rd rb ra => Sys2Proof.Machine.execAmoXchgW rd rb ra s
  | .amoUminW rd rb ra => Sys2Proof.Machine.execAmoUminW rd rb ra s
  | .amoUmaxW rd rb ra => Sys2Proof.Machine.execAmoUmaxW rd rb ra s
  | .amoSminW rd rb ra => Sys2Proof.Machine.execAmoSminW rd rb ra s
  | .amoSmaxW rd rb ra => Sys2Proof.Machine.execAmoSmaxW rd rb ra s
  | .amoAndW rd rb ra => Sys2Proof.Machine.execAmoAndW rd rb ra s
  | .amoOrW rd rb ra => Sys2Proof.Machine.execAmoOrW rd rb ra s
  | .amoXorW rd rb ra => Sys2Proof.Machine.execAmoXorW rd rb ra s
  | .casD rd rb rc ra => Sys2Proof.Machine.execCasD rd rb rc ra s
  | .casW rd rb rc ra => Sys2Proof.Machine.execCasW rd rb rc ra s
  | .setvl rd ra => Sys2Proof.Machine.execSetvl rd ra s
  | .setrc rd ra => Sys2Proof.Machine.execSetrc rd ra s
  | .setvt rd request => Sys2Proof.Machine.execSetvt rd request s
  | .setdim k ra rb => Sys2Proof.Machine.execSetdim k ra rb s
  | .getshape rd ra => Sys2Proof.Machine.execGetshape rd ra s
  | .setshape rd ra => Sys2Proof.Machine.execSetshape rd ra s
  | .vadd fd fa fb mask rm lift => Sys2Proof.Machine.execVadd fd fa fb mask rm lift s
  | .vsub fd fa fb mask rm lift => Sys2Proof.Machine.execVsub fd fa fb mask rm lift s
  | .vmul fd fa fb mask rm => Sys2Proof.Machine.execVmul fd fa fb mask rm s
  | .vdiv fd fa fb mask rm => Sys2Proof.Machine.execVdiv fd fa fb mask rm s
  | .vrem fd fa fb mask => Sys2Proof.Machine.execVrem fd fa fb mask s
  | .vmin fd fa fb mask nan => Sys2Proof.Machine.execVmin fd fa fb mask nan s
  | .vmax fd fa fb mask nan => Sys2Proof.Machine.execVmax fd fa fb mask nan s
  | .vand fd fa fb mask => Sys2Proof.Machine.execVand fd fa fb mask s
  | .vor fd fa fb mask => Sys2Proof.Machine.execVor fd fa fb mask s
  | .vxor fd fa fb mask => Sys2Proof.Machine.execVxor fd fa fb mask s
  | .vsll fd fa fb mask => Sys2Proof.Machine.execVsll fd fa fb mask s
  | .vsrl fd fa fb mask => Sys2Proof.Machine.execVsrl fd fa fb mask s
  | .vsra fd fa fb mask => Sys2Proof.Machine.execVsra fd fa fb mask s
  | .vabs fd fa mask => Sys2Proof.Machine.execVabs fd fa mask s
  | .vneg fd fa mask => Sys2Proof.Machine.execVneg fd fa mask s
  | .vsqrt fd fa mask rm => Sys2Proof.Machine.execVsqrt fd fa mask rm s
  | .vmadd fd fa fb fc mask rm => Sys2Proof.Machine.execVmadd fd fa fb fc mask rm s
  | .vmsub fd fa fb fc mask rm => Sys2Proof.Machine.execVmsub fd fa fb fc mask rm s
  | .vnmadd fd fa fb fc mask rm => Sys2Proof.Machine.execVnmadd fd fa fb fc mask rm s
  | .vsgnj fd fa fb mask => Sys2Proof.Machine.execVsgnj fd fa fb mask s
  | .vmv fd fa mask => Sys2Proof.Machine.execVmv fd fa mask s
  | .vsel fd fa fb mc mask => Sys2Proof.Machine.execVsel fd fa fb mc mask s
  | .vwmac fd fa fb fc mask rm => Sys2Proof.Machine.execVwmac fd fa fb fc mask rm s
  | .vclass fd fa mask => Sys2Proof.Machine.execVclass fd fa mask s
  | .vcvt format fd fa mask rm => Sys2Proof.Machine.execVcvt format fd fa mask rm s
  | .vcmpEq md fa fb mask => Sys2Proof.Machine.execVcmpEq md fa fb mask s
  | .vcmpNe md fa fb mask => Sys2Proof.Machine.execVcmpNe md fa fb mask s
  | .vcmpLt md fa fb mask => Sys2Proof.Machine.execVcmpLt md fa fb mask s
  | .vcmpLe md fa fb mask => Sys2Proof.Machine.execVcmpLe md fa fb mask s
  | .vcmpLtu md fa fb mask => Sys2Proof.Machine.execVcmpLtu md fa fb mask s
  | .vcmpLeu md fa fb mask => Sys2Proof.Machine.execVcmpLeu md fa fb mask s
  | .vcmpUnord md fa fb mask => Sys2Proof.Machine.execVcmpUnord md fa fb mask s
  | .vmand md ma mb mask => Sys2Proof.Machine.execVmand md ma mb mask s
  | .vmor md ma mb mask => Sys2Proof.Machine.execVmor md ma mb mask s
  | .vmxor md ma mb mask => Sys2Proof.Machine.execVmxor md ma mb mask s
  | .vmandn md ma mb mask => Sys2Proof.Machine.execVmandn md ma mb mask s
  | .vmpop rd ma mask => Sys2Proof.Machine.execVmpop rd ma mask s
  | .vexp2 fd fa mask => Sys2Proof.Machine.execVexp2 fd fa mask s
  | .vlog2 fd fa mask => Sys2Proof.Machine.execVlog2 fd fa mask s
  | .vsinpi fd fa mask => Sys2Proof.Machine.execVsinpi fd fa mask s
  | .vcospi fd fa mask => Sys2Proof.Machine.execVcospi fd fa mask s
  | .vtanh fd fa mask => Sys2Proof.Machine.execVtanh fd fa mask s
  | .vrcp fd fa mask => Sys2Proof.Machine.execVrcp fd fa mask s
  | .vrsqrt fd fa mask => Sys2Proof.Machine.execVrsqrt fd fa mask s
  | .vred op nan dw fd fa fb mask => Sys2Proof.Machine.execVred op nan dw fd fa fb mask s
  | .vscan op nan dw fd fa fb mask => Sys2Proof.Machine.execVscan op nan dw fd fa fb mask s
  | .vperm fd fa fb mask => Sys2Proof.Machine.execVperm fd fa fb mask s
  | .vslide fd fa rb mask => Sys2Proof.Machine.execVslide fd fa rb mask s
  | .vcompress fd fa fb mask => Sys2Proof.Machine.execVcompress fd fa fb mask s
  | .vexpand fd fa mask => Sys2Proof.Machine.execVexpand fd fa mask s
  | .vbcast fd ra mask => Sys2Proof.Machine.execVbcast fd ra mask s
  | .vtrans fd fa mask => Sys2Proof.Machine.execVtrans fd fa mask s
  | .viota fd ma mask => Sys2Proof.Machine.execViota fd ma mask s
  | .fmul fd fa fb mask => Sys2Proof.Machine.execFmul fd fa fb mask s
  | .fdiff fd fa axis mask => Sys2Proof.Machine.execFdiff fd fa axis mask s
  | .fint fd fa axis mask => Sys2Proof.Machine.execFint fd fa axis mask s
  | .fintAll fd fa zero mask => Sys2Proof.Machine.execFintAll fd fa zero mask s
  | .fproj fd fa rb mask => Sys2Proof.Machine.execFproj fd fa rb mask s
  | .ftrace fd fa face mask => Sys2Proof.Machine.execFtrace fd fa face mask s
  | .feval fd fa fb mask => Sys2Proof.Machine.execFeval fd fa fb mask s
  | .fxform fd fa zero mask => Sys2Proof.Machine.execFxform fd fa zero mask s
  | .flift fd fa fb mask => Sys2Proof.Machine.execFlift fd fa fb mask s
  | .fmass fd fa zero mask => Sys2Proof.Machine.execFmass fd fa zero mask s
  | .mclaim pd => Sys2Proof.Machine.execMclaim pd s
  | .mrel pa => Sys2Proof.Machine.execMrel pa s
  | .mload pd ra disp => Sys2Proof.Machine.execMload pd ra disp s
  | .mloadT pd ra disp => Sys2Proof.Machine.execMloadT pd ra disp s
  | .mloadG pd ra fb disp => Sys2Proof.Machine.execMloadG pd ra fb disp s
  | .mloadCsr pd ra disp => Sys2Proof.Machine.execMloadCsr pd ra disp s
  | .mma fd pa pb mask => Sys2Proof.Machine.execMma fd pa pb mask s
  | .mstore fd ra disp => Sys2Proof.Machine.execMstore fd ra disp s
  | .vld fd ra mask disp => Sys2Proof.Machine.execVld fd ra mask disp s
  | .vst fd ra mask disp => Sys2Proof.Machine.execVst fd ra mask disp s
  | .vstD fd ra mask disp => Sys2Proof.Machine.execVstD fd ra mask disp s
  | .vldx fd ra fb mask disp => Sys2Proof.Machine.execVldx fd ra fb mask disp s
  | .vstx fd ra fb mask disp => Sys2Proof.Machine.execVstx fd ra fb mask disp s
  | .vldFf fd ra mask disp => Sys2Proof.Machine.execVldFf fd ra mask disp s
  | .vldD fd ra mask disp => Sys2Proof.Machine.execVldD fd ra mask disp s
  | .vstSeg fd ra fb disp => Sys2Proof.Machine.execVstSeg fd ra fb disp s
  | .vstred fd ra rb mask disp => Sys2Proof.Machine.execVstred fd ra rb mask disp s
  | .vamo op fd ra fb mask disp => Sys2Proof.Machine.execVamo op fd ra fb mask disp s
  | .vldFem md => Sys2Proof.Machine.execVldFem md s
  | .vstFem md => Sys2Proof.Machine.execVstFem md s
  | .vmvPop fd qa => Sys2Proof.Machine.execVmvPop fd qa s
  | .vmvPush qd fa => Sys2Proof.Machine.execVmvPush qd fa s
  | .tlook rd ra => Sys2Proof.Machine.execTlook rd ra s
  | .tins rd ra rb => Sys2Proof.Machine.execTins rd ra rb s
  | .tinv rd ra => Sys2Proof.Machine.execTinv rd ra s
  | .cpy rd ra rb rc channel => Sys2Proof.Machine.execCpy rd ra rb rc channel s
  | .cpyX rd ra rb rc channel offset => Sys2Proof.Machine.execCpyX rd ra rb rc channel offset s
  | .cwait rd ra channel => Sys2Proof.Machine.execCwait rd ra channel s
  | .qbind qd ra => Sys2Proof.Machine.execQbind qd ra s
  | .qrel qd => Sys2Proof.Machine.execQrel qd s
  | .esub md fa rb mask => Sys2Proof.Machine.execEsub md fa rb mask s
  | .xcopRandom rd ra rb => Sys2Proof.Machine.execXcopRandom rd ra rb s
  | .xcopMarginSet ra rb => Sys2Proof.Machine.execXcopMarginSet ra rb s
  | .xcopReplayLimit ra rb => Sys2Proof.Machine.execXcopReplayLimit ra rb s
  | .xcopReplayCountClear ra rb => Sys2Proof.Machine.execXcopReplayCountClear ra rb s
  | .xcopCounterRead rd ra rb => Sys2Proof.Machine.execXcopCounterRead rd ra rb s
  | .xcopCounterClear ra rb => Sys2Proof.Machine.execXcopCounterClear ra rb s
  | .xcopEsubReasons rd ra rb => Sys2Proof.Machine.execXcopEsubReasons rd ra rb s
  | .acq ra => Sys2Proof.Machine.execAcq ra s
  | .rel ra => Sys2Proof.Machine.execRel ra s
  | .bind ra rb => Sys2Proof.Machine.execBind ra rb s
  | .fence scope rd => Sys2Proof.Machine.execFence scope rd s
  | .efence rd => Sys2Proof.Machine.execEfence rd s
  | .bar ra => Sys2Proof.Machine.execBar ra s
  | .arrive ra rb => Sys2Proof.Machine.execArrive ra rb s
  | .wait ra => Sys2Proof.Machine.execWait ra s
  | .join rd ra => Sys2Proof.Machine.execJoin rd ra s
  | .leave rd => Sys2Proof.Machine.execLeave rd s
  | .claim rd ra rb => Sys2Proof.Machine.execClaim rd ra rb s
  | .publish rd ra => Sys2Proof.Machine.execPublish rd ra s
  | .node rd ra => Sys2Proof.Machine.execNode rd ra s
  | .edge rd ra rb => Sys2Proof.Machine.execEdge rd ra rb s
  | .done => Sys2Proof.Machine.execDone s
  | .yield => Sys2Proof.Machine.execYield s
  | .cancel rd ra => Sys2Proof.Machine.execCancel rd ra s
  | .chkc rd => Sys2Proof.Machine.execChkc rd s
  | .snext rd k => Sys2Proof.Machine.execSnext rd k s
  | .slotfree ra gradient => Sys2Proof.Machine.execSlotfree ra gradient s
  | .stage2Complete badCores badPorts floors => Sys2Proof.Machine.execStage2Complete badCores badPorts floors s
  | .partitionCreate grant => Sys2Proof.Machine.execPartitionCreate grant s
  | .partTeardown part => Sys2Proof.Machine.execPartTeardown part s
  | .teardownWaitExpiry part => Sys2Proof.Machine.execTeardownWaitExpiry part s
  | .teardownNodesEnded part => Sys2Proof.Machine.execTeardownNodesEnded part s
  | .insert part addr => Sys2Proof.Machine.execInsert part addr s
  | .insertRecordRead part => Sys2Proof.Machine.execInsertRecordRead part s
  | .winCtlWrite part value => Sys2Proof.Machine.execWinCtlWrite part value s
  | .partModeWrite part value => Sys2Proof.Machine.execPartModeWrite part value s
  | .passCountReached part slot => Sys2Proof.Machine.execPassCountReached part slot s
  | .nodeCommit part => Sys2Proof.Machine.execNodeCommit part s
  | .schedStart part table value => Sys2Proof.Machine.execSchedStart part table value s
  | .schedStop part table value => Sys2Proof.Machine.execSchedStop part table value s
  | .schedLoadComplete table => Sys2Proof.Machine.execSchedLoadComplete table s
  | .schedCycle table => Sys2Proof.Machine.execSchedCycle table s
  | .instructionRetire hart => Sys2Proof.Machine.execInstructionRetire hart s
  | .recheckRun hart outcome => Sys2Proof.Machine.execRecheckRun hart outcome s
  | .replayExhausted hart vector element lane => Sys2Proof.Machine.execReplayExhausted hart vector element lane s
  | .guardedRelease hart => Sys2Proof.Machine.execGuardedRelease hart s
  | .sbDrain hart index => Sys2Proof.Machine.execSbDrain hart index s
  | .fabricPacketArrive peer seq packet => Sys2Proof.Machine.execFabricPacketArrive peer seq packet s
  | .ackArrive peer ack => Sys2Proof.Machine.execAckArrive peer ack s
  | .replyArrive peer seq reply => Sys2Proof.Machine.execReplyArrive peer seq reply s
  | .cacheFill die peer line bytes => Sys2Proof.Machine.execCacheFill die peer line bytes s
  | .engineWrite command count => Sys2Proof.Machine.execEngineWrite command count s
  | .publishExchange hart => Sys2Proof.Machine.execPublishExchange hart s
  | .acqGrant object => Sys2Proof.Machine.execAcqGrant object s
  | .copyChannelDeliver core channel count => Sys2Proof.Machine.execCopyChannelDeliver core channel count s
  | .pagerReply batch maps unresolved => Sys2Proof.Machine.execPagerReply batch maps unresolved s
  | .migrationStart source target => Sys2Proof.Machine.execMigrationStart source target s
  | .migrationLineCopy source => Sys2Proof.Machine.execMigrationLineCopy source s
  | .migrationFinish source => Sys2Proof.Machine.execMigrationFinish source s
  | .dataCheckPoison hart addr => Sys2Proof.Machine.execDataCheckPoison hart addr s
  | .registerWrite space access value => Sys2Proof.Machine.execRegisterWrite space access value s
  | .dataCheckClean hart => Sys2Proof.Machine.execDataCheckClean hart s
  | .stage0Complete signatureOk => Sys2Proof.Machine.execStage0Complete signatureOk s
  | .stage1Complete hbm lpOk => Sys2Proof.Machine.execStage1Complete hbm lpOk s
  | .firmwareIntake image => Sys2Proof.Machine.execFirmwareIntake image s
  | .challenge nonce => Sys2Proof.Machine.execChallenge nonce s
  | .keyProg keySet key => Sys2Proof.Machine.execKeyProg keySet key s
  | .kSetGo keySet => Sys2Proof.Machine.execKSetGo keySet s
  | .kSetStop keySet => Sys2Proof.Machine.execKSetStop keySet s
  | .convoyStart core => Sys2Proof.Machine.execConvoyStart core s
  | .quarantineComplete core => Sys2Proof.Machine.execQuarantineComplete core s
  | .replayWindowEnd core => Sys2Proof.Machine.execReplayWindowEnd core s
  | .settleGateEnd core => Sys2Proof.Machine.execSettleGateEnd core s
  | .pentimentoReplay core => Sys2Proof.Machine.execPentimentoReplay core s
  | .arbitrationInterval pfix pdyn => Sys2Proof.Machine.execArbitrationInterval pfix pdyn s
  | .linkRetry port sameFlit => Sys2Proof.Machine.execLinkRetry port sameFlit s
  | .deadlockResend peer seq => Sys2Proof.Machine.execDeadlockResend peer seq s
  | .portDown port => Sys2Proof.Machine.execPortDown port s
  | .peerFailDeclare peer => Sys2Proof.Machine.execPeerFailDeclare peer s
  | .peerRestartReport peer => Sys2Proof.Machine.execPeerRestartReport peer s
  | .peerFailClear index value => Sys2Proof.Machine.execPeerFailClear index value s
  | .resyncReceive peer => Sys2Proof.Machine.execResyncReceive peer s
  | .cacheDrop die peer line => Sys2Proof.Machine.execCacheDrop die peer line s
  | .refresh channel delayed => Sys2Proof.Machine.execRefresh channel delayed s
  | .scrub frame corrected uncorrectable => Sys2Proof.Machine.execScrub frame corrected uncorrectable s
  | .tableRegisterWrite offset value => Sys2Proof.Machine.execTableRegisterWrite offset value s
  | .csaWrite part offset value => Sys2Proof.Machine.execCsaWrite part offset value s
  | .pwrCapWrite value => Sys2Proof.Machine.execPwrCapWrite value s
  | .fabCtlWrite value => Sys2Proof.Machine.execFabCtlWrite value s
  | .migrationRequest die part vpn => Sys2Proof.Machine.execMigrationRequest die part vpn s
  | .migrationDeclined frame => Sys2Proof.Machine.execMigrationDeclined frame s
  | .slotMessage table activation => Sys2Proof.Machine.execSlotMessage table activation s
  | .channelMarkRaise core channel => Sys2Proof.Machine.execChannelMarkRaise core channel s
  | .powerUp => Sys2Proof.Machine.execPowerUp s
  | .fundamentalReset => Sys2Proof.Machine.execFundamentalReset s
  | .stageWatchdogExpiry => Sys2Proof.Machine.execStageWatchdogExpiry s
  | .restart => Sys2Proof.Machine.execRestart s
  | .getVersion => Sys2Proof.Machine.execGetVersion s
  | .getCapabilities => Sys2Proof.Machine.execGetCapabilities s
  | .negotiateAlgorithms => Sys2Proof.Machine.execNegotiateAlgorithms s
  | .getDigests => Sys2Proof.Machine.execGetDigests s
  | .getCertificate => Sys2Proof.Machine.execGetCertificate s
  | .getMeasurements => Sys2Proof.Machine.execGetMeasurements s
  | .keyExchange => Sys2Proof.Machine.execKeyExchange s
  | .finish => Sys2Proof.Machine.execFinish s
  | .keyUpdate => Sys2Proof.Machine.execKeyUpdate s
  | .heartbeat => Sys2Proof.Machine.execHeartbeat s
  | .endSession => Sys2Proof.Machine.execEndSession s
  | .query => Sys2Proof.Machine.execQuery s
  | .spdmUnsupportedRequest => Sys2Proof.Machine.execSpdmUnsupportedRequest s
  | .placeNode => Sys2Proof.Machine.execPlaceNode s
  | .powerLoss => Sys2Proof.Machine.execPowerLoss s

end Sys2Proof.Machine
end

