-- ==== Sys2Proof/Machine/IssueQueue.lean ====
section
/-!
DEFINITION. IssueQueue.lean: the issue queue of a hart (R323-R325; log 9): which memory operations may wait in it, the commit
of one, what may be issued past it, and its issue, whole or element by element.
-/

namespace Sys2Proof.Machine

/-! ## What an instruction reaches -/

/-- What a memory instruction accesses and which registers it writes, and the tile registers it reads, as found before it
executes; of a vector access also its active elements and its cost. -/
structure Reach where
  accs : List Acc
  reads : Bool
  writes : Bool
  vec : Bool
  dests : List Nat
  tiles : List Nat
  sources : List Nat
  left : Mask
  cost : Cost

/-- A scalar access of n bytes that writes a register (R173). -/
def scalarReach (va : Word) (n : Nat) (reads writes : Bool) (rd : Reg) : Reach :=
  ⟨[⟨0, va.toNat, n⟩], reads, writes, false, if rd = 0 then [] else [rd.toNat], [], [], 0, ⟨0, 0⟩⟩

/-- A vector access: its job, with the tile registers it writes and reads (R293). -/
def Cap.reach (c : Cap) (job : Job) (reads writes : Bool) (tiles sources : List Nat) : Reach :=
  let n := job.planes * c.count
  ⟨job.sweep.accs, reads, writes, true, [], tiles, sources, c.mask &&& BitVec.ofNat 32768 (2 ^ n - 1), job.cost n⟩

/-- The active elements of planes of a tile. -/
def Cap.activeIn (c : Cap) (planes : Nat) : List Nat := (List.range (planes * c.count)).filter c.active

/-- The unit-stride job of an instruction over its active elements. -/
def Cap.unitWhole (c : Cap) (base : Word) : Job := c.unitJob 0 base (c.activeIn 1)

/-- The index registers of an indexed form (R293). -/
def Cap.indexRegs (c : Cap) (fb : Reg) : List Nat := c.g.physGroup fb.toNat (max 1 (c.grp * 32 / max c.w 1))

/-- The indexed job of an instruction over its active elements. -/
def Cap.indexWhole (c : Cap) (base : Word) (fb : Reg) : Job :=
  c.indexJob 0 base (c.g.tile fb.toNat (max 1 (c.grp * 32 / max c.w 1)) 32 c.rc c.vl) (c.activeIn 1)

/-- The multi-dimensional job of an instruction over its active elements. -/
def Cap.planeWhole (c : Cap) (base : Word) : Job :=
  let planes := c.g.dlen[2].toNat
  c.planeJob planes 0 base (c.activeIn planes)

/-- The tile registers of a multi-dimensional form. -/
def Cap.planeRegs (c : Cap) (fd : Reg) : List Nat := c.g.physGroup fd.toNat (min 8 (c.g.dlen[2].toNat * c.grp))

/-- The tile registers at a field. -/
def Cap.regsAt (c : Cap) (fd : Reg) : List Nat := c.g.physGroup fd.toNat c.grp

/-- What an instruction reaches, when it is one whose accesses may wait in the issue queue: scalar accesses, and the vector
accesses that are performed element by element under a mask. DESIGN CHOICE: the others (MLOAD, MSTORE, VST.seg, pops and
pushes, the table and directory reads of QBIND and CPY) are issued as they commit (log 9). -/
def reachOf (i : Instr) (g : Regs) : Option Reach :=
  match i with
  | .ldB rd ra imm | .ldBu rd ra imm => some (scalarReach (g.getS ra + imm) 1 true false rd)
  | .ldH rd ra imm | .ldHu rd ra imm => some (scalarReach (g.getS ra + imm) 2 true false rd)
  | .ldW rd ra imm | .ldWu rd ra imm => some (scalarReach (g.getS ra + imm) 4 true false rd)
  | .ldD rd ra imm => some (scalarReach (g.getS ra + imm) 8 true false rd)
  | .stB _ ra imm => some (scalarReach (g.getS ra + imm) 1 false true 0)
  | .stH _ ra imm => some (scalarReach (g.getS ra + imm) 2 false true 0)
  | .stW _ ra imm => some (scalarReach (g.getS ra + imm) 4 false true 0)
  | .stD _ ra imm => some (scalarReach (g.getS ra + imm) 8 false true 0)
  | .amoAddD rd _ ra | .amoXchgD rd _ ra | .amoUminD rd _ ra | .amoUmaxD rd _ ra | .amoSminD rd _ ra | .amoSmaxD rd _ ra
  | .amoAndD rd _ ra | .amoOrD rd _ ra | .amoXorD rd _ ra | .casD rd _ _ ra =>
    some (scalarReach (g.getS ra) 8 true true rd)
  | .amoAddW rd _ ra | .amoXchgW rd _ ra | .amoUminW rd _ ra | .amoUmaxW rd _ ra | .amoSminW rd _ ra | .amoSmaxW rd _ ra
  | .amoAndW rd _ ra | .amoOrW rd _ ra | .amoXorW rd _ ra | .casW rd _ _ ra =>
    some (scalarReach (g.getS ra) 4 true true rd)
  | .vld fd ra mask disp | .vldFf fd ra mask disp =>
    let c := g.capture mask
    some (c.reach (c.unitWhole (g.getS ra + disp)) true false (c.regsAt fd) [])
  | .vldx fd ra fb mask disp =>
    let c := g.capture mask
    some (c.reach (c.indexWhole (g.getS ra + disp) fb) true false (c.regsAt fd) (c.indexRegs fb))
  | .vldD fd ra mask disp =>
    let c := g.capture mask
    some (c.reach (c.planeWhole (g.getS ra + disp)) true false (c.planeRegs fd) [])
  | .vst fd ra mask disp =>
    let c := g.capture mask
    some (c.reach (c.unitWhole (g.getS ra + disp)) false true [] (c.regsAt fd))
  | .vstx fd ra fb mask disp =>
    let c := g.capture mask
    some (c.reach (c.indexWhole (g.getS ra + disp) fb) false true [] (c.regsAt fd ++ c.indexRegs fb))
  | .vstD fd ra mask disp =>
    let c := g.capture mask
    some (c.reach (c.planeWhole (g.getS ra + disp)) false true [] (c.planeRegs fd))
  | .vstred fd ra _ mask disp =>
    let c := g.capture mask
    some (c.reach (c.unitWhole (g.getS ra + disp)) true true [] (c.regsAt fd))
  | .vamo _ fd ra fb mask disp =>
    let c := g.capture mask
    let job := if fb = 0 then c.unitWhole (g.getS ra + disp) else c.indexWhole (g.getS ra + disp) fb
    some (c.reach job true true (c.regsAt fd) (if fb = 0 then [] else c.indexRegs fb))
  | _ => none

/-- A vector access governed by another mask register. -/
def underMask (i : Instr) (m : Reg3) : Instr :=
  match i with
  | .vld fd ra _ disp => .vld fd ra m disp
  | .vldFf fd ra _ disp => .vldFf fd ra m disp
  | .vldx fd ra fb _ disp => .vldx fd ra fb m disp
  | .vldD fd ra _ disp => .vldD fd ra m disp
  | .vst fd ra _ disp => .vst fd ra m disp
  | .vstx fd ra fb _ disp => .vstx fd ra fb m disp
  | .vstD fd ra _ disp => .vstD fd ra m disp
  | .vstred fd ra rb _ disp => .vstred fd ra rb m disp
  | .vamo op fd ra fb _ disp => .vamo op fd ra fb m disp
  | _ => i

/-- The bytes of the object that an ACQ, REL, WAIT or PUBLISH names (R325 rule 5). -/
def objectOf (i : Instr) (g : Regs) : Option (List Acc) :=
  match i with
  | .acq ra | .rel ra | .wait ra => some [⟨0, (g.getS ra).toNat, 64⟩]
  | .publish _ _ => some []
  | _ => none

/-- The sync object that a REL releases. -/
def releasedBy (i : Instr) (g : Regs) : Option Nat :=
  match i with
  | .rel ra => some (g.getS ra).toNat
  | _ => none

/-- The numbers in the register fields of an instruction. -/
def regFields (i : Instr) : List Nat :=
  match toRaw i with
  | some r => [r.d.toNat, r.a.toNat, r.b.toNat, r.c.toNat]
  | none => []

/-- Whether an instruction reaches no memory and waits for none: scalar arithmetic, branches, configuration; and, as long as
no vector access waits, vector arithmetic and the instructions on tile shapes. -/
def isLocal (i : Instr) (vecWaits : Bool) : Bool :=
  match toRaw i with
  | none => false
  | some r =>
    let maj := r.maj.toNat
    let cls := unitClass maj r.minor.toNat
    [0x00, 0x10, 0x11, 0x14, 0x15, 0x16, 0x17].contains maj ||
      (maj == 0x20 && (decide (r.minor.toNat < 4) || !vecWaits)) || (1 ≤ cls && cls ≤ 5 && !vecWaits)

/-! ## Places -/

/-- Whether two ranges at their places have a byte in common. -/
def placesMeet (a b : Place × Nat) : Bool :=
  let meet := fun x y : Nat => decide (x < y + b.2) && decide (y < x + a.2)
  match a.1, b.1 with
  | .pad x, .pad y => meet x y
  | .home x, .home y => meet x y
  | .peer p x, .peer q y => p == q && meet x y
  | _, _ => false

/-- Whether a place is in the scratchpad. -/
def Place.isPad (pl : Place) : Bool := match pl with | .pad _ => true | _ => false

/-- The peer of a place. -/
def Place.peerOf (pl : Place) : Option Nat := match pl with | .peer q _ => some q | _ => none

/-- Where the bytes of some accesses are now, under the entries they were translated by. -/
def State.reached (s : State) (es : Table Entry) (accs : List (Nat × Nat)) : List (Place × Nat) :=
  accs.map fun a => match tget es (a.1 / 65536) with
    | none => (.pad (a.1 % 2 ^ 21), a.2)
    | some e => match s.placeOf e a.1 with
      | .home key => (.home (s.redirect key), a.2)
      | pl => (pl, a.2)

/-- Where the bytes of a waiting operation are now. -/
def State.issuePlaces (s : State) (e : Issue) : List (Place × Nat) := s.reached e.entries e.accs

/-- Whether some places are on a peer. -/
def onPeer (ps : List (Place × Nat)) : Bool := ps.any fun x => x.1.peerOf.isSome

/-- Whether a waiting operation runs under guarded issue as a whole, so that nothing passes it (R391, R393). -/
def State.exclusive (s : State) (e : Issue) : Bool := e.vec && e.writes && onPeer (s.issuePlaces e)

/-- The rights an access needs (R173, R280). -/
def Reach.need (r : Reach) : Need := ⟨r.reads, r.writes, false⟩

/-- The entries of the pages that an instruction reaches, when every page passes its probe. -/
def State.reachEntries (s : State) (accs : List Acc) (need : Need) : Option (Table Entry × State) :=
  match probePages (pagesOf accs) need s with
  | .error _ _ => none
  | .ok ps s1 =>
    if ps.any fun p => p.2.failed then none
    else some (ps.filterMap fun p => match p.2 with
      | .ok _ (some e) => some (p.1, e)
      | _ => none, s1)

/-! ## What may be issued before an operation that waits (R325) -/

/-- Whether an access that comes later in program order may be issued before a waiting one: they share no byte (rule 1); they
do not both write to one peer (rule 3), or both access the scratchpad (rule 7); no scalar access passes a vector access
(rule 6, R111), or an AMO or CAS to a peer (R175). -/
def State.mayPass (s : State) (e : Issue) (writes vec : Bool) (ps : List (Place × Nat)) : Bool :=
  let qs := s.issuePlaces e
  let peers := qs.filterMap fun x => x.1.peerOf
  !(ps.any fun x => qs.any (placesMeet x)) &&
    !(e.writes && writes && ps.any fun x => x.1.peerOf.any peers.contains) &&
    !((ps.any fun x => x.1.isPad) && qs.any fun x => x.1.isPad) &&
    (vec || !(e.vec || (e.reads && e.writes && !peers.isEmpty)))

/-- Whether a waiting AMO or CAS counts as issued, towards an ACQ, REL, WAIT or PUBLISH: it stands in the store buffer until
it drains (R324, R325 rule 5), and a REL waits for it when it is tagged (R329). -/
def State.buffered (s : State) (e : Issue) (released : Option Nat) : Bool :=
  e.reads && e.writes && !e.vec && (s.issuePlaces e).all (fun x => !x.1.isPad && x.1.peerOf.isNone) &&
    e.accs.all fun a => !released.any fun o => (s.curRank.tagsOf a.1 a.2).contains o

/-- Whether the instruction that the hart has come to may be executed before the operations of its issue queue are performed:
it uses no register they will write (rule 2), and is no access or operation that must be issued after them. -/
def State.passes (s : State) (i : Instr) : Bool :=
  let h := s.hart s.cur
  let free := h.iq.all fun e => !e.dests.any (regFields i).contains
  let pairs := fun as : List Acc => as.map fun a => (a.va, a.n)
  free && match reachOf i h.regs with
  | some r =>
    match s.reachEntries r.accs r.need with
    | none => false
    | some (es, s1) => h.iq.all fun e =>
      s1.mayPass e r.writes r.vec (s1.reached es (pairs r.accs)) && !e.tiles.any (r.tiles ++ r.sources).contains
  | none =>
    match objectOf i h.regs with
    | some as =>
      match s.reachEntries as needRW with
      | none => false
      | some (es, s1) => h.iq.all fun e =>
        s1.buffered e (releasedBy i h.regs) && s1.mayPass e true true (s1.reached es (pairs as))
    | none => isLocal i (h.iq.any (·.vec))

/-- Whether the instruction of the hart that runs has completed from a state to another, without a trap. -/
def State.wentOn (s0 s : State) : Bool :=
  let x := s0.hart s0.cur
  let y := s.hart s0.cur
  y.node == x.node && y.regs.tl == x.regs.tl && y.regs.pc != x.regs.pc && y.blocked.isNone

/-! ## Issue (R324) -/

/-- The mask of some elements. -/
def elementMask (ks : List Nat) : Mask := ks.foldl (fun m k => m ||| BitVec.ofNat 32768 (2 ^ k)) 0

/-- A waiting operation as it is begun: whole, or some of its elements. An update at a peer is not divided. -/
def Issue.begun (e : Issue) (only : Option (List Nat)) (peer : Bool) : Issue :=
  match e.now with
  | some _ => e
  | none =>
    let part := if e.reads && e.writes && peer then none else only
    { e with now := some (match part with
      | some ks => e.left &&& elementMask ks
      | none => e.left) }

/-- The requests of a rank for a waiting operation, under their own keys. -/
def Rank.requestsOf (r : Rank) (id : Nat) : List Request :=
  (r.requests.filter fun q => q.key / lateKey == id + 1).map fun q => { q with key := q.key % lateKey }

/-- A rank with other requests for a waiting operation. -/
def Rank.withRequests (r : Rank) (id : Nat) (qs : List Request) : Rank :=
  { r with requests := qs.map (fun q => { q with key := lateKey * (id + 1) + q.key }) ++
      r.requests.filter fun q => q.key / lateKey != id + 1 }

/-- The registers that a waiting operation executes with: a vector access under the elements it has begun. -/
def Issue.startRegs (e : Issue) : Regs := if e.vec then e.regs.setM 1 (e.now.getD 0) else e.regs

/-- The hart as it stood at the commit of an operation, to execute it now. -/
def Hart.atCommit (h : Hart) (e : Issue) : Hart :=
  { h with
    regs := e.startRegs
    blocked := none
    line := none
    convoyStart := true
    fresh := false
    retry := false
    queue := []
    running := none
    stuck := false
    partway := none
    limit := none
    iq := []
    heldFrom := none
    probed := e.entries
    uses := [] }

/-- Registers that receive what an operation has written. -/
def Issue.receive (e : Issue) (from_ old : Regs) : Regs :=
  { old with
    s := e.dests.foldl (fun (v : Vector Word 32) n => v.setIfInBounds n (from_.s.toList.getD n 0)) old.s
    f := e.tiles.foldl (fun (v : Vector Tile 32) n => v.setIfInBounds n (from_.f.toList.getD n Tile.empty)) old.f }

/-- What a trap of a later instruction returns to, once an operation that waited has been performed: its result stands, and
what it has read. -/
def Before.received (b : Before) (e : Issue) (from_ : Regs) (loads : Nat) (poison : Option Nat) : Before :=
  if !b.late.contains e.id then b
  else { b with
    regs := e.receive from_ b.regs
    unchecked := b.unchecked + loads
    poison := match b.poison, poison with
      | some a, some c => some (min a c)
      | a, none => a
      | none, c => c }

/-- The hart after an attempt to perform operation i of its issue queue, from the hart the attempt has left: the registers
receive what it has read once its last element has been performed. -/
def Hart.performed (x : Hart) (e : Issue) (i : Nat) (y : Hart) (poison : Option Nat) : Hart :=
  let ended := y.regs.pc != e.regs.pc
  let e1 := if ended then { e with regs := e.receive y.regs e.regs, left := e.left &&& ~~~(e.now.getD 0), now := none } else e
  let last := ended && e1.left == 0
  let old := fun b : Before => if last then b.received e y.regs (y.unchecked - x.unchecked) poison else b
  { x with
    regs := if last then e1.receive e1.regs x.regs else x.regs
    iq := if last then x.iq.eraseIdx i else x.iq.set i e1
    sb := y.sb
    unchecked := y.unchecked
    queue := x.queue.map fun q => { q with before := old q.before }
    heldFrom := match y.heldFrom with
      | some (b, n) => some ({ b with regs := e.regs }, n)
      | none => x.heldFrom.map fun b => (old b.1, b.2) }

/-- Operation i of a hart's issue queue is issued, or some of its elements, in any order (R324, R325 rule 6): it executes with
the registers of its commit. What it does beside its accesses has been done at its commit. -/
def State.issueTurn (s : State) (h i : Nat) (only : Option (List Nat)) : State :=
  match (s.hart h).iq[i]? with
  | none => s
  | some e0 =>
    let e := e0.begun only (onPeer (s.issuePlaces e0))
    if e.vec && e.now == some 0 then s else
    let x := s.hart h
    let s1 := (State.setHart { s with cur := h, quota := none } h (x.atCommit e)).updCurRank fun r =>
      { r with requests := r.requestsOf e.id }
    match exec (if e.vec then underMask e.op 1 else e.op) s1 with
    | .next s2 =>
      let y := s2.hart h
      if y.node != x.node then s2
      else
        let s3 := s2.updCore (coreOf h) fun c => { c with counters := (s.core (coreOf h)).counters }
        let poison := if s3.curRank.poison == s1.curRank.poison then none else s3.curRank.poison
        (s3.setHart h (x.performed e i y poison)).updCurRank fun r =>
          { r with requests := ({ s with cur := h }.curRank.withRequests e.id r.requests).requests }
    | _ => s

/-! ## Commit -/

/-- Whether the instruction that the hart has come to may leave its accesses in the issue queue: they pass every check that an
address needs, and the hart holds nothing that they must wait for. -/
def State.mayDefer (s : State) (r : Reach) : Bool :=
  let h := s.hart s.cur
  let inside := r.accs.map fun a => inWindow a.va
  !h.fresh && !h.retry && h.partway.isNone && h.blocked.isNone && !r.accs.isEmpty &&
    r.accs.all (fun a => a.va % max a.n 1 == 0) && (inside.all (fun b => b) || inside.all (!·)) &&
    (r.vec || r.accs.all fun a => (s.regPage a.va).isNone) && (!r.writes || (h.queue.isEmpty && !s.curSpeculative))

/-- The last entry of a queue, placed by a vector access that was committed with no element, as the whole access makes it. -/
def QueueEntry.whole (e : QueueEntry) (m : Mask) (cost : Cost) : QueueEntry :=
  { e with cost := cost.cycles, before := { e.before with regs := e.before.regs.setM 1 m } }

/-- The commit of an instruction that leaves its accesses in the issue queue: it advances; a vector access does what it does
with no element. -/
def State.commitLate (s : State) (i : Instr) (r : Reach) : Host.Outcome State Fault Refusal :=
  if !r.vec then instr advance s
  else
    let x := s.hart s.cur
    let m := x.regs.getM 1
    match exec (underMask i 1) (s.updHart s.cur fun h => { h with regs := h.regs.setM 1 0 }) with
    | .next s1 => .next ((s1.updHart s.cur fun h => { h with
        regs := h.regs.setM 1 m
        queue := if h.queue.length = x.queue.length + 1 then h.queue.modify x.queue.length (·.whole m r.cost) else h.queue
        }).updCore (coreOf s.cur) (·.count 7 r.cost.extra))
    | o => o

/-- An instruction commits and leaves its accesses in the issue queue, when it may. A scalar store to a peer goes to the store
buffer at once. -/
def State.defer (s : State) (i : Instr) : Option State :=
  let g := (s.hart s.cur).regs
  (reachOf i g).bind fun r =>
    if !s.mayDefer r then none
    else (s.reachEntries r.accs r.need).bind fun x =>
      let accs := r.accs.map fun a => (a.va, a.n)
      if !r.vec && !r.reads && onPeer (x.2.reached x.1 accs) then none
      else match x.2.commitLate i r with
        | .next s1 =>
          if s.wentOn s1 then
            some (s1.updHart s.cur fun h => { h with iq := h.iq ++
              [⟨s.ticks, i, g, x.1, accs, r.reads, r.writes, r.vec, r.dests, r.tiles, r.left, none⟩] })
          else none
        | _ => none

/-! ## Turns -/

/-- Whether the hart that runs first issues the oldest operation of its issue queue: it is to be taken, or an operation there
is under guarded issue. -/
def State.issuesFirst (s : State) : Bool := s.taken s.cur || (s.hart s.cur).iq.any s.exclusive

/-- The turn of a hart whose issue queue holds operations: it executes its next instruction when that may pass them and
completes, and else issues the oldest. -/
def State.queueTurn (s : State) : State :=
  let oldest := s.issueTurn s.cur 0 none
  if s.issuesFirst then oldest
  else if s.heldCount s.cur != 0 then s.releaseHeld s.cur
  else match State.turn { s with quota := none } s.cur with
    | .over _ => oldest
    | .run i s1 =>
      if !s1.passes i then oldest
      else match exec i s1 with
        | .next s2 => if s.wentOn s2 then s2 else oldest
        | _ => oldest

/-- The hart that runs leaves the accesses of its next instruction in the issue queue, when it may (R323). -/
def State.tryDefer (s : State) : Option State :=
  if s.issuesFirst || s.heldCount s.cur != 0 then none
  else match s.turn s.cur with
    | .over _ => none
    | .run i s1 => if (s.hart s.cur).iq.isEmpty || s1.passes i then s1.defer i else none

end Sys2Proof.Machine
end

