-- ==== Sys2Proof/Machine/Turns.lean ====
section
/-!
DEFINITION. Turns.lean: what each turn of the schedule does before an instruction executes (log 1).
-/

namespace Sys2Proof.Machine

/-- A hart's turn. While its issue queue holds operations, it goes on past them or issues the oldest (R325). The effects that
its last instruction holds under guarded issue leave before the next one, one a turn (R391): until then the instruction may
still be withdrawn, so that nothing behind it has an effect (R393; log 10). -/
def State.hartTurn (s : State) (h : Nat) : Fetched :=
  let s1 := { s with cur := h }
  if !(s1.hart h).iq.isEmpty then .over s1.queueTurn
  else if s1.executes h && s1.heldCount h != 0 then .over (s1.releaseHeld h) else s.turn h

/-- A turn of the schedule, once time has passed: a state, or the instruction that a hart executes. Device events act in
exec. -/
def State.takes (s : State) (t : Turn) : Fetched :=
  match t with
  | .own =>
    if !(s.hart s.cur).iq.isEmpty then .over (s.issueTurn s.cur 0 none)
    else match s.ownWork with
      | some s1 => .over s1
      | none => s.hartTurn s.cur
  | .hart h => s.hartTurn h
  | .part h n => { s with quota := some n }.hartTurn h
  | .defer h => ((State.tryDefer { s with cur := h }).map Fetched.over).getD (s.hartTurn h)
  | .issue h i only => .over (s.issueTurn h i only)
  | .event i => .run i s
  | .outside loc bs => .over (s.storeOutside loc bs)
  | .table a bs => .over (s.writeTbl a bs)
  | .buffer p k base size => .over (s.regrant p k base size)
  | .registers page => .over (s.mapPage page)
  | .posted => .over s.deliverPosted
  | .busMaster on => .over { s with busMaster := on }
  | .secured on => .over { s with secured := on }
  | .hostErrors ranges => .over { s with hostErrors := ranges }
  | .routes peer closed => .over (s.setRoutes peer closed)

end Sys2Proof.Machine
end

