-- ==== Sys2Proof/Machine/Step.lean ====
section
/-!
DEFINITION. Step.lean: one step of the machine (log 1): the next turn of the schedule, or the work of the hart that ran
last, and the placing of one instruction for the next step (log 33).
-/

namespace Sys2Proof.Machine

/-- Runs what a turn has come to. -/
def Fetched.execute (f : Fetched) : Host.Outcome State Fault Refusal :=
  match f with
  | .over s => .next s
  | .run i s => exec i s

/-- One step: a device event acts, a hart's turn executes the instruction at its PC, or another turn of the schedule is
taken. Without power only powering up acts (R18). -/
def step (s : State) : Host.Outcome State Fault Refusal :=
  match s.nextTurn with
  | .event i =>
    if !isEvent i then .fault .notAnEvent
    else if s.hears i then exec i s.begin
    else .next s.begin
  | t => if s.powered then (s.begin.takes t).execute else .next s.begin

/-- The state whose next step fetches and runs exactly the instruction of a table word (log 4, log 33). -/
def State.withFetchWord (s : State) (nbits w : Nat) : State := s.placed (tableWords nbits w)

end Sys2Proof.Machine
end

