-- ==== Sys2Proof/WellFormed.lean ====
section
/-!
DEFINITION. WellFormed.lean: which instructions and events are well formed. An encoded instruction is well formed when
its operands lie in the ranges its form admits (R97, R98, R119, R169, R204, R302, R337); a device event when it names
cores, harts, ports, peers, partitions and tables that the part has (R13, R17, R55).
-/

namespace Sys2Proof

/-- The range checks on operands; everything else is in range by its type. -/
def Instr.wf (i : Instr) : Bool :=
  match i with
  | .nop | .brk .. | .trap .. | .tret | .idle | .mfsr .. | .mtsr .. | .tlbiAll | .tlbiVa .. | .add .. | .sub ..
  | .and .. | .or .. | .xor .. | .sll .. | .srl .. | .sra .. | .slt .. | .sltu .. | .umin .. | .umax ..
  | .smin .. | .smax .. | .mul .. | .mulh .. | .mulhu .. | .div .. | .divu .. | .rem .. | .remu .. | .addi ..
  | .andi .. | .ori .. | .xori .. | .slli .. | .srli .. | .srai .. | .slti .. | .sltiu .. | .beq .. | .bne ..
  | .blt .. | .bge .. | .bltu .. | .bgeu .. | .jal .. | .jalr .. => true
  | .loop stages _ => 1 ≤ stages.toNat && stages.toNat ≤ 4
  | .ldB .. | .ldH .. | .ldW .. | .ldD .. | .ldBu .. | .ldHu .. | .ldWu .. | .stB .. | .stH .. | .stW ..
  | .stD .. | .amoAddD .. | .amoXchgD .. | .amoUminD .. | .amoUmaxD .. | .amoSminD .. | .amoSmaxD ..
  | .amoAndD .. | .amoOrD .. | .amoXorD .. | .amoAddW .. | .amoXchgW .. | .amoUminW .. | .amoUmaxW ..
  | .amoSminW .. | .amoSmaxW .. | .amoAndW .. | .amoOrW .. | .amoXorW .. | .casD .. | .casW .. | .setvl ..
  | .setrc .. | .setvt .. => true
  | .setdim k _ _ => k.toNat ≤ 2
  | .getshape .. | .setshape .. => true
  | .vadd _ _ _ _ rm _ => rm != 7
  | .vsub _ _ _ _ rm _ => rm != 7
  | .vmul _ _ _ _ rm => rm != 7
  | .vdiv _ _ _ _ rm => rm != 7
  | .vrem .. | .vmin .. | .vmax .. | .vand .. | .vor .. | .vxor .. | .vsll .. | .vsrl .. | .vsra .. | .vabs ..
  | .vneg .. => true
  | .vsqrt _ _ _ rm => rm != 7
  | .vmadd _ _ _ _ _ rm => rm != 7
  | .vmsub _ _ _ _ _ rm => rm != 7
  | .vnmadd _ _ _ _ _ rm => rm != 7
  | .vsgnj .. | .vmv .. | .vsel .. => true
  | .vwmac _ _ _ _ _ rm => rm != 7
  | .vclass .. => true
  | .vcvt format _ _ _ rm => format.toNat ≤ 10 && rm != 7
  | .vcmpEq .. | .vcmpNe .. | .vcmpLt .. | .vcmpLe .. | .vcmpLtu .. | .vcmpLeu .. | .vcmpUnord .. | .vmand ..
  | .vmor .. | .vmxor .. | .vmandn .. | .vmpop .. | .vexp2 .. | .vlog2 .. | .vsinpi .. | .vcospi .. | .vtanh ..
  | .vrcp .. | .vrsqrt .. | .vred .. | .vscan .. | .vperm .. | .vslide .. | .vcompress .. | .vexpand ..
  | .vbcast .. | .vtrans .. | .viota .. | .fmul .. | .fdiff .. | .fint .. | .fintAll .. | .fproj ..
  | .ftrace .. | .feval .. | .fxform .. | .flift .. | .fmass .. | .mclaim .. | .mrel .. | .mload ..
  | .mloadT .. | .mloadG .. | .mloadCsr .. | .mma .. | .mstore .. | .vld .. | .vst .. | .vstD .. | .vldx ..
  | .vstx .. | .vldFf .. | .vldD .. | .vstSeg .. | .vstred .. => true
  | .vamo op _ _ _ _ _ => op.toNat ≤ 8
  | .vldFem .. | .vstFem .. | .vmvPop .. | .vmvPush .. | .tlook .. | .tins .. | .tinv .. | .cpy .. | .cpyX ..
  | .cwait .. | .qbind .. | .qrel .. | .esub .. | .xcopRandom .. | .xcopMarginSet .. | .xcopReplayLimit ..
  | .xcopReplayCountClear .. | .xcopCounterRead .. | .xcopCounterClear .. | .xcopEsubReasons .. | .acq ..
  | .rel .. | .bind .. => true
  | .fence scope _ => scope.toNat ≤ 5
  | .efence .. | .bar .. | .arrive .. | .wait .. | .join .. | .leave .. | .claim .. | .publish .. | .node ..
  | .edge .. | .done | .yield | .cancel .. | .chkc .. | .snext .. | .slotfree .. => true
  | .stage2Complete badCores badPorts floors => badCores.all (· < 192) && badPorts.all (· < 72) && floors.all (· ≤ 40)
  | .partitionCreate grant => grant.part < 64 && grant.cores.all (· < 192) && grant.tables.all (· < 16) && 2 ≤ grant.slots && grant.slots ≤ 65536
  | .partTeardown part => part < 64
  | .teardownWaitExpiry part => part < 64
  | .teardownNodesEnded part => part < 64
  | .insert part _ => part < 64
  | .insertRecordRead part => part < 64
  | .winCtlWrite part _ => part < 64
  | .partModeWrite part _ => part < 64
  | .passCountReached part _ => part < 64
  | .nodeCommit part => part < 64
  | .schedStart part table _ => part < 64 && table < 16
  | .schedStop part table _ => part < 64 && table < 16
  | .schedLoadComplete table => table < 16
  | .schedCycle table => table < 16
  | .instructionRetire hart => hart < 1536
  | .recheckRun hart _ => hart < 1536
  | .replayExhausted hart _ _ _ => hart < 1536
  | .guardedRelease hart => hart < 1536
  | .sbDrain hart _ => hart < 1536
  | .fabricPacketArrive peer seq _ => peer < 384 && seq < 65536
  | .ackArrive peer ack => peer < 384 && ack < 65536
  | .replyArrive peer seq _ => peer < 384 && seq < 65536
  | .cacheFill die peer _ bytes => die < 4 && peer < 384 && bytes.length == 64
  | .engineWrite .. => true
  | .publishExchange hart => hart < 1536
  | .acqGrant .. => true
  | .copyChannelDeliver core channel _ => core < 192 && channel < 4
  | .pagerReply .. | .migrationStart .. | .migrationLineCopy .. | .migrationFinish .. => true
  | .dataCheckPoison hart _ => hart < 1536
  | .registerWrite space .. => match space with | .silven m => (m.getD 0) < 64 | .management p => p < 64
  | .dataCheckClean hart => hart < 1536
  | .stage0Complete .. | .stage1Complete .. | .firmwareIntake .. | .challenge .. | .keyProg .. | .kSetGo ..
  | .kSetStop .. => true
  | .convoyStart core => core < 192
  | .quarantineComplete core => core < 192
  | .replayWindowEnd core => core < 192
  | .settleGateEnd core => core < 192
  | .pentimentoReplay core => core < 192
  | .arbitrationInterval .. => true
  | .linkRetry port _ => port < 72
  | .deadlockResend peer seq => peer < 384 && seq < 65536
  | .portDown port => port < 72
  | .peerFailDeclare peer => peer < 384
  | .peerRestartReport peer => peer < 384
  | .peerFailClear index _ => index < 6
  | .resyncReceive peer => peer < 384
  | .cacheDrop die peer _ => die < 4 && peer < 384
  | .refresh channel _ => channel < 296
  | .scrub .. | .tableRegisterWrite .. => true
  | .csaWrite part _ _ => part < 64
  | .pwrCapWrite .. | .fabCtlWrite .. => true
  | .migrationRequest die part _ => die < 4 && part < 64
  | .migrationDeclined .. => true
  | .slotMessage table _ => table < 16
  | .channelMarkRaise core channel => core < 192 && channel < 4
  | .powerUp | .fundamentalReset | .stageWatchdogExpiry | .restart | .getVersion .. | .getCapabilities ..
  | .negotiateAlgorithms .. | .getDigests .. | .getCertificate .. | .getMeasurements .. | .keyExchange .. | .finish ..
  | .keyUpdate .. | .heartbeat .. | .endSession .. | .query .. | .spdmUnsupportedRequest | .placeNode | .powerLoss => true

end Sys2Proof
end

