-- ==== Sys2Proof/Certificates/Slice0/Obligations.lean ====
section
/-!
DEFINITION. Obligations.lean: the statements for the provers, with the words they are written in.
-/

namespace Sys2Proof.Claims

open Sys2Proof.Machine

/-! ## What a statement says of a state -/

/-- The hart that runs. -/
def me (s : State) : Hart := s.hart s.cur

/-- Its registers. -/
def regs (s : State) : Regs := (me s).regs

/-- The next instruction is not the first at TL 0 after a return or a resume, and has not stopped part-way. -/
abbrev Later (s : State) : Prop := (me s).fresh = false ∧ (me s).partway = none

/-- Beside that, the hart's vector instruction queue is empty (R110). -/
abbrev Drained (s : State) : Prop := Later s ∧ (me s).queue = []

/-- Every byte of device memory, of the table memory, of host memory and of every scratchpad reads as before. -/
structure SameBytes (s t : State) : Prop where
  mem : ∀ a, byteAt t.mem a = byteAt s.mem a
  tbl : ∀ a, byteAt t.tbl a = byteAt s.tbl a
  host : ∀ a, byteAt t.host a = byteAt s.host a
  pads : ∀ c a, byteAt (t.core c).pad a = byteAt (s.core c).pad a

/-- The hart that runs has completed an instruction that leaves the registers `g` but for the program counter, which has
moved to the fall-through successor; every register of every other hart and every byte of memory is unchanged. -/
structure Ran (s t : State) (g : Regs) : Prop where
  registers : (t.hart s.cur).regs = { g with pc := (me s).successor }
  runnable : (t.hart s.cur).blocked = none
  node : (t.hart s.cur).node = (me s).node
  stores : (t.hart s.cur).sb = (me s).sb
  others : ∀ h, h ≠ s.cur → t.hart h = s.hart h
  bytes : SameBytes s t

/-- The hart that runs has transferred to `target`: as `Ran`, with the program counter there and its line not yet read. -/
structure Went (s t : State) (g : Regs) (target : Word) : Prop where
  registers : (t.hart s.cur).regs = { g with pc := target }
  line : (t.hart s.cur).line = none
  runnable : (t.hart s.cur).blocked = none
  node : (t.hart s.cur).node = (me s).node
  stores : (t.hart s.cur).sb = (me s).sb
  others : ∀ h, h ≠ s.cur → t.hart h = s.hart h
  bytes : SameBytes s t

/-- A trap can be taken by the hart's own handler: TL is 0 or 1 and TVEC names a line (R404). -/
abbrev Handled (s : State) : Prop := (regs s).tl ≠ 2 ∧ (regs s).vector ≠ 0

/-- The level a trap enters. -/
def nextLevel (s : State) : Nat := (regs s).tl.toNat + 1

/-- The trap bank of the level entered holds cause, TEPC, TVAL and TLANE; TL has risen, PC is head 0 of the handler's
line; every other register is as `g` has it, and nothing else of the machine has changed. -/
structure Entered (s t : State) (g : Regs) (cause epc val lane : Word) : Prop where
  registers : (t.hart s.cur).regs = { g.setBank (nextLevel s) ⟨cause, epc, val, lane⟩ with
    tl := BitVec.ofNat 2 (nextLevel s)
    pc := (regs s).vector + 2 }
  runnable : (t.hart s.cur).blocked = none
  node : (t.hart s.cur).node = (me s).node
  stores : (t.hart s.cur).sb = (me s).sb
  others : ∀ h, h ≠ s.cur → t.hart h = s.hart h
  bytes : SameBytes s t

/-! ## Scalar arithmetic and control -/

/-- Destination and value of the register and immediate forms of majors 0x10 and 0x11 but for division (R170, R172). -/
def aluOf (g : Regs) : Instr → Option (Reg × Word)
  | .add rd ra rb => some (rd, g.getS ra + g.getS rb)
  | .sub rd ra rb => some (rd, g.getS ra - g.getS rb)
  | .and rd ra rb => some (rd, g.getS ra &&& g.getS rb)
  | .or rd ra rb => some (rd, g.getS ra ||| g.getS rb)
  | .xor rd ra rb => some (rd, g.getS ra ^^^ g.getS rb)
  | .sll rd ra rb => some (rd, g.getS ra <<< ((g.getS rb).toNat % 64))
  | .srl rd ra rb => some (rd, g.getS ra >>> ((g.getS rb).toNat % 64))
  | .sra rd ra rb => some (rd, (g.getS ra).sshiftRight ((g.getS rb).toNat % 64))
  | .slt rd ra rb => some (rd, if (g.getS ra).toInt < (g.getS rb).toInt then 1 else 0)
  | .sltu rd ra rb => some (rd, if (g.getS ra).toNat < (g.getS rb).toNat then 1 else 0)
  | .umin rd ra rb => some (rd, if (g.getS ra).toNat ≤ (g.getS rb).toNat then g.getS ra else g.getS rb)
  | .umax rd ra rb => some (rd, if (g.getS ra).toNat ≤ (g.getS rb).toNat then g.getS rb else g.getS ra)
  | .smin rd ra rb => some (rd, if (g.getS ra).toInt ≤ (g.getS rb).toInt then g.getS ra else g.getS rb)
  | .smax rd ra rb => some (rd, if (g.getS ra).toInt ≤ (g.getS rb).toInt then g.getS rb else g.getS ra)
  | .mul rd ra rb => some (rd, g.getS ra * g.getS rb)
  | .mulh rd ra rb => some (rd, BitVec.ofInt 64 ((g.getS ra).toInt * (g.getS rb).toInt / 2 ^ 64))
  | .mulhu rd ra rb => some (rd, BitVec.ofNat 64 ((g.getS ra).toNat * (g.getS rb).toNat / 2 ^ 64))
  | .addi rd ra imm => some (rd, g.getS ra + imm)
  | .andi rd ra imm => some (rd, g.getS ra &&& imm)
  | .ori rd ra imm => some (rd, g.getS ra ||| imm)
  | .xori rd ra imm => some (rd, g.getS ra ^^^ imm)
  | .slli rd ra count => some (rd, g.getS ra <<< count.toNat)
  | .srli rd ra count => some (rd, g.getS ra >>> count.toNat)
  | .srai rd ra count => some (rd, (g.getS ra).sshiftRight count.toNat)
  | .slti rd ra imm => some (rd, if (g.getS ra).toInt < imm.toInt then 1 else 0)
  | .sltiu rd ra imm => some (rd, if (g.getS ra).toNat < imm.toNat then 1 else 0)
  | _ => none

/-- Destination, dividend, divisor, signedness and whether the remainder is asked for (R171). -/
def divisionOf (g : Regs) : Instr → Option (Reg × Word × Word × Bool × Bool)
  | .div rd ra rb => some (rd, g.getS ra, g.getS rb, true, false)
  | .divu rd ra rb => some (rd, g.getS ra, g.getS rb, false, false)
  | .rem rd ra rb => some (rd, g.getS ra, g.getS rb, true, true)
  | .remu rd ra rb => some (rd, g.getS ra, g.getS rb, false, true)
  | _ => none

/-- The least signed value. -/
def intMin : Word := 0x8000000000000000

/-- The condition of a division as its FFLAGS bit: INT_DIVZERO, INT_OVERFLOW or none (R171). -/
def divisionFlag (a b : Word) (isSigned : Bool) : Word :=
  if b = 0 then 0x20 else if isSigned = true ∧ a = intMin ∧ b = -1 then 0x40 else 0

/-- The value of a division (R136). -/
def divisionValue (a b : Word) (isSigned rem : Bool) : Word :=
  if b = 0 then (if rem then a else -1)
  else if isSigned = true ∧ a = intMin ∧ b = -1 then (if rem then 0 else a)
  else if isSigned then (if rem then BitVec.ofInt 64 (a.toInt.tmod b.toInt) else BitVec.ofInt 64 (a.toInt.tdiv b.toInt))
  else if rem then BitVec.ofNat 64 (a.toNat % b.toNat) else BitVec.ofNat 64 (a.toNat / b.toNat)

/-- Condition and offset of a branch (R179). -/
def branchOf (g : Regs) : Instr → Option (Prop × Word)
  | .beq ra rb imm => some (g.getS ra = g.getS rb, imm)
  | .bne ra rb imm => some (g.getS ra ≠ g.getS rb, imm)
  | .blt ra rb imm => some ((g.getS ra).toInt < (g.getS rb).toInt, imm)
  | .bge ra rb imm => some ((g.getS rb).toInt ≤ (g.getS ra).toInt, imm)
  | .bltu ra rb imm => some ((g.getS ra).toNat < (g.getS rb).toNat, imm)
  | .bgeu ra rb imm => some ((g.getS rb).toNat ≤ (g.getS ra).toNat, imm)
  | _ => none

/-- A target names a head of a line: its bits 5:0 are even and at least 2 (R99). -/
abbrev NamesHead (t : Word) : Prop := t.toNat % 2 = 0 ∧ 2 ≤ t.toNat % 64

/-- The transfer an instruction makes: its target, and the registers it leaves but for the program counter (R179, R180);
for a branch, when its condition holds. -/
def transferOf (s : State) : Instr → Option (Prop × Word × Regs)
  | .jal rd imm => some (True, (regs s).pc + imm, (regs s).setS rd (me s).successor)
  | .jalr rd ra imm => some (True, (regs s).getS ra + imm, (regs s).setS rd (me s).successor)
  | i => (branchOf (regs s) i).map fun b => (b.1, (regs s).pc + b.2, regs s)

/-- LOOP's next stage bits (R119): shifted up by one, the new one set while LOOPCNT is not 0. -/
def loopStages (g : Regs) : Nat := (bits g.rrb.toNat 7 4 * 2 + if g.loopcnt = 0 then 0 else 1) % 16

/-- The registers LOOP leaves but for the program counter (R119): RRB.BASE turned down by one, the stage bits in RRB
and, all ones or all zeros, in m4 to m7, and LOOPCNT counted down unless it was 0. -/
structure Looped (g g' : Regs) : Prop where
  rrb : g'.rrb = BitVec.ofNat 64 (loopStages g * 16 + (bits g.rrb.toNat 3 0 + 15) % 16)
  count : g'.loopcnt = if g.loopcnt = 0 then 0 else g.loopcnt - 1
  stages : ∀ n : Fin 4, g'.m[4 + n.val] = if (loopStages g).testBit n.val then BitVec.allOnes 32768 else 0
  rest : { g' with rrb := g.rrb, loopcnt := g.loopcnt, m := g.m } = g
  masks : ∀ n : Fin 4, g'.m[n.val] = g.m[n.val]

end Sys2Proof.Claims

open Sys2Proof Sys2Proof.Machine Sys2Proof.Claims

/-- The value and the frame of every form of majors 0x10 and 0x11 but division (R170, R172). -/
def Sys2Proof.Claims.ScalarForms : Prop :=
  ∀ (i : Instr) (s : State) (rd : Reg) (v : Word), Later s → aluOf (regs s) i = some (rd, v) →
    ∃ t, exec i s = .next t ∧ Ran s t ((regs s).setS rd v) ∧ (t.hart s.cur).queue = (me s).queue ∧ t.cores = s.cores

/-- s0 reads 0 and discards writes; another register reads back (R75). -/
def Sys2Proof.Claims.ScalarZeroRegister : Prop :=
  ∀ (g : Regs) (r : Reg) (v : Word), g.getS 0 = 0 ∧ g.setS 0 v = g ∧ (r ≠ 0 → (g.setS r v).getS r = v) ∧
    (∀ q : Reg, q ≠ r → (g.setS r v).getS q = g.getS q)

/-- The value and FFLAGS of a division whose condition is not enabled (R136, R171). -/
def Sys2Proof.Claims.DivisionResults : Prop :=
  ∀ (i : Instr) (s : State) (rd : Reg) (a b : Word) (sg rem : Bool), Later s →
    divisionOf (regs s) i = some (rd, a, b, sg, rem) → (regs s).atc &&& divisionFlag a b sg = 0 →
    ∃ t, exec i s = .next t ∧
      ((me s).queue = [] → (t.hart s.cur).queue = [] ∧ Ran s t ({ (regs s).setS rd (divisionValue a b sg rem) with
        fflags := (regs s).fflags ||| divisionFlag a b sg })) ∧
      (∀ q e, (me s).queue = q ++ [e] → Ran s t ((regs s).setS rd (divisionValue a b sg rem)) ∧
        (t.hart s.cur).queue = q ++ [{ e with later := e.later ||| (divisionFlag a b sg).setWidth 7 }])

/-- The trap of an enabled condition (R171). -/
def Sys2Proof.Claims.DivisionTraps : Prop :=
  ∀ (i : Instr) (s : State) (rd : Reg) (a b : Word) (sg rem : Bool), Drained s → Handled s →
    divisionOf (regs s) i = some (rd, a, b, sg, rem) → (regs s).atc &&& divisionFlag a b sg ≠ 0 →
    ∃ t, exec i s = .next t ∧ Entered s t (regs s) (if b = 0 then 0x05 else 0x06) (regs s).pc
      (divisionFlag a b sg) 0x0000000100000000

/-- A taken transfer to a head (R178-R180). -/
def Sys2Proof.Claims.TransfersTaken : Prop :=
  ∀ (i : Instr) (s : State) (c : Prop) (target : Word) (g : Regs), Later s →
    transferOf s i = some (c, target, g) → c → NamesHead target →
    ∃ t, exec i s = .next t ∧ Went s t g target

/-- A branch whose condition does not hold falls through (R179). -/
def Sys2Proof.Claims.BranchesNotTaken : Prop :=
  ∀ (i : Instr) (s : State) (c : Prop) (imm : Word), Later s → branchOf (regs s) i = some (c, imm) → ¬ c →
    ∃ t, exec i s = .next t ∧ Ran s t (regs s)

/-- A taken transfer to what is no head traps ALIGNMENT and writes no register (R178). -/
def Sys2Proof.Claims.MisalignedTransfersTrap : Prop :=
  ∀ (i : Instr) (s : State) (c : Prop) (target : Word) (g : Regs), Drained s → Handled s →
    transferOf s i = some (c, target, g) → c → ¬ NamesHead target →
    ∃ t, exec i s = .next t ∧ Entered s t (regs s) 0x12 (regs s).pc target 0

/-- LOOP (R119, R181). -/
def Sys2Proof.Claims.LoopIterates : Prop :=
  ∀ (s : State) (n : Reg) (imm : Word), Later s → 1 ≤ n.toNat → n.toNat ≤ 4 → NamesHead ((regs s).pc + imm) →
    ∃ t g', exec (.loop n imm) s = .next t ∧ Looped (regs s) g' ∧
      (if loopStages (regs s) % 2 ^ n.toNat ≠ 0 then Went s t g' ((regs s).pc + imm) else Ran s t g')

/-- A taken LOOP whose target is no head traps ALIGNMENT and leaves the loop state (R181). -/
def Sys2Proof.Claims.MisalignedLoopsTrap : Prop :=
  ∀ (s : State) (n : Reg) (imm : Word), Drained s → Handled s → 1 ≤ n.toNat → n.toNat ≤ 4 →
    loopStages (regs s) % 2 ^ n.toNat ≠ 0 → ¬ NamesHead ((regs s).pc + imm) →
    ∃ t, exec (.loop n imm) s = .next t ∧ Entered s t (regs s) 0x12 (regs s).pc ((regs s).pc + imm) 0

namespace Sys2Proof.Claims

open Sys2Proof.Machine

/-! ## Traps, returns, configuration and system registers -/

/-- Cause, TEPC and TVAL of TRAP and BRK (R182, R403). -/
def callOf (s : State) : Instr → Option (Word × Word × Word)
  | .trap service => some (0x20, (me s).successor, service.setWidth 64)
  | .brk code => some (0x21, (regs s).pc, code.setWidth 64)
  | _ => none

/-- The hart that runs waits at its instruction for a reason; nothing else has changed. -/
structure Waits (s t : State) (why : Block) : Prop where
  registers : (t.hart s.cur).regs = regs s
  blocked : (t.hart s.cur).blocked = some why
  node : (t.hart s.cur).node = (me s).node
  stores : (t.hart s.cur).sb = (me s).sb
  others : ∀ h, h ≠ s.cur → t.hart h = s.hart h
  bytes : SameBytes s t

/-- VLT (R191, R74): the greatest VL under a VTYPE and an RC. -/
def vlBound (vtype : Word) (rc : Nat) : Nat :=
  min (if fmtWidth (bits vtype.toNat 3 0) = 0 then 0
    else 16384 * 2 ^ bits vtype.toNat 5 4 / fmtWidth (bits vtype.toNat 3 0)) (32768 / max rc 1)

/-- Whether a VTYPE request is supported (R108, R148, R199): FMT at most O4, no reserved code or bit, PLAIN with DIMS 1, a
function basis in FP32 or FP64 with grouping 1. -/
abbrev Supported (r : Word) : Prop :=
  r.toNat < 65536 ∧ bits r.toNat 3 0 ≤ 10 ∧ bits r.toNat 7 6 ≠ 3 ∧ bits r.toNat 9 8 ≠ 3 ∧ bits r.toNat 15 14 ≠ 3 ∧
    (bits r.toNat 7 6 = 0 → bits r.toNat 9 8 = 0) ∧
    (bits r.toNat 7 6 ≠ 0 → (bits r.toNat 3 0 = 8 ∨ bits r.toNat 3 0 = 9) ∧ bits r.toNat 5 4 = 0)

/-- A physical tile register. -/
def tileAt (g : Regs) (f : Nat) : Tile := g.f.toList.getD f ⟨0, []⟩

/-- The registers a form of SETVL, SETRC, SETVT, SETDIM or GETSHAPE leaves but for the program counter, and when it
may execute: GETSHAPE once no queued instruction has written its register (R201-R205). -/
def configured (s : State) : Instr → Option (Prop × Regs)
  | .setvl rd ra =>
    let v := BitVec.ofNat 64 (min ((regs s).getS ra).toNat (vlBound (regs s).vtype (regs s).rc.toNat))
    some ((regs s).vtype.toNat < 2 ^ 63, { regs s with vl := v }.setS rd v)
  | .setrc rd ra =>
    let n := min (max ((regs s).getS ra).toNat 1) 16
    some (True, { regs s with
      rc := BitVec.ofNat 64 n
      vl := BitVec.ofNat 64 (min (regs s).vl.toNat (32768 / n)) }.setS rd (BitVec.ofNat 64 n))
  | .setvt rd request =>
    if Supported request then
      some (True, { regs s with
        vtype := request
        vl := BitVec.ofNat 64 (min (regs s).vl.toNat (vlBound request (regs s).rc.toNat)) }.setS rd
          (BitVec.ofNat 64 (16384 * 2 ^ bits request.toNat 5 4 / fmtWidth (bits request.toNat 3 0))))
    else
      some (True, { regs s with
        vtype := 0x8000000000000000 + BitVec.ofNat 64 (request.toNat % 65536)
        vl := 0 }.setS rd 0)
  | .setdim k ra rb =>
    some (k.toNat < 3, { regs s with
      dlen := (regs s).dlen.setIfInBounds k.toNat (BitVec.ofNat 64 (((regs s).getS ra).toNat % 2 ^ 32))
      dstep := (regs s).dstep.setIfInBounds k.toNat ((regs s).getS rb) })
  | .getshape rd ra =>
    let f := (regs s).phys ra.toNat
    some (∀ e ∈ (me s).queue, tileAt e.before.regs f = tileAt (regs s) f, (regs s).setS rd (tileAt (regs s) f).tag)
  | _ => none

/-- What R188 says of a system register: its value, and from which trap level it may be read and written (3: never). -/
structure SysReg where
  value : Regs → Core → Word
  readFrom : Nat
  writeFrom : Nat

/-- The bits of R189's summary of FEM. -/
def femWord (m : Mask) : Word :=
  if m = 0 then 0 else
  let ks := (List.range 32768).filter fun k => m.getLsbD k
  BitVec.ofNat 64 (2 ^ 63 + ks.length * 2 ^ 32 + ks.getLastD 0 * 2 ^ 16 + ks.headD 0)

/-- The system register map (R188). -/
def sysMap : List (Nat × SysReg) := [
  (0x000, ⟨fun g _ => g.vl, 0, 0⟩), (0x001, ⟨fun g _ => g.rc, 0, 0⟩), (0x002, ⟨fun g _ => g.vtype, 0, 0⟩),
  (0x010, ⟨fun g _ => g.fflags, 0, 0⟩), (0x011, ⟨fun g _ => g.frm, 0, 0⟩), (0x012, ⟨fun g _ => g.atc, 0, 0⟩),
  (0x020, ⟨fun g _ => g.dlen[0], 0, 0⟩), (0x021, ⟨fun g _ => g.dlen[1], 0, 0⟩), (0x022, ⟨fun g _ => g.dlen[2], 0, 0⟩),
  (0x028, ⟨fun g _ => g.dstep[0], 0, 0⟩), (0x029, ⟨fun g _ => g.dstep[1], 0, 0⟩),
  (0x02A, ⟨fun g _ => g.dstep[2], 0, 0⟩),
  (0x030, ⟨fun g _ => g.pix, 0, 1⟩), (0x031, ⟨fun g _ => femWord g.fem, 0, 1⟩),
  (0x040, ⟨fun _ c => c.channels[0].pos, 0, 3⟩), (0x041, ⟨fun _ c => c.channels[1].pos, 0, 3⟩),
  (0x042, ⟨fun _ c => c.channels[2].pos, 0, 3⟩), (0x043, ⟨fun _ c => c.channels[3].pos, 0, 3⟩),
  (0x050, ⟨fun g _ => g.hartid, 0, 3⟩), (0x051, ⟨fun g _ => g.nodeid, 0, 3⟩), (0x052, ⟨fun g _ => g.groupid, 0, 3⟩),
  (0x060, ⟨fun g _ => g.seed, 0, 0⟩), (0x070, ⟨fun g _ => g.loopcnt, 0, 0⟩), (0x071, ⟨fun g _ => g.rrb, 0, 0⟩),
  (0x100, ⟨fun g _ => g.tl.setWidth 64, 0, 3⟩), (0x101, ⟨fun g _ => g.tvec, 0, 0⟩),
  (0x110, ⟨fun g _ => g.trap1.cause, 0, 1⟩), (0x111, ⟨fun g _ => g.trap1.epc, 0, 1⟩),
  (0x112, ⟨fun g _ => g.trap1.val, 0, 1⟩), (0x113, ⟨fun g _ => g.trap1.lane, 0, 1⟩),
  (0x120, ⟨fun g _ => g.trap2.cause, 1, 2⟩), (0x121, ⟨fun g _ => g.trap2.epc, 1, 2⟩),
  (0x122, ⟨fun g _ => g.trap2.val, 1, 2⟩), (0x123, ⟨fun g _ => g.trap2.lane, 1, 2⟩),
  (0x200, ⟨fun _ c => BitVec.ofNat 64 (c.floor * 2 ^ 16 + c.esc * 2 ^ 8 + c.stepPoint), 0, 3⟩),
  (0x201, ⟨fun _ c => BitVec.ofNat 64 (c.window * 2 ^ 16 + c.limit), 0, 3⟩),
  (0x202, ⟨fun _ c => BitVec.ofNat 64 (c.escn * 2 ^ 56 + c.wincnt * 2 ^ 32 + c.total), 0, 3⟩),
  (0x203, ⟨fun _ c => BitVec.ofNat 64 (c.quarState * 2 ^ 62 + c.quarCause * 2 ^ 56), 0, 3⟩)]

/-- The registers after a write of a system register under its field map; none where R186 or R188 give no write. -/
def written (g : Regs) (n : Nat) (v : Word) : Option Regs :=
  match n with
  | 0x000 => if g.vtype.toNat < 2 ^ 63 then
      some { g with vl := BitVec.ofNat 64 (min v.toNat (vlBound g.vtype g.rc.toNat)) } else none
  | 0x001 => some { g with
      rc := BitVec.ofNat 64 (min (max v.toNat 1) 16)
      vl := BitVec.ofNat 64 (min g.vl.toNat (32768 / min (max v.toNat 1) 16)) }
  | 0x002 => if Supported v then
      some { g with vtype := v, vl := BitVec.ofNat 64 (min g.vl.toNat (vlBound v g.rc.toNat)) }
    else some { g with vtype := 0x8000000000000000 + BitVec.ofNat 64 (v.toNat % 65536), vl := 0 }
  | 0x010 => some { g with fflags := BitVec.ofNat 64 (v.toNat % 128) }
  | 0x011 => some { g with frm := BitVec.ofNat 64 (bits v.toNat 8 8 * 256 +
      (if bits v.toNat 2 0 < 6 then bits v.toNat 2 0 else bits g.frm.toNat 2 0)) }
  | 0x012 => some { g with atc := BitVec.ofNat 64 (v.toNat % 128) }
  | 0x020 => some { g with dlen := g.dlen.set 0 (BitVec.ofNat 64 (v.toNat % 2 ^ 32)) }
  | 0x021 => some { g with dlen := g.dlen.set 1 (BitVec.ofNat 64 (v.toNat % 2 ^ 32)) }
  | 0x022 => some { g with dlen := g.dlen.set 2 (BitVec.ofNat 64 (v.toNat % 2 ^ 32)) }
  | 0x028 => some { g with dstep := g.dstep.set 0 v }
  | 0x029 => some { g with dstep := g.dstep.set 1 v }
  | 0x02A => some { g with dstep := g.dstep.set 2 v }
  | 0x030 => some { g with pix := BitVec.ofNat 64 (bits v.toNat 63 62 * 2 ^ 62 + bits v.toNat 47 0) }
  | 0x031 => some (if v = 0 then { g with fem := 0 } else g)
  | 0x060 => some { g with seed := v }
  | 0x070 => some { g with loopcnt := v }
  | 0x071 => some { g with
      rrb := BitVec.ofNat 64 (v.toNat % 256)
      m := Vector.ofFn fun n : Fin 8 => if n.val < 4 then g.m[n] else
        if (bits v.toNat 7 4).testBit (n.val - 4) then BitVec.allOnes 32768 else 0 }
  | 0x101 => some { g with tvec := BitVec.ofNat 64 (bits v.toNat 56 6 * 64) }
  | 0x110 => some { g with trap1 := { g.trap1 with
      cause := BitVec.ofNat 64 (bits g.trap1.cause.toNat 15 14 * 2 ^ 14 + bits v.toNat 7 0) } }
  | 0x111 => some { g with trap1 := { g.trap1 with epc := v } }
  | 0x112 => some { g with trap1 := { g.trap1 with val := v } }
  | 0x113 => some { g with trap1 := { g.trap1 with lane := BitVec.ofNat 64 (v.toNat % 2 ^ 48) } }
  | 0x120 => some { g with trap2 := { g.trap2 with
      cause := BitVec.ofNat 64 (bits g.trap2.cause.toNat 15 14 * 2 ^ 14 + bits v.toNat 7 0) } }
  | 0x121 => some { g with trap2 := { g.trap2 with epc := v } }
  | 0x122 => some { g with trap2 := { g.trap2 with val := v } }
  | 0x123 => some { g with trap2 := { g.trap2 with lane := BitVec.ofNat 64 (v.toNat % 2 ^ 48) } }
  | _ => none

/-- A hart's registers apart from its program counter have nothing to do with its line: TVAL of ILLEGAL for a reason, from
the head and the first tail word at PC (R107). -/
def illegalWord (s : State) (why : Nat) : Word := (me s).illegalVal why

end Sys2Proof.Claims

/-- As the first instruction at TL 0 after a return, such a form is not the reissue, so FEM and PIX are cleared (R281). -/
def Sys2Proof.Claims.FirstInstructionClears : Prop :=
  ∀ (i : Instr) (s : State) (rd : Reg) (v : Word), (me s).fresh = true → (regs s).tl = 0 →
    aluOf (regs s) i = some (rd, v) →
    ∃ t, exec i s = .next t ∧ Ran s t { (regs s).setS rd v with fem := 0, pix := 0 } ∧ (t.hart s.cur).fresh = false

/-- TRAP and BRK (R182, R403, R404). -/
def Sys2Proof.Claims.SystemCallsTrap : Prop :=
  ∀ (i : Instr) (s : State) (cause epc val : Word), Drained s → Handled s → callOf s i = some (cause, epc, val) →
    ∃ t, exec i s = .next t ∧ Entered s t (regs s) cause epc val 0 ∧ (t.hart s.cur).queue = []

/-- TRET to a head (R183, R407). -/
def Sys2Proof.Claims.ReturnRestores : Prop :=
  ∀ (s : State), Drained s → (regs s).tl ≠ 0 → ((regs s).bank (regs s).tl.toNat).cause.getLsbD 15 = false →
    NamesHead ((regs s).bank (regs s).tl.toNat).epc →
    ∃ t, exec .tret s = .next t ∧ Went s t { regs s with
        tl := (regs s).tl - 1
        pix := if (regs s).tl = 1 ∧ (regs s).pix.getLsbD 63 = false then 0 else (regs s).pix }
      ((regs s).bank (regs s).tl.toNat).epc ∧
    ((t.hart s.cur).fresh = true ↔ (regs s).tl = 1)

/-- TRET with a batch pending (R407), at TL 0, and to what is no head (R183). -/
def Sys2Proof.Claims.ReturnWaitsOrTraps : Prop :=
  (∀ (s : State), Drained s → (regs s).tl ≠ 0 → ((regs s).bank (regs s).tl.toNat).cause.getLsbD 15 = true →
    ∃ t, exec .tret s = .next t ∧ Waits s t .pager) ∧
  (∀ (s : State), Drained s → (regs s).tl = 0 → (regs s).vector ≠ 0 →
    ∃ t, exec .tret s = .next t ∧ Entered s t (regs s) 0x01 (regs s).pc (illegalWord s 7) 0) ∧
  (∀ (s : State), Drained s → Handled s → (regs s).tl ≠ 0 →
    ((regs s).bank (regs s).tl.toNat).cause.getLsbD 15 = false → ¬ NamesHead ((regs s).bank (regs s).tl.toNat).epc →
    ∃ t, exec .tret s = .next t ∧
      Entered s t (regs s) 0x12 (regs s).pc ((regs s).bank (regs s).tl.toNat).epc 0)

/-- NOP and IDLE (R182, R185). -/
def Sys2Proof.Claims.NopAndIdle : Prop :=
  (∀ s, Later s → ∃ t, exec .nop s = .next t ∧ Ran s t (regs s)) ∧
  (∀ s, Drained s → (s.cancelPending = true ∨ s.curRank.idled = true) →
    ∃ t, exec .idle s = .next t ∧ Ran s t (regs s)) ∧
  (∀ s, Drained s → s.cancelPending = false → s.curRank.idled = false →
    ∃ t, exec .idle s = .next t ∧ Waits s t .idle)

/-- SETVL, SETRC, SETVT, SETDIM and GETSHAPE (R201-R205). -/
def Sys2Proof.Claims.ConfigurationResults : Prop :=
  ∀ (i : Instr) (s : State) (c : Prop) (g : Regs), Later s → configured s i = some (c, g) → c →
    ∃ t, exec i s = .next t ∧ Ran s t g

/-- MFSR (R186, R188). -/
def Sys2Proof.Claims.SystemRegisterReads : Prop :=
  ∀ (s : State) (rd : Reg) (n : BitVec 12) (r : SysReg), Drained s → (n.toNat, r) ∈ sysMap →
    r.readFrom ≤ (regs s).tl.toNat →
    ∃ t, exec (.mfsr rd n) s = .next t ∧ Ran s t ((regs s).setS rd (r.value (regs s) (s.core (s.cur / 8))))

/-- MTSR (R186, R188, R189). -/
def Sys2Proof.Claims.SystemRegisterWrites : Prop :=
  ∀ (s : State) (ra : Reg) (n : BitVec 12) (r : SysReg) (g : Regs), Drained s → (n.toNat, r) ∈ sysMap →
    r.writeFrom ≤ (regs s).tl.toNat → written (regs s) n.toNat ((regs s).getS ra) = some g →
    ∃ t, exec (.mtsr ra n) s = .next t ∧ Ran s t g

/-- Numbers that are no register, and levels that may not (R186, R188). -/
def Sys2Proof.Claims.SystemRegisterProtection : Prop :=
  (∀ (s : State) (r : Reg) (n : BitVec 12) (i : Instr), Drained s → Handled s → i = .mfsr r n ∨ i = .mtsr r n →
    (∀ x, (n.toNat, x) ∉ sysMap) →
    ∃ t, exec i s = .next t ∧ Entered s t (regs s) 0x01 (regs s).pc (illegalWord s 6) 0) ∧
  (∀ (s : State) (r : Reg) (n : BitVec 12) (x : SysReg), Drained s → Handled s → (n.toNat, x) ∈ sysMap →
    (regs s).tl.toNat < x.readFrom →
    ∃ t, exec (.mfsr r n) s = .next t ∧ Entered s t (regs s) 0x01 (regs s).pc (illegalWord s 7) 0) ∧
  (∀ (s : State) (r : Reg) (n : BitVec 12) (x : SysReg), Drained s → Handled s → (n.toNat, x) ∈ sysMap →
    (regs s).tl.toNat < x.writeFrom →
    ∃ t, exec (.mtsr r n) s = .next t ∧ Entered s t (regs s) 0x01 (regs s).pc (illegalWord s 7) 0)

namespace Sys2Proof.Claims

open Sys2Proof.Machine

/-! ## Scalar memory -/

/-- Whether an address of the running hart lies in a page that is mapped to device registers (R392; log 49). -/
def inRegisters (s : State) (va : Nat) : Bool :=
  s.regPages.any fun x => x.part == (me s).part && x.page == va / 2 ^ 16 * 2 ^ 16

/-- Where an access of the running hart is performed when nothing stops it and no page walk is needed: at an offset of
its core's scratchpad (R249), or at a local home through the entry that its core's TLB holds and grants (R276, R277), while
no page migrates (R285); the entry is not one under migration watch (MODE 3), whose access is also counted. -/
def placeOf (s : State) (va : Nat) (need : Need) : Option (Place × Option Entry) :=
  if inRegisters s va || !s.migrations.isEmpty || !(me s).probed.isEmpty then none
  else if inWindow va then some (.pad (va % 2 ^ 21), none)
  else if va < 2 ^ 57 then
    match (s.core (s.cur / 8)).tlb.find? (·.covers (me s).part va) with
    | some e =>
      if s.granted (me s).part .hart e need = true ∧ e.mode ≠ 3 ∧ e.pool ≠ 15 then some (e.place va, some e) else none
    | none => none
  else none

/-- The bytes the running hart reads at a place (R324, R49): of the scratchpad; of a home with the hart's own store
buffer and its node's shadow over it. -/
def seen (s : State) (va n : Nat) : Place → List Byte
  | .pad off => getBytes (s.core (s.cur / 8)).pad off n
  | .home key => s.shadowed va (sbOverlay (me s).sb none key (s.homeBytes key n))
  | .peer .. => []

/-- No byte that a load takes at a place is poisoned: neither of the home, where it is not hidden by a buffered store or the
node's shadow, nor of the shadow (R396). -/
def Clean (s : State) (va n : Nat) : Place → Prop
  | .pad off => hitRange (s.core (s.cur / 8)).padPoison off n = none
  | .home key => s.badRead va key n = []
  | .peer .. => True

/-- No earlier vector access of the hart, and no earlier store of it to a peer, is still to be performed (R175). -/
abbrev InOrder (s : State) : Prop :=
  (∀ x ∈ (me s).sb, x.vec = false ∧ x.peer = none) ∧ s.vecOut s.cur = false

/-- Bytes, signedness, destination and address of a load (R174). -/
def loadOf (g : Regs) : Instr → Option (Nat × Bool × Reg × Word)
  | .ldB rd ra imm => some (1, true, rd, g.getS ra + imm)
  | .ldH rd ra imm => some (2, true, rd, g.getS ra + imm)
  | .ldW rd ra imm => some (4, true, rd, g.getS ra + imm)
  | .ldD rd ra imm => some (8, true, rd, g.getS ra + imm)
  | .ldBu rd ra imm => some (1, false, rd, g.getS ra + imm)
  | .ldHu rd ra imm => some (2, false, rd, g.getS ra + imm)
  | .ldWu rd ra imm => some (4, false, rd, g.getS ra + imm)
  | _ => none

/-- A little-endian value extended to 64 bits (R3, R174). -/
def extended (n : Nat) (isSigned : Bool) (bs : List Byte) : Word :=
  if isSigned then (BitVec.ofNat (8 * n) (leNat bs)).signExtend 64 else (BitVec.ofNat (8 * n) (leNat bs)).setWidth 64

/-- Bytes, address and value of a store (R174). -/
def storeOf (g : Regs) : Instr → Option (Nat × Word × Word)
  | .stB rd ra imm => some (1, g.getS ra + imm, g.getS rd)
  | .stH rd ra imm => some (2, g.getS ra + imm, g.getS rd)
  | .stW rd ra imm => some (4, g.getS ra + imm, g.getS rd)
  | .stD rd ra imm => some (8, g.getS ra + imm, g.getS rd)
  | _ => none

/-- The new value of an AMO on w bits (R176). -/
def amoValue (op : Nat) {w : Nat} (old b : BitVec w) : BitVec w :=
  match op with
  | 0 => old + b
  | 1 => b
  | 2 => if old.toNat ≤ b.toNat then old else b
  | 3 => if old.toNat ≤ b.toNat then b else old
  | 4 => if old.toInt ≤ b.toInt then old else b
  | 5 => if old.toInt ≤ b.toInt then b else old
  | 6 => old &&& b
  | 7 => old ||| b
  | _ => old ^^^ b

/-- Bytes, destination and address of an AMO or CAS, and the new value as a function of the old one; a CAS whose comparison
fails writes none (R176, R177). -/
def atomicOf (g : Regs) : Instr → Option (Nat × Reg × Word × (Nat → Option Nat))
  | .amoAddD rd rb ra => some (8, rd, g.getS ra, fun o => (amoValue 0 (BitVec.ofNat 64 o) (g.getS rb)).toNat)
  | .amoXchgD rd rb ra => some (8, rd, g.getS ra, fun o => (amoValue 1 (BitVec.ofNat 64 o) (g.getS rb)).toNat)
  | .amoUminD rd rb ra => some (8, rd, g.getS ra, fun o => (amoValue 2 (BitVec.ofNat 64 o) (g.getS rb)).toNat)
  | .amoUmaxD rd rb ra => some (8, rd, g.getS ra, fun o => (amoValue 3 (BitVec.ofNat 64 o) (g.getS rb)).toNat)
  | .amoSminD rd rb ra => some (8, rd, g.getS ra, fun o => (amoValue 4 (BitVec.ofNat 64 o) (g.getS rb)).toNat)
  | .amoSmaxD rd rb ra => some (8, rd, g.getS ra, fun o => (amoValue 5 (BitVec.ofNat 64 o) (g.getS rb)).toNat)
  | .amoAndD rd rb ra => some (8, rd, g.getS ra, fun o => (amoValue 6 (BitVec.ofNat 64 o) (g.getS rb)).toNat)
  | .amoOrD rd rb ra => some (8, rd, g.getS ra, fun o => (amoValue 7 (BitVec.ofNat 64 o) (g.getS rb)).toNat)
  | .amoXorD rd rb ra => some (8, rd, g.getS ra, fun o => (amoValue 8 (BitVec.ofNat 64 o) (g.getS rb)).toNat)
  | .amoAddW rd rb ra => some (4, rd, g.getS ra, fun o => (amoValue 0 (BitVec.ofNat 32 o) ((g.getS rb).setWidth 32)).toNat)
  | .amoXchgW rd rb ra => some (4, rd, g.getS ra, fun o => (amoValue 1 (BitVec.ofNat 32 o) ((g.getS rb).setWidth 32)).toNat)
  | .amoUminW rd rb ra => some (4, rd, g.getS ra, fun o => (amoValue 2 (BitVec.ofNat 32 o) ((g.getS rb).setWidth 32)).toNat)
  | .amoUmaxW rd rb ra => some (4, rd, g.getS ra, fun o => (amoValue 3 (BitVec.ofNat 32 o) ((g.getS rb).setWidth 32)).toNat)
  | .amoSminW rd rb ra => some (4, rd, g.getS ra, fun o => (amoValue 4 (BitVec.ofNat 32 o) ((g.getS rb).setWidth 32)).toNat)
  | .amoSmaxW rd rb ra => some (4, rd, g.getS ra, fun o => (amoValue 5 (BitVec.ofNat 32 o) ((g.getS rb).setWidth 32)).toNat)
  | .amoAndW rd rb ra => some (4, rd, g.getS ra, fun o => (amoValue 6 (BitVec.ofNat 32 o) ((g.getS rb).setWidth 32)).toNat)
  | .amoOrW rd rb ra => some (4, rd, g.getS ra, fun o => (amoValue 7 (BitVec.ofNat 32 o) ((g.getS rb).setWidth 32)).toNat)
  | .amoXorW rd rb ra => some (4, rd, g.getS ra, fun o => (amoValue 8 (BitVec.ofNat 32 o) ((g.getS rb).setWidth 32)).toNat)
  | .casD rd rb rc ra => some (8, rd, g.getS ra, fun o => if o = (g.getS rb).toNat then some (g.getS rc).toNat else none)
  | .casW rd rb rc ra => some (4, rd, g.getS ra, fun o =>
      if o = (g.getS rb).toNat % 2 ^ 32 then some ((g.getS rc).toNat % 2 ^ 32) else none)
  | _ => none

/-- Bytes and address of a scalar memory access, the rights it needs and the cause of its TRANSLATION trap (R173). -/
def accessOf (g : Regs) (i : Instr) : Option (Nat × Word × Need × Word) :=
  match loadOf g i, storeOf g i, atomicOf g i with
  | some (n, _, _, a), _, _ => some (n, a, needR, 0x0E)
  | none, some (n, a, _), _ => some (n, a, needW, 0x0F)
  | none, none, some (n, _, a, _) => some (n, a, needRW, 0x0F)
  | none, none, none => none

/-- Every byte memory is in its canonical form. -/
structure Canonical (s : State) : Prop where
  mem : Memory.wf s.mem = true
  tbl : Memory.wf s.tbl = true
  host : Memory.wf s.host = true
  pads : ∀ c, Memory.wf (s.core c).pad = true

/-- The running hart has completed with the registers `g` but for the program counter, and bytes `bs` stand at an offset
of its core's scratchpad; every other byte of memory and every other hart is unchanged. -/
structure RanPad (s t : State) (g : Regs) (off : Nat) (bs : List Byte) : Prop where
  registers : (t.hart s.cur).regs = { g with pc := (me s).successor }
  runnable : (t.hart s.cur).blocked = none
  node : (t.hart s.cur).node = (me s).node
  stores : (t.hart s.cur).sb = (me s).sb
  others : ∀ h, h ≠ s.cur → t.hart h = s.hart h
  mem : ∀ a, byteAt t.mem a = byteAt s.mem a
  tbl : ∀ a, byteAt t.tbl a = byteAt s.tbl a
  host : ∀ a, byteAt t.host a = byteAt s.host a
  pads : ∀ c a, byteAt (t.core c).pad a =
    if c = s.cur / 8 ∧ off ≤ a ∧ a < off + bs.length then bs.getD (a - off) 0 else byteAt (s.core c).pad a

/-- As RanPad, with the bytes at a key of device memory. -/
structure RanMem (s t : State) (g : Regs) (key : Nat) (bs : List Byte) : Prop where
  registers : (t.hart s.cur).regs = { g with pc := (me s).successor }
  runnable : (t.hart s.cur).blocked = none
  node : (t.hart s.cur).node = (me s).node
  stores : (t.hart s.cur).sb = (me s).sb
  others : ∀ h, h ≠ s.cur → t.hart h = s.hart h
  mem : ∀ a, byteAt t.mem a = if key ≤ a ∧ a < key + bs.length then bs.getD (a - key) 0 else byteAt s.mem a
  tbl : ∀ a, byteAt t.tbl a = byteAt s.tbl a
  host : ∀ a, byteAt t.host a = byteAt s.host a
  pads : ∀ c a, byteAt (t.core c).pad a = byteAt (s.core c).pad a

/-- The running hart has completed with the registers `g` but for the program counter and has one more store-buffer
entry; every byte of memory is unchanged until the entry is performed. -/
structure RanBuffered (s t : State) (g : Regs) (e : StoreEntry) : Prop where
  registers : (t.hart s.cur).regs = { g with pc := (me s).successor }
  runnable : (t.hart s.cur).blocked = none
  node : (t.hart s.cur).node = (me s).node
  stores : (t.hart s.cur).sb = (me s).sb ++ [e]
  others : ∀ h, h ≠ s.cur → t.hart h = s.hart h
  bytes : SameBytes s t

end Sys2Proof.Claims

/-- For each of the seven loads, an aligned address in the scratchpad window or in a page (not one of device registers)
that the core's TLB holds, grants for reading, does not watch for migration and does not place on a peer, with no
migration under way, no earlier vector access or peer store of the hart outstanding, and no poisoned byte among
those taken: exec answers a next state in which s[d] holds the little-endian value with its extension; the bytes are
those of the place with the hart's own buffered stores and its node's shadow over them; no other register, hart or
byte of memory changes. (R173, R174, R175, R276, R277, R249, R324, R49, R396, R3) -/
def Obligations.LoadsRead : Prop :=
  ∀ (i : Instr) (s : State) (n : Nat) (sg : Bool) (rd : Reg) (a : Word) (pl : Place) (e : Option Entry), Later s →
    InOrder s → loadOf (regs s) i = some (n, sg, rd, a) → a.toNat % n = 0 → placeOf s a.toNat needR = some (pl, e) →
    Clean s a.toNat n pl →
    ∃ t, exec i s = .next t ∧ Ran s t ((regs s).setS rd (extended n sg (seen s a.toNat n pl)))

/-- Stores to the scratchpad (R174, R249). -/
def Sys2Proof.Claims.StoresToScratchpad : Prop :=
  ∀ (i : Instr) (s : State) (n : Nat) (a v : Word), Drained s → InOrder s → Canonical s →
    storeOf (regs s) i = some (n, a, v) → a.toNat % n = 0 → inWindow a.toNat = true → inRegisters s a.toNat = false →
    ∃ t, exec i s = .next t ∧ RanPad s t (regs s) (a.toNat % 2 ^ 21) (leBytes n v.toNat)

/-- Stores to a local home (R174, R323). -/
def Sys2Proof.Claims.StoresAreBuffered : Prop :=
  ∀ (i : Instr) (s : State) (n key : Nat) (a v : Word) (e : Option Entry), Drained s → InOrder s →
    storeOf (regs s) i = some (n, a, v) → a.toNat % n = 0 → placeOf s a.toNat needW = some (.home key, e) →
    s.curSpeculative = false →
    ∃ t tags, exec i s = .next t ∧
      RanBuffered s t (regs s) ⟨none, [⟨a.toNat, key, leBytes n v.toNat⟩], tags, false, true, false, false⟩

/-- For each of the eighteen AMOs and two CASes, with the vector queue empty, nothing earlier of the hart outstanding
(R175), an aligned address in the scratchpad window or in a page that is granted for reading and writing, unpoisoned
bytes, no buffered store of the hart over them, and a hart that is not speculative: s[d] holds the old value
sign-extended, and the n bytes hold the new one; a CAS whose comparison fails writes no memory; no other byte of
memory changes. That it issues and drains in one step is the model's choice (log 9). (R173, R175, R176, R177, R324) -/
def Obligations.AtomicsUpdate : Prop :=
  ∀ (i : Instr) (s : State) (n : Nat) (rd : Reg) (a : Word) (f : Nat → Option Nat) (pl : Place) (e : Option Entry), Drained s →
    InOrder s → Canonical s → atomicOf (regs s) i = some (n, rd, a, f) → a.toNat % n = 0 → placeOf s a.toNat needRW = some (pl, e) →
    Clean s a.toNat n pl → s.curSpeculative = false →
    (∀ key, pl = .home key → ∀ x ∈ (me s).sb, x.meets none key n = false) →
    ∃ t, exec i s = .next t ∧ (match pl, f (leNat (seen s a.toNat n pl)) with
      | .pad off, some v => RanPad s t ((regs s).setS rd (extended n true (seen s a.toNat n pl))) off (leBytes n v)
      | .home key, some v => RanMem s t ((regs s).setS rd (extended n true (seen s a.toNat n pl))) key (leBytes n v)
      | _, none => Ran s t ((regs s).setS rd (extended n true (seen s a.toNat n pl)))
      | .peer .., _ => False)

/-- For every load, store, AMO and CAS with a handler, the vector queue empty, outside pages of device registers: a
misaligned address traps ALIGNMENT; an aligned one outside the scratchpad window whose page the TLB holds without
the right needed traps PERMISSION; one with bits 63:57 not all zero traps TRANSLATION, of a load or of a store or
atomic, with PEND set. TVAL is the address, TEPC the instruction, and nothing else of the registers, other harts,
memory or store buffer changes. (R173, R271, R276, R403, R404) -/
def Obligations.AccessesTrap : Prop :=
  ∀ (i : Instr) (s : State) (n : Nat) (a : Word) (need : Need) (cause : Word), Drained s → Handled s →
    inRegisters s a.toNat = false → (me s).probed = [] → accessOf (regs s) i = some (n, a, need, cause) →
    (a.toNat % n ≠ 0 → ∃ t, exec i s = .next t ∧ Entered s t (regs s) 0x12 (regs s).pc a 0) ∧
    (a.toNat % n = 0 → inWindow a.toNat = false →
      (∀ e, a.toNat < 2 ^ 57 → (s.core (s.cur / 8)).tlb.find? (·.covers (me s).part a.toNat) = some e →
        s.granted (me s).part .hart e need = false →
        ∃ t, exec i s = .next t ∧ Entered s t (regs s) 0x11 (regs s).pc a 0) ∧
      (2 ^ 57 ≤ a.toNat →
        ∃ t, exec i s = .next t ∧ Entered s t (regs s) (0x8000 + cause) (regs s).pc a 0))

/-- At TL 1 or 2, with the vector queue empty and no buffered store, transfer, engine command, outstanding packet of the
partition translated by what is named, or page that another hart still uses: after TLBI.all no first- or
second-level TLB holds an entry of the hart's partition; after TLBI.va none holds one that covers the address, and
no cached copy read under a page of that address remains, a large page included; PC advances, and the hart's other
registers are as before. (R187, R276, R277) -/
def Obligations.TlbInvalidates : Prop :=
  ∀ (i : Instr) (s : State) (va : Option Nat), Drained s →
    (i = .tlbiAll ∧ va = none ∨ ∃ ra, i = .tlbiVa ra ∧ va = some ((regs s).getS ra).toNat) → (regs s).tl ≠ 0 →
    (∀ h, (s.hart h).sb = []) → (∀ c ∈ s.cores, ∀ n : Fin 4, c.2.channels[n].queue = []) → s.commands = [] →
    s.packetsOut (me s).part va = false → (∀ h, h ≠ s.cur → (s.hart h).translations = []) →
    ∃ t, exec i s = .next t ∧ (t.hart s.cur).regs = { regs s with pc := (me s).successor } ∧
      (∀ a, va = some a → ∀ c ∈ t.copies, ∀ g ∈ c.pages, g.covers (me s).part a = false) ∧
      (∀ c ∈ t.cores, ∀ e ∈ c.2.tlb, (match va with | some a => e.covers (me s).part a | none => e.part == (me s).part) = false) ∧
      (∀ x ∈ t.l2, ∀ e ∈ x.2, (match va with | some a => e.covers (me s).part a | none => e.part == (me s).part) = false)

namespace Sys2Proof.Claims

open Sys2Proof.Machine

/-! ## Tiles -/

/-- The running hart is past the first instruction after a return, and its queue has room (R109). -/
abbrev Room (s : State) : Prop := Later s ∧ (me s).queue.length < 64

/-- The running hart has completed a vector instruction and queued it behind the others with the flags that it will merge
into FFLAGS when it retires (R109, R116); its registers are `g`, and PC is the fall-through successor; every other hart and
every byte of memory is unchanged. -/
structure Issued (s t : State) (g : Regs) (flags : Nat) : Prop where
  registers : (t.hart s.cur).regs = { g with pc := (me s).successor }
  queued : ∃ e, (t.hart s.cur).queue = (me s).queue ++ [e] ∧ e.pc = (regs s).pc ∧ e.flags = BitVec.ofNat 7 flags ∧
    e.later = 0 ∧ e.written = false
  runnable : (t.hart s.cur).blocked = none
  node : (t.hart s.cur).node = (me s).node
  stores : (t.hart s.cur).sb = (me s).sb
  others : ∀ h, h ≠ s.cur → t.hart h = s.hart h
  bytes : SameBytes s t

/-- No core has changed but for its counters (R316). -/
abbrev SameCores (s t : State) : Prop := ∀ c, t.core c = { s.core c with counters := (t.core c).counters }

/-- VTYPE is valid (R108). -/
abbrev Typed (s : State) : Prop := (regs s).vtype.toNat < 2 ^ 63

/-- The granule pool can hold the writes (R79). -/
abbrev Fits (s : State) (ws : List TileWrite) (sources : List Nat) : Prop :=
  ((regs s).storageNeed ws sources).1 ≤ ((regs s).storageNeed ws sources).2

/-- No condition raised is enabled in ATC (R134). -/
abbrev Quiet (s : State) (flags : Nat) : Prop := flags &&& (regs s).atc.toNat % 128 = 0

/-- Logical elements swept: RC x VL (R73). -/
def swept (s : State) : Nat := (regs s).rc.toNat * (regs s).vl.toNat

/-- VTYPE's format, its element width and its grouping (R198). -/
abbrev gFmt (g : Regs) : Nat := bits g.vtype.toNat 3 0
abbrev gWidth (g : Regs) : Nat := fmtWidth (bits g.vtype.toNat 3 0)
abbrev gGroup (g : Regs) : Nat := 2 ^ bits g.vtype.toNat 5 4

/-- An element-wise form: whether its format, modifier and group alignment are legal and its operands plain, its mask,
destination and sources, its result format, and value and flags of element k from its source elements. -/
structure Lane where
  legal : Bool
  mask : Reg3
  fd : Reg
  xs : List Reg
  out : Nat
  value : Nat → Nat → Nat → Nat → Nat × Nat

/-- The signed value of the low w bits. -/
def sval (w v : Nat) : Int := (BitVec.ofNat w v).toInt

/-- The w low bits of an integer. -/
def low (w : Nat) (z : Int) : Nat := (z % (2 : Int) ^ w).toNat

/-- Integer division element by element (R136). -/
def divLane (w a b : Nat) (rem : Bool) : Nat × Nat :=
  if b = 0 then (if rem then a else 2 ^ w - 1, 0x20)
  else if a = 2 ^ (w - 1) ∧ b = 2 ^ w - 1 then (if rem then 0 else a, 0x40)
  else (low w (if rem then (sval w a).tmod (sval w b) else (sval w a).tdiv (sval w b)), 0)

/-- The element-wise forms of majors 0x28 and 0x29 and the special functions of major 0x2C (R208-R211, R217). The
floating operations round by the instruction's modifier or FRM (R207); the special functions are any value within their
bound (R217; log 13). -/
def laneOf (g : Regs) : Instr → Option Lane
  | .vadd fd fa fb mask rm _ => some (two fd fa fb mask rm int_float
      (fun a b => low w (a + b)) (fun md a b => addF f md a b) (!fun2 fa fb))
  | .vsub fd fa fb mask rm _ => some (two fd fa fb mask rm int_float
      (fun a b => low w (a - b)) (fun md a b => subF f md a b) (!fun2 fa fb))
  | .vmul fd fa fb mask rm => some (two fd fa fb mask rm int_float
      (fun a b => low w (a * b)) (fun md a b => mulF f md a b) (!isFun (g.getF fa.toNat).tag))
  | .vdiv fd fa fb mask rm => some ⟨int_float && modifier rm && aligned grp [fd, fa, fb], mask, fd, [fa, fb], f,
      fun _ a b _ => if isI f then divLane w a b false else divF f (g.mode rm) (val rm a) (val rm b)⟩
  | .vrem fd fa fb mask => some ⟨isI f && aligned grp [fd, fa, fb], mask, fd, [fa, fb], f, fun _ a b _ => divLane w a b true⟩
  | .vmin fd fa fb mask nan => some ⟨int_float && (!nan || isF f) && aligned grp [fd, fa, fb], mask, fd, [fa, fb], f,
      fun _ a b _ => if isI f then (if sval w a ≤ sval w b then a else b, 0) else minmaxF f fz false nan a b⟩
  | .vmax fd fa fb mask nan => some ⟨int_float && (!nan || isF f) && aligned grp [fd, fa, fb], mask, fd, [fa, fb], f,
      fun _ a b _ => if isI f then (if sval w a ≤ sval w b then b else a, 0) else minmaxF f fz true nan a b⟩
  | .vand fd fa fb mask => some (ints fd fa fb mask fun a b => (a &&& b).toNat)
  | .vor fd fa fb mask => some (ints fd fa fb mask fun a b => (a ||| b).toNat)
  | .vxor fd fa fb mask => some (ints fd fa fb mask fun a b => (a ^^^ b).toNat)
  | .vsll fd fa fb mask => some (ints fd fa fb mask fun a b => (a <<< (b.toNat % w)).toNat)
  | .vsrl fd fa fb mask => some (ints fd fa fb mask fun a b => (a >>> (b.toNat % w)).toNat)
  | .vsra fd fa fb mask => some (ints fd fa fb mask fun a b => (a.sshiftRight (b.toNat % w)).toNat)
  | .vabs fd fa mask => some ⟨int_float && aligned grp [fd, fa], mask, fd, [fa], f, fun _ a _ _ =>
      if isI f then (low w (sval w a).natAbs, 0) else withSign f fz false a⟩
  | .vneg fd fa mask => some ⟨!isFun (g.getF fa.toNat).tag && int_float && aligned grp [fd, fa], mask, fd, [fa], f,
      fun _ a _ _ => if isI f then (low w (-(a : Int)), 0) else withSign f fz (!a.testBit (w - 1)) a⟩
  | .vsqrt fd fa mask rm => some ⟨isF f && aligned grp [fd, fa], mask, fd, [fa], f, fun _ a _ _ =>
      sqrtF f (g.mode rm) (val rm a)⟩
  | .vmadd fd fa fb fc mask rm => some (three fd fa fb fc mask rm (fun a b x => a * b + x)
      fun md a b x => fmaF f md a b x)
  | .vmsub fd fa fb fc mask rm => some (three fd fa fb fc mask rm (fun a b x => a * b - x)
      fun md a b x => fmaF f md a b x.negate)
  | .vnmadd fd fa fb fc mask rm => some (three fd fa fb fc mask rm (fun a b x => x - a * b)
      fun md a b x => fmaF f md a.negate b x)
  | .vsgnj fd fa fb mask => some ⟨isF f && aligned grp [fd, fa, fb], mask, fd, [fa, fb], f,
      fun _ a b _ => withSign f fz (b.testBit (w - 1)) a⟩
  | .vmv fd fa mask => some ⟨!isFun (g.getF fa.toNat).tag && aligned grp [fd, fa], mask, fd, [fa], f,
      fun _ a _ _ => (a, 0)⟩
  | .vsel fd fa fb mc mask => some ⟨isA f && aligned grp [fd, fa, fb], mask, fd, [fa, fb], f,
      fun k a b _ => (if (g.getM mc).getLsbD k then a else b, 0)⟩
  | .vclass fd fa mask => some ⟨isF f && aligned grp [fd, fa], mask, fd, [fa], intFmt w, fun _ a _ _ => (classWord f a, 0)⟩
  | .vexp2 fd fa mask => some (special 0 fd fa mask)
  | .vlog2 fd fa mask => some (special 1 fd fa mask)
  | .vsinpi fd fa mask => some (special 2 fd fa mask)
  | .vcospi fd fa mask => some (special 3 fd fa mask)
  | .vtanh fd fa mask => some (special 4 fd fa mask)
  | .vrcp fd fa mask => some (special 5 fd fa mask)
  | .vrsqrt fd fa mask => some (special 6 fd fa mask)
  | _ => none
where
  f : Nat := gFmt g
  w : Nat := gWidth g
  grp : Nat := gGroup g
  fz : Bool := g.frm.getLsbD 8
  int_float : Bool := isI (gFmt g) || isF (gFmt g)
  modifier (rm : Reg3) : Bool := rm == 0 || isF (gFmt g)
  fun2 (fa fb : Reg) : Bool := isFun (g.getF fa.toNat).tag || isFun (g.getF fb.toNat).tag
  val (rm : Reg3) (a : Nat) : Val := readF (g.mode rm).fz (gFmt g) a
  two (fd fa fb : Reg) (mask rm : Reg3) (cls : Bool) (i : Int → Int → Nat) (x : Mode → Val → Val → Nat × Nat)
      (plain : Bool) : Lane :=
    ⟨plain && cls && modifier rm && aligned grp [fd, fa, fb], mask, fd, [fa, fb], f, fun _ a b _ =>
      if isI f then (i a b, 0) else x (g.mode rm) (val rm a) (val rm b)⟩
  three (fd fa fb fc : Reg) (mask rm : Reg3) (i : Int → Int → Int → Int) (x : Mode → Val → Val → Val → Nat × Nat) : Lane :=
    ⟨int_float && modifier rm && aligned grp [fd, fa, fb, fc], mask, fd, [fa, fb, fc], f, fun _ a b c =>
      if isI f then (low w (i a b c), 0) else x (g.mode rm) (val rm a) (val rm b) (val rm c)⟩
  ints (fd fa fb : Reg) (mask : Reg3) (i : BitVec (gWidth g) → BitVec (gWidth g) → Nat) : Lane :=
    ⟨isI f && aligned grp [fd, fa, fb], mask, fd, [fa, fb], f, fun _ a b _ => (i (BitVec.ofNat _ a) (BitVec.ofNat _ b), 0)⟩
  special (op : Nat) (fd fa : Reg) (mask : Reg3) : Lane :=
    ⟨isF f && aligned grp [fd, fa], mask, fd, [fa], f, fun _ a _ _ => specialPat op f fz a⟩

/-- Result and flags of every element in logical order (R190): an inactive one keeps the old value. -/
def laneResults (g : Regs) (l : Lane) : List (Nat × Nat) :=
  let c := g.capture l.mask
  let source := fun (i k : Nat) => match l.xs[i]? with
    | some x => (c.tile x.toNat).getD k 0
    | none => 0
  (List.range (c.tile l.fd.toNat).length).map fun k =>
    if (g.getM l.mask).getLsbD k then l.value k (source 0 k) (source 1 k) (source 2 k)
    else ((c.tile l.fd.toNat).getD k 0, 0)

/-- The register writes of results to a group, and its physical sources (R192, R194). -/
def laneWrites (g : Regs) (l : Lane) : List TileWrite :=
  let c := g.capture l.mask
  if c.count = 0 then [] else
  g.groupWrites l.fd.toNat c.grp l.out (rowsOf c.vl c.rc ((laneResults g l).map (·.1))) c.vl

/-- Flags of some results together. -/
def allFlags (rs : List (Nat × Nat)) : Nat := rs.foldl (fun a r => a ||| r.2) 0

/-- Destination, sources, mask and the bit and flags of an element pair of a compare (R215). -/
def compareOf (g : Regs) : Instr → Option (Reg3 × Reg × Reg × Reg3 × Bool × (Nat → Nat → Bool × Nat))
  | .vcmpEq md fa fb mask => some (md, fa, fb, mask, both, fun a b =>
      if isI f then (a == b, 0) else floatCmp f fz false false (· == 0) a b)
  | .vcmpNe md fa fb mask => some (md, fa, fb, mask, both, fun a b =>
      if isI f then (a != b, 0) else floatCmp f fz true false (· != 0) a b)
  | .vcmpLt md fa fb mask => some (md, fa, fb, mask, both, fun a b =>
      if isI f then (decide (sval w a < sval w b), 0) else floatCmp f fz false true (fun z => decide (z < 0)) a b)
  | .vcmpLe md fa fb mask => some (md, fa, fb, mask, both, fun a b =>
      if isI f then (decide (sval w a ≤ sval w b), 0) else floatCmp f fz false true (fun z => decide (z ≤ 0)) a b)
  | .vcmpLtu md fa fb mask => some (md, fa, fb, mask, isI f, fun a b => (decide (a < b), 0))
  | .vcmpLeu md fa fb mask => some (md, fa, fb, mask, isI f, fun a b => (decide (a ≤ b), 0))
  | .vcmpUnord md fa fb mask => some (md, fa, fb, mask, both, fun a b =>
      if isI f then (false, 0) else floatCmp f fz true false (fun _ => false) a b)
  | _ => none
where
  f : Nat := gFmt g
  w : Nat := gWidth g
  fz : Bool := g.frm.getLsbD 8
  both : Bool := isI (gFmt g) || isF (gFmt g)

/-- Bit k of a mask result: at an element swept, the new bit where the governing mask has 1, else the old; 0 above (R191,
R216). -/
def maskResult (old governing : Mask) (n : Nat) (new : Nat → Bool) : Mask :=
  BitVec.ofNat 32768 ((List.range n).foldr
    (fun k a => 2 * a + if (if governing.getLsbD k then new k else old.getLsbD k) then 1 else 0) 0)

/-- The mask registers after a write of m[d]; m0 stays (R75). -/
def withMask (g : Regs) (md : Reg3) (v : Mask) : Regs :=
  if md = 0 then g else { g with m := g.m.set md.toNat v md.isLt }

/-- Destination, sources, mask and the bit of a mask form (R216). -/
def maskOpOf : Instr → Option (Reg3 × Reg3 × Reg3 × Reg3 × (Bool → Bool → Bool))
  | .vmand md ma mb mask => some (md, ma, mb, mask, fun a b => a && b)
  | .vmor md ma mb mask => some (md, ma, mb, mask, fun a b => a || b)
  | .vmxor md ma mb mask => some (md, ma, mb, mask, fun a b => a != b)
  | .vmandn md ma mb mask => some (md, ma, mb, mask, fun a b => a && !b)
  | _ => none

/-- A form that moves elements (R223, R225): whether it is legal, its mask, destination and sources, and the value of the
active element k. -/
def moveOf (g : Regs) : Instr → Option (Bool × Reg3 × Reg × List Reg × (Nat → Nat))
  | .vperm fd fa fb mask => some (isA f && aligned grp [fd, fa, fb], mask, fd, [fa, fb], fun k =>
      if elem fb k < vl then elem fa (k / vl * vl + elem fb k) else 0)
  | .vslide fd fa rb mask => some (isA f && aligned grp [fd, fa], mask, fd, [fa], fun k =>
      let i : Int := (k % vl : Nat) - (g.getS rb).toInt
      if 0 ≤ i ∧ i < vl then elem fa (k / vl * vl + i.toNat) else 0)
  | .vexpand fd fa mask => some (isA f && aligned grp [fd, fa], mask, fd, [fa], fun k =>
      elem fa (((List.range k).filter fun j => (g.getM mask).getLsbD j).length))
  | .vbcast fd ra mask => some (isA f && aligned grp [fd], mask, fd, [], fun _ => (g.getS ra).toNat % 2 ^ w)
  | .vtrans fd fa mask => some (isA f && g.vl == g.rc && aligned grp [fd, fa], mask, fd, [fa], fun k =>
      elem fa (k % vl * vl + k / vl))
  | .viota fd ma mask => some (isI f && aligned grp [fd], mask, fd, [], fun k =>
      ((List.range k).filter fun j => (g.getM ma).getLsbD j).length % 2 ^ w)
  | _ => none
where
  f : Nat := gFmt g
  w : Nat := gWidth g
  grp : Nat := gGroup g
  vl : Nat := g.vl.toNat
  elem (r : Reg) (k : Nat) : Nat := (g.tile r.toNat grp w g.rc.toNat g.vl.toNat).getD k 0

/-- A moving form as an element-wise one, without flags. -/
def moveLane (g : Regs) (i : Instr) : Option Lane :=
  (moveOf g i).map fun x => ⟨x.1, x.2.1, x.2.2.1, x.2.2.2.1, gFmt g, fun k _ _ _ => (x.2.2.2.2 k, 0)⟩

/-- The register groups a lane form reads, as physical registers. -/
def laneSources (g : Regs) (l : Lane) : List Nat :=
  l.xs.flatMap fun x => (List.range (gGroup g)).map fun r => g.phys (x.toNat + r)

end Sys2Proof.Claims

/-- The element-wise forms (R208-R211, R217). -/
def Sys2Proof.Claims.ElementwiseResults : Prop :=
  ∀ (i : Instr) (s : State) (l : Lane), Room s → Typed s → laneOf (regs s) i = some l → l.legal = true →
    Fits s (laneWrites (regs s) l) (laneSources (regs s) l) → Quiet s (allFlags (laneResults (regs s) l)) →
    ∃ t, exec i s = .next t ∧
      Issued s t ((regs s).putTiles (laneWrites (regs s) l)) (allFlags (laneResults (regs s) l)) ∧ SameCores s t

/-- The forms that move elements (R223, R225). -/
def Sys2Proof.Claims.ElementMovesResults : Prop :=
  ∀ (i : Instr) (s : State) (l : Lane), Room s → Typed s → moveLane (regs s) i = some l → l.legal = true →
    Fits s (laneWrites (regs s) l) (laneSources (regs s) l) →
    ∃ t, exec i s = .next t ∧ Issued s t ((regs s).putTiles (laneWrites (regs s) l)) 0 ∧ SameCores s t

/-- VCMP (R215). -/
def Sys2Proof.Claims.CompareResults : Prop :=
  ∀ (i : Instr) (s : State) (md mask : Reg3) (fa fb : Reg) (cmp : Nat → Nat → Bool × Nat), Room s →
    Typed s → compareOf (regs s) i = some (md, fa, fb, mask, true, cmp) →
    aligned (vtGroup (regs s).vtype) [fa, fb] = true →
    let c := (regs s).capture mask
    let n := (c.tile fa.toNat).length
    let r := fun k => cmp ((c.tile fa.toNat).getD k 0) ((c.tile fb.toNat).getD k 0)
    let flags := allFlags (((List.range n).filter fun k => c.mask.getLsbD k).map fun k => (0, (r k).2))
    Quiet s flags →
    ∃ t, exec i s = .next t ∧
      Issued s t (if swept s = 0 then regs s
        else withMask (regs s) md (maskResult ((regs s).m.get md.toFin) c.mask n fun k => (r k).1)) flags

/-- The mask forms (R216). -/
def Sys2Proof.Claims.MaskResults : Prop :=
  (∀ (i : Instr) (s : State) (md ma mb mask : Reg3) (op : Bool → Bool → Bool), Room s → Typed s →
    maskOpOf i = some (md, ma, mb, mask, op) →
    ∃ t, exec i s = .next t ∧
      Issued s t (if swept s = 0 then regs s
        else withMask (regs s) md (maskResult ((regs s).m.get md.toFin) ((regs s).getM mask) (swept s) fun k =>
          op (((regs s).getM ma).getLsbD k) (((regs s).getM mb).getLsbD k))) 0) ∧
  (∀ (s : State) (rd : Reg) (ma mask : Reg3), Room s → Typed s →
    ∃ t, exec (.vmpop rd ma mask) s = .next t ∧
      Issued s t ((regs s).setS rd (BitVec.ofNat 64 (((List.range (swept s)).filter fun k =>
        ((regs s).getM mask).getLsbD k && ((regs s).getM ma).getLsbD k).length))) 0)

namespace Sys2Proof.Claims

open Sys2Proof.Machine

/-! ## Widening, conversion, reductions, compression and functions -/

/-- A form that writes tiles: whether it is legal, its register writes, the physical registers it reads, its flags, and
VL after it where it sets VL (R224). -/
structure TileForm where
  legal : Bool
  writes : List TileWrite
  sources : List Nat
  flags : Nat
  vl : Option Word

/-- The physical registers of the group of n at a field (R118, R192). -/
def groupAt (g : Regs) (x : Reg) (n : Nat) : List Nat := (List.range n).map fun r => g.phys (x.toNat + r)

/-- The wide format of VWMAC: INT8 and INT16 widen to INT32, INT32 to INT64, FP16 and BF16 to FP32, FP32 to FP64 (R213). -/
def wideOf : List (Nat × Nat) := [(0, 2), (1, 2), (2, 3), (6, 8), (7, 8), (8, 9)]

/-- VWMAC (R213). -/
def widening (g : Regs) (fd fa fb fc : Reg) (mask rm : Reg3) : Option TileForm :=
  match wideOf.find? fun p => p.1 == gFmt g with
  | none => none
  | some (_, wf) =>
    let c := g.capture mask
    let ww := fmtWidth wf
    let gd := gGroup g * (ww / gWidth g)
    let a := c.tile fa.toNat
    let b := c.tile fb.toNat
    let old := g.tile fd.toNat gd ww c.rc c.vl
    let add := g.tile fc.toNat gd ww c.rc c.vl
    let md := g.mode rm
    let rs := (List.range a.length).map fun k =>
      let (x, y, z) := (a.getD k 0, b.getD k 0, add.getD k 0)
      if c.mask.getLsbD k then
        (if isI (gFmt g) then (low ww (sval (gWidth g) x * sval (gWidth g) y + sval ww z), 0)
        else fmaF wf md (readF md.fz (gFmt g) x) (readF md.fz (gFmt g) y) (readF md.fz wf z))
      else (old.getD k 0, 0)
    some ⟨decide (gd ≤ 8) && (rm == 0 || isF (gFmt g)) && aligned (gGroup g) [fa, fb] && aligned gd [fd, fc] &&
        !groupsMeet fd.toNat gd fa.toNat (gGroup g) && !groupsMeet fd.toNat gd fb.toNat (gGroup g),
      if c.count = 0 then [] else g.groupWrites fd.toNat gd wf (rowsOf c.vl c.rc (rs.map (·.1))) c.vl,
      groupAt g fa (gGroup g) ++ groupAt g fb (gGroup g) ++ groupAt g fc gd, allFlags rs, none⟩

/-- Formats, group size, narrowing and legality of VCVT (R214): whether stochastic rounding applies, and whether the
modifier and the groups are legal. -/
def cvtNarrows (g : Regs) (dst : Nat) : Bool :=
  (isFloat dst && decide (fmtWidth dst < gWidth g)) || dst == 0xA
def cvtGroup (g : Regs) (dst : Nat) : Nat := max 1 (gGroup g * fmtWidth dst / gWidth g)
def cvtLegal (g : Regs) (dst : Nat) (fd fa : Reg) (rm : Reg3) : Bool :=
  decide (cvtGroup g dst ≤ 8) && (rm != 6 || cvtNarrows g dst) && aligned (gGroup g) [fa] &&
    aligned (cvtGroup g dst) [fd]

/-- VCVT to a format other than O4 (R126, R127, R214). -/
def conversion (g : Regs) (dst : Nat) (fd fa : Reg) (mask rm : Reg3) : TileForm :=
  let c := g.capture mask
  let old := g.tile fd.toNat (cvtGroup g dst) (fmtWidth dst) c.rc c.vl
  let a := c.tile fa.toNat
  let o4 := (List.range c.rc).flatMap fun j => g.o4Row fa.toNat j c.vl
  let md := c.cvtMode rm (cvtNarrows g dst)
  let rs := (List.range (if gFmt g = 0xA then old.length else min a.length old.length)).map fun k =>
    if c.mask.getLsbD k then
      (if gFmt g ≠ 0xA then convert (gFmt g) dst (md k) (a.getD k 0)
      else if isI dst then (low (fmtWidth dst) (o4.getD k 0), 0)
      else roundVal dst (md k) (Val.ofZ (o4.getD k 0)))
    else (old.getD k 0, 0)
  ⟨cvtLegal g dst fd fa rm,
    if c.count = 0 then [] else g.groupWrites fd.toNat (cvtGroup g dst) dst (rowsOf c.vl c.rc (rs.map (·.1))) c.vl,
    groupAt g fa (gGroup g), allFlags rs, none⟩

/-- The values of row j of the operand of a conversion to O4, itself perhaps O4 (R127, R214). -/
def o4Values (g : Regs) (fa : Reg) (j n : Nat) : List Val :=
  if gFmt g = 0xA then (g.o4Row fa.toNat j n).map Val.ofZ
  else (g.groupRow fa.toNat (gGroup g) (gWidth g) j n).map (valueOf (gFmt g) (g.frm.getLsbD 8))

/-- VCVT to O4: each pair of elements of a row becomes a byte where its even element is active; the last element of a row of
odd VL is paired with 0 (R127, R214). -/
def quantising (g : Regs) (fd fa : Reg) (mask rm : Reg3) : TileForm :=
  let c := g.capture mask
  let md := c.cvtMode rm (cvtNarrows g 0xA)
  let rows := (List.range c.rc).map fun j =>
    let xs := o4Values g fa j c.vl
    (List.range ((c.vl + 1) / 2)).map fun p =>
      let k := j * c.vl + 2 * p
      if c.mask.getLsbD k then
        let r := o4Encode (md k) (md (k + 1)) (xs.getD (2 * p) (.fin false 0 0)) (xs.getD (2 * p + 1) (.fin false 0 0))
        (r.1, r.2.1 ||| r.2.2)
      else (g.o4Byte fd.toNat j p, 0)
  ⟨cvtLegal g 0xA fd fa rm,
    if c.count = 0 then [] else g.o4Writes fd.toNat (cvtGroup g 0xA) (rows.map fun r => r.map (·.1)) c.vl,
    groupAt g fa (gGroup g), if c.count = 0 then 0 else allFlags rows.flatten, none⟩

/-- The operations of VRED and VSCAN legal for a format (R220). -/
def reductionLegal (f op : Nat) (nan dw dot : Bool) : Bool :=
  (isI f || (isF f && decide (op ≤ 2))) && (!nan || (isF f && (op == 1 || op == 2))) &&
    (!dw || (op == 0 && (f == 8 || f == 9))) && (!dot || op == 0)

/-- The reduction of the first n elements of a tile, or of the products of two tiles, along the fixed tree (R139, R140,
R220): its value, or with .dw its high and low parts; and its flags. -/
def reduction (g : Regs) (op : Reg3) (nan dw : Bool) (fa fb : Reg) (mask : Reg3) (n : Nat) : List Nat × Nat :=
  let c := g.capture mask
  let a := (c.tile fa.toNat).toArray
  let b := if fb = 0 then none else some (c.tile fb.toNat).toArray
  if dw then
    let t := fixedTree (dwTree (gFmt g) a b) c.mask.getLsbD n
    ([(t.val.getD (0, 0)).1, (t.val.getD (0, 0)).2], allFlags (t.fl.map fun e => (0, e.2)))
  else
    let t := fixedTree (plainTree (gFmt g) (g.mode 0) op.toNat nan a b) c.mask.getLsbD n
    ([t.val.getD (redIdentity (gFmt g) op.toNat)], allFlags (t.fl.map fun e => (0, e.2)))

/-- VRED: one row of one element, or of the two parts (R221). VSCAN: every active element becomes the reduction up to it,
with .dw the low parts to the next group (R222). -/
def reducing (g : Regs) : Instr → Option TileForm
  | .vred op nan dw fd fa fb mask =>
    let c := g.capture mask
    let r := reduction g op nan dw fa fb mask c.count
    some ⟨reductionLegal (gFmt g) op.toNat nan dw (fb != 0) && aligned (gGroup g) (if fb = 0 then [fa] else [fa, fb]),
      if c.count = 0 then []
      else [(g.phys fd.toNat, ⟨plainTag (gFmt g) 1 (if dw then 2 else 1), [packRow (gWidth g) r.1]⟩)],
      groupAt g fa (gGroup g) ++ (if fb = 0 then [] else groupAt g fb (gGroup g)),
      if c.count = 0 then 0 else r.2, none⟩
  | .vscan op nan dw fd fa fb mask =>
    let c := g.capture mask
    let red := fun k => reduction g op nan dw fa fb mask (k + 1)
    let part := fun (d i : Nat) => (List.range (c.tile d).length).map fun k =>
      if c.mask.getLsbD k then (red k).1.getD i 0 else (c.tile d).getD k 0
    let write := fun (d i : Nat) => g.groupWrites d (gGroup g) (gFmt g) (rowsOf c.vl c.rc (part d i)) c.vl
    some ⟨reductionLegal (gFmt g) op.toNat nan dw (fb != 0) &&
        aligned (gGroup g) (if fb = 0 then [fd, fa] else [fd, fa, fb]) &&
        (!dw || decide (fd.toNat + 2 * gGroup g ≤ 32)),
      if c.count = 0 then []
      else write fd.toNat 0 ++ (if dw then write (fd.toNat + gGroup g) 1 else []),
      groupAt g fa (gGroup g) ++ (if fb = 0 then [] else groupAt g fb (gGroup g)),
      allFlags (((List.range (c.tile fd.toNat).length).filter fun k => c.mask.getLsbD k).map fun k => (0, (red k).2)),
      none⟩
  | _ => none

/-- VCOMPRESS: the active elements of the one row that are not zero, packed, and their indices; VL becomes their number
(R224). -/
def compressing (g : Regs) (fd fa fb : Reg) (mask : Reg3) : TileForm :=
  let c := g.capture mask
  let gi := max 1 (gGroup g * 32 / gWidth g)
  let kept := (List.range (c.tile fa.toNat).length).filter fun k =>
    c.mask.getLsbD k && (if isI (gFmt g) then (c.tile fa.toNat).getD k 0 != 0
      else (c.tile fa.toNat).getD k 0 % 2 ^ (gWidth g - 1) != 0)
  ⟨isA (gFmt g) && g.rc == 1 && decide (gi ≤ 8) && aligned (gGroup g) [fd, fa] && aligned gi [fb] &&
      !groupsMeet fd.toNat (gGroup g) fb.toNat gi,
    if c.count = 0 then [] else
      g.groupWrites fd.toNat (gGroup g) (gFmt g) [kept.map fun k => (c.tile fa.toNat).getD k 0] kept.length ++
        g.groupWrites fb.toNat gi 2 [kept] kept.length,
    groupAt g fa (gGroup g), 0, some (BitVec.ofNat 64 kept.length)⟩

/-- The forms above. -/
def tileFormOf (g : Regs) : Instr → Option TileForm
  | .vwmac fd fa fb fc mask rm => widening g fd fa fb fc mask rm
  | .vcvt format fd fa mask rm =>
    if format = 0xA then some (quantising g fd fa mask rm)
    else some (conversion g format.toNat fd fa mask rm)
  | .vcompress fd fa fb mask => some (compressing g fd fa fb mask)
  | i => reducing g i

/-- A function form: whether its operands, shape and format are legal, its mask, destination, result tag and values to a
row, the value of an active row with its flags, and the registers it reads. -/
structure FunForm where
  legal : Bool
  mask : Reg3
  fd : Reg
  tag : Word
  k : Nat
  row : Nat → Field
  reads : List Reg

/-- A function operand in VTYPE's format, grouping 1 (R155, R228). -/
def funOk (g : Regs) (x : Reg) : Bool :=
  isFun (g.getF x.toNat).tag && tagFmt (g.getF x.toNat).tag == gFmt g && gGroup g == 1

/-- Two function operands of one basis and as many axes (R156). -/
def sameKind (g : Regs) (x y : Reg) : Bool :=
  funOk g x && funOk g y && tagBasis (g.getF x.toNat).tag == tagBasis (g.getF y.toNat).tag &&
    tagDims (g.getF x.toNat).tag == tagDims (g.getF y.toNat).tag

/-- A function form with a function result of some degrees, whose shape must be legal (R147). -/
def funTo (g : Regs) (ok : Bool) (mask : Reg3) (fd : Reg) (basis : Nat) (degs : List Nat) (row : Nat → Field)
    (reads : List Reg) : FunForm :=
  ⟨ok && shapeLegal (gFmt g) degs, mask, fd, funTag (gFmt g) basis g.rc.toNat degs, coeffs degs, row, reads⟩

/-- The matrix that raises or keeps one axis of a projection (R232). -/
def projection (source target : Nat) (p m : Nat) : Mat :=
  if source = target ∧ p = m then matOf (p + 1) (p + 1) fun o n => if o = n then fxOne else 0 else matPr source target p m

/-- The nine instructions of major 0x30 and the function mode of VADD, VSUB, VMUL, VNEG and VMV (R212, R230-R235). -/
def funOf (g : Regs) : Instr → Option FunForm
  | .fmul fd fa fb mask =>
    let ms := ((degs fa).zip (degs fb)).map fun e =>
      if policy = 1 then e.1 + e.2 else min (e.1 + e.2) (bits g.vtype.toNat 13 10)
    some (funTo g (sameKind g fa fb) mask fd (basis fa) ms
      (fun j => fmulRow (gFmt g) (basis fa) policy (degs fa) (degs fb) ms (row fa j) (row fb j)) [fa, fb])
  | .fdiff fd fa axis mask => some (oneAxis fd fa axis mask (fun p => p - 1) (matD (basis fa)))
  | .fint fd fa axis mask => some (oneAxis fd fa axis mask (fun p => p + 1) (matA (basis fa)))
  | .fintAll fd fa zero mask => some ⟨funOk g fa && zero == 0, mask, fd, plainTag (gFmt g) g.rc.toNat 1, 1, fun j =>
      let r := chain (gFmt g) ((tensor ((degs fa).map (axisOm (basis fa)))).map fun x =>
        if x = 0 then none else some (constPat (gFmt g) x)) (row fa j)
      ⟨[1], [r.1], [r.2], 0⟩, [fa]⟩
  | .fproj fd fa rb mask =>
    let t := g.getS rb
    some (funTo g (funOk g fa && !tagReserved t && (tagBasis t == 1 || tagBasis t == 2) &&
        tagDims t == tagDims (g.getF fa.toNat).tag &&
        ([bits t.toNat 19 16, bits t.toNat 23 20, bits t.toNat 27 24].drop (tagDims t)).all (· == 0))
      mask fd (tagBasis t) (tagDegs t) (projected fa (tagBasis t) (tagDegs t)) [fa])
  | .ftrace fd fa face mask =>
    let ax := face.toNat / 2
    let rest := (degs fa).eraseIdx ax
    let r := fun j => (field fa j).axis (gFmt g) ax (matTf (basis fa) ((degs fa).getD ax 0) (face.toNat % 2 == 1))
    let ok := funOk g fa && decide (face.toNat ≤ 5) && decide (ax < (degs fa).length)
    some (if (degs fa).length = 1 then ⟨ok, mask, fd, plainTag (gFmt g) g.rc.toNat 1, 1, r, [fa]⟩
      else funTo g ok mask fd (basis fa) rest r [fa])
  | .feval fd fa fb mask =>
    let b := g.getF fb.toNat
    let d := (degs fa).length
    let p := tagLen b.tag / d
    some ⟨funOk g fa && isPlain b.tag && tagFmt b.tag == gFmt g && tagLen b.tag != 0 && tagLen b.tag % d == 0, mask, fd,
      plainTag (gFmt g) g.rc.toNat p, p, fun j =>
        let cs := b.elems (gWidth g) j 0 (p * d)
        let vs := (List.range p).map fun t =>
          evalPoint (gFmt g) (basis fa) (degs fa) ((degs fa).map gll) (row fa j) ((cs.drop (t * d)).take d)
        ⟨[p], vs.map (·.1), vs.map (·.2.1), vs.foldl (fun x e => x ||| e.2.2) 0⟩, [fa, fb]⟩
  | .fxform fd fa zero mask => some (funTo g (funOk g fa && zero == 0) mask fd (3 - basis fa) (degs fa)
      (projected fa (3 - basis fa) (degs fa)) [fa])
  | .flift fd fa fb mask =>
    let ms := ((degs fa).zip (degs fb)).map fun e => max e.1 e.2
    some (funTo g (sameKind g fa fb) mask fd (basis fa) ms (fun j =>
      if basis fa = 1 then Field.of [] (reshapeRow (g.getF fa.toNat) j ms) else projected fa (basis fa) ms j) [fa, fb])
  | .fmass fd fa zero mask => some (funTo g (funOk g fa && zero == 0) mask fd (basis fa) (degs fa)
      (fun j => fmassRow (gFmt g) (basis fa) (degs fa) (row fa j)) [fa])
  | .vadd fd fa fb mask rm lift => some (sum fd fa fb mask lift (addF (gFmt g) { g.mode rm with fz := false }))
  | .vsub fd fa fb mask rm lift => some (sum fd fa fb mask lift (subF (gFmt g) { g.mode rm with fz := false }))
  | .vmul fd fa fb mask rm => some (funTo g (funOk g fa) mask fd (basis fa) (degs fa) (fun j =>
      let zs := (row fa j).map fun u => mulF (gFmt g) { g.mode rm with fz := false } (decodeF (gFmt g) u)
        (decodeF (gFmt g) (((g.getF fb.toNat).elems (gWidth g) j 0 1).getD 0 0))
      ⟨[], zs.map (·.1), zs.map (·.2), 0⟩) [fa, fb])
  | .vneg fd fa mask => some (funTo g (funOk g fa) mask fd (basis fa) (degs fa) (fun j =>
      let zs := (row fa j).map fun u => withSign (gFmt g) false (!u.testBit (gWidth g - 1)) u
      ⟨[], zs.map (·.1), zs.map (·.2), 0⟩) [fa])
  | .vmv fd fa mask =>
    let t := (g.getF fa.toNat).tag
    some ⟨isFun t && gGroup g == 1, mask, fd, funTag (tagFmt t) (tagBasis t) g.rc.toNat (degs fa), coeffs (degs fa),
      fun j => Field.of [] (row fa j), [fa]⟩
  | _ => none
where
  degs (x : Reg) : List Nat := tagDegs (g.getF x.toNat).tag
  basis (x : Reg) : Nat := tagBasis (g.getF x.toNat).tag
  policy : Nat := bits g.vtype.toNat 15 14
  row (x : Reg) (j : Nat) : List Nat := (g.getF x.toNat).coeffRow j
  field (x : Reg) (j : Nat) : Field := Field.of ((degs x).map (· + 1)) (row x j)
  projected (x : Reg) (target : Nat) (ms : List Nat) (j : Nat) : Field :=
    (field x j).xform (gFmt g) (((degs x).zip ms).map fun e => projection (basis x) target e.1 e.2)
  oneAxis (fd fa axis : Reg) (mask : Reg3) (deg : Nat → Nat) (mat : Nat → Mat) : FunForm :=
    let p := (degs fa).getD axis.toNat 0
    funTo g (funOk g fa && decide (axis.toNat < (degs fa).length)) mask fd (basis fa) ((degs fa).set axis.toNat (deg p))
      (fun j => (field fa j).axis (gFmt g) axis.toNat (mat p)) [fa]
  sum (fd fa fb : Reg) (mask : Reg3) (lift : Bool) (op : Val → Val → Nat × Nat) : FunForm :=
    let ms := ((degs fa).zip (degs fb)).map fun e => max e.1 e.2
    let raised := fun (x : Reg) (j : Nat) =>
      if basis fa = 1 then Field.of [] (reshapeRow (g.getF x.toNat) j ms)
      else (field x j).xform (gFmt g) (((degs x).zip ms).map fun e =>
        if e.1 = e.2 then matOf (e.1 + 1) (e.1 + 1) fun o n => if o = n then fxOne else 0 else matI 2 e.1 e.2)
    funTo g (sameKind g fa fb && (basis fa == 1 || lift || degs fa == degs fb)) mask fd (basis fa) ms (fun j =>
      let zs := ((raised fa j).vals.zip (raised fb j).vals).map fun e => op (decodeF (gFmt g) e.1) (decodeF (gFmt g) e.2)
      ⟨[], zs.map (·.1), zs.map (·.2), (raised fa j).pooled ||| (raised fb j).pooled⟩) [fa, fb]

/-- The rows of a function form: an inactive row keeps the old coefficients where FMT and DIMS agree, else +0 (R149; for
a PLAIN old register, log 22). -/
def funRows (g : Regs) (x : FunForm) : List Field :=
  (List.range g.rc.toNat).map fun j =>
    if (g.getM x.mask).getLsbD j then x.row j
    else Field.of [] (inactiveRow (g.getF x.fd.toNat) x.tag j x.k)

/-- Its write. -/
def funWrites (g : Regs) (x : FunForm) : List TileWrite :=
  [(g.phys x.fd.toNat, ⟨x.tag, (funRows g x).map fun r => packRow (fmtWidth (tagFmt x.tag)) r.vals⟩)]

/-- Its flags: those raised at its values, and those raised on the way. -/
def funFlags (g : Regs) (x : FunForm) : Nat :=
  allFlags ((funRows g x).flatMap fun r => ((List.range x.k).zip r.fl).map fun e => (0, e.2 ||| r.row))

end Sys2Proof.Claims

/-- For every legal form with room in the queue, a valid VTYPE, storage for the result and no raised condition enabled:
VWMAC accumulates exact products in the wide format; VCVT converts each active element, to O4 in pairs of a row,
from O4 by pairs; VRED and VSCAN follow the fixed tree or the double-word tree; VCOMPRESS packs the active non-zero
elements with their indices and sets VL to their number. The entry queued carries the flags; no other register, hart
or byte changes. A partial byte of O4 and the write of VCOMPRESS that keeps no element are readings (log 40); the
odd slot beside an escaped one (R128; DESIGN CHOICE) and the conversion from O4 to O4 pair by pair (DEDUCED) are the
model's (log 42). (R213, R214, R219, R220, R221, R222, R224, R126, R127, R139, R140, R141) -/
def Obligations.WideningConversionReductionResults : Prop :=
  ∀ (i : Instr) (s : State) (x : TileForm), Room s → Typed s → tileFormOf (regs s) i = some x → x.legal = true →
    Fits s x.writes x.sources → Quiet s x.flags →
    ∃ t, exec i s = .next t ∧
      Issued s t { (regs s).putTiles x.writes with vl := x.vl.getD (regs s).vl } x.flags

/-- For every legal form with room in the queue, a valid VTYPE, storage and no raised condition enabled: an active row
of the destination holds the coefficients its rule gives by chains of R151, the result has the basis and degrees of
R153 and R154, an inactive row keeps its coefficients where FMT and DIMS agree and is +0 otherwise, and the entry
queued carries the conditions its arithmetic raises. No other register, hart or byte changes. The constants of R150
are correctly rounded from exact enclosures (log 14); what an inactive row keeps of a PLAIN register is log 22.
(R226, R230, R231, R232, R233, R234, R235, R149, R151, R153, R154, R212) -/
def Obligations.FunctionResults : Prop :=
  ∀ (i : Instr) (s : State) (x : FunForm), Room s → Typed s → funOf (regs s) i = some x → x.legal = true →
    Fits s (funWrites (regs s) x) (x.reads.map fun r => (regs s).phys r.toNat) → Quiet s (funFlags (regs s) x) →
    ∃ t, exec i s = .next t ∧
      Issued s t ((regs s).putTiles (funWrites (regs s) x)) (funFlags (regs s) x)

/-- VREJ (R108). -/
def Sys2Proof.Claims.VtypeRejectedTraps : Prop :=
  ∀ (i : Instr) (s : State), Drained s → Handled s → 2 ^ 63 ≤ (regs s).vtype.toNat →
    ((laneOf (regs s) i).isSome = true ∨ (moveOf (regs s) i).isSome = true ∨ (compareOf (regs s) i).isSome = true ∨
      (maskOpOf i).isSome = true ∨ (funOf (regs s) i).isSome = true ∨ ∃ rd ra, i = .setvl rd ra) →
    ∃ t, exec i s = .next t ∧ Entered s t (regs s) 0x04 (regs s).pc (regs s).vtype 0

/-- DEGREE_STORAGE, WHY 2 (R79, R157). -/
def Sys2Proof.Claims.StorageTraps : Prop :=
  ∀ (i : Instr) (s : State) (l : Lane), Drained s → Handled s → Typed s → laneOf (regs s) i = some l → l.legal = true →
    ¬ Fits s (laneWrites (regs s) l) (laneSources (regs s) l) →
    let need := (regs s).storageNeed (laneWrites (regs s) l) (laneSources (regs s) l)
    ∃ t, exec i s = .next t ∧
      Entered s t (regs s) 0x08 (regs s).pc (BitVec.ofNat 64 (2 * 2 ^ 40 + need.1 * 2 ^ 16 + need.2)) 0

/-- An enabled condition (R134). -/
def Sys2Proof.Claims.EnabledConditionsTrap : Prop :=
  ∀ (i : Instr) (s : State) (l : Lane), Drained s → Handled s → Typed s → laneOf (regs s) i = some l → l.legal = true →
    Fits s (laneWrites (regs s) l) (laneSources (regs s) l) →
    let flags := allFlags (laneResults (regs s) l)
    let on := (regs s).atc.toNat % 128
    let bit := if flags &&& on &&& 0x20 ≠ 0 then 0x20 else if flags &&& on &&& 0x40 ≠ 0 then 0x40 else on &&& 31
    let ks := (List.range (laneResults (regs s) l).length).filter fun k =>
      ((laneResults (regs s) l).getD k (0, 0)).2 &&& bit != 0
    ¬ Quiet s flags →
    ∃ t, exec i s = .next t ∧
      Entered s t (regs s) (if bit = 0x20 then 0x05 else if bit = 0x40 then 0x06 else 0x07) (regs s).pc
        (BitVec.ofNat 64 flags) (BitVec.ofNat 64 (ks.length * 2 ^ 32 + ks.getLastD 0 * 2 ^ 16 + ks.headD 0))

namespace Sys2Proof.Claims

open Sys2Proof.Machine

/-! ## Vector memory and the Palette, in the scratchpad -/

/-- The byte at an offset after some writes, in order. -/
def after (ws : List (Nat × List Byte)) (a : Nat) (b : Byte) : Byte :=
  ws.foldl (fun b w => if w.1 ≤ a ∧ a < w.1 + w.2.length then w.2.getD (a - w.1) 0 else b) b

/-- As Issued, with bytes written to the scratchpad of the hart's core, in order, and to no other byte of memory. -/
structure IssuedPad (s t : State) (g : Regs) (ws : List (Nat × List Byte)) : Prop where
  registers : (t.hart s.cur).regs = { g with pc := (me s).successor }
  queued : ∃ e, (t.hart s.cur).queue = (me s).queue ++ [e] ∧ e.pc = (regs s).pc ∧ e.flags = 0 ∧ e.later = 0
  runnable : (t.hart s.cur).blocked = none
  node : (t.hart s.cur).node = (me s).node
  stores : (t.hart s.cur).sb = (me s).sb
  others : ∀ h, h ≠ s.cur → t.hart h = s.hart h
  mem : ∀ a, byteAt t.mem a = byteAt s.mem a
  tbl : ∀ a, byteAt t.tbl a = byteAt s.tbl a
  host : ∀ a, byteAt t.host a = byteAt s.host a
  pads : ∀ c a, byteAt (t.core c).pad a =
    if c = s.cur / 8 then after ws a (byteAt (s.core c).pad a) else byteAt (s.core c).pad a

/-- The turn is one of a whole instruction, which is not to be stopped between elements (R295). -/
abbrev Whole (s : State) : Prop := s.quota = none ∧ (me s).limit = none

/-- The bytes an access reads from the scratchpad of the hart's core, as a number. -/
def padValue (s : State) (va n : Nat) : Nat := leNat (getBytes (s.core (s.cur / 8)).pad (va % 2 ^ 21) n)

/-- Every access lies in the scratchpad window, and none of its bytes is poisoned. -/
abbrev InPad (s : State) (as : List Acc) : Prop :=
  (∀ a ∈ as, 0 < a.n ∧ inWindow a.va = true ∧ inWindow (a.va + a.n - 1) = true) ∧
    (s.core (s.cur / 8)).padPoison = []

/-- Every access is aligned to its size (R292). -/
abbrev Aligned (as : List Acc) : Prop := ∀ a ∈ as, a.va % a.n = 0

/-- A vector memory form: whether it is legal, its register group and planes (R293), its accesses in logical order, and
what an index that is swept without an access reads as. -/
structure MemForm where
  legal : Bool
  fd : Reg
  planes : Nat
  accs : List Acc
  sources : List Nat

/-- The active indices below n. -/
def activeBelow (g : Regs) (mask : Reg3) (n : Nat) : List Nat := (List.range n).filter fun k => (g.getM mask).getLsbD k

/-- The accesses of a unit-stride form: element k at base + k times its bytes, an O4 element in byte k/2 (R293). -/
def unitAccs (g : Regs) (base : Word) (ks : List Nat) : List Acc :=
  ks.map fun k =>
    if gFmt g = 0xA then ⟨k, (base + BitVec.ofNat 64 (k / 2)).toNat, 1⟩
    else ⟨k, (base + BitVec.ofNat 64 (k * (gWidth g / 8))).toNat, gWidth g / 8⟩

/-- The size of an index group (R293). -/
def indexGroup (g : Regs) : Nat := max 1 (gGroup g * 32 / gWidth g)

/-- The accesses of an indexed form: element k at base + index k times its bytes (R293). -/
def indexAccs (g : Regs) (base : Word) (fb : Reg) (ks : List Nat) : List Acc :=
  let idx := g.tile fb.toNat (indexGroup g) 32 g.rc.toNat g.vl.toNat
  ks.map fun k => ⟨k, (base + BitVec.ofNat 64 (idx.getD k 0 * (gWidth g / 8))).toNat, gWidth g / 8⟩

/-- Whether an indexed form's groups are legal. -/
def indexLegal (g : Regs) (fd fb : Reg) : Bool :=
  decide (indexGroup g ≤ 8) && aligned (gGroup g) [fd] && aligned (indexGroup g) [fb] &&
    !groupsMeet fd.toNat (gGroup g) fb.toNat (indexGroup g)

/-- The coordinates of index k in planes of RC rows of VL elements. -/
def xOf (g : Regs) (k : Nat) : Nat := k % max (g.rc.toNat * g.vl.toNat) 1 % max g.vl.toNat 1
def yOf (g : Regs) (k : Nat) : Nat := k % max (g.rc.toNat * g.vl.toNat) 1 / max g.vl.toNat 1
def zOf (g : Regs) (k : Nat) : Nat := k / max (g.rc.toNat * g.vl.toNat) 1

/-- Whether index k has an access: x below DLEN0 and y below DLEN1 (R293). -/
def hasAccess (g : Regs) (k : Nat) : Bool := decide (xOf g k < g.dlen[0].toNat) && decide (yOf g k < g.dlen[1].toNat)

/-- The accesses of a multi-dimensional form: base + x DSTEP0 + y DSTEP1 + z DSTEP2 (R293). -/
def planeAccs (g : Regs) (base : Word) (ks : List Nat) : List Acc :=
  (ks.filter (hasAccess g)).map fun k =>
    ⟨k, (base + BitVec.ofNat 64 (xOf g k) * g.dstep[0] + BitVec.ofNat 64 (yOf g k) * g.dstep[1] +
      BitVec.ofNat 64 (zOf g k) * g.dstep[2]).toNat, gWidth g / 8⟩

/-- Whether a multi-dimensional form is legal (R293). -/
def planesLegal (g : Regs) (fd : Reg) : Bool :=
  let n := g.dlen[2].toNat
  isA (gFmt g) && decide (n * gGroup g ≤ 8) && decide (n * (g.rc.toNat * g.vl.toNat) ≤ 32768) &&
    aligned (gGroup g) [fd] && decide (fd.toNat + n * gGroup g ≤ 32)

/-- The loads of major 0x38 (R296, R297). -/
def vloadOf (g : Regs) : Instr → Option (MemForm × Reg3)
  | .vld fd ra mask disp => some (⟨aligned (gGroup g) [fd], fd, 1, unitAccs g (g.getS ra + disp) (activeBelow g mask n), []⟩, mask)
  | .vldFf fd ra mask disp => some (⟨isA (gFmt g) && aligned (gGroup g) [fd], fd, 1,
      unitAccs g (g.getS ra + disp) (activeBelow g mask n), []⟩, mask)
  | .vldx fd ra fb mask disp => some (⟨isA (gFmt g) && indexLegal g fd fb, fd, 1,
      indexAccs g (g.getS ra + disp) fb (activeBelow g mask n), groupAt g fb (indexGroup g)⟩, mask)
  | .vldD fd ra mask disp => some (⟨planesLegal g fd, fd, g.dlen[2].toNat,
      planeAccs g (g.getS ra + disp) (activeBelow g mask (g.dlen[2].toNat * n)), []⟩, mask)
  | _ => none
where
  n : Nat := g.rc.toNat * g.vl.toNat

/-- The values of the planes of a load from the scratchpad: an active element with an access takes what it reads (an O4
element its nibble), one without an access takes +0, any other keeps its value. -/
def loadedValues (s : State) (x : MemForm) (mask : Reg3) : List Nat :=
  let g := regs s
  let olds := (List.range x.planes).flatMap fun p =>
    g.tile (x.fd.toNat + p * gGroup g) (gGroup g) (gWidth g) g.rc.toNat g.vl.toNat
  (List.range olds.length).map fun k =>
    match x.accs.find? fun a => a.k == k with
    | some a =>
      let v := padValue s a.va a.n
      if gFmt g = 0xA then v / 16 ^ (k % 2) % 16 else v
    | none => if (g.getM mask).getLsbD k then 0 else olds.getD k 0

/-- The register writes of plane values (R293). -/
def planeTiles (g : Regs) (x : MemForm) (vals : List Nat) : List TileWrite :=
  let n := g.rc.toNat * g.vl.toNat
  if x.planes * n = 0 then [] else
  (List.range x.planes).flatMap fun p =>
    g.groupWrites (x.fd.toNat + p * gGroup g) (gGroup g) (gFmt g)
      (rowsOf g.vl.toNat g.rc.toNat ((vals.drop (p * n)).take n)) g.vl.toNat

/-- The stores of major 0x38 to one address each element (R299). -/
def vstoreOf (g : Regs) : Instr → Option MemForm
  | .vst fd ra mask disp =>
    if gFmt g = 0xA then some ⟨mask == 0 && n % 2 == 0 && aligned (gGroup g) [fd], fd, 1,
      unitAccs g (g.getS ra + disp) ((List.range (n / 2)).map (2 * ·)), []⟩
    else some ⟨aligned (gGroup g) [fd], fd, 1, unitAccs g (g.getS ra + disp) (activeBelow g mask n), []⟩
  | .vstx fd ra fb mask disp => some ⟨isA (gFmt g) && indexLegal g fd fb, fd, 1,
      indexAccs g (g.getS ra + disp) fb (activeBelow g mask n), []⟩
  | .vstD fd ra mask disp => some ⟨planesLegal g fd, fd, g.dlen[2].toNat,
      planeAccs g (g.getS ra + disp) (activeBelow g mask (g.dlen[2].toNat * n)), []⟩
  | _ => none
where
  n : Nat := g.rc.toNat * g.vl.toNat

/-- The values of the planes of a form. -/
def planeValues (g : Regs) (x : MemForm) : List Nat :=
  (List.range x.planes).flatMap fun p =>
    g.tile (x.fd.toNat + p * gGroup g) (gGroup g) (gWidth g) g.rc.toNat g.vl.toNat

/-- The bytes a store writes at an access: the element's, or two O4 elements in a byte (R292, R299). -/
def storedBytes (g : Regs) (x : MemForm) (a : Acc) : List Byte :=
  let v := planeValues g x
  if gFmt g = 0xA then [BitVec.ofNat 8 (v.getD a.k 0 + 16 * v.getD (a.k + 1) 0)] else leBytes a.n (v.getD a.k 0)

/-- Block k of VST.seg: format byte, scale byte k of register fb, and 62 bytes of payload, zeros beyond the tile; two O4
elements to a byte (R137, R300). -/
def segmentBytes (g : Regs) (fd fb : Reg) (k : Nat) : List Byte :=
  let v := g.tile fd.toNat (gGroup g) (gWidth g) g.rc.toNat g.vl.toNat
  let payload := (List.range 62).map fun i =>
    if gFmt g = 0xA then BitVec.ofNat 8 (v.getD (124 * k + 2 * i) 0 + 16 * v.getD (124 * k + 2 * i + 1) 0)
    else BitVec.ofNat 8 (v.getD (62 * k + i) 0)
  BitVec.ofNat 8 (gFmt g) :: BitVec.ofNat 8 ((g.getF fb.toNat).storageByte k) :: payload

/-- The scratchpad after one update after another, each from the value its bytes then hold; with the old values. -/
def updates (pad : Cells) (as : List Acc) (f : Acc → Nat → Nat) : Cells × List (Nat × Nat) :=
  as.foldl (fun m a =>
    let old := leNat (getBytes m.1 (a.va % 2 ^ 21) a.n)
    (putBytes m.1 (a.va % 2 ^ 21) (leBytes a.n (f a old)), m.2 ++ [(a.k, old)])) (pad, [])

/-- As Issued, where the scratchpad of the hart's core becomes `pad` and no byte outside some accesses changes. -/
structure IssuedUpdates (s t : State) (g : Regs) (as : List Acc) (pad : Cells) : Prop where
  registers : (t.hart s.cur).regs = { g with pc := (me s).successor }
  queued : ∃ e, (t.hart s.cur).queue = (me s).queue ++ [e] ∧ e.pc = (regs s).pc ∧ e.flags = 0 ∧ e.later = 0
  runnable : (t.hart s.cur).blocked = none
  node : (t.hart s.cur).node = (me s).node
  stores : (t.hart s.cur).sb = (me s).sb
  others : ∀ h, h ≠ s.cur → t.hart h = s.hart h
  mem : ∀ a, byteAt t.mem a = byteAt s.mem a
  tbl : ∀ a, byteAt t.tbl a = byteAt s.tbl a
  host : ∀ a, byteAt t.host a = byteAt s.host a
  pad : (t.core (s.cur / 8)).pad = pad
  outside : ∀ a, (∀ x ∈ as, a < x.va % 2 ^ 21 ∨ x.va % 2 ^ 21 + x.n ≤ a) →
    byteAt (t.core (s.cur / 8)).pad a = byteAt (s.core (s.cur / 8)).pad a
  pads : ∀ c, c ≠ s.cur / 8 → ∀ a, byteAt (t.core c).pad a = byteAt (s.core c).pad a

/-- The addition of VSTRED: integer, or fused with the scale in s[b], 1 where field b is 0 (R301). -/
def addElem (g : Regs) (rb : Reg) (v old : Nat) : Nat :=
  if isI (gFmt g) then low (gWidth g) (old + v)
  else (fmaF (gFmt g) Mode.rne
    (if rb = 0 then .fin false 1 0 else decodeF (gFmt g) ((g.getS rb).toNat % 2 ^ gWidth g))
    (decodeF (gFmt g) v) (decodeF (gFmt g) old)).1

/-! ## The Palette -/

/-- The slot of a number on the hart's core. -/
def slotOf (s : State) (p : Reg) : Slot := (s.core (s.cur / 8)).slots.get p.toFin

/-- The slot of a number becomes `x`; every other slot of every core is as before. -/
structure SlotBecomes (s t : State) (p : Reg) (x : Slot) : Prop where
  this : slotOf t p = x
  others : ∀ q, q ≠ p → slotOf t q = slotOf s q
  cores : ∀ c, c ≠ s.cur / 8 → t.core c = s.core c
  cur : t.cur = s.cur

/-- A slot after a claim of a hart has made its attempt (R239): held and EMPTY where it was the hart's already or is FREE with
no claim before it, else with the claim behind those that wait. -/
def claimed (x : Slot) (h : Nat) : Slot :=
  if x.owner = some h ∨ (x.owner = none ∧ x.waiting = []) then { x with owner := some h, content := none }
  else { x with waiting := x.waiting ++ [h] }

/-- The running hart's next instruction belongs to a convoy that has started, all of whose earlier instructions have (R113). -/
abbrev InConvoy (s : State) : Prop :=
  (me s).convoyStart = false ∧ (me s).running.isSome = true ∧ ∀ e ∈ (me s).queue, e.started = true

/-- An MLOAD by rows: its slot, form, row count and the address of each row (R241). -/
def mloadOf (g : Regs) : Instr → Option (Reg × LoadForm × Nat × (Nat → Nat))
  | .mload pd ra disp => some (pd, .plain, g.dlen[1].toNat, fun t =>
      (g.getS ra + disp + BitVec.ofNat 64 t * g.dstep[1]).toNat)
  | .mloadT pd ra disp => some (pd, .transposed, g.dlen[1].toNat, fun t =>
      (g.getS ra + disp + BitVec.ofNat 64 t * g.dstep[1]).toNat)
  | .mloadG pd ra fb disp => some (pd, .gather, g.vl.toNat, fun t =>
      (g.getS ra + disp + BitVec.ofNat 64
        ((g.groupRow fb.toNat (ceilDiv g.vl.toNat 512) 32 0 g.vl.toNat).getD t 0) * g.dstep[1]).toNat)
  | _ => none

/-- The accesses of an MLOAD: DLEN0 elements a row, two O4 elements to a byte (R241). -/
def mloadAccs (g : Regs) (rows : Nat) (rowAddr : Nat → Nat) : List Acc :=
  let per := if gFmt g = 0xA then 2 else 1
  let eb := if gFmt g = 0xA then 1 else gWidth g / 8
  (List.range rows).flatMap fun t => (List.range (g.dlen[0].toNat / per)).map fun i =>
    ⟨t * g.dlen[0].toNat + per * i, (rowAddr t + eb * i) % 2 ^ 64, eb⟩

/-- Whether the shape and the format of an MLOAD are legal (R241). -/
def mloadLegal (g : Regs) (rows : Nat) : Bool :=
  slotFormat (gFmt g) && (gFmt g != 0xA || g.dlen[0].toNat % 2 == 0) &&
    decide (rows * g.dlen[0].toNat * gWidth g / 8 ≤ 32768)

/-- The matrix an MLOAD reads from the scratchpad; transposed, its rows are columns; O4 elements as signed bytes. -/
def mloadMatrix (s : State) (form : LoadForm) (rows : Nat) (rowAddr : Nat → Nat) : Matrix :=
  let g := regs s
  let cols := g.dlen[0].toNat
  let per := if gFmt g = 0xA then 2 else 1
  let eb := if gFmt g = 0xA then 1 else gWidth g / 8
  let row := fun t => ((List.range (cols / per)).map fun i => padValue s ((rowAddr t + eb * i) % 2 ^ 64) eb).flatMap fun v =>
    if gFmt g = 0xA then [low 8 (o4Pair v).1, low 8 (o4Pair v).2] else [v]
  let data := (List.range rows).map row
  if rows = 0 ∨ cols = 0 then
    (if form = .transposed then ⟨cols, rows, gFmt g, none, []⟩ else ⟨rows, cols, gFmt g, none, []⟩)
  else if form = .transposed then
    ⟨cols, rows, gFmt g, none, (List.range cols).map fun c => data.map fun r => r.getD c 0⟩
  else ⟨rows, cols, gFmt g, none, data⟩

/-- The result of an MMA element by element (R142, R244): results and flags; UF is dropped. -/
def mmaResults (g : Regs) (fd : Reg) (mask : Reg3) (a b : Matrix) (pr : Pairing) : List (Nat × Nat) :=
  let c := g.capture mask
  let old := c.tile fd.toNat
  (List.range old.length).map fun k =>
    if c.mask.getLsbD k then
      let x := a.data.getD (k / b.cols) []
      let y := if k % b.cols < b.cols then b.column (k % b.cols) else []
      let r : Nat × Nat := match pr with
        | .plain group _ => mmaPlain a.fmt b.fmt group (old.getD k 0) x y
        | .int8 => (mmaInt (old.getD k 0) x y, 0)
        | .blocks w4 => (x.zip y).foldl (fun acc (e : Nat × Nat) => mmaBlock w4 acc e.1 e.2) (old.getD k 0, 0)
      (r.1, r.2 &&& 21)
    else (old.getD k 0, 0)

end Sys2Proof.Claims

/-- VLD, VLD.ff, VLDX, VLD.d (R296, R297). -/
def Sys2Proof.Claims.VectorLoadsFromScratchpad : Prop :=
  ∀ (i : Instr) (s : State) (x : MemForm) (mask : Reg3), Room s → Whole s → Typed s → (me s).retry = false →
    vloadOf (regs s) i = some (x, mask) →
    x.legal = true → Aligned x.accs → InPad s x.accs →
    Fits s (planeTiles (regs s) x (planeValues (regs s) x)) x.sources →
    ∃ t, exec i s = .next t ∧
      Issued s t ((regs s).putTiles (planeTiles (regs s) x (loadedValues s x mask))) 0

/-- VST, VSTX, VST.d (R299). -/
def Sys2Proof.Claims.VectorStoresToScratchpad : Prop :=
  ∀ (i : Instr) (s : State) (x : MemForm), Drained s → Whole s → Canonical s → Typed s → vstoreOf (regs s) i = some x →
    x.legal = true → Aligned x.accs → InPad s x.accs →
    ∃ t, exec i s = .next t ∧
      IssuedPad s t (regs s) (x.accs.map fun a => (a.va % 2 ^ 21, storedBytes (regs s) x a))

/-- VST.seg (R300). -/
def Sys2Proof.Claims.SegmentStores : Prop :=
  ∀ (s : State) (fd ra fb : Reg) (disp : Word), Drained s → Typed s →
    (gFmt (regs s) = 0 ∨ gFmt (regs s) = 4 ∨ gFmt (regs s) = 5 ∨ gFmt (regs s) = 0xA) →
    aligned (gGroup (regs s)) [fd] = true →
    let wide4 := gFmt (regs s) == 0xA
    let base := (regs s).getS ra + disp
    let n := ceilDiv (swept s) (if wide4 then 124 else 62)
    let va := fun k : Nat => (base + BitVec.ofNat 64 (64 * k)).toNat
    base.toNat % 64 = 0 → s.curSpeculative = false →
    (∀ k < n, ∃ e, placeOf s (va k) needW = some (e.place (va k), some e) ∧ e.sd = true ∧ e.wcls = wide4) →
    ∃ t es, exec (.vstSeg fd ra fb disp) s = .next t ∧
      (t.hart s.cur).regs = { regs s with pc := (me s).successor } ∧
      (t.hart s.cur).sb = (me s).sb ++ es ∧ (∀ h, h ≠ s.cur → t.hart h = s.hart h) ∧ SameBytes s t ∧
      (∀ e ∈ es, e.peer = none ∧ e.held = false ∧ e.fills = false ∧ e.vec = true) ∧
      ∀ x, (∃ e ∈ es, x ∈ e.parts) ↔ ∃ k key, k < n ∧ placeOf s (va k) needW = some (.home key, (placeOf s (va k) needW).bind (·.2)) ∧
        x = ⟨va k, key, segmentBytes (regs s) fd fb k⟩

/-- VSTRED (R301). -/
def Sys2Proof.Claims.ReducingStoresToScratchpad : Prop :=
  ∀ (s : State) (fd ra rb : Reg) (mask : Reg3) (disp : Word), Drained s → InOrder s → Whole s → Canonical s → Typed s →
    (gFmt (regs s) = 2 ∨ gFmt (regs s) = 3 ∨ isF (gFmt (regs s)) = true) → (isF (gFmt (regs s)) = true ∨ rb = 0) →
    aligned (gGroup (regs s)) [fd] = true →
    let accs := unitAccs (regs s) ((regs s).getS ra + disp) (activeBelow (regs s) mask (swept s))
    let vals := ((regs s).capture mask).tile fd.toNat
    Aligned accs → InPad s accs →
    ∃ t, exec (.vstred fd ra rb mask disp) s = .next t ∧
      IssuedUpdates s t (regs s) accs
        (updates (s.core (s.cur / 8)).pad accs fun a old => addElem (regs s) rb (vals.getD a.k 0) old).1

/-- VAMO (R302). -/
def Sys2Proof.Claims.VectorAtomicsInScratchpad : Prop :=
  ∀ (s : State) (op : BitVec 4) (fd ra fb : Reg) (mask : Reg3) (disp : Word), Drained s → InOrder s → Whole s → Canonical s → Typed s →
    (gFmt (regs s) = 2 ∨ gFmt (regs s) = 3) → aligned (gGroup (regs s)) [fd] = true →
    (fb = 0 ∨ indexLegal (regs s) fd fb = true) →
    let base := (regs s).getS ra + disp
    let ks := activeBelow (regs s) mask (swept s)
    let accs := if fb = 0 then unitAccs (regs s) base ks else indexAccs (regs s) base fb ks
    let x : MemForm := ⟨true, fd, 1, accs, []⟩
    let vals := planeValues (regs s) x
    let r := updates (s.core (s.cur / 8)).pad accs fun a old =>
      (amoValue op.toNat (BitVec.ofNat (gWidth (regs s)) old) (BitVec.ofNat _ (vals.getD a.k 0))).toNat
    Aligned accs → InPad s accs →
    Fits s (planeTiles (regs s) x vals)
      (groupAt (regs s) fd (gGroup (regs s)) ++ (if fb = 0 then [] else groupAt (regs s) fb (indexGroup (regs s)))) →
    ∃ t, exec (.vamo op fd ra fb mask disp) s = .next t ∧
      IssuedUpdates s t ((regs s).putTiles (planeTiles (regs s) x
        ((List.range vals.length).map fun k => ((r.2.find? fun (e : Nat × Nat) => e.1 == k).map fun e => e.2).getD (vals.getD k 0)))) accs r.1

/-- VLD.fem and VST.fem (R298). -/
def Sys2Proof.Claims.FaultMaskMoves : Prop :=
  ∀ (s : State) (md : Reg3), Room s →
    (∃ t, exec (.vldFem md) s = .next t ∧ Issued s t (withMask (regs s) md (regs s).fem) 0 ∧ SameCores s t) ∧
    (∃ t, exec (.vstFem md) s = .next t ∧ Issued s t { regs s with fem := (regs s).getM md } 0 ∧ SameCores s t)

def Sys2Proof.Claims.FurtherClaims : Prop :=
  ∀ (s : State) (p : Reg) (h : Nat) (rest : List Nat), Drained s → (slotOf s p).owner = some s.cur →
    (slotOf s p).waiting = h :: rest →
    ∃ t, exec (.mrel p) s = .next t ∧ Issued s t (regs s) 0 ∧ SlotBecomes s t p ⟨some h, none, rest.filter (· != h)⟩

/-- MCLAIM, with room in the queue, queues an entry with its claim. If its convoy has started the attempt is made at
once: a slot that the hart holds, or that is FREE with no claim waiting, becomes held by the hart and EMPTY, and of
any other the claim joins those that wait; before its convoy starts no slot changes (the attempt is then made when
it does, QueueRuns). MREL, with the queue empty, of a held slot discards its content and gives it to the oldest
waiting claim, or makes it FREE (a waiting list in which the oldest claim's hart stands twice is stated in
PaletteMemory); MREL of a slot the hart does not hold has no effect. Every other slot and core is as before. (R240) -/
def Obligations.PaletteClaims : Prop :=
  (∀ (s : State) (p : Reg), Room s →
    ∃ t e, exec (.mclaim p) s = .next t ∧ Issued s t (regs s) 0 ∧ (t.hart s.cur).queue = (me s).queue ++ [e] ∧
      (if InConvoy s then e.claim = some (p.toNat, some (slotOf s p)) ∧ SlotBecomes s t p (claimed (slotOf s p) s.cur)
      else e.claim = some (p.toNat, none) ∧ SameCores s t)) ∧
  (∀ (s : State) (p : Reg), Drained s → (slotOf s p).owner = some s.cur →
    (∀ h, (slotOf s p).waiting.head? = some h → h ∉ (slotOf s p).waiting.tail) →
    ∃ t, exec (.mrel p) s = .next t ∧ Issued s t (regs s) 0 ∧
      SlotBecomes s t p ⟨(slotOf s p).waiting.head?, none, (slotOf s p).waiting.tail⟩) ∧
  (∀ (s : State) (p : Reg), Drained s → (slotOf s p).owner ≠ some s.cur →
    ∃ t, exec (.mrel p) s = .next t ∧ Issued s t (regs s) 0 ∧ SameCores s t)

/-- MLOAD, MLOAD.t, MLOAD.g (R241). -/
def Sys2Proof.Claims.PaletteLoadsFromScratchpad : Prop :=
  ∀ (i : Instr) (s : State) (p : Reg) (form : LoadForm) (rows : Nat) (rowAddr : Nat → Nat), Drained s → Typed s →
    mloadOf (regs s) i = some (p, form, rows, rowAddr) → (slotOf s p).owner = some s.cur → mloadLegal (regs s) rows = true →
    InPad s (mloadAccs (regs s) rows rowAddr) →
    ∃ t, exec i s = .next t ∧ Issued s t (regs s) 0 ∧
      SlotBecomes s t p { slotOf s p with content := some (mloadMatrix s form rows rowAddr) }

/-- MSTORE (R245). -/
def Sys2Proof.Claims.PaletteStoresToScratchpad : Prop :=
  ∀ (s : State) (fd ra : Reg) (disp : Word), Drained s → Canonical s → Typed s → gFmt (regs s) ≠ 0xA →
    (regs s).dlen[1].toNat * (regs s).dlen[0].toNat = swept s → aligned (gGroup (regs s)) [fd] = true →
    let cols := (regs s).dlen[0].toNat
    let eb := gWidth (regs s) / 8
    let vals := ((regs s).capture 0).tile fd.toNat
    let accs := (List.range vals.length).map fun k =>
      (⟨k, ((regs s).getS ra + disp + BitVec.ofNat 64 (k / cols) * (regs s).dstep[1] +
        BitVec.ofNat 64 (k % cols * eb)).toNat, eb⟩ : Acc)
    vals.length = swept s → InPad s accs →
    ∃ t, exec (.mstore fd ra disp) s = .next t ∧
      IssuedPad s t (regs s) (accs.map fun a => (a.va % 2 ^ 21, leBytes eb (vals.getD a.k 0)))

/-- With room in the queue and no queued claim still waiting, for two filled slots held by the hart whose shapes and
formats pair, a tile of rows × columns elements, storage and no raised condition enabled: each active element of the
destination holds the accumulation of its row and column in the fixed group order of R142, inactive ones keep
theirs, and the entry queued carries NV, OF and NX as raised; no core changes but for its counters. That an
underflow is not merged follows R142 and R244, which do not name it (DEDUCED, log 40). (R239, R244, R142) -/
def Obligations.MatrixProducts : Prop :=
  ∀ (s : State) (fd pa pb : Reg) (mask : Reg3) (a b : Matrix) (pr : Pairing), Room s → Typed s →
    (∀ e ∈ (me s).queue, e.claiming s.cur (s.core (s.cur / 8)) = false) →
    (slotOf s pa).owner = some s.cur → (slotOf s pa).content = some a →
    (slotOf s pb).owner = some s.cur → (slotOf s pb).content = some b →
    b.rows = a.cols → swept s = a.rows * b.cols → slotPairing a b (gFmt (regs s)) = some pr →
    aligned (gGroup (regs s)) [fd] = true →
    let rs := mmaResults (regs s) fd mask a b pr
    let ws := if swept s = 0 then [] else (regs s).groupWrites fd.toNat (gGroup (regs s)) (gFmt (regs s))
      (rowsOf (regs s).vl.toNat (regs s).rc.toNat (rs.map (·.1))) (regs s).vl.toNat
    Fits s ws (groupAt (regs s) fd (gGroup (regs s))) → Quiet s (allFlags rs) →
    ∃ t, exec (.mma fd pa pb mask) s = .next t ∧ Issued s t ((regs s).putTiles ws) (allFlags rs) ∧ SameCores s t

namespace Sys2Proof.Claims

open Sys2Proof.Machine

/-! ## Tags, streams and copies -/

/-- Every core but the hart's is as before. -/
def OtherCores (s t : State) : Prop := ∀ c, c ≠ s.cur / 8 → t.core c = s.core c

/-- The core of the hart that runs. -/
def myCore (s : State) : Core := s.core (s.cur / 8)

/-- The slots of the set of an address, by way: the set is the exclusive or of address bits 17:10 and 25:18 (R254). -/
def waysOf (va : Nat) : List Nat := (List.range 8).map fun i => 8 * ((va / 1024 ^^^ va / 262144) % 256) + i

/-- An entry describes the block of an address: valid, its address bits 56:10, context 0 (R255, R256). -/
def describes (e : Word) (va : Nat) : Bool :=
  e.getLsbD 63 && bits e.toNat 56 10 == bits va 56 10 && bits e.toNat 9 0 == 0

/-- A tag operation: s[d], and the core's tags and order of use after it (R256, R257, R303). A lookup that hits gives the
slot with bit 63; one that misses the slot suggested as victim, or bit 62 when every way is pinned. An insertion gives the
old entry, and invalidates any other entry of the block in its set. An invalidation gives the old entry. -/
def tagOf (s : State) : Instr → Option (Prop × Reg × Word × Table Word × List Nat)
  | .tlook rd ra =>
    let va := ((regs s).getS ra).toNat
    let c := myCore s
    some (match (waysOf va).find? fun x => describes (c.tagAt x) va with
      | some x => (True, rd, BitVec.ofNat 64 (2 ^ 63 + x), c.tags, x :: c.recency.filter fun y => y != x)
      | none => (True, rd, match c.victim va with
        | some x => BitVec.ofNat 64 x
        | none => BitVec.ofNat 64 (2 ^ 62), c.tags, c.recency))
  | .tins rd ra rb =>
    let va := ((regs s).getS ra).toNat
    let b := (regs s).getS rb
    let slot := b.toNat % 2048
    let c := myCore s
    let kept := (waysOf va).foldl (fun (t : Table Word) x =>
      if x ≠ slot ∧ describes (c.tagAt x) va = true then tput t x (c.tagAt x &&& 0x7FFFFFFFFFFFFFFF) else t) c.tags
    some (slot ∈ waysOf va ∧ bits b.toNat 63 18 = 0 ∧ bits b.toNat 15 11 = 0, rd, c.tagAt slot,
      tput kept slot (BitVec.ofNat 64 (2 ^ 63 + bits b.toNat 16 16 * 2 ^ 62 + bits b.toNat 17 17 * 2 ^ 61 +
        bits va 56 10 * 2 ^ 10)), slot :: c.recency.filter fun y => y != slot)
  | .tinv rd ra =>
    let n := ((regs s).getS ra).toNat
    let c := myCore s
    some (n ≤ 2047, rd, c.tagAt n, tput c.tags n (c.tagAt n &&& 0x7FFFFFFFFFFFFFFF), c.recency)
  | _ => none

/-- A stream register with some elements consumed more. -/
def consumedMore (t : Stream) (n : Nat) : Stream := { t with consumed := t.consumed + n }

/-- A stream without stages: uncompressed, its elements in VTYPE's format (R263, R266); `store` tells its direction. -/
abbrev PlainStream (g : Regs) (t : Stream) (store : Bool) : Prop :=
  t.isStore = store ∧ t.st0 = false ∧ t.st1 = false ∧ t.st2 = false ∧ t.mfmt = gFmt g

/-- The accesses of the next n elements of a stream that lie in its pattern (R265). -/
def streamAccs (t : Stream) (n : Nat) : List Acc :=
  ((List.range n).filter fun k => decide (t.consumed + k < t.total)).map fun k =>
    ⟨k, (t.locate (t.consumed + k)).1, max 1 (memWidth t.mfmt / 8)⟩

/-- The tile a pop reads from the scratchpad: zeros beyond the pattern (R310). -/
def poppedValues (s : State) (t : Stream) : List Nat :=
  (List.range (swept s)).map fun k =>
    if t.consumed + k < t.total then
      let v := padValue s (t.locate (t.consumed + k)).1 (max 1 (memWidth t.mfmt / 8))
      if memWidth t.mfmt = 4 then v / 16 ^ (t.locate (t.consumed + k)).2 % 16 else v
    else 0

/-- A byte of the scratchpad after a push without stages: each element in turn its bytes, or its half of a byte. -/
def pushedByte (t : Stream) (vals : List Nat) (a : Nat) (b : Byte) : Byte :=
  (streamAccs t vals.length).foldl (fun b x =>
    let off := x.va % 2 ^ 21
    let v := vals.getD x.k 0
    if off ≤ a ∧ a < off + x.n then
      (if memWidth t.mfmt = 4 then
        (if (t.locate (t.consumed + x.k)).2 = 0 then BitVec.ofNat 8 (b.toNat / 16 * 16 + v)
        else BitVec.ofNat 8 (b.toNat % 16 + 16 * v))
      else (leBytes x.n v).getD (a - off) 0)
    else b) b

/-- The pattern table a QBIND reads from the scratchpad: 36 words (R263). -/
def boundTable (s : State) (va : Nat) : Stream :=
  ⟨(List.range 36).map fun i => BitVec.ofNat 64 (padValue s (va + 8 * i) 8), 0, []⟩

/-- A stream register that is not a store stream with the compress stage: releasing it writes nothing. -/
def QuietRelease (g : Regs) (q : Reg3) : Prop := ∀ t, g.getQ q = some t → (t.isStore && t.st2) = false

/-- A range lies in the scratchpad window. -/
abbrev InWindow (va n : Nat) : Prop := inWindow va = true ∧ inWindow (va + n - 1) = true

/-- A channel of the hart's core as an acceptance finds it (R262). -/
def channelOfCore (s : State) (ch : BitVec 2) : Channel := ((myCore s).channel ch.toNat).raise

/-- A channel accepts a transfer of `len` bytes (R259, R305): `ch` is as it was with one transfer more and its issued
position advanced; other channels and cores are as before. -/
structure Accepted (s t : State) (ch : BitVec 2) (x : Transfer) : Prop where
  this : (t.core (s.cur / 8)).channel ch.toNat =
    { channelOfCore s ch with
      issued := (channelOfCore s ch).issued + BitVec.ofNat 64 x.len
      queue := (channelOfCore s ch).queue ++ [x] }
  others : ∀ n, n ≠ ch.toNat → (t.core (s.cur / 8)).channel n = (myCore s).channel n
  cores : OtherCores s t

/-- The blocks a CPY.x takes from a compressed buffer in the scratchpad: one for each 4,096 bytes from the offset on, its
stored form named by the directory, expanded on its way to a scratchpad (R267, R269, R306; beyond NBLK, log 28). -/
def packedBlocks (s : State) (hdr : Nat) (b0 n : Nat) : List PackedBlock :=
  (List.range n).map fun i =>
    if b0 + i < padValue s (hdr + 8) 8 then
      let w := padValue s (hdr + 64 + 4 * (b0 + i)) 4
      ⟨(padValue s (hdr + 16) 8 + 64 * bits w 24 0) % 2 ^ 64, bits w 30 25, bits w 31 31 == 1, false, false⟩
    else ⟨0, 0, false, true, false⟩

/-- Bytes of a block's stored form (R267). -/
def storedSize (b : PackedBlock) : Nat := if b.raw then 4096 else 64 * (b.grans + 1)

end Sys2Proof.Claims

/-- With the vector queue empty: TLOOK gives the slot of a hit with bit 63, the victim suggested, or bit 62 where every
way is pinned; TINS of a slot of the set writes an entry with its pin and dirty bits, clears every other entry of
the block and gives the old entry; TINV invalidates a slot and gives the old entry. Order of use changes by the
lookups that hit and the insertions; nothing else of the core but its counters, no other core and no other register
changes. Ties in the order of use go to the lowest way (DESIGN CHOICE, log 6). (R254, R255, R256, R257, R303) -/
def Obligations.TagResults : Prop :=
  ∀ (i : Instr) (s : State) (ok : Prop) (rd : Reg) (v : Word) (tags : Table Word) (recency : List Nat), Drained s →
    tagOf s i = some (ok, rd, v, tags, recency) → ok →
    ∃ t, exec i s = .next t ∧ Issued s t ((regs s).setS rd v) 0 ∧
      t.core (s.cur / 8) = { myCore s with
        tags := tags, recency := recency, counters := (t.core (s.cur / 8)).counters } ∧ OtherCores s t

/-- A pop (R310). -/
def Sys2Proof.Claims.StreamPops : Prop :=
  ∀ (s : State) (fd : Reg) (qa : Reg3) (x : Stream), Room s → Typed s → (regs s).getQ qa = some x →
    PlainStream (regs s) x false → aligned (gGroup (regs s)) [fd] = true → Aligned (streamAccs x (swept s)) →
    InPad s (streamAccs x (swept s)) →
    let f : MemForm := ⟨true, fd, 1, [], []⟩
    let ws := planeTiles (regs s) f (poppedValues s x)
    Fits s ws [] →
    ∃ t, exec (.vmvPop fd qa) s = .next t ∧
      Issued s t (((regs s).putTiles ws).setQ qa (some (consumedMore x (swept s)))) 0

/-- A push (R310). -/
def Sys2Proof.Claims.StreamPushes : Prop :=
  ∀ (s : State) (fa : Reg) (qd : Reg3) (x : Stream), Drained s → Canonical s → Typed s → (regs s).getQ qd = some x →
    PlainStream (regs s) x true → aligned (gGroup (regs s)) [fa] = true →
    let vals := ((regs s).capture 0).tile fa.toNat
    vals.length = swept s → Aligned (streamAccs x (swept s)) → InPad s (streamAccs x (swept s)) →
    ∃ t, exec (.vmvPush qd fa) s = .next t ∧
      (t.hart s.cur).regs = { (regs s).setQ qd (some (consumedMore x (swept s))) with pc := (me s).successor } ∧
      (∀ h, h ≠ s.cur → t.hart h = s.hart h) ∧ (∀ a, byteAt t.mem a = byteAt s.mem a) ∧
      ∀ c a, byteAt (t.core c).pad a =
        if c = s.cur / 8 then pushedByte x vals a (byteAt (s.core c).pad a) else byteAt (s.core c).pad a

/-- QBIND and QREL (R309, R311). -/
def Sys2Proof.Claims.StreamBinding : Prop :=
  (∀ (s : State) (qd : Reg3) (ra : Reg), Drained s → QuietRelease (regs s) qd → ((regs s).getS ra).toNat % 64 = 0 →
    InWindow ((regs s).getS ra).toNat 288 → (myCore s).padPoison = [] →
    (boundTable s ((regs s).getS ra).toNat).tableOk = true → (boundTable s ((regs s).getS ra).toNat).packed = false →
    ∃ t, exec (.qbind qd ra) s = .next t ∧
      Issued s t ((regs s).setQ qd (some (boundTable s ((regs s).getS ra).toNat))) 0) ∧
  (∀ (s : State) (qd : Reg3), Drained s → QuietRelease (regs s) qd →
    ∃ t, exec (.qrel qd) s = .next t ∧ Issued s t ((regs s).setQ qd none) 0 ∧ SameCores s t)

/-- CPY (R305). -/
def Sys2Proof.Claims.CopiesAreQueued : Prop :=
  ∀ (s : State) (rd ra rb rc : Reg) (ch : BitVec 2), Drained s →
    let dst := (regs s).getS ra
    let src := (regs s).getS rb
    let n := ((regs s).getS rc).toNat
    n < 2 ^ 32 →
    (n = 0 → ∃ t, exec (.cpy rd ra rb rc ch) s = .next t ∧
      Issued s t ((regs s).setS rd (channelOfCore s ch).issued) 0) ∧
    (0 < n → InWindow src.toNat n → InWindow dst.toNat n → (me s).sb = [] → (channelOfCore s ch).queue.length < 16 →
      ∃ t x, exec (.cpy rd ra rb rc ch) s = .next t ∧
        Issued s t ((regs s).setS rd ((channelOfCore s ch).issued + BitVec.ofNat 64 n)) 0 ∧ Accepted s t ch x ∧
        x.src = src.toNat ∧ x.dst = dst.toNat ∧ x.len = n ∧ x.delivered = 0 ∧ x.pages = [] ∧ x.packed = none ∧
        x.charges = [] ∧ x.sent = none)

/-- CPY.x (R306). -/
def Sys2Proof.Claims.ExpandingCopiesAreQueued : Prop :=
  ∀ (s : State) (rd ra rb rc : Reg) (ch : BitVec 2) (offset : Word), Drained s →
    let dst := (regs s).getS ra
    let hdr := ((regs s).getS rb).toNat
    let n := ((regs s).getS rc).toNat
    let b0 := offset.toNat / 4096
    let known := min (n / 4096) (padValue s (hdr + 8) 8 - min b0 (padValue s (hdr + 8) 8))
    let words := (List.range 8).map fun i => padValue s (hdr + 8 * i) 8
    n < 2 ^ 32 → n % 4096 = 0 → offset.toNat % 4096 = 0 → hdr % 64 = 0 → (myCore s).padPoison = [] →
    InWindow hdr 64 → headerOk words = true → bits (words.getD 0 0) 9 8 ≠ 0 →
    (n = 0 → ∃ t, exec (.cpyX rd ra rb rc ch offset) s = .next t ∧
      Issued s t ((regs s).setS rd (channelOfCore s ch).issued) 0) ∧
    (0 < n → (0 < known → InWindow (hdr + 64 + 4 * b0) (4 * known)) → InWindow dst.toNat n →
    (∀ b ∈ packedBlocks s hdr b0 known, InWindow b.addr (storedSize b)) →
    (me s).sb = [] → (channelOfCore s ch).queue.length < 16 →
    ∃ t x, exec (.cpyX rd ra rb rc ch offset) s = .next t ∧
      Issued s t ((regs s).setS rd ((channelOfCore s ch).issued + BitVec.ofNat 64 n)) 0 ∧ Accepted s t ch x ∧
      x.src = offset.toNat ∧ x.dst = dst.toNat ∧ x.len = n ∧ x.delivered = 0 ∧ x.pages = [] ∧
      x.packed = some (packedBlocks s hdr b0 (n / 4096)))

/-- CWAIT (R307). -/
def Sys2Proof.Claims.CopyWaits : Prop :=
  ∀ (s : State) (rd ra : Reg) (ch : BitVec 2), Drained s →
    let pos := ((myCore s).channel ch.toNat).pos
    (0 ≤ (pos - (regs s).getS ra).toInt →
      ∃ t, exec (.cwait rd ra ch) s = .next t ∧ Ran s t ((regs s).setS rd pos)) ∧
    ((pos - (regs s).getS ra).toInt < 0 → ∃ t, exec (.cwait rd ra ch) s = .next t ∧ Waits s t .cwait)

/-- A delivery (R260) and the raise of a mark (R262). -/
def Sys2Proof.Claims.CopyChannelsDeliver : Prop :=
  (∀ (s : State) (core ch count : Nat) (x : Transfer), core < 192 → ch < 4 → s.transfer core ch = some x →
    x.sent = none → x.packed = none → x.pages = [] → x.charges = [] → Memory.wf (s.core core).pad = true →
    (s.core core).padPoison = [] → 0 < count → x.delivered + count ≤ x.len →
    let d := (x.dst + x.delivered) % 2 ^ 64
    let a := (x.src + x.delivered) % 2 ^ 64
    d % 64 + count ≤ 64 → a % 64 + count ≤ 64 →
    ∃ t, exec (.copyChannelDeliver core ch count) s = .next t ∧
      ((t.core core).channel ch).pos = ((s.core core).channel ch).pos + BitVec.ofNat 64 count ∧
      ((t.core core).channel ch).queue = (if x.delivered + count = x.len then ((s.core core).channel ch).queue.tail
        else { x with delivered := x.delivered + count } :: ((s.core core).channel ch).queue.tail) ∧
      (∀ h, t.hart h = s.hart h) ∧ (∀ k, byteAt t.mem k = byteAt s.mem k) ∧
      ∀ c k, byteAt (t.core c).pad k =
        if c = core ∧ d % 2 ^ 21 ≤ k ∧ k < d % 2 ^ 21 + count then
          (getBytes (s.core core).pad (a % 2 ^ 21) count).getD (k - d % 2 ^ 21) 0
        else byteAt (s.core c).pad k) ∧
  (∀ (s : State) (core ch : Nat) (m : Word), core < 192 → ch < 4 → ((s.core core).channel ch).mark = some m →
    ((s.core core).channel ch).queue = [] →
    ∃ t, exec (.channelMarkRaise core ch) s = .next t ∧
      ((t.core core).channel ch).pos =
        (if ((s.core core).channel ch).pos.toNat < m.toNat then m else ((s.core core).channel ch).pos) ∧
      ((t.core core).channel ch).mark = none ∧ ∀ h, t.hart h = s.hart h)

namespace Sys2Proof.Claims

open Sys2Proof.Machine

/-! ## Engines, coprocessor codes, synchronisation and tasks -/

/-- The eight words of a tile that holds one engine command (R312, R313). -/
def commandWords (g : Regs) (fa : Reg) (mask : Reg3) : CmdWords := ⟨(g.capture mask).tile fa.toNat⟩

/-- An object of n bytes at a local home that the running hart may operate on at once (R339): aligned, outside the
scratchpad window, translated and granted for reading and writing, and with no store of the hart or byte of its node's
shadow over it; no page is being migrated. -/
structure ObjectAt (s : State) (a : Word) (n key : Nat) : Prop where
  aligned : a.toNat % n = 0
  place : ∃ e, placeOf s a.toNat needRW = some (.home key, e)
  outside : inWindow a.toNat = false
  clear : ∀ x ∈ (me s).sb, x.meets none key n = false
  plain : s.shadowed a.toNat (s.homeBytes key n) = s.homeBytes key n
  still : s.migrations = []
  certain : s.curSpeculative = false
  fresh : (me s).blocked = none
  asked : s.curRank.requests = []

/-- As RanMem, with words written at keys of device memory, in order. -/
structure RanWords (s t : State) (g : Regs) (ws : List (Nat × Word)) : Prop where
  registers : (t.hart s.cur).regs = { g with pc := (me s).successor }
  runnable : (t.hart s.cur).blocked = none
  node : (t.hart s.cur).node = (me s).node
  others : ∀ h, h ≠ s.cur → t.hart h = s.hart h
  mem : ∀ a, byteAt t.mem a = after (ws.map fun w => (w.1, leBytes 8 w.2.toNat)) a (byteAt s.mem a)
  tbl : ∀ a, byteAt t.tbl a = byteAt s.tbl a
  host : ∀ a, byteAt t.host a = byteAt s.host a
  pads : ∀ c a, byteAt (t.core c).pad a = byteAt (s.core c).pad a

/-- The words a barrier at a home holds after an arrival with a charge (R346, R347), and whether it completes: the group;
and STATE with the charge added and, unless the arrival repeats one of this phase, one arrival more; when every member has
arrived and no byte is pending, the next phase with none of either. -/
def arrivedWords (s : State) (key : Nat) (gid : Word) (charge count : Nat) (again : Bool) : Bool × List (Nat × Word) :=
  let w := s.homeWord (key + 8)
  let arrived := if again then barArrived w else (barArrived w + 1) % 2048
  let pending := barPending w + charge
  let done := decide (0 < arrived) && decide (count ≤ arrived) && decide (pending = 0)
  (done, [(key, gid), (key + 8,
    if done then BitVec.ofNat 64 ((barPhase w + 1) % 65536 * 2 ^ 48)
    else BitVec.ofNat 64 (barPhase w * 2 ^ 48 + pending * 2 ^ 24 + arrived))])

/-- What an arrival at a local home needs (R346): the hart is in its node's private group, the barrier is well formed and
is bound to no other group, the charge fits, and nothing of the hart is on its way. -/
structure MayArrive (s : State) (a : Word) (key mask k count : Nat) : Prop where
  object : ObjectAt s a 64 key
  inGroup : s.privateGroup (me s).part (regs s).groupid = some k
  count : ((s.node (me s).part k).map (·.gcount)) = some count
  group : (regs s).groupid ≠ 0
  wellFormed : s.barOk key = true
  bound : s.homeWord key = 0 ∨ s.homeWord key = (regs s).groupid
  fits : barPending (s.homeWord (key + 8)) + s.undelivered mask ≤ 16777215
  drained : (me s).sb = []
  performed : s.effectsOut = false

/-- Whether the hart's mark names an object and phase. -/
def marked (s : State) (a : Word) (phase : Nat) : Bool := s.curRank.mark == some (a.toNat, phase)

/-- No store of a push stands in the hart's store buffer: it could have to wait for a packet (R310). -/
abbrev NoPush (s : State) : Prop := ∀ e ∈ (me s).sb, e.ordered = false

/-- What stays of a store buffer when every entry that satisfies a condition drains, and before it those it stands behind
(R324, R325). -/
def leftBehind (sb : List StoreEntry) (f : StoreEntry → Bool) : List StoreEntry :=
  ((markDrains f sb).filter fun e => !e.2).map (·.1)

/-- The group that a barrier at a home is bound to has its COUNT on this device, or none that can be read (R85). -/
abbrev LocalGroup (s : State) (key : Nat) : Prop := ∀ q k, s.groupCount (me s).part (s.homeWord key) ≠ .ask q k

/-- The commands accepted for a buffer slot of a partition so far (R335). -/
def acceptedFor (s : State) (p slot : Nat) : List Command :=
  (s.commands.filter fun c => c.2.part == p && c.2.slot == slot && decide (c.1 < s.nextCommand)).map (·.2)

/-- The writes that exchange a buffer: its shadow, piece by piece, to where the pieces of its front stand (R284, R335). -/
def frontWrites (b : Buffer) : List (Nat × List Byte) :=
  (b.pieces.foldl (fun (a : List (Nat × List Byte) × Nat) x => (a.1 ++ [(x.1, getBytes b.shadow a.2 x.2)], a.2 + x.2)) ([], 0)).1

/-- The bytes of a buffer's front, in order. -/
def frontHeld (s : State) (b : Buffer) : List Byte := b.pieces.flatMap fun x => getBytes s.mem x.1 x.2

/-- A buffer slot has changed in its shadow only, which holds the bytes that the front held before (R335). -/
def ShadowHoldsFront (s t : State) (p slot : Nat) (b : Buffer) : Prop :=
  ∃ y b', t.part p = some y ∧ tget y.buffers slot = some b' ∧
    b'.gen = b.gen ∧ b'.base = b.base ∧ b'.size = b.size ∧ b'.moves = b.moves ∧
    ∀ a, byteAt b'.shadow a = (frontHeld s b).getD a 0

/-- The hart that runs is not speculative (R49). -/
abbrev Certain (s : State) : Prop := s.curSpeculative = false

end Sys2Proof.Claims

/-- ESUB of one command (R312-R314). -/
def Sys2Proof.Claims.EngineSubmission : Prop :=
  ∀ (s : State) (md : Reg3) (fa : Reg) (mask : Reg3) (p : Nat) (x : Partition), Drained s → Typed s → Certain s →
    gFmt (regs s) = 3 → swept s = 8 → aligned (gGroup (regs s)) [fa] = true → ((regs s).getM mask).getLsbD 0 = true →
    ((commandWords (regs s) fa mask).w).length = 8 → (me s).part = p → s.part p = some x →
    let c := commandWords (regs s) fa mask
    let old := (regs s).getM md
    (c.ok = false → ∃ t, exec (.esub md fa 0 mask) s = .next t ∧
      Issued s t (withMask (regs s) md ((old >>> 8) <<< 8)) 0 ∧ (t.hart s.cur).esub = 1 ∧ t.commands = s.commands) ∧
    (c.ok = true → c.op ≠ 3 → x.bufferOf c.handle = none →
      ∃ t, exec (.esub md fa 0 mask) s = .next t ∧
        Issued s t (withMask (regs s) md ((old >>> 8) <<< 8)) 0 ∧ (t.hart s.cur).esub = 2 ∧ t.commands = s.commands) ∧
    (c.ok = true → c.op = 1 → (∃ b, x.bufferOf c.handle = some b) → (s.rights p .memory .engine).getLsbD 1 = true →
      s.rangeDenied p c.src c.len = false → (∀ a ∈ rangePages c.src c.len, (s.walk p a).2 = []) → s.curRank.requests = [] →
      if Config.engineQueueDepth ≤ s.queued then
        ∃ t, exec (.esub md fa 0 mask) s = .next t ∧
          Issued s t (withMask (regs s) md ((old >>> 8) <<< 8)) 0 ∧ (t.hart s.cur).esub = 4 ∧ t.commands = s.commands
      else ∃ t y, exec (.esub md fa 0 mask) s = .next t ∧
        Issued s t (withMask (regs s) md ((old >>> 8) <<< 8 ||| 1)) 0 ∧ (t.hart s.cur).esub = 0 ∧
        t.commands = tput s.commands s.nextCommand y ∧ y.part = p ∧ y.op = 1 ∧ y.slot = c.handle / 65536 ∧
        y.gen = c.handle % 65536 ∧ y.offset = c.offset ∧ y.src = c.src ∧ y.len = c.len ∧ y.total = c.len ∧
        y.written = 0 ∧ y.barrier = none ∧ y.ended = false)

/-- With the vector queue empty and the hart not speculative. Code 0x01 gives the next free word; 0x20 the refusal
reasons of the last ESUB; 0x10 and 0x11 with an index below 8 read and clear a core counter (of counter 3, an
instruction of a started convoy adds its own element groups); at TL 1 or 2, 0x08 writes STEP, clamped to FLOOR, and
ESC, 0x09 the limit and window of REPLAY_LIMIT and 0x0A clears REPLAY_COUNT; at TL 0 with a handler these three trap
ILLEGAL with WHY 7. Random bits are a free value (log 31): the statement holds for every value. (R315, R316, R386,
R387, R388) -/
def Obligations.CoprocessorResults : Prop :=
  ∀ (s : State) (rd ra rb : Reg), Drained s → Certain s →
    (∃ t, exec (.xcopRandom rd ra rb) s = .next t ∧ Issued s t ((regs s).setS rd (Config.freeWord s.free)) 0 ∧
      t.free = s.free + 1) ∧
    (∃ t, exec (.xcopEsubReasons rd ra rb) s = .next t ∧ Issued s t ((regs s).setS rd (me s).esub) 0) ∧
    (((regs s).getS ra).toNat < 8 →
      (∃ t, exec (.xcopCounterRead rd ra rb) s = .next t ∧
        Issued s t ((regs s).setS rd (BitVec.ofNat 64 ((myCore s).counters.toList.getD ((regs s).getS ra).toNat 0))) 0) ∧
      (∃ t, exec (.xcopCounterClear ra rb) s = .next t ∧ Issued s t (regs s) 0 ∧ SameCores s t ∧
        ∀ n : Fin 8, (n.val ≠ 3 ∨ ¬ InConvoy s) → (t.core (s.cur / 8)).counters[n] =
          if n.val = ((regs s).getS ra).toNat then 0 else (myCore s).counters[n])) ∧
    ((regs s).tl ≠ 0 →
      let v := ((regs s).getS ra).toNat
      (∃ t, exec (.xcopMarginSet ra rb) s = .next t ∧ Issued s t (regs s) 0 ∧
        (t.core (s.cur / 8)).esc = bits v 9 8 ∧ (t.core (s.cur / 8)).stepPoint = min (bits v 7 0) (myCore s).floor ∧
        (t.core (s.cur / 8)).floor = (myCore s).floor) ∧
      (∃ t, exec (.xcopReplayLimit ra rb) s = .next t ∧ Issued s t (regs s) 0 ∧
        t.core (s.cur / 8) = { myCore s with
          window := bits v 39 16, limit := bits v 15 0, counters := (t.core (s.cur / 8)).counters }) ∧
      (∃ t, exec (.xcopReplayCountClear ra rb) s = .next t ∧ Issued s t (regs s) 0 ∧
        t.core (s.cur / 8) = { myCore s with
          escn := 0, wincnt := 0, total := 0, counters := (t.core (s.cur / 8)).counters })) ∧
    ((regs s).tl = 0 → (regs s).vector ≠ 0 →
      ∀ i, i = .xcopMarginSet ra rb ∨ i = .xcopReplayLimit ra rb ∨ i = .xcopReplayCountClear ra rb →
        ∃ t, exec i s = .next t ∧ Entered s t (regs s) 0x01 (regs s).pc (illegalWord s 7) 0)

/-- ACQ, REL and BIND (R326-R329, R341, R342). -/
def Sys2Proof.Claims.ObjectOperations : Prop :=
  (∀ (s : State) (ra : Reg) (key : Nat), Drained s → Canonical s → ObjectAt s ((regs s).getS ra) 64 key →
    s.syncOk key = true → s.objectLost key = false →
    (s.homeWord key = s.holder → ∃ t, exec (.acq ra) s = .next t ∧ RanWords s t (regs s) []) ∧
    (s.homeWord key ≠ s.holder → (s.homeWord key).getLsbD 63 = false → (∀ x ∈ s.acqs, x.1 ≠ key) →
      ∃ t, exec (.acq ra) s = .next t ∧ RanWords s t (regs s) [(key, s.holder)]) ∧
    (s.homeWord key ≠ s.holder → (s.homeWord key).getLsbD 63 = true → (∀ x ∈ s.acqs, x.1 ≠ key) →
      ∃ t, exec (.acq ra) s = .next t ∧ Waits s t .acq ∧
        t.acqs = s.acqs ++ [(key, .hart s.cur ((regs s).getS ra).toNat)])) ∧
  (∀ (s : State) (ra : Reg) (key : Nat), Drained s → Canonical s → ObjectAt s ((regs s).getS ra) 64 key →
    s.syncOk key = true → (∀ x ∈ (me s).sb, x.tags.contains ((regs s).getS ra).toNat = false) →
    s.taggedOut ((regs s).getS ra).toNat = false →
    ∃ t, exec (.rel ra) s = .next t ∧ RanWords s t (regs s)
      (if s.homeWord key = s.holder then [(key + 8, s.homeWord (key + 8) + 1), (key, 0)] else [])) ∧
  (∀ (s : State) (ra rb : Reg) (key i : Nat), Drained s → Canonical s → ObjectAt s ((regs s).getS ra) 64 key →
    s.syncOk key = true → ((regs s).getS rb).getLsbD 63 = true → bits ((regs s).getS rb).toNat 62 57 = 0 →
    (∀ va ∈ regionPages ((regs s).getS rb), inWindow va = false ∧ va < 2 ^ 57) →
    i < 4 → (s.homeWord (key + 24 + 8 * i)).getLsbD 63 = false →
    (∀ j < i, (s.homeWord (key + 24 + 8 * j)).getLsbD 63 = true) →
    ∃ t, exec (.bind ra rb) s = .next t ∧ RanWords s t (regs s) [(key + 24 + 8 * i, (regs s).getS rb)])

/-- The grant of a waiting ACQ (R328). -/
def Sys2Proof.Claims.WaitingAcquisitionsAreGranted : Prop :=
  ∀ (s : State) (key h va : Nat) (rest : List (Nat × Waiter)), Canonical s → s.acqs = (key, .hart h va) :: rest →
    s.syncOk key = true → s.objectLost key = false → (s.homeWord key).getLsbD 63 = false → s.migrations = [] →
    s.homeWord key ≠ ({ s with cur := h } : State).holder → (s.hart h).fresh = false → (s.hart h).partway = none →
    ∃ t, exec (.acqGrant key) s = .next t ∧
      (t.hart h).regs = { (s.hart h).regs with pc := (s.hart h).successor } ∧ (t.hart h).blocked = none ∧
      (∀ a, byteAt t.mem a = after [(key, leBytes 8 ({ s with cur := h } : State).holder.toNat)] a (byteAt s.mem a)) ∧
      t.cur = s.cur

/-- With the vector queue empty and, but for scopes 0 and 1 and what traps or stays, no store of a push in the store
buffer: FENCE with scope 0 or 1 completes with 0; with scope 2 or 3 it completes with 0, having performed the
buffered stores to local homes (for 2, of the die) and those before them, and leaves the rest in the buffer; with
scope 4 or 5, no buffered or posted store of the hart to a peer or register and nothing else under way, it completes
with the status of R332 and an empty buffer; while an effect of the hart is under way it stays at the fence; a scope
above 5 traps ILLEGAL with WHY 6. EFENCE completes with 0 once no read is unchecked and no poison recorded, stays
while a read is unchecked, and with poison recorded traps POISON_CONSUMED with TVAL the lowest poisoned address.
(R331, R332, R333, R343, R397) -/
def Obligations.FencesComplete : Prop :=
  (∀ (s : State) (scope : Reg3) (rd : Reg), Drained s → scope.toNat ≤ 1 →
    ∃ t, exec (.fence scope rd) s = .next t ∧ Ran s t ((regs s).setS rd 0)) ∧
  (∀ (s : State) (scope : Reg3) (rd : Reg), Drained s → NoPush s → scope = 2 ∨ scope = 3 →
    ∃ t, exec (.fence scope rd) s = .next t ∧
      (t.hart s.cur).regs = { (regs s).setS rd 0 with pc := (me s).successor } ∧ (t.hart s.cur).blocked = none ∧
      (t.hart s.cur).sb = leftBehind (me s).sb fun e => e.peer.isNone && (scope == 3 ||
        e.parts.any fun x => homePool x.key / 2 == s.cur / 8 / 48)) ∧
  (∀ (s : State) (scope : Reg3) (rd : Reg), Drained s → NoPush s → scope = 4 ∨ scope = 5 → (∀ e ∈ (me s).sb, e.peer = none) →
    s.migrations = [] → s.effectsOut = false → (∀ x ∈ s.posted, x.hart ≠ s.cur) →
    ∃ t, exec (.fence scope rd) s = .next t ∧
      (t.hart s.cur).regs = { (regs s).setS rd (if s.curRank.lost = 0 then 0
        else BitVec.ofNat 64 (min s.curRank.lost 0xFFFFFFFF * 2 ^ 32 + 1)) with pc := (me s).successor } ∧
      (t.hart s.cur).blocked = none ∧ (t.hart s.cur).sb = []) ∧
  (∀ (s : State) (scope : Reg3) (rd : Reg), Drained s → Handled s → 5 < scope.toNat →
    ∃ t, exec (.fence scope rd) s = .next t ∧ Entered s t (regs s) 0x01 (regs s).pc (illegalWord s 6) 0) ∧
  (∀ (s : State) (scope : Reg3) (rd : Reg), Drained s → scope = 4 ∨ scope = 5 → s.effectsOut = true →
    ∃ t, exec (.fence scope rd) s = .next t ∧ (t.hart s.cur).regs = regs s ∧ (t.hart s.cur).blocked = none) ∧
  (∀ (s : State) (rd : Reg), Drained s → NoPush s → s.curRank.poison = none → (me s).unchecked = 0 →
    ∃ t, exec (.efence rd) s = .next t ∧
      (t.hart s.cur).regs = { (regs s).setS rd 0 with pc := (me s).successor } ∧ (t.hart s.cur).blocked = none ∧
      (t.hart s.cur).sb = leftBehind (me s).sb fun e => e.peer.isNone) ∧
  (∀ (s : State) (rd : Reg), Drained s → (me s).unchecked ≠ 0 →
    ∃ t, exec (.efence rd) s = .next t ∧ (t.hart s.cur).regs = regs s ∧ (t.hart s.cur).blocked = none) ∧
  (∀ (s : State) (rd : Reg) (va : Nat), Drained s → Handled s → (me s).sb = [] → (me s).unchecked = 0 →
    s.curRank.poison = some va →
    ∃ t, exec (.efence rd) s = .next t ∧ Entered s t (regs s) 0x18 (regs s).pc (BitVec.ofNat 64 va) 0)

/-- ARRIVE and BAR (R346-R348). -/
def Sys2Proof.Claims.BarrierArrivals : Prop :=
  (∀ (s : State) (ra rb : Reg) (key k count : Nat), Drained s → Canonical s → ((regs s).getS rb).toNat < 16 →
    MayArrive s ((regs s).getS ra) key ((regs s).getS rb).toNat k count →
    ∃ t, exec (.arrive ra rb) s = .next t ∧ RanWords s t (regs s)
      (arrivedWords s key (regs s).groupid (s.undelivered ((regs s).getS rb).toNat) count
        (marked s ((regs s).getS ra) (barPhase (s.homeWord (key + 8))))).2) ∧
  (∀ (s : State) (ra : Reg) (key k count : Nat), Drained s → Canonical s → MayArrive s ((regs s).getS ra) key 0 k count →
    let r := arrivedWords s key (regs s).groupid 0 count (marked s ((regs s).getS ra) (barPhase (s.homeWord (key + 8))))
    (r.1 = true → ∃ t, exec (.bar ra) s = .next t ∧ RanWords s t (regs s) r.2) ∧
    (r.1 = false → ∃ t, exec (.bar ra) s = .next t ∧ (t.hart s.cur).regs = regs s ∧
      (t.hart s.cur).blocked = some .barrier ∧
      ∀ a, byteAt t.mem a = after (r.2.map fun w => (w.1, leBytes 8 w.2.toNat)) a (byteAt s.mem a)))

/-- WAIT (R348). -/
def Sys2Proof.Claims.BarrierWaits : Prop :=
  ∀ (s : State) (ra : Reg) (key : Nat), Drained s → Canonical s → ObjectAt s ((regs s).getS ra) 64 key → s.barOk key = true →
    LocalGroup s key →
    let w := s.homeWord (key + 8)
    (marked s ((regs s).getS ra) (barPhase w) = true → ∃ t, exec (.wait ra) s = .next t ∧ Waits s t .wait) ∧
    (marked s ((regs s).getS ra) (barPhase w) = false → barPending w ≠ 0 →
      ∃ t, exec (.wait ra) s = .next t ∧ Waits s t .waitPending) ∧
    (marked s ((regs s).getS ra) (barPhase w) = false → barPending w = 0 →
      ∃ t, exec (.wait ra) s = .next t ∧ Ran s t (regs s))

/-- With the vector queue empty and the object at a local home: JOIN gives ALREADY to a member, MALFORMED for a bad
record, and else adds to COUNT and EPOCH and sets GROUPID; LEAVE gives NONE outside a group, and, in a package
without barriers, lowers the count of a private group and gives LEFT; CLAIM with a valid VTYPE advances the counter
by the grant and gives the base in s[d] and the grant in VL. No other byte of memory, register or hart changes.
(R81, R82, R84, R86, R339, R349, R350) -/
def Obligations.GroupsAndCounters : Prop :=
  (∀ (s : State) (rd ra : Reg) (key : Nat), Drained s → Canonical s → ObjectAt s ((regs s).getS ra) 64 key →
    ((regs s).groupid ≠ 0 → ∃ t, exec (.join rd ra) s = .next t ∧ RanWords s t ((regs s).setS rd 1) []) ∧
    ((regs s).groupid = 0 → s.groupOk key = false →
      ∃ t, exec (.join rd ra) s = .next t ∧ RanWords s t ((regs s).setS rd 2) []) ∧
    ((regs s).groupid = 0 → s.groupOk key = true →
      ∃ t, exec (.join rd ra) s = .next t ∧
        RanWords s t ({ regs s with groupid := (regs s).getS ra }.setS rd 0)
          [(key, s.homeWord key + 1), (key + 8, s.homeWord (key + 8) + 1)])) ∧
  (∀ (s : State) (rd : Reg), Drained s → Certain s → (regs s).groupid = 0 →
    ∃ t, exec (.leave rd) s = .next t ∧ Ran s t ((regs s).setS rd 1)) ∧
  (∀ (s : State) (rd : Reg) (p k : Nat) (n : Node), Drained s → Certain s → (regs s).groupid ≠ 0 → (me s).part = p →
    s.privateGroup p (regs s).groupid = some k → s.node p k = some n → s.barriers = [] →
    ∃ t m, exec (.leave rd) s = .next t ∧ Ran s t ({ regs s with groupid := 0 }.setS rd 0) ∧ t.node p k = some m ∧
      m.gcount = n.gcount - 1 ∧ m.gepoch = (n.gepoch + 1) % 2 ^ 64) ∧
  (∀ (s : State) (rd ra rb : Reg) (key : Nat), Drained s → Canonical s → Typed s →
    ObjectAt s ((regs s).getS ra) 16 key →
    let next := (s.homeWord key).toNat
    let stop := (s.homeWord (key + 8)).toNat
    let want := min ((regs s).getS rb).toNat (vlBound (regs s).vtype (regs s).rc.toNat)
    let grant := if next < stop then min want (stop - next) else 0
    ∃ t, exec (.claim rd ra rb) s = .next t ∧
      RanWords s t { (regs s).setS rd (BitVec.ofNat 64 next) with vl := BitVec.ofNat 64 grant }
        [(key, BitVec.ofNat 64 (next + grant))])

/-- PUBLISH (R335, R351). -/
def Sys2Proof.Claims.PublishExchanges : Prop :=
  ∀ (s : State) (rd ra : Reg) (p slot : Nat) (x : Partition) (b : Buffer), Drained s → Canonical s → Certain s →
    (me s).blocked = none → ((regs s).getS ra).toNat < 2 ^ 32 → (me s).part = p → s.part p = some x → x.bufferOf ((regs s).getS ra).toNat = some (slot, b) → s.migrations = [] →
    ((∃ c ∈ acceptedFor s p slot, c.ended = false) →
      ∃ t, exec (.publish rd ra) s = .next t ∧ Waits s t .publish) ∧
    ((∀ c ∈ acceptedFor s p slot, c.ended = true ∧ c.gen = b.gen ∧ c.unresolved = false) →
      ∃ t, exec (.publish rd ra) s = .next t ∧
        (t.hart s.cur).regs = { (regs s).setS rd 0 with pc := (me s).successor } ∧
        (∀ h, h ≠ s.cur → t.hart h = s.hart h) ∧
        (∀ a, byteAt t.mem a = after (frontWrites b) a (byteAt s.mem a)) ∧ ShadowHoldsFront s t p slot b) ∧
    ((∃ c ∈ acceptedFor s p slot, c.gen ≠ b.gen) → (∀ c ∈ acceptedFor s p slot, c.ended = true) →
      ∃ t, exec (.publish rd ra) s = .next t ∧ Ran s t ((regs s).setS rd 2) ∧ ShadowHoldsFront s t p slot b) ∧
    ((∃ c ∈ acceptedFor s p slot, c.unresolved = true) →
      (∀ c ∈ acceptedFor s p slot, c.ended = true ∧ c.gen = b.gen) →
      ∃ t, exec (.publish rd ra) s = .next t ∧ Ran s t ((regs s).setS rd 3) ∧ ShadowHoldsFront s t p slot b)

/-- A PUBLISH that waited (R335). -/
def Sys2Proof.Claims.BlockedPublishExchanges : Prop :=
  ∀ (s : State) (h : Nat) (rd ra : Reg) (p slot : Nat) (x : Partition) (b : Buffer), Canonical s →
    (s.hart h).publishing = some (rd, ra) → (s.hart h).fresh = false → (s.hart h).partway = none → (s.hart h).queue = [] →
    ((s.hart h).regs.getS ra).toNat < 2 ^ 32 →
    ({ s with cur := h } : State).curSpeculative = false → (s.hart h).part = p → s.part p = some x →
    x.bufferOf ((s.hart h).regs.getS ra).toNat = some (slot, b) → s.migrations = [] →
    (∀ c ∈ ({ s with cur := h } : State).commandsFor p slot, c.ended = true ∧ c.gen = b.gen ∧ c.unresolved = false) →
    ∃ t, exec (.publishExchange h) s = .next t ∧ t.cur = s.cur ∧
      (t.hart h).regs = { (s.hart h).regs.setS rd 0 with pc := (s.hart h).successor } ∧
      (t.hart h).blocked = none ∧
      (∀ a, byteAt t.mem a = after (frontWrites b) a (byteAt s.mem a)) ∧ ShadowHoldsFront s t p slot b

/-- NODE (R353). -/
def Sys2Proof.Claims.NodesAreCreated : Prop :=
  (∀ (s : State) (rd ra : Reg), Drained s → s.hartRight 3 = false →
    ∃ t, exec (.node rd ra) s = .next t ∧ Ran s t ((regs s).setS rd 0x0000000B00000000)) ∧
  (∀ (s : State) (rd ra : Reg) (key p k : Nat) (x : Partition), Drained s → Canonical s → s.hartRight 3 = true →
    ObjectAt s ((regs s).getS ra) 128 key → (me s).part = p → s.part p = some x → x.freeNode = some k →
    x.recordStatus (wordsOf 16 (s.homeBytes key 128)) = 0 →
    ∃ t n, exec (.node rd ra) s = .next t ∧
      RanWords s t ((regs s).setS rd (BitVec.ofNat 64 (x.handle k))) [(key + 0x78, BitVec.ofNat 64 (x.handle k))] ∧
      t.node p k = some n ∧ n.record = recordOf ((regs s).getS ra).toNat (wordsOf 16 (s.homeBytes key 128)) ∧
      n.state = (if n.record.held then .held else .ready) ∧ n.preds = 0 ∧ n.ranks = [] ∧
      (∀ j, j ≠ k → t.node p j = s.node p j)) ∧
  (∀ (s : State) (rd ra : Reg) (key : Nat), Drained s → s.hartRight 3 = true → ObjectAt s ((regs s).getS ra) 128 key →
    ∃ t w, exec (.node rd ra) s = .next t ∧
      (t.hart s.cur).regs = { (regs s).setS rd w with pc := (me s).successor } ∧ (t.hart s.cur).blocked = none)

/-- EDGE (R354). -/
def Sys2Proof.Claims.EdgesOrderNodes : Prop :=
  (∀ (s : State) (rd ra rb : Reg), Drained s → (s.hartRight 3 = true → Certain s) →
    ((regs s).getS ra).toNat < 2 ^ 32 → ((regs s).getS rb).toNat < 2 ^ 32 →
    ∃ t code, exec (.edge rd ra rb) s = .next t ∧ Ran s t ((regs s).setS rd code) ∧ (s.hartRight 3 = false → code = 5)) ∧
  ∀ (s : State) (rd ra rb : Reg) (p j : Nat) (x : Partition) (n : Node), Drained s → Certain s → s.hartRight 3 = true →
    ((regs s).getS ra).toNat < 2 ^ 32 → ((regs s).getS rb).toNat < 2 ^ 32 → (me s).part = p → s.part p = some x →
    x.slotOf ((regs s).getS rb).toNat = some j → tget x.nodes j = some n →
    (n.state ≠ .held → ∃ t, exec (.edge rd ra rb) s = .next t ∧ Ran s t ((regs s).setS rd 2)) ∧
    (n.state = .held → (regs s).getS ra = 0 →
      ∃ t m, exec (.edge rd ra rb) s = .next t ∧ Ran s t ((regs s).setS rd 1) ∧ t.node p j = some m ∧
        m.state = (if 0 < n.preds then .waiting else .ready) ∧ m.preds = n.preds) ∧
    (∀ i, n.state = .held → (regs s).getS ra ≠ 0 → (regs s).getS ra ≠ (regs s).getS rb →
      x.slotOf ((regs s).getS ra).toNat = some i → n.preds < 65535 → x.links.length < 4 * x.slots →
      ∃ t m y, exec (.edge rd ra rb) s = .next t ∧ Ran s t ((regs s).setS rd 0) ∧ t.part p = some y ∧
        tget y.nodes j = some m ∧ m.preds = n.preds + 1 ∧ m.state = .held ∧ y.links = x.links ++ [(i, j)])

/-- For a hart with an empty vector queue and store buffer, nothing outstanding, no poison, no bound stream and no
group: after DONE the hart is as after reset and every other hart as before; with another rank running the node goes
on with this rank done; as the last rank of a partition that is not in deterministic mode it removes the node.
(R355, R33, R34) -/
def Obligations.DoneEndsTheRank : Prop :=
  ∀ (s : State) (p k r : Nat) (n : Node), Drained s → (me s).node = some (p, k, r) → s.node p k = some n →
    s.curRank.poison = none → (me s).sb = [] → s.undelivered 15 = 0 → (∀ q, (regs s).getQ q = none) →
    (regs s).groupid = 0 → s.curRank.requests = [] →
    ∃ t, exec .done s = .next t ∧ t.hart s.cur = Hart.reset ∧ (∀ h, h ≠ s.cur → t.hart h = s.hart h) ∧
      ((∃ e ∈ n.ranks, e.1 ≠ r ∧ e.2.done = false) →
        (∃ m, t.node p k = some m ∧ m.state = n.state) ∧ (t.rank p k r).done = true ∧ (t.rank p k r).hart = none) ∧
      ((∀ e ∈ n.ranks, e.1 ≠ r → e.2.done = true) → (∃ x, s.part p = some x ∧ x.det = false) → t.node p k = none)

/-- With the vector queue empty, a handle below 2^32 and no CANCEL of the rank already waiting: without the CANCEL right
4; for a hart that is not speculative: for a stale handle 3; a HELD or WAITING node, or a READY one with no cancel
pending, is removed with 0; a running node whose cancel was delivered gives 1 and one waiting to commit 2; a running
node with none delivered has the cancel pending, its IDLE harts wake, and the hart waits. That a cancel already
delivered gives 1 at once is the model's reading (log 27). (R53, R185, R352, R357) -/
def Obligations.CancelOutcomes : Prop :=
  (∀ (s : State) (rd ra : Reg), Drained s → ((regs s).getS ra).toNat < 2 ^ 32 → s.curRank.cancelling = none →
    s.hartRight 4 = false → ∃ t, exec (.cancel rd ra) s = .next t ∧ Ran s t ((regs s).setS rd 4)) ∧
  (∀ (s : State) (rd ra : Reg), Drained s → Certain s → ((regs s).getS ra).toNat < 2 ^ 32 →
    s.curRank.cancelling = none → s.hartRight 4 = true → s.slotOf (me s).part ((regs s).getS ra).toNat = none →
    ∃ t, exec (.cancel rd ra) s = .next t ∧ Ran s t ((regs s).setS rd 3)) ∧
  (∀ (s : State) (rd ra : Reg) (p k j r : Nat) (n : Node), Drained s → Certain s → ((regs s).getS ra).toNat < 2 ^ 32 →
    s.curRank.cancelling = none → s.hartRight 4 = true → (me s).node = some (p, j, r) →
    s.slotOf p ((regs s).getS ra).toNat = some k → s.node p k = some n → k ≠ j →
    ((n.state = .held ∨ n.state = .waiting ∨ (n.state = .ready ∧ n.cancel ≠ .pending)) →
      ∃ t, exec (.cancel rd ra) s = .next t ∧
        (t.hart s.cur).regs = { (regs s).setS rd 0 with pc := (me s).successor } ∧ t.node p k = none) ∧
    (n.state = .running → n.cancel = .delivered →
      ∃ t, exec (.cancel rd ra) s = .next t ∧ Ran s t ((regs s).setS rd 1)) ∧
    (n.state = .commitWait → ∃ t, exec (.cancel rd ra) s = .next t ∧ Ran s t ((regs s).setS rd 2)) ∧
    (n.state = .running → n.cancel ≠ .delivered →
      ∃ t m, exec (.cancel rd ra) s = .next t ∧ (t.hart s.cur).regs = regs s ∧
        (t.hart s.cur).blocked = some .cancel ∧ t.node p k = some m ∧ m.cancel = .pending ∧
        ∀ e ∈ n.placed, e.2 ≠ s.cur → (s.hart e.2).blocked = some .idle → (t.hart e.2).blocked = none))

/-- With the vector queue empty: CHKC gives 1 exactly when a cancel is pending or delivered, and delivers a pending one,
and gives 0 outside a node; SNEXT gives word 0, TEMPLATE, ARG or the table and index of the entry that issued the
node, and 0 for a node that no table issued; SLOTFREE of a slot filled with the micro-batch, by a hart that is not
speculative, empties it, given EGRESS unless the entry names no neighbour to tell. (R359) -/
def Obligations.NodeReports : Prop :=
  (∀ (s : State) (rd : Reg) (p k r : Nat) (n : Node), Drained s → (me s).node = some (p, k, r) → s.node p k = some n →
    ∃ t, exec (.chkc rd) s = .next t ∧ Ran s t ((regs s).setS rd (if n.cancel = .none then 0 else 1)) ∧
      (n.cancel = .pending → ∃ m, t.node p k = some m ∧ m.cancel = .delivered)) ∧
  (∀ (s : State) (rd : Reg), Drained s → (me s).node = none →
    ∃ t, exec (.chkc rd) s = .next t ∧ Ran s t ((regs s).setS rd 0)) ∧
  (∀ (s : State) (rd : Reg) (k : BitVec 2) (n : Node) (e : SchedEntry) (tb i run : Nat), Drained s → s.curNode = some n →
    n.issued = some e → n.sched = some (tb, i, run) →
    ∃ t, exec (.snext rd k) s = .next t ∧ Ran s t ((regs s).setS rd
      (if k = 0 then e.word0 else if k = 1 then e.template else if k = 2 then e.arg
        else BitVec.ofNat 64 (2 ^ 63 + tb * 2 ^ 16 + i)))) ∧
  (∀ (s : State) (rd : Reg) (k : BitVec 2) (n : Node), Drained s → s.curNode = some n → n.issued = none →
    ∃ t, exec (.snext rd k) s = .next t ∧ Ran s t ((regs s).setS rd 0)) ∧
  (∀ (s : State) (ra : Reg) (gradient : Bool) (n : Node) (e : SchedEntry) (tb i run slot : Nat), Drained s → Certain s →
    ((regs s).getS ra).toNat < 4096 → s.curNode = some n → n.issued = some e → n.sched = some (tb, i, run) →
    (s.sched tb).run = run → (s.sched tb).state = .running → (me s).sb = [] →
    (s.sched tb).slotOf (!gradient) ((regs s).getS ra).toNat = some slot →
    ((if gradient then bits e.word0.toNat 34 26 else bits e.word0.toNat 43 35) = 511 ∨ s.hartEgress = true) →
    ∃ t, exec (.slotfree ra gradient) s = .next t ∧
      (t.hart s.cur).regs = { regs s with pc := (me s).successor } ∧
      (t.sched tb).slotOf (!gradient) ((regs s).getS ra).toNat = none)

namespace Sys2Proof.Claims

open Sys2Proof.Machine

/-! ## SETSHAPE, MLOAD.csr and YIELD -/

/-- Whether SETSHAPE accepts a tag that is not zero (R146, R147, R206). -/
def tagFits (t : Word) : Bool :=
  !tagReserved t && tagBasis t != 3 && decide (1 ≤ tagRows t) && decide (tagRows t ≤ 16) && decide (tagFmt t ≤ 10) &&
    (if tagBasis t = 0 then tagDims t == 1 && decide (tagLen t * fmtWidth (tagFmt t) ≤ 16384)
    else tagLen t == 0 && shapeLegal (tagFmt t) (tagDegs t))

/-- The address of element k of an array of an MLOAD.csr. -/
def arrayAt (base eb k : Nat) : Nat := (base + eb * k) % 2 ^ 64

/-- The compressed sparse rows in the scratchpad: row pointers, and the entries of a row with their columns (R242). -/
def csrPtr (s : State) (hdr t : Nat) : Nat := padValue s (arrayAt (padValue s (arrayAt hdr 8 0) 8) 4 t) 4
def csrCol (s : State) (hdr e : Nat) : Nat := padValue s (arrayAt (padValue s (arrayAt hdr 8 1) 8) 4 e) 4
def csrRow (s : State) (hdr t : Nat) : List Nat :=
  (List.range (csrPtr s hdr (t + 1) - csrPtr s hdr t)).map fun i => csrPtr s hdr t + i

/-- Row t of the dense matrix: a column takes the value of the last entry that names it, or 0. -/
def csrDense (s : State) (hdr cols eb t : Nat) : List Nat :=
  (List.range cols).map fun c =>
    match (csrRow s hdr t).reverse.find? fun e => csrCol s hdr e == c with
    | some e => padValue s (arrayAt (padValue s (arrayAt hdr 8 2) 8) eb e) eb
    | none => 0

/-- A row that raises NV: its pointers fall, or an entry names no column. -/
def csrBad (s : State) (hdr cols t : Nat) : Bool :=
  decide (csrPtr s hdr (t + 1) < csrPtr s hdr t) || (csrRow s hdr t).any fun e => decide (cols ≤ csrCol s hdr e)

/-- Every access of an MLOAD.csr lies in the scratchpad window. -/
structure CsrInPad (s : State) (hdr rows cols eb : Nat) : Prop where
  header : ∀ i < 4, InWindow (arrayAt hdr 8 i) 8
  ptrs : ∀ t ≤ rows, InWindow (arrayAt (padValue s (arrayAt hdr 8 0) 8) 4 t) 4
  columns : ∀ t < rows, ∀ e ∈ csrRow s hdr t, InWindow (arrayAt (padValue s (arrayAt hdr 8 1) 8) 4 e) 4
  vals : ∀ t < rows, ∀ e ∈ csrRow s hdr t, csrCol s hdr e < cols →
    InWindow (arrayAt (padValue s (arrayAt hdr 8 2) 8) eb e) eb
  clean : (myCore s).padPoison = []

end Sys2Proof.Claims

/-- SETSHAPE (R206). -/
def Sys2Proof.Claims.ShapesAreSet : Prop :=
  ∀ (s : State) (rd ra : Reg), Room s →
    let t := (regs s).getS ra
    let d := (regs s).phys rd.toNat
    let x := (regs s).getF rd.toNat
    let y : Tile := ⟨t, (List.range (tagRows t)).map fun j => BitVec.ofNat 16384 (x.row j % 2 ^ (8 * rowBytes t))⟩
    (t = 0 → ∃ u, exec (.setshape rd ra) s = .next u ∧ Issued s u ((regs s).putTiles [(d, Tile.empty)]) 0) ∧
    (t ≠ 0 → tagFits t = true → Fits s [(d, y)] [d] →
      ∃ u, exec (.setshape rd ra) s = .next u ∧ Issued s u ((regs s).putTiles [(d, y)]) 0) ∧
    (t ≠ 0 → tagReserved t = true → (me s).queue = [] → Handled s →
      ∃ u, exec (.setshape rd ra) s = .next u ∧ Entered s u (regs s) 0x01 (regs s).pc (illegalWord s 6) 0)

/-- MLOAD.csr (R242). -/
def Sys2Proof.Claims.SparseRowsLoad : Prop :=
  ∀ (s : State) (pd ra : Reg) (disp : Word), Drained s → Typed s → (slotOf s pd).owner = some s.cur →
    slotFormat (gFmt (regs s)) = true → gFmt (regs s) ≠ 0xA →
    let hdr := ((regs s).getS ra + disp).toNat
    let cols := (regs s).dlen[0].toNat
    let rows := (regs s).dlen[1].toNat
    let eb := gWidth (regs s) / 8
    rows * cols * gWidth (regs s) / 8 ≤ 32768 → hdr % 8 = 0 →
    (rows = 0 ∨ cols = 0 → ∃ t, exec (.mloadCsr pd ra disp) s = .next t ∧ Issued s t (regs s) 0 ∧
      SlotBecomes s t pd { slotOf s pd with content := some ⟨rows, cols, gFmt (regs s), none, []⟩ }) ∧
    (0 < rows → 0 < cols → CsrInPad s hdr rows cols eb → padValue s (arrayAt hdr 8 3) 8 = 0 →
    let flags := if (List.range rows).any (csrBad s hdr cols) then 1 else 0
    Quiet s flags →
    ∃ t, exec (.mloadCsr pd ra disp) s = .next t ∧ Issued s t (regs s) flags ∧
      SlotBecomes s t pd { slotOf s pd with
        content := some ⟨rows, cols, gFmt (regs s), none, (List.range rows).map (csrDense s hdr cols eb)⟩ })

/-- YIELD (R356). -/
def Sys2Proof.Claims.YieldPreemptsOrContinues : Prop :=
  (∀ (s : State), Drained s → ((me s).node = none ∨
      ∃ p k r, (me s).node = some (p, k, r) ∧ s.yieldSlot p k = none) →
    ∃ t, exec .yield s = .next t ∧ Ran s t (regs s)) ∧
  (∀ (s : State) (p k r slot : Nat) (n : Node), Drained s → NoPush s → (me s).node = some (p, k, r) → s.node p k = some n →
    (∃ r', (r', s.cur) ∈ n.placed) → s.yieldSlot p k = some slot →
    s.settled p k = true →
    ∃ t m, exec .yield s = .next t ∧ t.hart s.cur = Hart.reset ∧ t.node p k = some m ∧ m.state = .ready ∧
      m.saved = some slot ∧ m.level = n.record.prio ∧ m.passes = 0) ∧
  (∀ (s : State) (p k r slot : Nat), Drained s → NoPush s → (me s).node = some (p, k, r) → s.yieldSlot p k = some slot →
    s.settled p k = false →
    ∃ t, exec .yield s = .next t ∧ (t.hart s.cur).regs = regs s ∧ (t.hart s.cur).blocked = none)

namespace Sys2Proof.Claims

open Sys2Proof.Machine

/-! ## Device events: start, sessions, partitions, the dispatcher -/

/-- Every hart is as before. -/
def HartsKept (s t : State) : Prop := ∀ h, t.hart h = s.hart h

/-- The device after a start from cold (R18): the flash images stand, and what is outside the device: the schedule, time,
the free values used, host memory, and what has left. -/
def coldStart (s : State) : State :=
  { State.reset with
    agenda := s.agenda
    cur := s.cur
    now := s.now
    ticks := s.ticks
    free := s.free
    flash := s.flash
    host := s.host
    out := s.out
    timeBase := s.now }

/-- An answer has left. -/
def said (s : State) (a : Answer) : State := { s with out := .doe a :: s.out }

/-- The answer to a request that is supported outside a session only (R423). -/
def inClear (s : State) (a : Answer) : Answer := if s.secured then .error else a

/-- A stage's work is in progress. -/
abbrev AtStage (s : State) (n : BitVec 3) : Prop := s.st.stage = n ∧ s.st.busy = true ∧ s.st.fail = false

/-- A stage fails with a code: FAIL is set, BUSY clears; every hart is as before (R20, R22). -/
structure StageFails (s t : State) (st : Stage) (code : BitVec 8) : Prop where
  status : t.st = { st with fail := true, busy := false, failCode := code }
  harts : HartsKept s t
  mem : t.mem = s.mem

/-- The cores and ports that pass a stage 2. -/
def goodOf (n : Nat) (bad : List Nat) : List Nat := (List.range n).filter fun i => !bad.contains i

/-- The measurement of the grants is of those the partitions hold (R423). -/
def Measured (t : State) : Prop := t.measured = t.parts.map fun e => e.2.grant e.1

/-- Whether a schedule-table access of the host is granted (R57). -/
def TableGranted (s : State) (p tb : Nat) : Prop :=
  ∃ x, s.part p = some x ∧ x.teardown = .none ∧ x.tables.contains tb = true ∧
    (s.rights p .dispatcher .host).getLsbD 5 = true

/-- The registers of a hart at placement (R76). -/
def placementRegs (r : NodeRecord) (hart handle rank : Nat) (gid : Word) : Regs :=
  { Regs.reset with
    pc := r.entry
    s := Vector.ofFn fun i : Fin 32 => ([0, r.params[0], r.params[1], r.params[2], r.params[3], BitVec.ofNat 64 rank,
      BitVec.ofNat 64 r.harts] : List Word).getD i.val 0
    hartid := BitVec.ofNat 64 hart
    nodeid := BitVec.ofNat 64 handle
    groupid := gid }

/-- No ready node's pass count is to be acted on (R45). -/
abbrev NothingDue (s : State) : Prop :=
  ∀ e ∈ s.parts, ∀ n ∈ e.2.nodes, n.2.state = .ready → 4096 ≤ n.2.passes → n.2.level = 7 ∧ e.2.reservation ≠ none

end Sys2Proof.Claims

/-- Power and a fundamental reset leave the device as after reset but for the flash images and what lies outside it; a
fundamental reset keeps ATTEMPT. A restart is ignored at stage 3 while a partition exists, and else returns
STAGE_STATUS to its reset value with ATTEMPT one higher and FAIL_CODE kept, starts time anew, starts the numbers of
every peer at 0 keeping PEER_FAIL, takes the ports that were up out of service, and drops waiting ACQs and lines
being fetched from peers. A write to STAGE_CMD restarts exactly when bit 0 is 1. That ATTEMPT stays at 255, that a
fundamental reset keeps it, and what a restart leaves are the model's readings (log 40, log 45). (R18, R22, R24,
R377, R421) -/
def Obligations.StartsAndRestarts : Prop :=
  ∀ (s : State),
    exec .powerUp s = .next (if s.powered then s else coldStart s) ∧
    exec .powerLoss s = .next { coldStart s with powered := false } ∧
    exec .fundamentalReset s = .next { coldStart s with st := { Stage.reset with attempt := s.st.attempt } } ∧
    exec .restart s = .next (if s.st.stage = 3 ∧ s.parts ≠ [] then s else
      { s with
        st := { Stage.reset with
          attempt := if s.st.attempt = 255 then 255 else s.st.attempt + 1
          failCode := s.st.failCode }
        timeBase := s.now
        early := true
        peers := s.peers.map fun e => (e.1, { Peer.reset with failed := e.2.failed })
        ports := s.ports.map fun e => (e.1, { e.2 with state := if e.2.state = 1 then 0 else e.2.state, inRow := 0 })
        fetched := []
        acqs := [] }) ∧
    ∀ v : Word, exec (.registerWrite (.silven none) ⟨0x008, 8⟩ v) s = if v.getLsbD 0 = true then exec .restart s else .next s

/-- A stage 0 that verifies, every first-stage image in flash with a good signature and a version not below the minimum,
leads to stage 1 and else fails with 0x01; stage 1 records the memories and fails with 0x02 or 0x03 if one is
missing; stage 2 quarantines bad cores, marks bad ports down, sets the counts and the floors and leads to stage 3 if
a core of each class is left, and else fails with 0x04; the watchdog fails a stage with 0x05. (R19, R20, R21, R22,
R23, R386, R390, R379, R423) -/
def Obligations.StagesEnd : Prop :=
  (∀ (s : State), AtStage s 0 →
    ((∀ i ∈ s.flash, i.firstStage = true → i.signatureOk = true ∧ Config.minimumVersion ≤ i.version) →
      exec (.stage0Complete true) s = .next { s with st := { s.st with stage := 1 } }) ∧
    (∀ ok, ok = false ∨ (∃ i ∈ s.flash, i.firstStage = true ∧ ¬ (i.signatureOk = true ∧ Config.minimumVersion ≤ i.version)) →
      ∃ t, exec (.stage0Complete ok) s = .next t ∧ StageFails s t s.st 0x01)) ∧
  (∀ (s : State) (hbm : BitVec 8) (lp : Bool), AtStage s 1 →
    (hbm = 0xFF → lp = true →
      exec (.stage1Complete hbm lp) s = .next { s with st := { s.st with hbmOk := hbm, lpOk := lp, stage := 2 } }) ∧
    (hbm ≠ 0xFF ∨ lp = false → ∃ t, exec (.stage1Complete hbm lp) s = .next t ∧
      StageFails s t { s.st with hbmOk := hbm, lpOk := lp } (if hbm ≠ 0xFF then 0x02 else 0x03))) ∧
  (∀ (s : State) (badCores badPorts floors : List Nat), AtStage s 2 →
    ∃ t, exec (.stage2Complete badCores badPorts floors) s = .next t ∧ HartsKept s t ∧
      t.st.coresIn.toNat = (goodOf 192 badCores).length ∧ t.st.portsIn.toNat = (goodOf 72 badPorts).length ∧
      (∀ c < 192, (t.core c).quarState = (if badCores.contains c then 2 else 0) ∧
        (t.core c).quarCause = (if badCores.contains c then 1 else 0) ∧ (t.core c).floor = min (floors.getD c 0) 40 ∧
        (t.core c).stepPoint = min (floors.getD c 0) 40) ∧
      (∀ n < 72, (t.port n).state = if badPorts.contains n then 2 else 1) ∧
      ((∃ c ∈ goodOf 192 badCores, isFC c = true) → (∃ c ∈ goodOf 192 badCores, isFC c = false) →
        t.st.stage = 3 ∧ t.st.busy = false ∧ t.st.fail = false) ∧
      (((∀ c ∈ goodOf 192 badCores, isFC c = false) ∨ (∀ c ∈ goodOf 192 badCores, isFC c = true)) →
        t.st.stage = 2 ∧ t.st.busy = false ∧ t.st.fail = true ∧ t.st.failCode = 0x04)) ∧
  (∀ (s : State), s.st.stage ≠ 3 → s.st.busy = true → s.st.fail = false →
    ∃ t, exec .stageWatchdogExpiry s = .next t ∧ StageFails s t s.st 0x05)

/-- An image is taken in, replacing the one of its kind, exactly when its signature is good and its version not below
the minimum; one refused while stage 0 runs fails the stage with 0x01. The requests of R423 outside a session are
answered when they come in clear and with an error when they come under a session; KEY_EXCHANGE opens a session in
clear; FINISH confirms it; KEY_UPDATE, HEARTBEAT, END_SESSION and the IDE requests are answered under a confirmed
session and with an error otherwise, and change the session, the key sets and the set in use; any other request
gives an error. The measurements are of the boot ROM, the two images and the grants. Keys, signatures and digests
are opaque values: the statement holds for every value. That FINISH is taken in clear and secured alike, the ERROR
answers by the state of the session (none, not confirmed, in clear) and K_SET_GO of a set that is not programmed are
the model's choices (DEDUCED and DESIGN CHOICE, log 19). (R423, R23) -/
def Obligations.FirmwareAndSessions : Prop :=
  ∀ (s : State),
    (∀ (i : FirmwareImage), i.signatureOk = true ∧ Config.minimumVersion ≤ i.version →
      exec (.firmwareIntake i) s = .next { s with flash := i :: s.flash.filter fun x => x.firstStage != i.firstStage }) ∧
    (∀ (i : FirmwareImage), ¬ (i.signatureOk = true ∧ Config.minimumVersion ≤ i.version) →
      (¬ AtStage s 0 → exec (.firmwareIntake i) s = .next s) ∧
      (AtStage s 0 → ∃ t, exec (.firmwareIntake i) s = .next t ∧ StageFails s t s.st 0x01)) ∧
    (exec .getVersion s = .next (said s (inClear s .version)) ∧
      exec .getCapabilities s = .next (said s (inClear s .capabilities)) ∧
      exec .negotiateAlgorithms s = .next (said s (inClear s .algorithms)) ∧
      exec .getDigests s = .next (said s (inClear s .digests)) ∧
      exec .getCertificate s = .next (said s (inClear s .certificate)) ∧
      (∀ nonce, exec (.challenge nonce) s = .next (said s (inClear s (.challengeAuth (Config.identitySign nonce))))) ∧
      (∃ a b, exec .getMeasurements s =
          .next (said s (inClear s (.measurements [Config.bootRomDigest, a, b, Config.grantDigest s.measured]))) ∧
        (∀ x, s.flash.find? (fun i => i.firstStage) = some x → a = x.digest) ∧
        (∀ x, s.flash.find? (fun i => !i.firstStage) = some x → b = x.digest))) ∧
    (s.secured = false → exec .keyExchange s = .next (said { s with
      session := some ⟨false, Config.sessionKey s.free⟩, free := s.free + 1 } .keyExchangeRsp)) ∧
    (s.secured = true → exec .keyExchange s = .next (said s .error)) ∧
    (∀ k, s.session = some ⟨false, k⟩ →
      exec .finish s = .next (said { s with session := some ⟨true, k⟩ } .finishRsp)) ∧
    ((∀ k, s.session ≠ some ⟨false, k⟩) → exec .finish s = .next (said s .error)) ∧
    (∀ k, s.secured = true → s.session = some ⟨true, k⟩ →
      exec .keyUpdate s = .next (said { s with
        session := some ⟨true, Config.sessionKey s.free⟩, free := s.free + 1 } .keyUpdateAck) ∧
      exec .heartbeat s = .next (said s .heartbeatAck) ∧
      exec .endSession s = .next (said { s with session := none } .endSessionAck) ∧
      exec .query s = .next (said s (.ideQueryResp (s.ideKeys.map (·.1)))) ∧
      (∀ n key, exec (.keyProg n key) s = .next (said { s with ideKeys := tput s.ideKeys n key } .keyProgAck)) ∧
      (∀ n, exec (.kSetGo n) s = .next (if (tget s.ideKeys n).isSome then said { s with ideActive := some n } .goAck
        else said s .error)) ∧
      (∀ n, exec (.kSetStop n) s = .next (said { s with
        ideActive := if s.ideActive = some n then none else s.ideActive } .stopAck))) ∧
    (s.secured = false ∨ (∀ k, s.session ≠ some ⟨true, k⟩) →
      ∀ i, i = .keyUpdate ∨ i = .heartbeat ∨ i = .endSession ∨ i = .query ∨ (∃ n key, i = .keyProg n key) ∨
        (∃ n, i = .kSetGo n) ∨ (∃ n, i = .kSetStop n) →
        exec i s = .next (said s .error)) ∧
    exec .spdmUnsupportedRequest s = .next (said s .error)

/-- Before stage 3 a creation is answered as not ready; at stage 3 a grant that is not allowed changes nothing, and an
allowed one gives a partition with exactly what was granted, its registers and tables at their reset values, and
measures the grants. A first teardown stops admission and keeps only running nodes, waiting for them; another, or
one of a partition that does not exist, changes nothing. When the wait expires or no node runs, the partition is
gone, its cores' scratchpads, Palette and channels are empty, its frames read as zeros and the grants are measured
again. That the copy channels of the cores are emptied is the model's choice: R425 names frames, scratchpads and
Palette only (DEDUCED, log 45). (R31, R37, R38, R19, R423, R425) -/
def Obligations.PartitionsComeAndGo : Prop :=
  (∀ (s : State) (g : Grant), s.st.stage ≠ 3 → exec (.partitionCreate g) s = .next { s with out := .notReady :: s.out }) ∧
  (∀ (s : State) (g : Grant), s.st.stage = 3 → s.grantOk g = true →
    ∃ t x, exec (.partitionCreate g) s = .next t ∧ t.part g.part = some x ∧ (∀ p, p ≠ g.part → t.part p = s.part p) ∧
      HartsKept s t ∧ t.mem = s.mem ∧ Measured t ∧ x.cores = g.cores ∧ x.frames = g.frames ∧
      x.tables = g.tables ∧ x.windows = g.windows ∧ (∀ tb ∈ g.tables, ∃ n, t.sched tb = { SchedTable.reset with run := n }) ∧
      x.slots = g.slots ∧ x.access = g.access ∧ x.enable = false ∧
      x.accepted = 0 ∧ x.dropped = 0 ∧ x.specMax = 64 ∧ x.det = false ∧ x.relyK = 16 ∧ x.relyMode = 0 ∧ x.keystone = 0 ∧
      x.nodes = [] ∧ x.inserts = [] ∧ x.teardown = .none) ∧
  (∀ (s : State) (g : Grant), s.st.stage = 3 → s.grantOk g = false → exec (.partitionCreate g) s = .next s) ∧
  (∀ (s : State) (p : Nat) (x : Partition), s.part p = some x → x.teardown = .none →
    ∃ t y, exec (.partTeardown p) s = .next t ∧ t.part p = some y ∧ y.teardown = .waiting ∧ y.enable = false ∧
      ∀ k n, tget y.nodes k = some n → n.state = .running) ∧
  (∀ (s : State) (p : Nat), (∀ x, s.part p = some x → x.teardown = .waiting) → exec (.partTeardown p) s = .next s) ∧
  (∀ (s : State) (p : Nat) (x : Partition) (i : Instr), s.part p = some x → x.teardown = .waiting →
    (i = .teardownWaitExpiry p ∨ (i = .teardownNodesEnded p ∧ ∀ e ∈ x.nodes, e.2.state ≠ .running)) →
    ∃ t, exec i s = .next t ∧ t.part p = none ∧ Measured t ∧
      (∀ c ∈ x.cores, (t.core c).pad = [] ∧ (∀ n : Fin 32, (t.core c).slots[n] = Slot.reset) ∧
        ∀ n : Fin 4, (t.core c).channels[n].queue = []) ∧
      (∀ key, x.frames.contains (homePool key, homeFrame key) = true → byteAt t.mem key = 0))

/-- For a partition that is not being torn down: a write to an enabled insert window that is aligned and granted queues
the record and counts it accepted; any other is counted dropped. Reading the oldest record, when it is sound and at
a local home, writes its handle to LAST_HANDLE and makes a node, HELD or READY. WIN_CTL sets ENABLE; PART_MODE sets
its fields, and DET only while the node table is empty, taking a Keystone when it sets it. (R28, R29, R40, R41, R42,
R48, R398) -/
def Obligations.HostWindow : Prop :=
  (∀ (s : State) (p : Nat) (addr : Word) (x : Partition), s.part p = some x → x.teardown = .none →
    (x.enable = true → addr.toNat % 128 = 0 → (s.rights p .dispatcher .host).getLsbD 3 = true →
      ∃ t y, exec (.insert p addr) s = .next t ∧ t.part p = some y ∧ y.inserts = x.inserts ++ [addr] ∧
        y.accepted = x.accepted + 1 ∧ y.dropped = x.dropped ∧ y.nodes = x.nodes ∧ HartsKept s t) ∧
    ((x.enable = false ∨ addr.toNat % 128 ≠ 0 ∨ (s.rights p .dispatcher .host).getLsbD 3 = false) →
      ∃ t y, exec (.insert p addr) s = .next t ∧ t.part p = some y ∧ y.inserts = x.inserts ∧ y.accepted = x.accepted ∧
        y.dropped = x.dropped + 1 ∧ y.nodes = x.nodes ∧ HartsKept s t)) ∧
  (∀ (s : State) (p key k : Nat) (addr : Word) (rest : List Word) (x : Partition), s.part p = some x →
    x.teardown = .none → x.inserts = addr :: rest → addr.toNat % 128 = 0 →
    s.devPlace p addr.toNat needR = .ok (.home key) → (s.walk p addr.toNat).2 = [] → s.migrations = [] →
    x.recordStatus (wordsOf 16 (s.homeBytes key 128)) = 0 → x.freeNode = some k →
    ∃ t y n, exec (.insertRecordRead p) s = .next t ∧ t.part p = some y ∧ y.inserts = rest ∧ y.reads = x.reads + 1 ∧
      y.lastHandle = BitVec.ofNat 64 (x.handle k) ∧ tget y.nodes k = some n ∧
      n.record = recordOf addr.toNat (wordsOf 16 (s.homeBytes key 128)) ∧
      n.state = (if n.record.held then .held else .ready) ∧ HartsKept s t) ∧
  (∀ (s : State) (p : Nat) (v : Word) (x : Partition), s.part p = some x → x.teardown = .none →
    ∃ t, exec (.winCtlWrite p v) s = .next t ∧ t.part p = some { x with enable := v.getLsbD 0 } ∧ HartsKept s t) ∧
  (∀ (s : State) (p : Nat) (v : Word) (x : Partition), s.part p = some x → x.teardown = .none →
    ∃ t y, exec (.partModeWrite p v) s = .next t ∧ t.part p = some y ∧ HartsKept s t ∧
      y.keystone.toNat = v.toNat / 2 ^ 32 ∧ y.specMax.toNat = bits v.toNat 15 8 ∧ y.nodes = x.nodes ∧
      y.det = (if x.nodes = [] then v.getLsbD 0 else x.det) ∧
      (x.nodes = [] → v.getLsbD 0 = true → x.det = false → y.snapshot ≠ none ∧ y.klog = []))

/-- With no pass count due, the first node of the ready pool, when it may be placed, fits a core and asks for no group,
is placed on that core's lowest free harts with the registers of R76 and its private group; with no ready node
nothing happens. A pass count of 4,096 raises the level, and at level 7 reserves. The oldest node that waits to
commit is committed and counted, and a byte of its shadow is written to its home and nothing else. Order and ties of
placement are the model's choice where the spec leaves them open (log 16). (R43, R44, R45, R46, R47, R50, R76, R81) -/
def Obligations.NodesArePlaced : Prop :=
  (∀ (s : State) (r : Ready) (rest : List Ready) (x : Partition) (c : Nat), NothingDue s → s.readyPool = r :: rest →
    s.part r.part = some x → x.specOk r.slot = true → s.coreFor x r = some c → r.node.saved = none →
    r.node.record.group = 0 → r.node.record.harts ≤ (s.freeHarts c).length →
    let gid := BitVec.ofNat 64 (2 ^ 63 + x.handle r.slot)
    ∃ t n, exec .placeNode s = .next t ∧ t.node r.part r.slot = some n ∧ n.state = .running ∧ n.record = r.node.record ∧
      n.gcount = n.record.harts ∧
      (∀ i h, (s.freeHarts c)[i]? = some h → i < n.record.harts →
        t.hart h = { Hart.reset with
          regs := placementRegs n.record h (x.handle r.slot) i gid
          node := some (r.part, r.slot, i) }) ∧
      (∀ h, h ∉ (s.freeHarts c).take n.record.harts → t.hart h = s.hart h)) ∧
  (∀ (s : State), (∀ e ∈ s.parts, ∀ n ∈ e.2.nodes, n.2.state ≠ .ready) → exec .placeNode s = .next s) ∧
  (∀ (s : State) (p k : Nat) (x : Partition) (n : Node), s.part p = some x → tget x.nodes k = some n → n.state = .ready →
    4096 ≤ n.passes →
    (n.level < 7 → ∃ t, exec (.passCountReached p k) s = .next t ∧
      t.node p k = some { n with level := n.level + 1, passes := 0 } ∧ HartsKept s t) ∧
    (n.level = 7 → x.reservation = none → ∃ t y, exec (.passCountReached p k) s = .next t ∧ t.part p = some y ∧
      y = { x with reservation := some k } ∧ HartsKept s t)) ∧
  (∀ (s : State) (p k : Nat) (x : Partition) (n : Node), s.part p = some x → x.det = true → x.oldest = some (k, n) →
    tget x.nodes k = some n → n.state = .commitWait →
    ∃ t y, exec (.nodeCommit p) s = .next t ∧ t.part p = some y ∧ tget y.nodes k = none ∧ y.commits = x.commits + 1 ∧
      y.lastTs = some n.record.tstamp.toNat) ∧
  (∀ (s : State) (p k va key : Nat) (b : Byte) (x : Partition) (n : Node), Canonical s → s.part p = some x →
    x.det = true → x.nodes = [(k, n)] → n.state = .commitWait → n.shadow = [(va, b)] → n.shadowBad = [] → n.saved = none →
    n.sched = none → n.record.donectr = 0 → s.devPlace p va needW = .ok (.home key) → s.migrations = [] →
    ∃ t, exec (.nodeCommit p) s = .next t ∧ ∀ a, byteAt t.mem a = if a = key then b else byteAt s.mem a)

/-- START of a stopped table gives CONFIG or DET_MODE, or loads with every count cleared and the registers latched; STOP
of a loading table makes it IDLE, and of a running one drops the entries left and makes it IDLE with no live node of
the table and STOPPING with one; the load runs the table or faults on a bad entry; a cycle passes an entry of kind
0, issues an entry whose conditions all hold and stashes and spends credit as its kind says, and with no node
running and a condition failing records the stall; a slot message counts a credit, a dropped message, or the
overflow. That a STOP with no live node ends at once, and that a cycle records the stall although an issued node
waits READY, are the model's choices (DESIGN CHOICE, log 44): for the second R71's table stands beside its BUB_CORE
list. (R58, R59, R60, R61, R62, R63, R66, R67, R68, R70, R71) -/
def Obligations.ScheduleTablesRun : Prop :=
  (∀ (s : State) (p tb : Nat) (v : Word), TableGranted s p tb →
    ((s.sched tb).state = .idle ∨ (s.sched tb).state = .done ∨ (s.sched tb).state = .faulted) →
    let x := { s.sched tb with ctl := (v ||| 1) &&& 0x00FFFFFFFFFC0700 }
    (x.configOk = false → ∃ t, exec (.schedStart p tb v) s = .next t ∧ t.sched tb = { x with err := 0x08 }) ∧
    (x.configOk = true → (∀ y, s.part p = some y → y.det = true) →
      ∃ t, exec (.schedStart p tb v) s = .next t ∧ t.sched tb = { x with err := 0x03 }) ∧
    (x.configOk = true → (∀ y, s.part p = some y → y.det = false) →
      ∃ t, exec (.schedStart p tb v) s = .next t ∧ (t.sched tb).state = .loading ∧ (t.sched tb).err = 0 ∧
        (t.sched tb).stall = 7 ∧ (t.sched tb).head = 0 ∧ (t.sched tb).fscUp = bits x.ctl.toNat 55 49 ∧
        (t.sched tb).fscDown = bits x.ctl.toNat 48 42 ∧ (t.sched tb).stash = [] ∧ (t.sched tb).actFilled = [] ∧
        (t.sched tb).gradFilled = [] ∧ (t.sched tb).latched = [x.ctl, x.base, x.actBase, x.gradBase, x.slotBytes] ∧
        (t.sched tb).bub = Vector.replicate 7 0 ∧ HartsKept s t)) ∧
  (∀ (s : State) (p tb : Nat) (v : Word), TableGranted s p tb →
    ((s.sched tb).state = .loading → ∃ t, exec (.schedStop p tb v) s = .next t ∧ (t.sched tb).state = .idle) ∧
    ((s.sched tb).state = .running → s.tableOwner tb = some p →
      ∃ t, exec (.schedStop p tb v) s = .next t ∧
        (t.sched tb).dropEntries = (s.sched tb).dropEntries + BitVec.ofNat 32 ((s.sched tb).len - (s.sched tb).head) ∧
        ((∀ y, s.part p = some y → ∀ e ∈ y.nodes, e.2.sched = none) → (t.sched tb).state = .idle) ∧
        ((∃ y, s.part p = some y ∧ ∃ e ∈ y.nodes, ∃ i, e.2.sched = some (tb, i, (s.sched tb).run)) →
          (t.sched tb).state = .stopping))) ∧
  (∀ (s : State) (p tb key : Nat), s.tableOwner tb = some p → (s.sched tb).state = .loading →
    let x := s.sched tb
    let base := (x.latched.getD 1 0).toNat
    0 < x.len → base % 65536 + 32 * x.len ≤ 65536 → s.devPlace p base needR = .ok (.home key) → s.migrations = [] →
    ((entriesOf x.len (s.homeBytes key (32 * x.len))).2 = true → x.actSlots + x.gradSlots ≤ x.seals.length →
      ∃ t, exec (.schedLoadComplete tb) s = .next t ∧
        t.sched tb = { x with state := .running, entries := (entriesOf x.len (s.homeBytes key (32 * x.len))).1 }) ∧
    ((entriesOf x.len (s.homeBytes key (32 * x.len))).2 = false →
      ∃ t, exec (.schedLoadComplete tb) s = .next t ∧ (t.sched tb).state = .faulted ∧ (t.sched tb).err = 0x02)) ∧
  (∀ (s : State) (p tb : Nat) (e : SchedEntry), s.tableOwner tb = some p → (s.sched tb).state = .running →
    (s.sched tb).entries[(s.sched tb).head]? = some e →
    let x := s.sched tb
    (e.kind = 0 → ∃ t, exec (.schedCycle tb) s = .next t ∧ (t.sched tb).head = x.head + 1 ∧
      (t.sched tb).stash = x.stash ∧ HartsKept s t) ∧
    (∀ h u, e.kind ≠ 0 → x.conditions e = (true, true, true) →
      s.makeNode p e.template.toNat (some ⟨tb, x.head, x.run, bits x.latchedCtl 10 8, e⟩) = (.made 0 h, u) →
      ∃ t, exec (.schedCycle tb) s = .next t ∧ (t.sched tb).head = x.head + 1 ∧
        (t.sched tb).stash = (if e.kind = 1 then tput x.stash e.stash e.mb else x.stash) ∧
        (t.sched tb).fscDown = (if e.kind = 1 ∧ e.down ≠ 511 then x.fscDown - 1 else x.fscDown) ∧
        (t.sched tb).fscUp = (if e.kind = 2 ∧ e.up ≠ 511 then x.fscUp - 1 else x.fscUp)) ∧
    (x.conditions e ≠ (true, true, true) → (∀ y, s.part p = some y → ∀ n ∈ y.nodes, n.2.state ≠ .running) →
      x.head < x.len →
      ∃ t, exec (.schedCycle tb) s = .next t ∧ (t.sched tb).head = x.head ∧ (t.sched tb).state = .running ∧
        (t.sched tb).stall = x.stallOf (x.conditions e) ∧ HartsKept s t)) ∧
  (∀ (s : State) (tb : Nat) (act : Bool), tb < 16 →
    ((s.sched tb).state ≠ .running → ∃ t, exec (.slotMessage tb act) s = .next t ∧
      t.sched tb = { s.sched tb with dropMsgs := (s.sched tb).dropMsgs + 1 }) ∧
    ((s.sched tb).state = .running → (if act then (s.sched tb).fscDown else (s.sched tb).fscUp) < 64 →
      ∃ t, exec (.slotMessage tb act) s = .next t ∧
        t.sched tb = if act then { s.sched tb with fscDown := (s.sched tb).fscDown + 1 }
          else { s.sched tb with fscUp := (s.sched tb).fscUp + 1 }) ∧
    ((s.sched tb).state = .running → 64 ≤ (if act then (s.sched tb).fscDown else (s.sched tb).fscUp) →
      ∃ t, exec (.slotMessage tb act) s = .next t ∧ (t.sched tb).state = .faulted ∧ (t.sched tb).err = 0x07))

namespace Sys2Proof.Claims

open Sys2Proof.Machine

/-! ## Device events: the sequencer, margin, the fabric, the pager, memory, registers -/

/-- A hart's queue and FFLAGS change; every other register of every hart is as before. -/
structure QueueStep (s t : State) (h : Nat) (queue : List QueueEntry) (flags : BitVec 7) : Prop where
  queue : (t.hart h).queue = queue
  registers : (t.hart h).regs = { (s.hart h).regs with fflags := (s.hart h).regs.fflags ||| flags.setWidth 64 }
  others : ∀ j, j ≠ h → t.hart j = s.hart j

/-- A hart other than by its own step has trapped: as `Entered`, for hart h, without the frame of the cores. -/
structure Trapped (s t : State) (h : Nat) (g : Regs) (cause val : Word) : Prop where
  registers : (t.hart h).regs = { g.setBank (g.tl.toNat + 1) ⟨cause, g.pc, val, 0⟩ with
    tl := BitVec.ofNat 2 (g.tl.toNat + 1)
    pc := g.vector + 2 }
  queue : (t.hart h).queue = []
  others : ∀ j, j ≠ h → t.hart j = s.hart j

/-- A started convoy of a hart still holds its units: an instruction of it is still to come, or one that has started has not
written its last element group (R113). -/
def holding (x : Hart) : Bool :=
  match x.running with
  | none => false
  | some v => (v.toCome != 0 && !x.convoyStart && x.queue.all (·.started)) || x.queue.any fun e => e.started && !e.written

/-- The classes of the units held on a core. -/
def unitsHeld (s : State) (core : Nat) : List Nat :=
  (List.range 8).flatMap fun i =>
    if holding (s.hart (8 * core + i)) then (((s.hart (8 * core + i)).running.map (·.classes)).getD []) else []

/-- The classes of the convoy a hart could start: that of its oldest entry that has not started, none while one of its
convoys holds its units, or an MCLAIM of it is still to be queued (R239, log 8). -/
def convoyOf (s : State) (h : Nat) : Option (List Nat) :=
  if holding (s.hart h) || !(s.hart h).convoyReady then none else ((s.hart h).queue.find? fun e => !e.started).bind (·.convoy)

/-- The i-th of a core's harts can start its convoy: units are free for it (R104, R113). -/
def canStart (s : State) (core i : Nat) : Bool :=
  match convoyOf s (8 * core + i) with
  | none => false
  | some v => (List.range 11).all fun k => k == 0 || !v.contains k ||
      decide (((unitsHeld s core).filter (· == k)).length + (v.filter (· == k)).length ≤ classLimit (isFC core) k)

/-- How many instructions wait for a recheck on a core (R117). -/
def rechecks (s : State) (core : Nat) : Nat :=
  ((List.range 8).map fun i => ((s.hart (8 * core + i)).queue.filter fun e => e.written && e.recheck == .due).length).sum

/-- A core's claims as an entry that starts leaves them: one that claims a slot has made its attempt (R239). -/
def attempted (c : Core) (h : Nat) (e : QueueEntry) : QueueEntry × Vector Slot 32 :=
  match e.claim with
  | none => ({ e with started := true }, c.slots)
  | some (p, _) => ({ e with started := true, claim := some (p, some (c.slots.toList.getD p Slot.reset)) },
      c.slots.setIfInBounds p (claimed (c.slots.toList.getD p Slot.reset) h))

/-- An entry still waits for the slot it claims. -/
def waitsForSlot (s : State) (h : Nat) (e : QueueEntry) : Bool :=
  match e.claim with
  | none => false
  | some (p, _) => !e.started || !((s.core (h / 8)).slots.toList.getD p Slot.reset).grantedTo h

/-- An entry that has started and may write its last element group. -/
def mayWrite (s : State) (h : Nat) (e : QueueEntry) : Bool := e.started && !e.written && !waitsForSlot s h e

/-- A hart's queue once the oldest entry that may write its last element group has. -/
def oldestWritten (s : State) (h : Nat) (q : List QueueEntry) : List QueueEntry :=
  match q with
  | [] => []
  | e :: rest => if mayWrite s h e then { e with written := true } :: rest else e :: oldestWritten s h rest

/-- A started entry may retire (R116): it can trap no more, or it has written, no recheck is due and no claim waits; and no
vector access of the hart still waits in its issue queue (log 9). -/
def retires (s : State) (h : Nat) (e : QueueEntry) : Bool :=
  e.started && (s.hart h).iq.all (fun x => !x.vec) && (e.final || (e.written && e.recheck != .due && !waitsForSlot s h e))

/-- The registers a queued instruction's trap returns to: those before it, with the flags merged since, and PEND and UNRES
as the pager's replies have left them (R112, R407). -/
def returned (old now : Regs) : Regs :=
  let bank := fun b c : TrapBank => { b with cause := (b.cause &&& ~~~0xC000) ||| (c.cause &&& 0xC000) }
  { old with fflags := now.fflags, trap1 := bank old.trap1 now.trap1, trap2 := bank old.trap2 now.trap2 }

/-- TVAL of REPLAY_EXHAUSTED: the failing lane and the first element of the group (R385). -/
def exhaustVal (element lane : Nat) : Word := BitVec.ofNat 64 (lane % 2048 * 65536 + element % 65536)

/-- A hart runs a node with a handler for traps, and its trap level allows one more. -/
abbrev HandledBy (x : Hart) (g : Regs) : Prop := x.node ≠ none ∧ g.tl ≠ 2 ∧ g.vector ≠ 0

/-- A hart stands before an instruction of a class, none of whose effects is under way. -/
structure ComesTo (s : State) (h cls : Nat) : Prop where
  line : ∃ l, (s.hart h).line = some l ∧
    unitClass (lineOpcode l.bits (((s.hart h).regs.pc.toNat % 64 - 2) / 2)).1
      (lineOpcode l.bits (((s.hart h).regs.pc.toNat % 64 - 2) / 2)).2 = cls
  queue : (s.hart h).queue = []
  runnable : (s.hart h).blocked = none
  issued : (s.hart h).iq = []
  whole : (s.hart h).partway = none
  alone : ∀ p k r, (s.hart h).node = some (p, k, r) → (s.rank p k r).requests = []

/-- A hart that is runnable (R88): it runs a node and no rule says that it is blocked; a hart whose PUBLISH waits for commands,
or whose waiting ACQ has been refused, is not blocked in that sense. -/
def runsNode (x : Hart) : Bool :=
  x.node.isSome && (x.blocked == none || x.blocked == some .publish || x.blocked == some .refused)

/-- An entry that knows of a load whose data check has ended clean. -/
def countedDown (e : QueueEntry) : QueueEntry :=
  if e.before.unchecked = 0 then e else { e with before := { e.before with unchecked := e.before.unchecked - 1 } }

/-- The partition of a hart's node is not deterministic. -/
abbrev PlainPart (s : State) (h : Nat) : Prop :=
  ∀ p k r, (s.hart h).node = some (p, k, r) → ∀ x, s.part p = some x → x.det = false

/-- A packet whose every access is granted by the entry of its frame (R372). -/
def Admitted (s : State) (p : Packet) : Prop :=
  ∀ a ∈ packetNeeds p, ∃ e, s.frameEntry a.1 = some e ∧ s.granted e.part .hart e a.2 = true

/-- The next packet of a peer arrives at a device at rest: its number is the one expected, and nothing is held. -/
structure InTurn (s : State) (q seq : Nat) (p : Packet) : Prop where
  live : (s.peer q).failed = false
  held : (s.peer q).held = []
  seq : seq = (s.peer q).expect ∧ seq < 65536
  admitted : Admitted s p
  still : s.migrations = [] ∧ s.poisoned = []
  mem : Canonical s

/-- It has been performed: the next number is expected, and the acknowledgement of it has left last. -/
structure Performed (s t : State) (q seq : Nat) : Prop where
  harts : HartsKept s t
  expect : (t.peer q).expect = (seq + 1) % 65536
  ack : ∃ n, t.out.head? = some (.ack q seq n)

/-- A rank's outstanding request. -/
def requestOf (s : State) (p k r : Nat) (peer seq : Nat) : Option Request :=
  (s.rank p k r).requests.find? fun q => q.peer == peer && q.seq == seq

/-- A port is up and routes to a peer (R366). -/
abbrev Open (s : State) (q n : Nat) : Prop :=
  n < 72 ∧ (s.port n).state = 1 ∧ ((tget s.routes q).getD []).contains n = false

/-- What a command of COPY writes next lies in one line of a page that its engine may read, at a local home. -/
structure CopyReads (s : State) (x : Command) (n va key : Nat) (e : Entry) : Prop where
  going : x.ended = false ∧ x.batch = none ∧ x.op = 1 ∧ x.barrier = none
  bytes : 0 < n ∧ x.written + n ≤ x.total
  line : va = (x.src + x.written) % 2 ^ 64 ∧ va % 64 + n ≤ 64
  entry : s.walk x.part va = (some e, []) ∧ e.place va = .home key ∧ s.granted x.part .engine e needR = true
  still : s.migrations = [] ∧ s.poisoned = []

/-- A mapping the pager offers covers a page (R283). -/
abbrev InMap (x : PageMap) (g : Nat) : Prop :=
  x.page ≤ g * 65536 ∧ g * 65536 < x.page + (if x.large then 2 ^ 21 else 2 ^ 16)

/-- A page of a report is absent (R283). -/
abbrev Absent (s : State) (b : Batch) : Prop :=
  ∃ g ∈ reportPages b.report, (s.walk (reportPart b.report) (g * 65536)).1 = none

/-- A frame maps one page, and another of memory can take it (R284). -/
structure MayMove (s : State) (a b : Nat) (e : Entry) (n : Nat) : Prop where
  source : s.entryAt (homePool a) (homeFrame a) = (e, n, true) ∧ e.large = false
  offsets : homeOff a = 0 ∧ homeOff b = 0 ∧ a ≠ b ∧ homePool b ≠ 15
  exist : s.refOk (frameRef (homePool a) (homeFrame a)) = true ∧ s.refOk (frameRef (homePool b) (homeFrame b)) = true
  free : s.validEntry (homePool b) (homeFrame b) = none
  owner : ∀ p ∈ s.parts, p.1 ≠ e.part → (homePool b, homeFrame b) ∉ p.2.frames
  idle : s.migrations = []

end Sys2Proof.Claims

/-- CONVOY_START of a core that is not behind a settling gate and has fewer than 32 rechecks waiting starts the convoy
of the next hart, in round robin, for which units are free, makes the claims of its entries and counts it and its
element groups; with none such, a gate or a full recheck queue, nothing starts. INSTRUCTION_RETIRE lets the oldest
entry that may write its last element group write it, and retires the oldest entry of the queue, merging its flags
into FFLAGS, exactly when no vector access waits in the hart's issue queue and it has started and can trap no more,
or has written with no recheck due and no claim waiting. Behind a gate no recheck runs; else a due recheck that
agrees or has a majority is over; where all runs of the oldest entry differ the hart returns to before the
instruction, its later flags kept out, and traps REPLAY_EXHAUSTED. That a vector instruction writes its registers
when it is issued and its flags when it retires, that a convoy waits for an MCLAIM of it still to be queued, and
that an instruction holds one unit of its class are the model's choices (log 8), and so is what waits in the issue
queue (log 9). (R104, R112, R113, R116, R117, R120, R239, R316, R385, R395, R407) -/
def Obligations.QueueRuns : Prop :=
  (∀ (s : State) (core i : Nat) (pre mid post : List QueueEntry) (e : QueueEntry) (v : List Nat), i < 8 →
    (s.core core).settling = false → rechecks s core < 32 →
    (((List.range 8).map fun j => ((s.core core).served + 1 + j) % 8).find? (canStart s core)) = some i →
    (s.hart (8 * core + i)).queue = pre ++ e :: (mid ++ post) → (∀ x ∈ pre, x.started = true) → e.started = false →
    e.convoy = some v → (∀ x ∈ mid, x.started = false ∧ x.convoy = none ∧ x.claim = none) →
    (∀ x ∈ post.head?, x.started = false ∧ x.convoy ≠ none) →
    let a := attempted (s.core core) (8 * core + i) e
    ∃ t, exec (.convoyStart core) s = .next t ∧
      t.hart (8 * core + i) = { s.hart (8 * core + i) with
        queue := pre ++ a.1 :: (mid.map (fun x => { x with started := true }) ++ post)
        running := some ⟨v, v.length - (mid.length + 1)⟩ } ∧
      (∀ j, j / 8 ≠ core → t.hart j = s.hart j) ∧
      (∀ j, j / 8 = core → j ≠ 8 * core + i →
        t.hart j = { s.hart j with running := if holding (s.hart j) then (s.hart j).running else none }) ∧
      (t.core core).served = i ∧ (t.core core).slots = a.2 ∧
      (t.core core).counters.toList.getD 2 0 = min ((s.core core).counters.toList.getD 2 0 + 1) 0xFFFFFFFFFFFF ∧
      (t.core core).counters.toList.getD 3 0 =
        min ((s.core core).counters.toList.getD 3 0 + e.groups + (mid.map (·.groups)).sum) 0xFFFFFFFFFFFF) ∧
  (∀ (s : State) (core : Nat), (s.core core).settling = true ∨ 32 ≤ rechecks s core ∨
      (∀ i < 8, canStart s core i = false) →
    ∃ t, exec (.convoyStart core) s = .next t ∧ t.cores = s.cores ∧
      ∀ j, (t.hart j).queue = (s.hart j).queue ∧ (t.hart j).regs = (s.hart j).regs) ∧
  (∀ (s : State) (h : Nat) (e : QueueEntry) (rest : List QueueEntry),
    oldestWritten s h (s.hart h).queue = e :: rest → ∃ t, exec (.instructionRetire h) s = .next t ∧
      (if retires s h e then QueueStep s t h rest (e.flags ||| e.later) else QueueStep s t h (e :: rest) 0)) ∧
  (∀ (s : State) (h : Nat) (outcome : RecheckOutcome), (s.core (h / 8)).settling = true →
    exec (.recheckRun h outcome) s = .next s) ∧
  (∀ (s : State) (h : Nat) (e : QueueEntry) (pre rest : List QueueEntry), (s.core (h / 8)).settling = false →
    (s.hart h).queue = pre ++ e :: rest → (∀ x ∈ pre, (x.written && x.recheck == .due) = false) → e.written = true →
    e.recheck = .due →
    (∃ t, exec (.recheckRun h .agree) s = .next t ∧ QueueStep s t h (pre ++ { e with recheck := .agreed } :: rest) 0 ∧
      (t.core (h / 8)).counters.toList.getD 4 0 = min ((s.core (h / 8)).counters.toList.getD 4 0 + 1) 0xFFFFFFFFFFFF) ∧
    (∀ (element : Nat) (kept : Bool), ∃ t, exec (.recheckRun h (.majority element kept)) s = .next t ∧
      QueueStep s t h (pre ++ { e with recheck := .agreed } :: rest) 0) ∧
    (∀ (element lane : Nat), pre = [] → (s.hart h).iq = [] → HandledBy (s.hart h) e.before.regs →
      ∃ t, exec (.recheckRun h (.allDiffer element lane)) s = .next t ∧
        Trapped s t h (returned e.before.regs (s.hart h).regs) 0x19 (exhaustVal element lane)))

/-- A replay counts; over the limit it steps the core back, to FLOOR at most, or asks for quarantine, by ESC; a window
end clears WINCNT, and the end of a settling gate the gate; exhausted replays of a scalar or vector unit trap
REPLAY_EXHAUSTED at the instruction, or undo a queued one first; quarantine ends when no hart of the core has a node
and lowers CORES_IN; an arbitration interval sets DUTY from the estimates, and a core with no runnable hart has 64.
Estimates and the replays themselves are inputs (log 30, log 32). A hart with operations in its issue queue traps
after them (log 9). (R385, R386, R387, R388, R389, R390, R112, R422) -/
def Obligations.MarginEvents : Prop :=
  (∀ (s : State) (c : Nat), c < 192 →
    let x := s.core c
    (min (x.wincnt + 1) 65535 ≤ x.limit → ∃ t, exec (.pentimentoReplay c) s = .next t ∧ HartsKept s t ∧
      (t.core c).total = (x.total + 1) % 2 ^ 32 ∧ (t.core c).wincnt = min (x.wincnt + 1) 65535 ∧
      (t.core c).escn = x.escn ∧ (t.core c).stepPoint = x.stepPoint ∧ (t.core c).quarState = x.quarState) ∧
    (x.limit < min (x.wincnt + 1) 65535 → x.esc ≠ 2 → x.stepPoint ≠ 0 →
      ∃ t, exec (.pentimentoReplay c) s = .next t ∧ HartsKept s t ∧ (t.core c).total = (x.total + 1) % 2 ^ 32 ∧
        (t.core c).wincnt = 0 ∧ (t.core c).escn = min (x.escn + 1) 255 ∧
        (t.core c).stepPoint = min (if x.esc = 1 then 0 else (x.stepPoint - 1) % 256) x.floor ∧
        (t.core c).quarState = x.quarState) ∧
    (x.limit < min (x.wincnt + 1) 65535 → (x.esc = 2 ∨ x.stepPoint = 0) → x.quarState = 0 →
      ∃ t, exec (.pentimentoReplay c) s = .next t ∧ HartsKept s t ∧ (t.core c).wincnt = 0 ∧
        (t.core c).quarState = 1 ∧ (t.core c).quarCause = 2) ∧
    (∃ t, exec (.replayWindowEnd c) s = .next t ∧ HartsKept s t ∧ t.core c = { x with wincnt := 0 } ∧
      ∀ d, d ≠ c → t.core d = s.core d) ∧
    (∃ t, exec (.settleGateEnd c) s = .next t ∧ HartsKept s t ∧ t.core c = { x with settling := false } ∧
      ∀ d, d ≠ c → t.core d = s.core d)) ∧
  (∀ (s : State) (h element lane : Nat), HandledBy (s.hart h) (s.hart h).regs → ComesTo s h 0 →
    ∃ t, exec (.replayExhausted h false element lane) s = .next t ∧ Trapped s t h (s.hart h).regs 0x19 0) ∧
  (∀ (s : State) (h element lane k : Nat), HandledBy (s.hart h) (s.hart h).regs → ComesTo s h k → k ≠ 0 →
    ∃ t, exec (.replayExhausted h true element lane) s = .next t ∧
      Trapped s t h (s.hart h).regs 0x19 (exhaustVal element lane)) ∧
  (∀ (s : State) (h element lane : Nat) (e : QueueEntry) (rest : List QueueEntry), (s.hart h).queue = e :: rest →
    (s.hart h).iq = [] → HandledBy (s.hart h) e.before.regs → e.started = true → e.written = false → e.final = false →
    ∃ t, exec (.replayExhausted h true element lane) s = .next t ∧
      Trapped s t h (returned e.before.regs (s.hart h).regs) 0x19 (exhaustVal element lane)) ∧
  (∀ (s : State) (c : Nat), (s.core c).quarState = 1 → (∀ i < 8, (s.hart (8 * c + i)).node = none) →
    ∃ t, exec (.quarantineComplete c) s = .next t ∧ HartsKept s t ∧ (t.core c).quarState = 2 ∧
      t.st = { s.st with coresIn := BitVec.ofNat 8 (s.st.coresIn.toNat - 1) }) ∧
  (∀ (s : State) (pfix pdyn : Nat),
    let d := if pfix + pdyn ≤ s.pwrCap then 64 else if s.pwrCap ≤ pfix then 1 else max 1 (64 * (s.pwrCap - pfix) / pdyn)
    ∃ t, exec (.arbitrationInterval pfix pdyn) s = .next t ∧ HartsKept s t ∧ t.mem = s.mem ∧ t.pwrDuty = d ∧
      ∀ c, (tget s.cores c).isSome = true →
        (t.core c).duty = if (List.range 8).any fun i =>
          runsNode (s.hart (8 * c + i)) then d else 64)

/-- The drain of the oldest entry to a local home, not held and of no push that waits for a packet, writes exactly its
bytes and removes it, and one that is held or has to wait stays, nothing changing; a release lets the oldest held
entry leave, or, with none, the oldest held store to a device register; a clean check only counts down, in the hart
and in its queued entries' records, and a poisoned one also records the lowest address for the rank and, at a local
home, poisons and clears the line. No other hart changes. The order of drains is the agenda's (log 1, log 9). That a
store to a device register is held, and released after the held entries of the buffer, and the release order are the
model's choices (DESIGN CHOICE, log 10, log 49), and so are the range that is poisoned and the line that reads 0
(log 32, log 37). The partition is not in deterministic mode. (R323, R324, R391, R392, R396) -/
def Obligations.StoresDrainAndChecksEnd : Prop :=
  (∀ (s : State) (h key : Nat) (a : Word) (bs : List Byte) (tags : List Nat) (fills vec ordered : Bool)
    (rest : List StoreEntry), Canonical s →
    (s.hart h).sb = ⟨none, [⟨a.toNat, key, bs⟩], tags, false, fills, vec, ordered⟩ :: rest →
    s.pushWaits h ⟨none, [⟨a.toNat, key, bs⟩], tags, false, fills, vec, ordered⟩ = false →
    (fills = true → bs.length ≠ 8) → s.migrations = [] → PlainPart s h →
    ∃ t, exec (.sbDrain h 0) s = .next t ∧ (t.hart h) = { s.hart h with sb := rest } ∧ (∀ j, j ≠ h → t.hart j = s.hart j) ∧
      ∀ b, byteAt t.mem b = if key ≤ b ∧ b < key + bs.length then bs.getD (b - key) 0 else byteAt s.mem b) ∧
  (∀ (s : State) (h : Nat) (e : StoreEntry) (rest : List StoreEntry), (s.hart h).sb = e :: rest →
    e.held = true ∨ s.pushWaits h e = true → exec (.sbDrain h 0) s = .next s) ∧
  (∀ (s : State) (h i : Nat) (e : StoreEntry), (s.hart h).sb.findIdx? (·.held) = some i → (s.hart h).sb[i]? = some e →
    PlainPart s h →
    ∃ t, exec (.guardedRelease h) s = .next t ∧
      t.hart h = { s.hart h with sb := (s.hart h).sb.set i { e with held := false } } ∧
      (∀ j, j ≠ h → t.hart j = s.hart j) ∧ t.mem = s.mem) ∧
  (∀ (s : State) (h : Nat) (pre rest : List Posted) (x : Posted), (∀ e ∈ (s.hart h).sb, e.held = false) →
    s.posted = pre ++ x :: rest → (∀ y ∈ pre, y.hart ≠ h ∨ y.held = false) → x.hart = h → x.held = true → PlainPart s h →
    ∃ t, exec (.guardedRelease h) s = .next t ∧ HartsKept s t ∧ t.mem = s.mem ∧
      t.posted = pre ++ { x with held := false } :: rest) ∧
  (∀ (s : State) (h : Nat), 0 < (s.hart h).unchecked →
    ∃ t, exec (.dataCheckClean h) s = .next t ∧ (∀ j, j ≠ h → t.hart j = s.hart j) ∧ t.mem = s.mem ∧
      t.hart h = { s.hart h with unchecked := (s.hart h).unchecked - 1, queue := (s.hart h).queue.map countedDown }) ∧
  (∀ (s : State) (h p k r : Nat) (a : Word) (x : Partition) (n : Node), (s.hart h).node = some (p, k, r) →
    s.part p = some x → tget x.nodes k = some n → 0 < (s.hart h).unchecked → x.det = false →
    ∃ t, exec (.dataCheckPoison h a) s = .next t ∧ (t.hart h).unchecked = (s.hart h).unchecked - 1 ∧
      (t.hart h).regs = (s.hart h).regs ∧ (∀ j, j ≠ h → t.hart j = s.hart j) ∧
      (t.rank p k r).poison = (match (s.rank p k r).poison with
        | some b => some (min b a.toNat)
        | none => some a.toNat) ∧
      (inWindow a.toNat = true → t.mem = s.mem) ∧
      (∀ key, inWindow a.toNat = false → s.devPlace p a.toNat ⟨false, false, false⟩ = .ok (.home key) →
        s.migrations = [] → x.elog.len = 0 → Canonical s → (key / 64 * 64, 64) ∈ t.poisoned ∧
          ∀ b, byteAt t.mem b = if key / 64 = b / 64 then 0 else byteAt s.mem b))

/-- A granted packet with the expected number, nothing held and no migration, is performed at its home: a write writes
exactly its bytes, a read and an addition reply with the old bytes; the number advances and the acknowledgement
leaves last. A packet ahead of the expected number within the window is held and changes nothing; one of a failed
peer changes nothing at all. Packets are inputs, with their content given by the event (log 11). (R365, R367, R368,
R372, R427, R38, R39) -/
def Obligations.PacketsArrive : Prop :=
  (∀ (s : State) (q seq loc : Nat) (bs : List Byte) (fills : Bool), InTurn s q seq (.write [(loc, bs)] fills []) →
    (fills = true → bs.length ≠ 8) →
    ∃ t, exec (.fabricPacketArrive q seq (.write [(loc, bs)] fills [])) s = .next t ∧ Performed s t q seq ∧
      ∀ a, byteAt t.mem a = if loc ≤ a ∧ a < loc + bs.length then bs.getD (a - loc) 0 else byteAt s.mem a) ∧
  (∀ (s : State) (q seq loc n : Nat), InTurn s q seq (.read loc n) →
    ∃ t, exec (.fabricPacketArrive q seq (.read loc n)) s = .next t ∧ Performed s t q seq ∧ t.mem = s.mem ∧
      ∃ port, .reply q seq port ⟨getBytes s.mem loc n, [], false⟩ ∈ t.out) ∧
  (∀ (s : State) (q seq loc : Nat) (v : Word), InTurn s q seq (.amo 0 8 loc v) →
    ∃ t, exec (.fabricPacketArrive q seq (.amo 0 8 loc v)) s = .next t ∧ Performed s t q seq ∧
      t.mem = putBytes s.mem loc (leBytes 8 (BitVec.ofNat 64 (leNat (getBytes s.mem loc 8)) + v).toNat) ∧
      ∃ port, .reply q seq port ⟨[], [BitVec.ofNat 64 (leNat (getBytes s.mem loc 8))], false⟩ ∈ t.out) ∧
  (∀ (s : State) (q seq : Nat) (p : Packet), (s.peer q).failed = false → (∀ w l cs, p ≠ .merged w l cs) →
    1 ≤ (seq % 65536 + 65536 - (s.peer q).expect % 65536) % 65536 →
    (seq % 65536 + 65536 - (s.peer q).expect % 65536) % 65536 ≤ 255 →
    (∀ h ∈ (s.peer q).held, h.1 ≠ seq % 65536 ∧ h.1 ≠ (s.peer q).expect) →
    ∃ t, exec (.fabricPacketArrive q seq p) s = .next t ∧ HartsKept s t ∧ t.mem = s.mem ∧
      (t.peer q).held = (seq % 65536, p) :: (s.peer q).held ∧ (t.peer q).expect = (s.peer q).expect) ∧
  (∀ (s : State) (q seq : Nat) (p : Packet), (s.peer q).failed = true → (∀ w l cs, p ≠ .merged w l cs) →
    exec (.fabricPacketArrive q seq p) s = .next s)

/-- An acknowledgement frees a packet; a reply is kept for the request of its rank; the sixteenth retry in a row and a
lost link take a port down with its cause and count; a resend moves a packet to the other open port and counts; a
declared or restarted peer is failed and nothing is outstanding to it, nor does it wait for an object; clearing
PEER_FAIL at stage 3 resets its numbers and announces it, and before stage 3 changes nothing; a resynchronisation
starts the numbers at 0; a cached copy is filled, unless a write of this device to its line is on its way, or
dropped, and no other copy changes. That a failed peer's waiting ACQs on objects here are dropped is the model's
choice: R378's table speaks of this device's accesses (DEDUCED, log 45). Which fills R175 keeps out is DEDUCED (log
9). (R366, R368, R369, R370, R371, R377, R378, R379, R427, R324, R19) -/
def Obligations.AnswersAndLosses : Prop :=
  (∀ (s : State) (q ack : Nat) (u : Sent), (s.peer q).failed = false → (s.peer q).unacked = [u] →
    (s.peer q).waiting = [] → hasReply u.packet = false → u.origin = .none →
    (ack % 65536 + 65536 - u.seq % 65536) % 65536 < 32768 → ack < 65536 →
    ∃ t, exec (.ackArrive q ack) s = .next t ∧ HartsKept s t ∧ (t.peer q).unacked = []) ∧
  (∀ (s : State) (q seq p k r : Nat) (u : Sent) (x : Request) (n : Node) (a : Reply), (s.peer q).failed = false →
    (s.peer q).unacked = [u] → (s.peer q).waiting = [] → u.seq = seq → hasReply u.packet = true → a ≠ Reply.lost →
    s.node p k = some n → (tget n.ranks r).isSome = true → (∃ tags pages vec, u.origin = .rank p (s.handle p k) r tags pages vec) →
    s.slotOf p (s.handle p k) = some k → requestOf s p k r q seq = some x →
    ∃ t, exec (.replyArrive q seq a) s = .next t ∧ HartsKept s t ∧ (t.peer q).unacked = [] ∧
      requestOf t p k r q seq = some { x with reply := some a }) ∧
  (∀ (s : State) (n : Nat) (same : Bool), n < 72 → (s.port n).state = 1 →
    (let row := if same then (s.port n).inRow + 1 else 1
     (row < 16 → ∃ t, exec (.linkRetry n same) s = .next t ∧ HartsKept s t ∧
        t.port n = { s.port n with lretry := min ((s.port n).lretry + 1) 0xFFFFFF, inRow := row }) ∧
     (16 ≤ row → ∃ t, exec (.linkRetry n same) s = .next t ∧ HartsKept s t ∧ (t.port n).state = 2 ∧ (t.port n).dcause = 2)) ∧
    (∃ t, exec (.portDown n) s = .next t ∧ HartsKept s t ∧ (t.port n).state = 2 ∧ (t.port n).dcause = 3 ∧
      t.st = { s.st with portsIn := BitVec.ofNat 7 (s.st.portsIn.toNat - 1) })) ∧
  (∀ (s : State) (q seq n : Nat) (u : Sent), (s.peer q).unacked = [u] → u.seq = seq → Open s q n → n ≠ u.port →
    (∀ m, Open s q m → m = n ∨ m = u.port) →
    ∃ t, exec (.deadlockResend q seq) s = .next t ∧ HartsKept s t ∧ (t.peer q).unacked = [{ u with port := n }] ∧
      (t.port n).dlresend = min ((s.port n).dlresend + 1) 0xFFFFFF ∧ t.out.head? = some (.packet q seq n)) ∧
  (∀ (s : State) (q : Nat) (i : Instr), i = .peerFailDeclare q ∨ i = .peerRestartReport q → q < 384 →
    (s.peer q).failed = false →
    ∃ t, exec i s = .next t ∧ (t.peer q).failed = true ∧ (t.peer q).unacked = [] ∧ (t.peer q).waiting = [] ∧
      ∀ a ∈ t.acqs, ∀ n w, a.2 ≠ .peer q n w) ∧
  (∀ (s : State) (i k : Nat) (v : Word), k < 64 → 64 * i + k < 384 → v.getLsbD k = true →
    (s.peer (64 * i + k)).failed = true → s.st.stage = 3 →
    ∃ t, exec (.peerFailClear i v) s = .next t ∧ HartsKept s t ∧ t.peer (64 * i + k) = Peer.reset ∧
      .resync (64 * i + k) ∈ t.out) ∧
  (∀ (s : State) (i : Nat) (v : Word), s.st.stage ≠ 3 → exec (.peerFailClear i v) s = .next s) ∧
  (∀ (s : State) (q : Nat), q < 384 → (s.peer q).unacked = [] → (s.peer q).waiting = [] →
    (∀ c ∈ s.commands, c.2.op = 3 → c.2.ended = false → q ∉ c.2.members) →
    ∃ t, exec (.resyncReceive q) s = .next t ∧ HartsKept s t ∧ (t.peer q).nextSeq = 0 ∧ (t.peer q).expect = 0) ∧
  (∀ (s : State) (die q line : Nat) (bs : List Byte), bs.length = 64 → die < 4 → (s.peer q).failed = false →
    (s.writesTo q line = true → exec (.cacheFill die q line bs) s = .next s) ∧
    (s.writesTo q line = false → ∃ t, exec (.cacheFill die q line bs) s = .next t ∧ HartsKept s t ∧ t.mem = s.mem ∧
      (∃ pages, ⟨die, q, line, pages, bs⟩ ∈ t.copies) ∧
      (∀ c ∈ t.copies, c.die = die → c.peer = q → c.line = line → c.bytes = bs) ∧
      ∀ c, ¬ (c.die = die ∧ c.peer = q ∧ c.line = line) → (c ∈ t.copies ↔ c ∈ s.copies)) ∧
    (∃ t, exec (.cacheDrop die q line) s = .next t ∧ HartsKept s t ∧ t.mem = s.mem ∧
      ∀ c, c ∈ t.copies ↔ c ∈ s.copies ∧ ¬ (c.die = die ∧ c.peer = q ∧ c.line = line)))

/-- A turn of a copy command (R335). -/
def Sys2Proof.Claims.EnginesWrite : Prop :=
  ∀ (s : State) (c n va key : Nat) (x : Command) (y : Partition) (b : Buffer) (e : Entry), tget s.commands c = some x →
    CopyReads s x n va key e → s.part x.part = some y → tget y.buffers x.slot = some b → Memory.wf b.shadow = true →
    x.offset + x.written + n ≤ b.size → b.size < 2 ^ 57 →
    ∃ t z b', exec (.engineWrite c n) s = .next t ∧ HartsKept s t ∧ t.mem = s.mem ∧
      tget t.commands c = some { x with written := x.written + n, ended := decide (x.total ≤ x.written + n) } ∧
      t.part x.part = some z ∧ tget z.buffers x.slot = some b' ∧ b'.base = b.base ∧ b'.size = b.size ∧ b'.gen = b.gen ∧
      b'.moves = b.moves ∧
      ∀ a, byteAt b'.shadow a = if x.offset + x.written ≤ a ∧ a < x.offset + x.written + n then
        (getBytes s.mem key n).getD (a - (x.offset + x.written)) 0 else byteAt b.shadow a

/-- Pager replies (R405, R407) and migration (R278, R284). -/
def Sys2Proof.Claims.PagerReplies : Prop :=
  (∀ (s : State) (id p k r level h : Nat) (b : Batch) (unres : Bool) (un : List Nat), tget s.batches id = some b →
    b.owner = .rank p (s.handle p k) r level → s.slotOf p (s.handle p k) = some k → (s.rank p k r).saved = false →
    (s.rank p k r).hart = some h → (unres = true ↔ Absent s b) →
    (level = 1 ∨ level = 2 → ∃ t, exec (.pagerReply id [] un) s = .next t ∧ tget t.batches id = none ∧
      (t.hart h).regs = (s.hart h).regs.setBank level { (s.hart h).regs.bank level with
        cause := (((s.hart h).regs.bank level).cause &&& 0xFF) ||| (if unres then 0x4000 else 0) } ∧
      ((s.hart h).blocked = some .pager → (t.hart h).blocked = none) ∧ (∀ j, j ≠ h → t.hart j = s.hart j)) ∧
    (level = 0 → unres = false → (s.rank p k r).waitBatch = true → ∃ t, exec (.pagerReply id [] un) s = .next t ∧
      (t.hart h).blocked = none ∧ (t.hart h).regs = (s.hart h).regs ∧ (t.rank p k r).waitBatch = false)) ∧
  (∀ (s : State) (id : Nat) (b : Batch) (maps : List PageMap) (un : List Nat), tget s.batches id = some b →
    (∀ x ∈ maps, (∃ g ∈ un, InMap x g) ∨ ∀ g ∈ reportPages b.report, ¬ InMap x g) →
    ∃ t, exec (.pagerReply id maps un) s = .next t ∧ exec (.pagerReply id [] un) s = .next t) ∧
  (∀ (s : State) (die p vpn : Nat) (e : Entry), s.inL2 die p (vpn * 2 ^ 16) = some e → e.mode = 3 → e.migreq = false →
    2 ^ e.thr ≤ e.acnt →
    ∃ t, exec (.migrationRequest die p vpn) s = .next t ∧ HartsKept s t ∧ t.mem = s.mem ∧
      t.out.head? = some (.batch s.nextBatch) ∧
      (∀ x ∈ t.l2, ∀ f ∈ x.2, f.pool = e.pool → f.frame = e.frame → f.migreq = true)) ∧
  (∀ (s : State) (frame : Nat), ∃ t, exec (.migrationDeclined frame) s = .next t ∧ HartsKept s t ∧ t.mem = s.mem ∧
    ∀ x ∈ t.l2, ∀ f ∈ x.2, f.pool = homePool frame → f.frame = homeFrame frame → f.migreq = false) ∧
  (∀ (s : State) (a b peer rframe : Nat) (e : Entry) (n : Nat), MayMove s a b e n →
    ∃ t, exec (.migrationStart a ⟨b, peer, rframe⟩) s = .next t ∧ HartsKept s t ∧ t.mem = s.mem ∧
      t.migrations = [⟨a, b, 0, false, peer, rframe % 2 ^ 32⟩] ∧
      ∀ x, s.part e.part = some x → ∃ y, t.part e.part = some y ∧ (homePool b, homeFrame b) ∈ y.frames) ∧
  (∀ (s : State) (m : Migration), Canonical s → s.migrations = [m] → m.copied < 1023 → homePool m.source ≠ 15 →
    homePool m.target ≠ 15 →
    ∃ t, exec (.migrationLineCopy m.source) s = .next t ∧ HartsKept s t ∧
      t.migrations = [{ m with copied := m.copied + 1, asked := false }] ∧
      ∀ a, byteAt t.mem a = if m.target + 64 * m.copied ≤ a ∧ a < m.target + 64 * m.copied + 64 then
        byteAt s.mem (m.source + (a - m.target)) else byteAt s.mem a) ∧
  (∀ (s : State) (m : Migration), s.migrations = [m] → m.copied = 1024 → s.usesFrame m = false →
    ∃ t, exec (.migrationFinish m.source) s = .next t ∧ HartsKept s t ∧ t.migrations = [] ∧ t.mem = s.mem)

/-- Refresh and scrub (R424). -/
def Sys2Proof.Claims.MemoryUpkeep : Prop :=
  (∀ (s : State) (c d : Nat), c < 296 →
    let x := (tget s.chans c).getD ⟨0, 0, 0, 0⟩
    ∃ t, exec (.refresh c d) s = .next t ∧ HartsKept s t ∧ t.mem = s.mem ∧
      tget t.chans c = some { x with refs := min (x.refs + d) 0xFFFFFFFFFFFF }) ∧
  (∀ (s : State) (frame n : Nat), Canonical s → frameExists (homePool frame) (homeFrame frame) = true →
    homeOff frame = 0 → n < 1024 → s.migrations = [] →
    s.frameOwner (homePool frame) (homeFrame frame) = none →
    let line := homeKey (homePool frame) (homeFrame frame) 0 + 64 * n
    ∃ t, exec (.scrub frame [] [n]) s = .next t ∧ HartsKept s t ∧ (line, 64) ∈ t.poisoned ∧
      ∀ a, byteAt t.mem a = if line ≤ a ∧ a < line + 64 then 0 else byteAt s.mem a)

/-- At stage 3: PWR_CAP is clamped to 600 to 2,800, written by the physical function or by a partition with the SILV
right, and a partition without it changes no register; FAB_CTL keeps a field written as 0; a translation table
register is written only while no partition exists. CSA_BASE and CSA_SLOTS are written only while the node table is
empty; ACCT_RET clears by ones; RELY sets its fields. A partition that does not exist or is torn down, through
either register space of its function, an access that is not of 8 aligned bytes, and a register that does not answer
at the stage ignore a write. That every register space ignores an access of other than 8 aligned bytes is the
model's reading, since R40, R57 and R379 say it of the insert window, the schedule and the fabric registers
(DEDUCED, log 46); the physical function's SILV right is log 17. (R19, R38, R40, R275, R379, R394, R410, R419, R422,
R425) -/
def Obligations.DeviceRegisters : Prop :=
  (∀ (s : State) (v : Word), s.st.stage = 3 →
    (∀ i, i = .pwrCapWrite v ∨ i = .registerWrite (.silven none) ⟨0x40000, 8⟩ v →
      exec i s = .next { s with pwrCap := max 600 (min 2800 (bits v.toNat 15 0)) }) ∧
    (∀ p, s.alive p = true → (s.rights p .silven .host).getLsbD 7 = true →
      exec (.registerWrite (.silven (some p)) ⟨0x40000, 8⟩ v) s =
        .next { s with pwrCap := max 600 (min 2800 (bits v.toNat 15 0)) }) ∧
    (∀ p offset, (s.rights p .silven .host).getLsbD 7 = false →
      ∃ t, exec (.registerWrite (.silven (some p)) ⟨offset, 8⟩ v) s = .next t ∧ HartsKept s t ∧ t.pwrCap = s.pwrCap ∧
        t.fabFailt = s.fabFailt ∧ t.fabDlt = s.fabDlt ∧ t.trAnchor = s.trAnchor ∧ t.trPool = s.trPool ∧
        t.trCount = s.trCount ∧ t.ports = s.ports ∧ t.st = s.st)) ∧
  (∀ (s : State) (v : Word), s.st.stage = 3 →
    ∀ i, i = .fabCtlWrite v ∨ i = .registerWrite (.silven none) ⟨0x20400, 8⟩ v →
      exec i s = .next { s with
        fabFailt := if bits v.toNat 27 16 = 0 then s.fabFailt else bits v.toNat 27 16
        fabDlt := if bits v.toNat 11 0 = 0 then s.fabDlt else bits v.toNat 11 0 }) ∧
  (∀ (s : State) (v : Word), s.st.stage = 3 →
    (s.parts ≠ [] → exec (.tableRegisterWrite 0x100 v) s = .next s) ∧
    (s.parts = [] → 10 ≤ bits v.toNat 4 0 → bits v.toNat 4 0 ≤ 26 →
      exec (.tableRegisterWrite 0x100 v) s = .next { s with trAnchor := v &&& 0x01FFFFFFFFFFFFDF }) ∧
    (s.parts = [] → exec (.tableRegisterWrite 0x1C0 v) s = .next { s with trCount := v &&& 0x1FFFFFF })) ∧
  (∀ (s : State) (p : Nat) (v : Word) (x : Partition), s.part p = some x → x.teardown = .none →
    (x.nodes ≠ [] → ∃ t, exec (.csaWrite p 0x070 v) s = .next t ∧ t.part p = some x ∧ HartsKept s t) ∧
    (x.nodes = [] →
      (∃ t, exec (.csaWrite p 0x070 v) s = .next t ∧ t.part p = some { x with csaBase := v &&& 0x01FFFFFFFFF00000 }) ∧
      (∃ t, exec (.csaWrite p 0x078 v) s = .next t ∧ t.part p = some { x with csaSlots := bits v.toNat 15 0 })) ∧
    (∃ t, exec (.registerWrite (.management p) ⟨0x0A0, 8⟩ v) s = .next t ∧
      t.part p = some { x with acctRet := x.acctRet &&& ~~~v }) ∧
    (∃ t y, exec (.registerWrite (.management p) ⟨0x050, 8⟩ v) s = .next t ∧ t.part p = some y ∧
      y.relyK.toNat = bits v.toNat 31 16 ∧
      y.relyMode.toNat = (if bits v.toNat 1 0 = 3 then x.relyMode.toNat else bits v.toNat 1 0))) ∧
  (∀ (s : State) (p : Nat) (v : Word) (offset width : Nat), s.alive p = false →
    exec (.registerWrite (.management p) ⟨offset, width⟩ v) s = .next s ∧
      exec (.registerWrite (.silven (some p)) ⟨offset, width⟩ v) s = .next s) ∧
  (∀ (s : State) (space : RegSpace) (v : Word) (offset width : Nat), offset % 8 ≠ 0 ∨ width ≠ 8 →
    exec (.registerWrite space ⟨offset, width⟩ v) s = .next s) ∧
  (∀ (s : State) (v : Word) (offset width : Nat), s.st.stage ≠ 3 → offset ≠ 0x000 → offset ≠ 0x008 →
    (offset < 0x50000 ∨ 0x50018 < offset) → exec (.registerWrite (.silven none) ⟨offset, width⟩ v) s = .next s)

namespace Sys2Proof.Claims

open Sys2Proof.Machine

/-! ## Steps, words, memory, reset -/

/-- A core once n cycles have passed: of every 64 those its duty grants are issue cycles, and the others are gated; behind a
settling gate they are counted already (R120, R386, R422). -/
def cyclesPassed (c : Core) (now n : Nat) : Core :=
  if c.settling then c else
  let issue := (now + n) * c.duty / 64 - now * c.duty / 64
  let more := fun i k : Nat => min (c.counters.toList.getD i 0 + k) 0xFFFFFFFFFFFF
  { c with counters := (c.counters.setIfInBounds 0 (more 0 issue)).setIfInBounds 1 (more 1 (n - issue)) }

/-- The state a step starts from: time has passed, and the schedule's first turn is taken off (log 1, log 2). -/
def begun (s : State) : State :=
  { s with
    agenda := s.agenda.drop 1, now := s.now + Config.elapsed s.ticks, ticks := s.ticks + 1, quota := none
    cores := s.cores.map fun c => (c.1, cyclesPassed c.2 s.now (Config.elapsed s.ticks)) }

/-- The step is a turn of a hart, which may perform only so many elements of an instruction that can be stopped: the schedule
names it, or names none while the hart that ran last has nothing queued and no data check to end, or queued only a convoy
that waits for an MCLAIM to come (log 1, log 8). -/
def TurnOf (s : State) (h : Nat) (quota : Option Nat) : Prop :=
  match s.agenda with
  | .hart j :: _ => j = h ∧ quota = none
  | .part j n :: _ => j = h ∧ quota = some n
  | [] => h = s.cur ∧ quota = none ∧ (((s.hart h).queue = [] ∧ (s.hart h).unchecked = 0) ∨
      ∃ e rest, (s.hart h).queue = e :: rest ∧ e.started = false ∧ (s.hart h).convoyReady = false)
  | _ => False

/-- A hart that executes on its turn: it runs a node, does not wait for the pager at TL 0, and neither its core drains nor
another hart of its node has begun to pre-empt it, no operation waits in its issue queue, and no effect of its last
instruction is held (R88, R405, R390, R356, R323, R391; log 9, log 10). -/
def Executes (s : State) (h : Nat) : Prop :=
  (s.core (h / 8)).quarState ≠ 1 ∧ (s.hart h).iq = [] ∧ s.heldCount h = 0 ∧
  ∃ p k r, (s.hart h).node = some (p, k, r) ∧ (s.rank p k r).waitBatch = false ∧ (s.rank p k r).unresolved = false ∧
    ∀ n, s.node p k = some n → n.leaving = none ∨ n.leaving = some h

/-- The index of the head that PC names in its line (R99). -/
def headIndex (pc : Word) : Nat := (pc.toNat % 64 - 2) / 2

/-- The address of PC's line. -/
def lineAddr (pc : Word) : Nat := pc.toNat / 64 * 64

/-- A hart's registers hold a legal trap level and nothing in the reserved bits of FFLAGS and ATC (R133, R134, R401). -/
abbrev LegalRegs (g : Regs) : Prop := g.tl.toNat ≤ 2 ∧ g.fflags.toNat < 128 ∧ g.atc.toNat < 128

/-- Every hart's registers are legal, and those a queued instruction would return to. -/
def LegalHarts (s : State) : Prop :=
  ∀ h, LegalRegs (s.hart h).regs ∧ ∀ e ∈ (s.hart h).queue, LegalRegs e.before.regs

/-- The running hart is runnable, at the same instruction, which waits for the queue; nothing else has changed. -/
def triesAgain (s : State) : State := s.setHart s.cur { me s with blocked := none, stuck := true }

/-- The instructions that wait for the vector instruction queue to be empty before anything else (R110, R111, R391; log 8). -/
def waitsForQueue : Instr → Bool
  | .brk _ | .trap _ | .tret | .idle | .mfsr .. | .mtsr .. | .tlbiAll | .tlbiVa _ | .yield | .done | .cancel .. | .chkc _
  | .snext .. | .slotfree .. | .tlook .. | .tins .. | .tinv .. | .cwait .. | .qbind .. | .qrel _ | .mrel _ | .mload ..
  | .mloadT .. | .mloadG .. | .mloadCsr .. | .vstred .. | .vamo .. | .vmvPush .. | .esub .. | .xcopRandom ..
  | .xcopMarginSet .. | .xcopReplayLimit .. | .xcopReplayCountClear .. | .xcopCounterRead .. | .xcopCounterClear ..
  | .xcopEsubReasons .. | .acq _ | .rel _ | .bind .. | .arrive .. | .wait _ | .bar _ | .join .. | .leave _ | .claim ..
  | .publish .. | .node .. | .edge .. | .fence .. | .efence _ => true
  | _ => false

end Sys2Proof.Claims

/-- On the turn of a hart that executes, with the line of its PC kept, or readable through its core's TLB at a local
home and unpoisoned, a line and a convoy that are well formed and a head that decodes: the step is exec of the
decoded instruction at that state, with time passed, the turn taken off, that hart current and, when read now, its
line kept; a head that starts a convoy is noted. With no turn listed and vector work of the hart left, the step is
the start of its convoy, its recheck or a retirement, or the end of a data check. On an event's turn the step is
exec of the event; the one fault of the machine is an event that is an encoded instruction. Turns are the model's
(log 1, log 2), and so are what a hart does first on its turn: it goes on past or issues what waits in its issue
queue (log 9), and lets go what its last instruction holds (log 10). A convoy that waits for an MCLAIM still to come
leaves the turn to the hart (log 8). (R90, R91, R92, R99, R103, R104, R105, R276) -/
def Obligations.StepRunsDecoded : Prop :=
  (∀ (s : State) (h : Nat) (quota : Option Nat) (l : Line) (i : Instr), s.powered = true → TurnOf s h quota →
    Executes s h → (s.hart h).partway = none → (s.hart h).line = some l →
    decodeAt l.bits (headIndex (s.hart h).regs.pc) = .ok i →
    (startsConvoy l.bits 32 (headIndex (s.hart h).regs.pc) = false →
      step s = exec i { begun s with cur := h, quota := quota }) ∧
    (startsConvoy l.bits 32 (headIndex (s.hart h).regs.pc) = true →
      convoyConflict (isFC (h / 8)) l.bits (headIndex (s.hart h).regs.pc) = none →
      step s = exec i (State.setHart { begun s with cur := h, quota := quota } h { s.hart h with convoyStart := true }))) ∧
  (∀ (s : State) (h key : Nat) (quota : Option Nat) (e : Entry) (i : Instr), s.powered = true → TurnOf s h quota →
    Executes s h → (s.hart h).partway = none → (s.hart h).line = none → NamesHead (s.hart h).regs.pc →
    let a := lineAddr (s.hart h).regs.pc
    let bits := lineBits (getBytes s.mem key 64)
    let n := headIndex (s.hart h).regs.pc
    inWindow a = false → a < 2 ^ 57 → (s.core (h / 8)).tlb.find? (·.covers (s.hart h).part a) = some e →
    s.granted (s.hart h).part .hart e needX = true → e.mode ≠ 3 → e.place a = .home key → s.migrations = [] →
    s.poisonIn key 64 = none →
    lineFault bits n = none → convoyConflict (isFC (h / 8)) bits n = none → decodeAt bits n = .ok i →
    ∃ u, step s = exec i u ∧ u.cur = h ∧ u.quota = quota ∧
      u.hart h = { s.hart h with line := some ⟨BitVec.ofNat 64 a, bits⟩, convoyStart := true } ∧
      (∀ j, j ≠ h → u.hart j = s.hart j) ∧ u.cores = (begun s).cores ∧ u.parts = s.parts ∧ SameBytes s u) ∧
  (∀ (s : State) (e : QueueEntry) (rest : List QueueEntry), s.powered = true → s.agenda = [] → (me s).iq = [] → (me s).queue = e :: rest →
    e.started = true ∨ (me s).convoyReady = true →
    step s = exec (if !e.started then .convoyStart (s.cur / 8)
      else if e.written && e.recheck == .due then .recheckRun s.cur .agree
      else .instructionRetire s.cur) (begun s)) ∧
  (∀ (s : State), s.powered = true → s.agenda = [] → (me s).iq = [] → (me s).queue = [] → (me s).unchecked ≠ 0 →
    step s = exec (.dataCheckClean s.cur) (begun s)) ∧
  (∀ (s : State) (i : Instr), s.agenda.headD .own = .event i →
    (toRaw i = none → s.powered = true → step s = exec i (begun s)) ∧
    (toRaw i ≠ none → step s = .fault .notAnEvent)) ∧
  (∀ (s : State) (e : Fault), step s = .fault e → ∃ i, s.agenda.headD .own = .event i ∧ toRaw i ≠ none)

/-- No fault and no refusal. -/
def Sys2Proof.Claims.InstructionsAnswer : Prop := ∀ (i : Instr) (s : State), ∃ t, exec i s = .next t

/-- What waits for the vector queue (R109-R112, R205, R391; log 8). -/
def Sys2Proof.Claims.QueueWaits : Prop :=
  (∀ (i : Instr) (s : State), waitsForQueue i = true → (me s).queue ≠ [] → exec i s = .next (triesAgain s)) ∧
  (∀ (i : Instr) (s : State), (laneOf (regs s) i).isSome = true ∨ (compareOf (regs s) i).isSome = true ∨
      (maskOpOf i).isSome = true ∨ (moveOf (regs s) i).isSome = true →
    64 ≤ (me s).queue.length → exec i s = .next (triesAgain s)) ∧
  (∀ (i : Instr) (s : State) (rd : Reg) (a b : Word) (sg rem : Bool),
    divisionOf (regs s) i = some (rd, a, b, sg, rem) → (regs s).atc &&& divisionFlag a b sg ≠ 0 →
    (me s).queue ≠ [] → exec i s = .next (triesAgain s)) ∧
  (∀ (i : Instr) (s : State) (c : Prop) (target : Word) (g : Regs), transferOf s i = some (c, target, g) → c →
    ¬ NamesHead target → (me s).queue ≠ [] → exec i s = .next (triesAgain s)) ∧
  (∀ (s : State) (rd ra : Reg), (∃ e ∈ (me s).queue, tileAt e.before.regs ((regs s).phys ra.toNat) ≠
      tileAt (regs s) ((regs s).phys ra.toNat)) → exec (.getshape rd ra) s = .next (triesAgain s))

/-- Twenty-four instructions of different majors, their words as the spec's encoding tables give them, decode to the
instruction and operands they stand for. (R93, R95, R96, R97, R182, R207, R214, R226, R238, R290, R337) -/
def Obligations.WordsDecode : Prop :=
  decodeTableWord 32 0x10240085 = some (.add 4 4 5) ∧
  decodeTableWord 16 0x0105 = some (.brk 5) ∧
  (decode 0x1145 [0x0000, 0x1000]).toOption = some (.addi 5 0 4096) ∧
  (decode 0xA841 [0x4043, 0x2000]).toOption = some (.vmadd 1 2 3 4 0 0) ∧
  (decode 0x102A [0x40A2]).toOption = some (.mul 10 5 2) ∧
  (decode 0x1828 [0x0C20]).toOption = some (.ldD 8 1 0) ∧
  (decode 0x1440 [0x0440, 0xFFF8]).toOption = some (.bne 2 0 0xFFFFFFFFFFFFFFF8) ∧
  (decode 0x1A29 [0x0067]).toOption = some (.amoAddD 9 7 3) ∧
  (decode 0x0640 [0x0120, 0x0111]).toOption = some (.mtsr 9 0x111) ∧
  (decode 0x0300 []).toOption = some .tret ∧
  (decode 0x2021 [0x1560]).toOption = some (.setshape 1 11) ∧
  (decode 0x2A27 [0x0454]).toOption = some (.vcmpNe 7 2 20 0) ∧
  (decode 0xA843 [0x5474, 0x3800]).toOption = some (.vsel 3 3 20 7 0) ∧
  (decode 0x292A [0x1880]).toOption = some (.vcvt 6 10 4 0 0) ∧
  (decode 0x2D46 [0x0080, 0x0001]).toOption = some (.vred 0 false true 6 4 0 0) ∧
  (decode 0xB045 [0x08C0, 0x0020]).toOption = some (.fintAll 5 6 0 0) ∧
  (decode 0x3047 [0x1443, 0x0100]).toOption = some (.feval 7 2 3 1) ∧
  (decode 0x342C [0x0C01]).toOption = some (.mma 12 0 1 0) ∧
  (decode 0x3845 [0x2043, 0x0005]).toOption = some (.vamo 5 5 2 3 0 0) ∧
  (decode 0x3842 [0x0020, 0x0080]).toOption = some (.vmvPop 2 1) ∧
  (decode 0x38E6 [0x1C20, 0x0000, 0x0000, 0x0000, 0x0150, 0x0000, 0x0000, 0x0000]).toOption = some (.vstred 6 1 0 0 0x150) ∧
  (decode 0x404C [0x0C00, 0x0004]).toOption = some (.fence 4 12) ∧
  (decode 0x4027 [0x2828]).toOption = some (.claim 7 1 8) ∧
  (decode 0x4427 [0x056C]).toOption = some (.edge 7 11 12)

/-- For every well-formed instruction that has words, with every operand, and either convoy bit: its encoding is a head
and a tail of as many bytes as the head states, the head carries the convoy bit, and decoding them gives the
instruction. (R93, R94, R95, R96, R97, R98) -/
def Obligations.EncodeDecodeRoundTrip : Prop :=
  ∀ (c : Bool) (i : Instr), i.wf = true → (toRaw i).isSome = true →
    ∃ head tail, encode c i = head :: tail ∧ decode head tail = .ok i ∧ headTail head = 2 * tail.length ∧
      head.getLsbD 15 = c

/-- From every state whose byte memories are in canonical form (addresses strictly rising, no listed byte equal to what
an unlisted one reads as), a step of any hart or event that answers a next state leaves them so. The canonical form
is the model's own (log 5). (R3, R248, R249) -/
def Obligations.MemoryStaysCanonical : Prop :=
  ∀ (s t : State), Canonical s → step s = .next t → Canonical t

/-- From every state in which each hart, and each register file a queued instruction would return to, has TL at most 2
and nothing in the reserved bits of FFLAGS and ATC, every step that answers a next state leaves it so: by trap
entry, return, system-register write, replay, resume and placement alike. (R401, R404, R133, R134) -/
def Obligations.TrapLevelsStayLegal : Prop :=
  ∀ (s t : State), LegalHarts s → step s = .next t → LegalHarts t

/-- For a canonical memory: after a write of some bytes it is canonical, the bytes read back, every other address reads
as before, a read of n bytes is the n single reads, and the little-endian number of the bytes of a value is the
value modulo 256 to their number. (R3) -/
def Obligations.BytesReadBack : Prop :=
  ∀ (m : Cells) (a : Nat) (bs : List Byte), Memory.wf m = true →
    Memory.wf (putBytes m a bs) = true ∧ getBytes (putBytes m a bs) a bs.length = bs ∧
    (∀ b, byteAt (putBytes m a bs) b = if a ≤ b ∧ b < a + bs.length then bs.getD (b - a) 0 else byteAt m b) ∧
    (∀ n, getBytes m a n = (List.range n).map fun i => byteAt m (a + i)) ∧
    (∀ n v, leNat (leBytes n v) = v % 256 ^ n ∧ (leBytes n v).length = n)

/-- After reset the package is powered, at stage 0, busy and not failed, with ATTEMPT 0; there is no partition and no
listed byte of device memory; PWR_CAP is 2,800, FAILT 100 and DLT 20; every core has REPLAY_LIMIT 1,024 and 64, WPOS
0 and no tag; every hart is free with VTYPE rejected, RC 1 and VL 0; every peer is not failed and starts at sequence
number 0; memory is canonical and every trap level legal. That no byte of device memory is listed, so that memory
reads 0, is the model's choice (DESIGN CHOICE, log 5). VTYPE, RC and VL of a hart before its first placement are the
values of R76 (DESIGN CHOICE, log 6). (R22, R76, R260, R367, R379, R387, R422) -/
def Obligations.ResetLeaves : Prop :=
  State.reset.powered = true ∧ State.reset.st.stage = 0 ∧ State.reset.st.busy = true ∧ State.reset.st.fail = false ∧
  State.reset.st.attempt = 0 ∧ State.reset.parts = [] ∧ State.reset.mem = [] ∧ State.reset.pwrCap = 2800 ∧
  State.reset.fabFailt = 100 ∧ State.reset.fabDlt = 20 ∧ Canonical State.reset ∧ LegalHarts State.reset ∧
  ∀ c h p, (State.reset.core c).window = 1024 ∧ (State.reset.core c).limit = 64 ∧
    (∀ n : Fin 4, (State.reset.core c).channels[n].pos = 0) ∧ (State.reset.core c).tags = [] ∧
    (State.reset.hart h).node = none ∧ (State.reset.hart h).regs.vtype = 0x8000000000000000 ∧
    (State.reset.hart h).regs.rc = 1 ∧ (State.reset.hart h).regs.vl = 0 ∧ (State.reset.peer p).nextSeq = 0 ∧
    (State.reset.peer p).expect = 0 ∧ (State.reset.peer p).failed = false

/-- For every ADD, SUB, AND, OR, XOR, shift, set-less-than, minimum, maximum, multiply and immediate form, and every
state in which the instruction is not the first at TL 0 after a return and none is stopped part-way: exec answers a
next state in which s[d] holds the value of R170 or R172, PC is the fall-through successor, and every other
register, the queue, every other hart, the cores and every byte of memory are as before. As the first instruction at
TL 0 after a return it also clears FEM and PIX. A write to s0 writes nothing, s0 reads 0, and a write to another
register is read back and changes no other. That an instruction which is not the reissue also clears PIX is DEDUCED
from R281 and R408 (log 24). (R170, R172, R178, R75, R281, R408) -/
def Obligations.ScalarResults : Prop :=
  Sys2Proof.Claims.ScalarForms ∧ Sys2Proof.Claims.FirstInstructionClears ∧ Sys2Proof.Claims.ScalarZeroRegister

/-- For every scalar division: with the condition of R171 not enabled in ATC, exec answers a next state with s[d] the
value of R136; with an empty vector queue FFLAGS gains the condition's bit at once, and behind queued vector
instructions the bit waits in the last entry and merges when that retires. With the condition enabled and the queue
empty, exec answers the state at the handler with INT_DIVZERO or INT_OVERFLOW, TEPC at the instruction, TVAL the
FFLAGS bit and TLANE 0x0000_0001_0000_0000, and s[d] and FFLAGS as they were. That the bit of a division behind
queued vector instructions waits for them is the model's choice, so that a later trap of one of them undoes it
(R112; log 8). (R171, R136, R116, R404) -/
def Obligations.Divisions : Prop :=
  Sys2Proof.Claims.DivisionResults ∧ Sys2Proof.Claims.DivisionTraps

/-- A branch whose condition holds, a JAL and a JALR go to their target, which must name a head, with the line not yet
read, JAL and JALR writing the return address; a branch whose condition fails falls through. LOOP with S of 1 to 4
shifts the stage bits, counts LOOPCNT down, writes m4 to m7, turns RRB.BASE by 15 modulo 16 and is taken exactly
when one of the low S stage bits is set. A target with bits 5:0 odd or 0 traps ALIGNMENT with TVAL the target once
the vector queue is empty, and no register but the trap's changes. Memory, other harts, node and store buffer are as
before. (R119) -/
def Obligations.Transfers : Prop :=
  Sys2Proof.Claims.TransfersTaken ∧ Sys2Proof.Claims.BranchesNotTaken ∧ Sys2Proof.Claims.MisalignedTransfersTrap ∧ Sys2Proof.Claims.LoopIterates ∧ Sys2Proof.Claims.MisalignedLoopsTrap

/-- With the vector queue empty. With a handler: TRAP enters SYSCALL with TEPC the return address and TVAL the service;
BRK enters BREAK with TEPC its own PC and TVAL the code; both write the trap bank of the level entered, raise TL,
and go to head 0 of the handler's line. TRET at TL 1 or 2 with no batch pending lowers TL and goes to the TEPC of
the level left, PIX being cleared at TL 1 unless its STOP is set; the next instruction is the first after a return
exactly when TL is then 0. With a batch pending it waits for the pager; at TL 0 it traps ILLEGAL with WHY 7; a TEPC
that names no head traps ALIGNMENT at the TRET, at the current TL. TRAP and BRK, the entry and the pending batch are
R182, R403, R404 and R407; that a TRET to TL 0 clears PIX unless its STOP is set is the model's reading (DEDUCED,
log 45). (R182, R183, R403, R404, R407) -/
def Obligations.CallsAndReturns : Prop :=
  Sys2Proof.Claims.SystemCallsTrap ∧ Sys2Proof.Claims.ReturnRestores ∧ Sys2Proof.Claims.ReturnWaitsOrTraps

/-- NOP only advances PC. With the vector queue empty: IDLE completes with no effect while a cancel is pending or the
rank has resumed, and else blocks the hart at the IDLE. YIELD completes with no effect when the hart runs no node or
its node has no ready node to give way to or no free save slot; where a slot applies no store of a push stands in
its store buffer, and every hart of the node has settled, the hart is freed and the node is READY with that slot,
its level at PRIO and its pass count 0; where some hart has not settled, the hart stays at the YIELD, runnable. The
pass count of a node that yields is the model's choice (DESIGN CHOICE, log 45). (R182, R185, R356, R409, R410, R411) -/
def Obligations.NopIdleAndYield : Prop :=
  Sys2Proof.Claims.NopAndIdle ∧ Sys2Proof.Claims.YieldPreemptsOrContinues

/-- SETVL with a valid VTYPE writes min(s[a], VLT) to VL and s[d]; SETRC clamps RC to 1 to 16 and trims VL; SETVT
accepts a supported request, trims VL and gives VLMAX, and otherwise writes the rejected request with VREJ set, VL 0
and s[d] 0; SETDIM writes DLENk and DSTEPk; GETSHAPE gives the shape tag of f[a] once no queued instruction has
written that register (that it waits while one has is stated in EveryInstructionAnswers). SETSHAPE, with room in the
queue, releases a register on a zero tag, and retags it keeping the bytes a row holds where the tag is legal and the
pool can hold it; a reserved tag traps ILLEGAL with WHY 6. (R198, R199, R201, R202, R203, R204, R205, R206, R146,
R147, R108, R79) -/
def Obligations.Configuration : Prop :=
  Sys2Proof.Claims.ConfigurationResults ∧ Sys2Proof.Claims.ShapesAreSet

/-- With the vector queue empty, for every number of R188: MFSR at a trap level that may read it writes its value to
s[d]; MTSR at a level that may write it changes exactly the fields of R186, R188 and R189, a write of VL under a
rejected VTYPE aside; below that level either traps ILLEGAL with WHY 7, and a number that is no register traps
ILLEGAL with WHY 6. Nothing else changes. That MTSR writes the 48 defined bits of TLANE1 and TLANE2 is the model's
reading: R134's map says RO and R188 says RW (DEDUCED, log 6). That both wait for the queue is stated in
EveryInstructionAnswers. (R186, R188, R189, R73, R75, R386, R387, R388, R390) -/
def Obligations.SystemRegisters : Prop :=
  Sys2Proof.Claims.SystemRegisterReads ∧ Sys2Proof.Claims.SystemRegisterWrites ∧ Sys2Proof.Claims.SystemRegisterProtection

/-- With the vector queue empty and no earlier vector access or peer store of the hart outstanding: an aligned store to
the scratchpad window, not to a page of device registers, writes its low n bytes there and no other byte of memory;
one to a local home that the core's TLB holds and grants for writing, by a hart that is not speculative, adds one
store-buffer entry with its address, its home and its bytes, not held back, and changes no byte of memory until the
entry is performed. That a store to a local home waits in the buffer until a drain is a turn of the agenda is the
model's choice (log 9). (R173, R174, R175, R323, R324, R249) -/
def Obligations.Stores : Prop :=
  Sys2Proof.Claims.StoresToScratchpad ∧ Sys2Proof.Claims.StoresAreBuffered

/-- For every legal element-wise form of major 0x28 in element mode, special function of major 0x2C, and VPERM, VSLIDE,
VEXPAND, VBCAST, VTRANS and VIOTA, with room in the queue, a valid VTYPE, storage for the result and no raised
condition enabled: exec answers a next state in which the active elements of the destination hold the values of
their rule and inactive ones keep theirs, and one queue entry more holds the conditions raised, which FFLAGS gains
at retirement; no other register, hart, core (but for its counters) or byte of memory changes. A special function is
any value within the bound of R217 (log 13). (R207, R208, R209, R210, R217, R218, R223, R225, R109, R116, R130,
R136) -/
def Obligations.Elementwise : Prop :=
  Sys2Proof.Claims.ElementwiseResults ∧ Sys2Proof.Claims.ElementMovesResults

/-- With room in the queue and a valid VTYPE, for every VCMP legal for its format and every VMAND, VMOR, VMXOR and
VMANDN: m[d] holds at each active index below RC × VL the new bit, at each inactive one the old, and 0 above; with
RC × VL 0 it is as before; m0 stays; a compare's entry carries NV as R215 says; VMPOP counts the active set bits
into s[d]. No other register, hart or byte changes. (R190, R191, R215, R216, R75, R109) -/
def Obligations.ComparesAndMasks : Prop :=
  Sys2Proof.Claims.CompareResults ∧ Sys2Proof.Claims.MaskResults

/-- With a handler and the vector queue empty: an element-wise, moving, compare, mask or function form and SETVL trap
VTYPE_ILL with TVAL VTYPE while VREJ is set; an element-wise form whose writes the granule pool cannot hold traps
DEGREE_STORAGE with WHY 2, NEED and AVAIL in TVAL; one that raises an enabled condition traps INT_DIVZERO,
INT_OVERFLOW or FP_ENABLED with TVAL its conditions and TLANE the count and the first and last element. The
instruction has written nothing. That TLANE counts the elements that raise any enabled floating-point condition is
DEDUCED (log 23). (R108, R79, R134, R157, R403) -/
def Obligations.VectorTraps : Prop :=
  Sys2Proof.Claims.VtypeRejectedTraps ∧ Sys2Proof.Claims.StorageTraps ∧ Sys2Proof.Claims.EnabledConditionsTrap

/-- For every legal vector load that runs whole in its turn and does not execute again after a wait of R405, with room
in the queue, whose aligned accesses lie in the unpoisoned scratchpad window, with storage for the result: an active
element with an access holds the value at its address, an active one without an access holds +0, and an inactive one
keeps its value; every other register but the program counter, every other hart and every byte of memory is as
before. VLD.fem copies FEM to a mask register and VST.fem a mask register to FEM. (R290, R292, R293, R296, R297,
R298, R249, R109) -/
def Obligations.VectorLoads : Prop :=
  Sys2Proof.Claims.VectorLoadsFromScratchpad ∧ Sys2Proof.Claims.FaultMaskMoves

/-- With the vector queue empty. For every legal vector store that runs whole in its turn, whose aligned accesses lie in
the unpoisoned scratchpad window: the bytes of the active elements stand at their addresses, in logical order, and
no other byte of memory changes. VST.seg to granted self-describing pages of its class at local homes, by a hart
that is not speculative, adds store-buffer entries whose parts are exactly one 64-byte block for each 62 payload
bytes: format byte, scale byte and payload; no byte of memory changes until they are performed. The place of the
scale bytes in a register of several rows is a reading (log 40). (R292, R293, R299, R300, R137, R323) -/
def Obligations.VectorStores : Prop :=
  Sys2Proof.Claims.VectorStoresToScratchpad ∧ Sys2Proof.Claims.SegmentStores

/-- With the vector queue empty and nothing earlier of the hart outstanding, for every legal VSTRED and VAMO that runs
whole in its turn, whose aligned accesses lie in the unpoisoned scratchpad window: each active element updates its
bytes once from the value they then hold, by the addition of R301 or the operation of R176; VAMO writes the old
values to its tile; no byte outside the accesses changes. (R301, R302, R176) -/
def Obligations.VectorUpdates : Prop :=
  Sys2Proof.Claims.ReducingStoresToScratchpad ∧ Sys2Proof.Claims.VectorAtomicsInScratchpad

/-- With the vector queue empty. For every legal load of a held slot whose accesses lie in the unpoisoned scratchpad
window: the slot holds the matrix read by rows, transposed, gathered by an index tile, or built from compressed
sparse rows, where a row with falling pointers or a column out of range raises NV (not enabled), and where a
dimension is zero the empty matrix; MSTORE of a format other than O4 writes the tile as DLEN1 rows of DLEN0
elements. MREL with claims waiting grants the oldest, with every further claim of the same hart. No other slot,
register or byte changes. That a further waiting claim of the hart that is granted the slot is granted with it is
the model's choice (DESIGN CHOICE, log 8). (R239, R240, R241, R242, R245, R247, R249) -/
def Obligations.PaletteMemory : Prop :=
  Sys2Proof.Claims.PaletteLoadsFromScratchpad ∧ Sys2Proof.Claims.SparseRowsLoad ∧ Sys2Proof.Claims.PaletteStoresToScratchpad ∧ Sys2Proof.Claims.FurtherClaims

/-- A pop, with room in the queue, of a load stream without stages writes the next RC × VL elements of its pattern to
the tile, zeros beyond its end, and advances the stream; a push, with the queue empty, writes the tile's elements at
their addresses in order and to no other byte, and advances the stream; QBIND of a legal table that is not of a
compressed buffer binds it with position 0; QREL unbinds. A store stream with the compress stage, whose release
writes, is not spoken of. The nibble of a 4-bit element is a reading (log 28). (R308, R309, R310, R311, R263, R264,
R265) -/
def Obligations.StreamsMove : Prop :=
  Sys2Proof.Claims.StreamPops ∧ Sys2Proof.Claims.StreamPushes ∧ Sys2Proof.Claims.StreamBinding

/-- With the vector queue empty: with both ranges in the scratchpad window, the hart's store buffer empty and room in
the channel, CPY and CPY.x write to s[d] the issued position advanced by the length and queue exactly one transfer
with the addresses, the length and, for CPY.x, the blocks that the directory of the compressed buffer names, to be
expanded; one of length 0 gives the issued position and, for CPY.x, is accepted only with a good header. A block at
or beyond NBLK is a reading (log 28). (R304, R305, R306, R259, R260, R262, R267, R269) -/
def Obligations.Copies : Prop :=
  Sys2Proof.Claims.CopiesAreQueued ∧ Sys2Proof.Claims.ExpandingCopiesAreQueued

/-- With the vector queue empty CWAIT completes with WPOS exactly when WPOS − s[a] is not negative, and else blocks the
hart. A delivery of some bytes, within a line at each end, of the oldest transfer between two places of a scratchpad
copies exactly them and advances WPOS by their number, ending the transfer with its last byte; a mark is raised once
the queue is empty. (R307, R260, R262) -/
def Obligations.CopyChannels : Prop :=
  Sys2Proof.Claims.CopyWaits ∧ Sys2Proof.Claims.CopyChannelsDeliver

/-- For a tile of one command, the vector queue empty and the hart not speculative: malformed words give reason 1, a
stale handle reason 2, a full queue reason 4, and each clears the command's mask bit and adds no command; an
accepted copy, whose source pages' walks skip no malformed entry, sets it and queues exactly the command asked for.
A turn of a copy command whose next bytes lie in one readable line writes them to the shadow of its buffer and to no
other byte of it, and ends the command with its last byte. The depth of the queue is an opaque constant (log 18), so
both outcomes are stated. (R312, R313, R314, R335) -/
def Obligations.Engines : Prop :=
  Sys2Proof.Claims.EngineSubmission ∧ Sys2Proof.Claims.EnginesWrite

/-- With the vector queue empty, for a well-formed object at a local home that the hart may operate on at once: ACQ of
an object not marked LOST that no one holds writes the hart as holder; of one it holds it completes with no change;
of one held by another it waits in arrival order. REL, with no store under the object's tag still to be performed,
of a held object adds 1 to RELSEQ and clears the holder, and of another changes nothing. BIND writes the region word
to the lowest region not valid. The grant of the oldest waiting ACQ of a free object writes that hart as holder and
lets it go on. (R326, R327, R328, R329, R339, R341, R342) -/
def Obligations.SyncObjects : Prop :=
  Sys2Proof.Claims.ObjectOperations ∧ Sys2Proof.Claims.WaitingAcquisitionsAreGranted

/-- With the vector queue and the store buffer empty and nothing of the hart under way, for a well-formed barrier bound
to no other group than the hart's private one: an arrival writes the group and STATE with the charge and, unless it
repeats one of the phase, one arrival more; when every member has arrived and no byte is pending the phase
completes. BAR completes with the phase and otherwise blocks. WAIT blocks while the mark's phase is the present one
or while bytes are pending, and completes otherwise. (R344, R345, R346, R347, R348, R85) -/
def Obligations.Barriers : Prop :=
  Sys2Proof.Claims.BarrierArrivals ∧ Sys2Proof.Claims.BarrierWaits

/-- For a hart with an empty vector queue that is not speculative, a handle below 2^32 of a buffer, and no migration
under way: PUBLISH with a command accepted so far that has not ended blocks the hart; with every such command ended
under the present generation and resolved, the buffer's front takes the bytes of the shadow, the shadow those that
the front held, no other byte of device memory changes and s[d] is 0; a command of another generation gives 2, and
an unresolved one 3, with memory as before and the shadow holding the bytes of the front. A blocked PUBLISH makes
the same exchange on its turn, by the commands accepted before it began. That the front's pieces stand where the
migrations that have ended took its pages is the model's reading (DEDUCED, log 18). (R335, R351, R284) -/
def Obligations.Publishing : Prop :=
  Sys2Proof.Claims.PublishExchanges ∧ Sys2Proof.Claims.BlockedPublishExchanges

/-- With the vector queue empty: NODE without the INSERT right gives DENIED; with it, and a record at a local home, it
completes with a status or a handle; a sound record with a free slot gets RESULT and s[d] the handle, and the new
node is HELD or READY with no predecessor. EDGE with handles below 2^32 completes with a code (5 without the right);
to a node not HELD it gives 2; a release gives 1 and makes the node WAITING or READY; an added edge gives 0, one
predecessor more and one link more. NODE's creation changes no other node. (R28, R29, R34, R35, R352, R353, R354) -/
def Obligations.NodesAndEdges : Prop :=
  Sys2Proof.Claims.NodesAreCreated ∧ Sys2Proof.Claims.EdgesOrderNodes

/-- A reply ends its batch and, in the trap bank of the level that took it, clears PEND and sets UNRES exactly when a
page of the report is absent, or lets a fetch go on; what it would map outside the pages of the report, or of a page
it reports as unresolved, is ignored. A migration is asked for once at the threshold, starts between two frames, the
new one joining the partition's, copies one line after another and ends when nothing uses the old frame; a declined
one may be asked for again. A refresh counts; a scrub of an uncorrectable line of a frame of no partition poisons it
and clears it. What the pager and Silven decide is an input (log 15, log 29). (R278, R283, R284, R288, R402, R405,
R407, R424) -/
def Obligations.PagerAndMigration : Prop :=
  Sys2Proof.Claims.PagerReplies ∧ Sys2Proof.Claims.MemoryUpkeep

/-- For every constructor of Instr and every state, exec answers a next state: no fault and no refusal. An instruction
that R110, R111 or R391 makes wait for the vector instruction queue leaves everything as it was, the hart runnable
at it, while the queue is not empty; so do a vector form while 64 instructions are queued, a division or a transfer
that would trap while one is, and GETSHAPE while a queued instruction has written its register. The list of those
that wait is the model's reading of R110, R111, R112 and R391 (log 8). (R106, R109, R110, R111, R205, R391, R404) -/
def Obligations.EveryInstructionAnswers : Prop :=
  Sys2Proof.Claims.InstructionsAnswer ∧ Sys2Proof.Claims.QueueWaits
end

