-- ==== Sys2Proof/Laws/State.lean ====
section
/-!
SUPPORT. State.lean: what each update of State, of a hart and of its registers does to each field; sparse tables.
-/

namespace Sys2Proof.Machine

/-! ## Sparse tables -/

@[simp] theorem tget_tput_same {α : Type} (t : Table α) (k : Nat) (v : α) : tget (tput t k v) k = some v := by
  induction t with
  | nil => simp [tput, tget]
  | cons e rest ih =>
    obtain ⟨j, w⟩ := e
    by_cases h1 : k < j
    · simp [tput, tget, h1]
    · by_cases h2 : k = j
      · subst h2; simp [tput, tget]
      · have h3 : ¬ j = k := fun h => h2 h.symm
        simp [tput, tget, h1, h2, h3, ih]

@[simp] theorem tget_tput_other {α : Type} (t : Table α) (k j : Nat) (v : α) (h : j ≠ k) :
    tget (tput t k v) j = tget t j := by
  have hk : ¬ k = j := fun e => h e.symm
  induction t with
  | nil => simp [tput, tget, hk]
  | cons e rest ih =>
    obtain ⟨i, w⟩ := e
    by_cases h1 : k < i
    · simp [tput, tget, h1, hk]
    · by_cases h2 : k = i
      · subst h2; simp [tput, tget, hk]
      · by_cases h3 : i = j
        · subst h3; simp [tput, tget, h1, h2]
        · simp [tput, tget, h1, h2, h3, ih]

/-! ## Updates of State -/

@[simp] theorem State.setHart_agenda (s : State) (h : Nat) (x : Hart) : (s.setHart h x).agenda = s.agenda := rfl
@[simp] theorem State.setHart_cur (s : State) (h : Nat) (x : Hart) : (s.setHart h x).cur = s.cur := rfl
@[simp] theorem State.setHart_quota (s : State) (h : Nat) (x : Hart) : (s.setHart h x).quota = s.quota := rfl
@[simp] theorem State.setHart_now (s : State) (h : Nat) (x : Hart) : (s.setHart h x).now = s.now := rfl
@[simp] theorem State.setHart_ticks (s : State) (h : Nat) (x : Hart) : (s.setHart h x).ticks = s.ticks := rfl
@[simp] theorem State.setHart_free (s : State) (h : Nat) (x : Hart) : (s.setHart h x).free = s.free := rfl
@[simp] theorem State.setHart_powered (s : State) (h : Nat) (x : Hart) : (s.setHart h x).powered = s.powered := rfl
@[simp] theorem State.setHart_st (s : State) (h : Nat) (x : Hart) : (s.setHart h x).st = s.st := rfl
@[simp] theorem State.setHart_timeBase (s : State) (h : Nat) (x : Hart) : (s.setHart h x).timeBase = s.timeBase := rfl
@[simp] theorem State.setHart_early (s : State) (h : Nat) (x : Hart) : (s.setHart h x).early = s.early := rfl
@[simp] theorem State.setHart_flash (s : State) (h : Nat) (x : Hart) : (s.setHart h x).flash = s.flash := rfl
@[simp] theorem State.setHart_session (s : State) (h : Nat) (x : Hart) : (s.setHart h x).session = s.session := rfl
@[simp] theorem State.setHart_secured (s : State) (h : Nat) (x : Hart) : (s.setHart h x).secured = s.secured := rfl
@[simp] theorem State.setHart_ideKeys (s : State) (h : Nat) (x : Hart) : (s.setHart h x).ideKeys = s.ideKeys := rfl
@[simp] theorem State.setHart_ideActive (s : State) (h : Nat) (x : Hart) : (s.setHart h x).ideActive = s.ideActive := rfl
@[simp] theorem State.setHart_measured (s : State) (h : Nat) (x : Hart) : (s.setHart h x).measured = s.measured := rfl
@[simp] theorem State.setHart_parts (s : State) (h : Nat) (x : Hart) : (s.setHart h x).parts = s.parts := rfl
@[simp] theorem State.setHart_scheds (s : State) (h : Nat) (x : Hart) : (s.setHart h x).scheds = s.scheds := rfl
@[simp] theorem State.setHart_cores (s : State) (h : Nat) (x : Hart) : (s.setHart h x).cores = s.cores := rfl
@[simp] theorem State.setHart_mem (s : State) (h : Nat) (x : Hart) : (s.setHart h x).mem = s.mem := rfl
@[simp] theorem State.setHart_tbl (s : State) (h : Nat) (x : Hart) : (s.setHart h x).tbl = s.tbl := rfl
@[simp] theorem State.setHart_poisoned (s : State) (h : Nat) (x : Hart) : (s.setHart h x).poisoned = s.poisoned := rfl
@[simp] theorem State.setHart_host (s : State) (h : Nat) (x : Hart) : (s.setHart h x).host = s.host := rfl
@[simp] theorem State.setHart_busMaster (s : State) (h : Nat) (x : Hart) : (s.setHart h x).busMaster = s.busMaster := rfl
@[simp] theorem State.setHart_hostErrors (s : State) (h : Nat) (x : Hart) : (s.setHart h x).hostErrors = s.hostErrors := rfl
@[simp] theorem State.setHart_trAnchor (s : State) (h : Nat) (x : Hart) : (s.setHart h x).trAnchor = s.trAnchor := rfl
@[simp] theorem State.setHart_trPool (s : State) (h : Nat) (x : Hart) : (s.setHart h x).trPool = s.trPool := rfl
@[simp] theorem State.setHart_trCount (s : State) (h : Nat) (x : Hart) : (s.setHart h x).trCount = s.trCount := rfl
@[simp] theorem State.setHart_l2 (s : State) (h : Nat) (x : Hart) : (s.setHart h x).l2 = s.l2 := rfl
@[simp] theorem State.setHart_copies (s : State) (h : Nat) (x : Hart) : (s.setHart h x).copies = s.copies := rfl
@[simp] theorem State.setHart_drops (s : State) (h : Nat) (x : Hart) : (s.setHart h x).drops = s.drops := rfl
@[simp] theorem State.setHart_migrations (s : State) (h : Nat) (x : Hart) : (s.setHart h x).migrations = s.migrations := rfl
@[simp] theorem State.setHart_chans (s : State) (h : Nat) (x : Hart) : (s.setHart h x).chans = s.chans := rfl
@[simp] theorem State.setHart_corrected (s : State) (h : Nat) (x : Hart) : (s.setHart h x).corrected = s.corrected := rfl
@[simp] theorem State.setHart_peers (s : State) (h : Nat) (x : Hart) : (s.setHart h x).peers = s.peers := rfl
@[simp] theorem State.setHart_ports (s : State) (h : Nat) (x : Hart) : (s.setHart h x).ports = s.ports := rfl
@[simp] theorem State.setHart_routes (s : State) (h : Nat) (x : Hart) : (s.setHart h x).routes = s.routes := rfl
@[simp] theorem State.setHart_fabFailt (s : State) (h : Nat) (x : Hart) : (s.setHart h x).fabFailt = s.fabFailt := rfl
@[simp] theorem State.setHart_fabDlt (s : State) (h : Nat) (x : Hart) : (s.setHart h x).fabDlt = s.fabDlt := rfl
@[simp] theorem State.setHart_fetched (s : State) (h : Nat) (x : Hart) : (s.setHart h x).fetched = s.fetched := rfl
@[simp] theorem State.setHart_commands (s : State) (h : Nat) (x : Hart) : (s.setHart h x).commands = s.commands := rfl
@[simp] theorem State.setHart_nextCommand (s : State) (h : Nat) (x : Hart) : (s.setHart h x).nextCommand = s.nextCommand := rfl
@[simp] theorem State.setHart_shares (s : State) (h : Nat) (x : Hart) : (s.setHart h x).shares = s.shares := rfl
@[simp] theorem State.setHart_acqs (s : State) (h : Nat) (x : Hart) : (s.setHart h x).acqs = s.acqs := rfl
@[simp] theorem State.setHart_barriers (s : State) (h : Nat) (x : Hart) : (s.setHart h x).barriers = s.barriers := rfl
@[simp] theorem State.setHart_batches (s : State) (h : Nat) (x : Hart) : (s.setHart h x).batches = s.batches := rfl
@[simp] theorem State.setHart_nextBatch (s : State) (h : Nat) (x : Hart) : (s.setHart h x).nextBatch = s.nextBatch := rfl
@[simp] theorem State.setHart_pwrCap (s : State) (h : Nat) (x : Hart) : (s.setHart h x).pwrCap = s.pwrCap := rfl
@[simp] theorem State.setHart_pwrEst (s : State) (h : Nat) (x : Hart) : (s.setHart h x).pwrEst = s.pwrEst := rfl
@[simp] theorem State.setHart_pwrDuty (s : State) (h : Nat) (x : Hart) : (s.setHart h x).pwrDuty = s.pwrDuty := rfl
@[simp] theorem State.setHart_dlog (s : State) (h : Nat) (x : Hart) : (s.setHart h x).dlog = s.dlog := rfl
@[simp] theorem State.setHart_nextRecord (s : State) (h : Nat) (x : Hart) : (s.setHart h x).nextRecord = s.nextRecord := rfl
@[simp] theorem State.setHart_regPages (s : State) (h : Nat) (x : Hart) : (s.setHart h x).regPages = s.regPages := rfl
@[simp] theorem State.setHart_posted (s : State) (h : Nat) (x : Hart) : (s.setHart h x).posted = s.posted := rfl
@[simp] theorem State.setHart_out (s : State) (h : Nat) (x : Hart) : (s.setHart h x).out = s.out := rfl
@[simp] theorem State.setCore_agenda (s : State) (c : Nat) (x : Core) : (s.setCore c x).agenda = s.agenda := rfl
@[simp] theorem State.setCore_cur (s : State) (c : Nat) (x : Core) : (s.setCore c x).cur = s.cur := rfl
@[simp] theorem State.setCore_quota (s : State) (c : Nat) (x : Core) : (s.setCore c x).quota = s.quota := rfl
@[simp] theorem State.setCore_now (s : State) (c : Nat) (x : Core) : (s.setCore c x).now = s.now := rfl
@[simp] theorem State.setCore_ticks (s : State) (c : Nat) (x : Core) : (s.setCore c x).ticks = s.ticks := rfl
@[simp] theorem State.setCore_free (s : State) (c : Nat) (x : Core) : (s.setCore c x).free = s.free := rfl
@[simp] theorem State.setCore_powered (s : State) (c : Nat) (x : Core) : (s.setCore c x).powered = s.powered := rfl
@[simp] theorem State.setCore_st (s : State) (c : Nat) (x : Core) : (s.setCore c x).st = s.st := rfl
@[simp] theorem State.setCore_timeBase (s : State) (c : Nat) (x : Core) : (s.setCore c x).timeBase = s.timeBase := rfl
@[simp] theorem State.setCore_early (s : State) (c : Nat) (x : Core) : (s.setCore c x).early = s.early := rfl
@[simp] theorem State.setCore_flash (s : State) (c : Nat) (x : Core) : (s.setCore c x).flash = s.flash := rfl
@[simp] theorem State.setCore_session (s : State) (c : Nat) (x : Core) : (s.setCore c x).session = s.session := rfl
@[simp] theorem State.setCore_secured (s : State) (c : Nat) (x : Core) : (s.setCore c x).secured = s.secured := rfl
@[simp] theorem State.setCore_ideKeys (s : State) (c : Nat) (x : Core) : (s.setCore c x).ideKeys = s.ideKeys := rfl
@[simp] theorem State.setCore_ideActive (s : State) (c : Nat) (x : Core) : (s.setCore c x).ideActive = s.ideActive := rfl
@[simp] theorem State.setCore_measured (s : State) (c : Nat) (x : Core) : (s.setCore c x).measured = s.measured := rfl
@[simp] theorem State.setCore_parts (s : State) (c : Nat) (x : Core) : (s.setCore c x).parts = s.parts := rfl
@[simp] theorem State.setCore_scheds (s : State) (c : Nat) (x : Core) : (s.setCore c x).scheds = s.scheds := rfl
@[simp] theorem State.setCore_harts (s : State) (c : Nat) (x : Core) : (s.setCore c x).harts = s.harts := rfl
@[simp] theorem State.setCore_mem (s : State) (c : Nat) (x : Core) : (s.setCore c x).mem = s.mem := rfl
@[simp] theorem State.setCore_tbl (s : State) (c : Nat) (x : Core) : (s.setCore c x).tbl = s.tbl := rfl
@[simp] theorem State.setCore_poisoned (s : State) (c : Nat) (x : Core) : (s.setCore c x).poisoned = s.poisoned := rfl
@[simp] theorem State.setCore_host (s : State) (c : Nat) (x : Core) : (s.setCore c x).host = s.host := rfl
@[simp] theorem State.setCore_busMaster (s : State) (c : Nat) (x : Core) : (s.setCore c x).busMaster = s.busMaster := rfl
@[simp] theorem State.setCore_hostErrors (s : State) (c : Nat) (x : Core) : (s.setCore c x).hostErrors = s.hostErrors := rfl
@[simp] theorem State.setCore_trAnchor (s : State) (c : Nat) (x : Core) : (s.setCore c x).trAnchor = s.trAnchor := rfl
@[simp] theorem State.setCore_trPool (s : State) (c : Nat) (x : Core) : (s.setCore c x).trPool = s.trPool := rfl
@[simp] theorem State.setCore_trCount (s : State) (c : Nat) (x : Core) : (s.setCore c x).trCount = s.trCount := rfl
@[simp] theorem State.setCore_l2 (s : State) (c : Nat) (x : Core) : (s.setCore c x).l2 = s.l2 := rfl
@[simp] theorem State.setCore_copies (s : State) (c : Nat) (x : Core) : (s.setCore c x).copies = s.copies := rfl
@[simp] theorem State.setCore_drops (s : State) (c : Nat) (x : Core) : (s.setCore c x).drops = s.drops := rfl
@[simp] theorem State.setCore_migrations (s : State) (c : Nat) (x : Core) : (s.setCore c x).migrations = s.migrations := rfl
@[simp] theorem State.setCore_chans (s : State) (c : Nat) (x : Core) : (s.setCore c x).chans = s.chans := rfl
@[simp] theorem State.setCore_corrected (s : State) (c : Nat) (x : Core) : (s.setCore c x).corrected = s.corrected := rfl
@[simp] theorem State.setCore_peers (s : State) (c : Nat) (x : Core) : (s.setCore c x).peers = s.peers := rfl
@[simp] theorem State.setCore_ports (s : State) (c : Nat) (x : Core) : (s.setCore c x).ports = s.ports := rfl
@[simp] theorem State.setCore_routes (s : State) (c : Nat) (x : Core) : (s.setCore c x).routes = s.routes := rfl
@[simp] theorem State.setCore_fabFailt (s : State) (c : Nat) (x : Core) : (s.setCore c x).fabFailt = s.fabFailt := rfl
@[simp] theorem State.setCore_fabDlt (s : State) (c : Nat) (x : Core) : (s.setCore c x).fabDlt = s.fabDlt := rfl
@[simp] theorem State.setCore_fetched (s : State) (c : Nat) (x : Core) : (s.setCore c x).fetched = s.fetched := rfl
@[simp] theorem State.setCore_commands (s : State) (c : Nat) (x : Core) : (s.setCore c x).commands = s.commands := rfl
@[simp] theorem State.setCore_nextCommand (s : State) (c : Nat) (x : Core) : (s.setCore c x).nextCommand = s.nextCommand := rfl
@[simp] theorem State.setCore_shares (s : State) (c : Nat) (x : Core) : (s.setCore c x).shares = s.shares := rfl
@[simp] theorem State.setCore_acqs (s : State) (c : Nat) (x : Core) : (s.setCore c x).acqs = s.acqs := rfl
@[simp] theorem State.setCore_barriers (s : State) (c : Nat) (x : Core) : (s.setCore c x).barriers = s.barriers := rfl
@[simp] theorem State.setCore_batches (s : State) (c : Nat) (x : Core) : (s.setCore c x).batches = s.batches := rfl
@[simp] theorem State.setCore_nextBatch (s : State) (c : Nat) (x : Core) : (s.setCore c x).nextBatch = s.nextBatch := rfl
@[simp] theorem State.setCore_pwrCap (s : State) (c : Nat) (x : Core) : (s.setCore c x).pwrCap = s.pwrCap := rfl
@[simp] theorem State.setCore_pwrEst (s : State) (c : Nat) (x : Core) : (s.setCore c x).pwrEst = s.pwrEst := rfl
@[simp] theorem State.setCore_pwrDuty (s : State) (c : Nat) (x : Core) : (s.setCore c x).pwrDuty = s.pwrDuty := rfl
@[simp] theorem State.setCore_dlog (s : State) (c : Nat) (x : Core) : (s.setCore c x).dlog = s.dlog := rfl
@[simp] theorem State.setCore_nextRecord (s : State) (c : Nat) (x : Core) : (s.setCore c x).nextRecord = s.nextRecord := rfl
@[simp] theorem State.setCore_regPages (s : State) (c : Nat) (x : Core) : (s.setCore c x).regPages = s.regPages := rfl
@[simp] theorem State.setCore_posted (s : State) (c : Nat) (x : Core) : (s.setCore c x).posted = s.posted := rfl
@[simp] theorem State.setCore_out (s : State) (c : Nat) (x : Core) : (s.setCore c x).out = s.out := rfl
@[simp] theorem State.setPart_agenda (s : State) (p : Nat) (x : Partition) : (s.setPart p x).agenda = s.agenda := rfl
@[simp] theorem State.setPart_cur (s : State) (p : Nat) (x : Partition) : (s.setPart p x).cur = s.cur := rfl
@[simp] theorem State.setPart_quota (s : State) (p : Nat) (x : Partition) : (s.setPart p x).quota = s.quota := rfl
@[simp] theorem State.setPart_now (s : State) (p : Nat) (x : Partition) : (s.setPart p x).now = s.now := rfl
@[simp] theorem State.setPart_ticks (s : State) (p : Nat) (x : Partition) : (s.setPart p x).ticks = s.ticks := rfl
@[simp] theorem State.setPart_free (s : State) (p : Nat) (x : Partition) : (s.setPart p x).free = s.free := rfl
@[simp] theorem State.setPart_powered (s : State) (p : Nat) (x : Partition) : (s.setPart p x).powered = s.powered := rfl
@[simp] theorem State.setPart_st (s : State) (p : Nat) (x : Partition) : (s.setPart p x).st = s.st := rfl
@[simp] theorem State.setPart_timeBase (s : State) (p : Nat) (x : Partition) : (s.setPart p x).timeBase = s.timeBase := rfl
@[simp] theorem State.setPart_early (s : State) (p : Nat) (x : Partition) : (s.setPart p x).early = s.early := rfl
@[simp] theorem State.setPart_flash (s : State) (p : Nat) (x : Partition) : (s.setPart p x).flash = s.flash := rfl
@[simp] theorem State.setPart_session (s : State) (p : Nat) (x : Partition) : (s.setPart p x).session = s.session := rfl
@[simp] theorem State.setPart_secured (s : State) (p : Nat) (x : Partition) : (s.setPart p x).secured = s.secured := rfl
@[simp] theorem State.setPart_ideKeys (s : State) (p : Nat) (x : Partition) : (s.setPart p x).ideKeys = s.ideKeys := rfl
@[simp] theorem State.setPart_ideActive (s : State) (p : Nat) (x : Partition) : (s.setPart p x).ideActive = s.ideActive := rfl
@[simp] theorem State.setPart_measured (s : State) (p : Nat) (x : Partition) : (s.setPart p x).measured = s.measured := rfl
@[simp] theorem State.setPart_scheds (s : State) (p : Nat) (x : Partition) : (s.setPart p x).scheds = s.scheds := rfl
@[simp] theorem State.setPart_cores (s : State) (p : Nat) (x : Partition) : (s.setPart p x).cores = s.cores := rfl
@[simp] theorem State.setPart_harts (s : State) (p : Nat) (x : Partition) : (s.setPart p x).harts = s.harts := rfl
@[simp] theorem State.setPart_mem (s : State) (p : Nat) (x : Partition) : (s.setPart p x).mem = s.mem := rfl
@[simp] theorem State.setPart_tbl (s : State) (p : Nat) (x : Partition) : (s.setPart p x).tbl = s.tbl := rfl
@[simp] theorem State.setPart_poisoned (s : State) (p : Nat) (x : Partition) : (s.setPart p x).poisoned = s.poisoned := rfl
@[simp] theorem State.setPart_host (s : State) (p : Nat) (x : Partition) : (s.setPart p x).host = s.host := rfl
@[simp] theorem State.setPart_busMaster (s : State) (p : Nat) (x : Partition) : (s.setPart p x).busMaster = s.busMaster := rfl
@[simp] theorem State.setPart_hostErrors (s : State) (p : Nat) (x : Partition) : (s.setPart p x).hostErrors = s.hostErrors := rfl
@[simp] theorem State.setPart_trAnchor (s : State) (p : Nat) (x : Partition) : (s.setPart p x).trAnchor = s.trAnchor := rfl
@[simp] theorem State.setPart_trPool (s : State) (p : Nat) (x : Partition) : (s.setPart p x).trPool = s.trPool := rfl
@[simp] theorem State.setPart_trCount (s : State) (p : Nat) (x : Partition) : (s.setPart p x).trCount = s.trCount := rfl
@[simp] theorem State.setPart_l2 (s : State) (p : Nat) (x : Partition) : (s.setPart p x).l2 = s.l2 := rfl
@[simp] theorem State.setPart_copies (s : State) (p : Nat) (x : Partition) : (s.setPart p x).copies = s.copies := rfl
@[simp] theorem State.setPart_drops (s : State) (p : Nat) (x : Partition) : (s.setPart p x).drops = s.drops := rfl
@[simp] theorem State.setPart_migrations (s : State) (p : Nat) (x : Partition) : (s.setPart p x).migrations = s.migrations := rfl
@[simp] theorem State.setPart_chans (s : State) (p : Nat) (x : Partition) : (s.setPart p x).chans = s.chans := rfl
@[simp] theorem State.setPart_corrected (s : State) (p : Nat) (x : Partition) : (s.setPart p x).corrected = s.corrected := rfl
@[simp] theorem State.setPart_peers (s : State) (p : Nat) (x : Partition) : (s.setPart p x).peers = s.peers := rfl
@[simp] theorem State.setPart_ports (s : State) (p : Nat) (x : Partition) : (s.setPart p x).ports = s.ports := rfl
@[simp] theorem State.setPart_routes (s : State) (p : Nat) (x : Partition) : (s.setPart p x).routes = s.routes := rfl
@[simp] theorem State.setPart_fabFailt (s : State) (p : Nat) (x : Partition) : (s.setPart p x).fabFailt = s.fabFailt := rfl
@[simp] theorem State.setPart_fabDlt (s : State) (p : Nat) (x : Partition) : (s.setPart p x).fabDlt = s.fabDlt := rfl
@[simp] theorem State.setPart_fetched (s : State) (p : Nat) (x : Partition) : (s.setPart p x).fetched = s.fetched := rfl
@[simp] theorem State.setPart_commands (s : State) (p : Nat) (x : Partition) : (s.setPart p x).commands = s.commands := rfl
@[simp] theorem State.setPart_nextCommand (s : State) (p : Nat) (x : Partition) : (s.setPart p x).nextCommand = s.nextCommand := rfl
@[simp] theorem State.setPart_shares (s : State) (p : Nat) (x : Partition) : (s.setPart p x).shares = s.shares := rfl
@[simp] theorem State.setPart_acqs (s : State) (p : Nat) (x : Partition) : (s.setPart p x).acqs = s.acqs := rfl
@[simp] theorem State.setPart_barriers (s : State) (p : Nat) (x : Partition) : (s.setPart p x).barriers = s.barriers := rfl
@[simp] theorem State.setPart_batches (s : State) (p : Nat) (x : Partition) : (s.setPart p x).batches = s.batches := rfl
@[simp] theorem State.setPart_nextBatch (s : State) (p : Nat) (x : Partition) : (s.setPart p x).nextBatch = s.nextBatch := rfl
@[simp] theorem State.setPart_pwrCap (s : State) (p : Nat) (x : Partition) : (s.setPart p x).pwrCap = s.pwrCap := rfl
@[simp] theorem State.setPart_pwrEst (s : State) (p : Nat) (x : Partition) : (s.setPart p x).pwrEst = s.pwrEst := rfl
@[simp] theorem State.setPart_pwrDuty (s : State) (p : Nat) (x : Partition) : (s.setPart p x).pwrDuty = s.pwrDuty := rfl
@[simp] theorem State.setPart_dlog (s : State) (p : Nat) (x : Partition) : (s.setPart p x).dlog = s.dlog := rfl
@[simp] theorem State.setPart_nextRecord (s : State) (p : Nat) (x : Partition) : (s.setPart p x).nextRecord = s.nextRecord := rfl
@[simp] theorem State.setPart_regPages (s : State) (p : Nat) (x : Partition) : (s.setPart p x).regPages = s.regPages := rfl
@[simp] theorem State.setPart_posted (s : State) (p : Nat) (x : Partition) : (s.setPart p x).posted = s.posted := rfl
@[simp] theorem State.setPart_out (s : State) (p : Nat) (x : Partition) : (s.setPart p x).out = s.out := rfl
@[simp] theorem State.setSched_agenda (s : State) (n : Nat) (x : SchedTable) : (s.setSched n x).agenda = s.agenda := rfl
@[simp] theorem State.setSched_cur (s : State) (n : Nat) (x : SchedTable) : (s.setSched n x).cur = s.cur := rfl
@[simp] theorem State.setSched_quota (s : State) (n : Nat) (x : SchedTable) : (s.setSched n x).quota = s.quota := rfl
@[simp] theorem State.setSched_now (s : State) (n : Nat) (x : SchedTable) : (s.setSched n x).now = s.now := rfl
@[simp] theorem State.setSched_ticks (s : State) (n : Nat) (x : SchedTable) : (s.setSched n x).ticks = s.ticks := rfl
@[simp] theorem State.setSched_free (s : State) (n : Nat) (x : SchedTable) : (s.setSched n x).free = s.free := rfl
@[simp] theorem State.setSched_powered (s : State) (n : Nat) (x : SchedTable) : (s.setSched n x).powered = s.powered := rfl
@[simp] theorem State.setSched_st (s : State) (n : Nat) (x : SchedTable) : (s.setSched n x).st = s.st := rfl
@[simp] theorem State.setSched_timeBase (s : State) (n : Nat) (x : SchedTable) : (s.setSched n x).timeBase = s.timeBase := rfl
@[simp] theorem State.setSched_early (s : State) (n : Nat) (x : SchedTable) : (s.setSched n x).early = s.early := rfl
@[simp] theorem State.setSched_flash (s : State) (n : Nat) (x : SchedTable) : (s.setSched n x).flash = s.flash := rfl
@[simp] theorem State.setSched_session (s : State) (n : Nat) (x : SchedTable) : (s.setSched n x).session = s.session := rfl
@[simp] theorem State.setSched_secured (s : State) (n : Nat) (x : SchedTable) : (s.setSched n x).secured = s.secured := rfl
@[simp] theorem State.setSched_ideKeys (s : State) (n : Nat) (x : SchedTable) : (s.setSched n x).ideKeys = s.ideKeys := rfl
@[simp] theorem State.setSched_ideActive (s : State) (n : Nat) (x : SchedTable) : (s.setSched n x).ideActive = s.ideActive := rfl
@[simp] theorem State.setSched_measured (s : State) (n : Nat) (x : SchedTable) : (s.setSched n x).measured = s.measured := rfl
@[simp] theorem State.setSched_parts (s : State) (n : Nat) (x : SchedTable) : (s.setSched n x).parts = s.parts := rfl
@[simp] theorem State.setSched_cores (s : State) (n : Nat) (x : SchedTable) : (s.setSched n x).cores = s.cores := rfl
@[simp] theorem State.setSched_harts (s : State) (n : Nat) (x : SchedTable) : (s.setSched n x).harts = s.harts := rfl
@[simp] theorem State.setSched_mem (s : State) (n : Nat) (x : SchedTable) : (s.setSched n x).mem = s.mem := rfl
@[simp] theorem State.setSched_tbl (s : State) (n : Nat) (x : SchedTable) : (s.setSched n x).tbl = s.tbl := rfl
@[simp] theorem State.setSched_poisoned (s : State) (n : Nat) (x : SchedTable) : (s.setSched n x).poisoned = s.poisoned := rfl
@[simp] theorem State.setSched_host (s : State) (n : Nat) (x : SchedTable) : (s.setSched n x).host = s.host := rfl
@[simp] theorem State.setSched_busMaster (s : State) (n : Nat) (x : SchedTable) : (s.setSched n x).busMaster = s.busMaster := rfl
@[simp] theorem State.setSched_hostErrors (s : State) (n : Nat) (x : SchedTable) : (s.setSched n x).hostErrors = s.hostErrors := rfl
@[simp] theorem State.setSched_trAnchor (s : State) (n : Nat) (x : SchedTable) : (s.setSched n x).trAnchor = s.trAnchor := rfl
@[simp] theorem State.setSched_trPool (s : State) (n : Nat) (x : SchedTable) : (s.setSched n x).trPool = s.trPool := rfl
@[simp] theorem State.setSched_trCount (s : State) (n : Nat) (x : SchedTable) : (s.setSched n x).trCount = s.trCount := rfl
@[simp] theorem State.setSched_l2 (s : State) (n : Nat) (x : SchedTable) : (s.setSched n x).l2 = s.l2 := rfl
@[simp] theorem State.setSched_copies (s : State) (n : Nat) (x : SchedTable) : (s.setSched n x).copies = s.copies := rfl
@[simp] theorem State.setSched_drops (s : State) (n : Nat) (x : SchedTable) : (s.setSched n x).drops = s.drops := rfl
@[simp] theorem State.setSched_migrations (s : State) (n : Nat) (x : SchedTable) : (s.setSched n x).migrations = s.migrations := rfl
@[simp] theorem State.setSched_chans (s : State) (n : Nat) (x : SchedTable) : (s.setSched n x).chans = s.chans := rfl
@[simp] theorem State.setSched_corrected (s : State) (n : Nat) (x : SchedTable) : (s.setSched n x).corrected = s.corrected := rfl
@[simp] theorem State.setSched_peers (s : State) (n : Nat) (x : SchedTable) : (s.setSched n x).peers = s.peers := rfl
@[simp] theorem State.setSched_ports (s : State) (n : Nat) (x : SchedTable) : (s.setSched n x).ports = s.ports := rfl
@[simp] theorem State.setSched_routes (s : State) (n : Nat) (x : SchedTable) : (s.setSched n x).routes = s.routes := rfl
@[simp] theorem State.setSched_fabFailt (s : State) (n : Nat) (x : SchedTable) : (s.setSched n x).fabFailt = s.fabFailt := rfl
@[simp] theorem State.setSched_fabDlt (s : State) (n : Nat) (x : SchedTable) : (s.setSched n x).fabDlt = s.fabDlt := rfl
@[simp] theorem State.setSched_fetched (s : State) (n : Nat) (x : SchedTable) : (s.setSched n x).fetched = s.fetched := rfl
@[simp] theorem State.setSched_commands (s : State) (n : Nat) (x : SchedTable) : (s.setSched n x).commands = s.commands := rfl
@[simp] theorem State.setSched_nextCommand (s : State) (n : Nat) (x : SchedTable) : (s.setSched n x).nextCommand = s.nextCommand := rfl
@[simp] theorem State.setSched_shares (s : State) (n : Nat) (x : SchedTable) : (s.setSched n x).shares = s.shares := rfl
@[simp] theorem State.setSched_acqs (s : State) (n : Nat) (x : SchedTable) : (s.setSched n x).acqs = s.acqs := rfl
@[simp] theorem State.setSched_barriers (s : State) (n : Nat) (x : SchedTable) : (s.setSched n x).barriers = s.barriers := rfl
@[simp] theorem State.setSched_batches (s : State) (n : Nat) (x : SchedTable) : (s.setSched n x).batches = s.batches := rfl
@[simp] theorem State.setSched_nextBatch (s : State) (n : Nat) (x : SchedTable) : (s.setSched n x).nextBatch = s.nextBatch := rfl
@[simp] theorem State.setSched_pwrCap (s : State) (n : Nat) (x : SchedTable) : (s.setSched n x).pwrCap = s.pwrCap := rfl
@[simp] theorem State.setSched_pwrEst (s : State) (n : Nat) (x : SchedTable) : (s.setSched n x).pwrEst = s.pwrEst := rfl
@[simp] theorem State.setSched_pwrDuty (s : State) (n : Nat) (x : SchedTable) : (s.setSched n x).pwrDuty = s.pwrDuty := rfl
@[simp] theorem State.setSched_dlog (s : State) (n : Nat) (x : SchedTable) : (s.setSched n x).dlog = s.dlog := rfl
@[simp] theorem State.setSched_nextRecord (s : State) (n : Nat) (x : SchedTable) : (s.setSched n x).nextRecord = s.nextRecord := rfl
@[simp] theorem State.setSched_regPages (s : State) (n : Nat) (x : SchedTable) : (s.setSched n x).regPages = s.regPages := rfl
@[simp] theorem State.setSched_posted (s : State) (n : Nat) (x : SchedTable) : (s.setSched n x).posted = s.posted := rfl
@[simp] theorem State.setSched_out (s : State) (n : Nat) (x : SchedTable) : (s.setSched n x).out = s.out := rfl
@[simp] theorem State.setPeer_agenda (s : State) (p : Nat) (x : Peer) : (s.setPeer p x).agenda = s.agenda := rfl
@[simp] theorem State.setPeer_cur (s : State) (p : Nat) (x : Peer) : (s.setPeer p x).cur = s.cur := rfl
@[simp] theorem State.setPeer_quota (s : State) (p : Nat) (x : Peer) : (s.setPeer p x).quota = s.quota := rfl
@[simp] theorem State.setPeer_now (s : State) (p : Nat) (x : Peer) : (s.setPeer p x).now = s.now := rfl
@[simp] theorem State.setPeer_ticks (s : State) (p : Nat) (x : Peer) : (s.setPeer p x).ticks = s.ticks := rfl
@[simp] theorem State.setPeer_free (s : State) (p : Nat) (x : Peer) : (s.setPeer p x).free = s.free := rfl
@[simp] theorem State.setPeer_powered (s : State) (p : Nat) (x : Peer) : (s.setPeer p x).powered = s.powered := rfl
@[simp] theorem State.setPeer_st (s : State) (p : Nat) (x : Peer) : (s.setPeer p x).st = s.st := rfl
@[simp] theorem State.setPeer_timeBase (s : State) (p : Nat) (x : Peer) : (s.setPeer p x).timeBase = s.timeBase := rfl
@[simp] theorem State.setPeer_early (s : State) (p : Nat) (x : Peer) : (s.setPeer p x).early = s.early := rfl
@[simp] theorem State.setPeer_flash (s : State) (p : Nat) (x : Peer) : (s.setPeer p x).flash = s.flash := rfl
@[simp] theorem State.setPeer_session (s : State) (p : Nat) (x : Peer) : (s.setPeer p x).session = s.session := rfl
@[simp] theorem State.setPeer_secured (s : State) (p : Nat) (x : Peer) : (s.setPeer p x).secured = s.secured := rfl
@[simp] theorem State.setPeer_ideKeys (s : State) (p : Nat) (x : Peer) : (s.setPeer p x).ideKeys = s.ideKeys := rfl
@[simp] theorem State.setPeer_ideActive (s : State) (p : Nat) (x : Peer) : (s.setPeer p x).ideActive = s.ideActive := rfl
@[simp] theorem State.setPeer_measured (s : State) (p : Nat) (x : Peer) : (s.setPeer p x).measured = s.measured := rfl
@[simp] theorem State.setPeer_parts (s : State) (p : Nat) (x : Peer) : (s.setPeer p x).parts = s.parts := rfl
@[simp] theorem State.setPeer_scheds (s : State) (p : Nat) (x : Peer) : (s.setPeer p x).scheds = s.scheds := rfl
@[simp] theorem State.setPeer_cores (s : State) (p : Nat) (x : Peer) : (s.setPeer p x).cores = s.cores := rfl
@[simp] theorem State.setPeer_harts (s : State) (p : Nat) (x : Peer) : (s.setPeer p x).harts = s.harts := rfl
@[simp] theorem State.setPeer_mem (s : State) (p : Nat) (x : Peer) : (s.setPeer p x).mem = s.mem := rfl
@[simp] theorem State.setPeer_tbl (s : State) (p : Nat) (x : Peer) : (s.setPeer p x).tbl = s.tbl := rfl
@[simp] theorem State.setPeer_poisoned (s : State) (p : Nat) (x : Peer) : (s.setPeer p x).poisoned = s.poisoned := rfl
@[simp] theorem State.setPeer_host (s : State) (p : Nat) (x : Peer) : (s.setPeer p x).host = s.host := rfl
@[simp] theorem State.setPeer_busMaster (s : State) (p : Nat) (x : Peer) : (s.setPeer p x).busMaster = s.busMaster := rfl
@[simp] theorem State.setPeer_hostErrors (s : State) (p : Nat) (x : Peer) : (s.setPeer p x).hostErrors = s.hostErrors := rfl
@[simp] theorem State.setPeer_trAnchor (s : State) (p : Nat) (x : Peer) : (s.setPeer p x).trAnchor = s.trAnchor := rfl
@[simp] theorem State.setPeer_trPool (s : State) (p : Nat) (x : Peer) : (s.setPeer p x).trPool = s.trPool := rfl
@[simp] theorem State.setPeer_trCount (s : State) (p : Nat) (x : Peer) : (s.setPeer p x).trCount = s.trCount := rfl
@[simp] theorem State.setPeer_l2 (s : State) (p : Nat) (x : Peer) : (s.setPeer p x).l2 = s.l2 := rfl
@[simp] theorem State.setPeer_copies (s : State) (p : Nat) (x : Peer) : (s.setPeer p x).copies = s.copies := rfl
@[simp] theorem State.setPeer_drops (s : State) (p : Nat) (x : Peer) : (s.setPeer p x).drops = s.drops := rfl
@[simp] theorem State.setPeer_migrations (s : State) (p : Nat) (x : Peer) : (s.setPeer p x).migrations = s.migrations := rfl
@[simp] theorem State.setPeer_chans (s : State) (p : Nat) (x : Peer) : (s.setPeer p x).chans = s.chans := rfl
@[simp] theorem State.setPeer_corrected (s : State) (p : Nat) (x : Peer) : (s.setPeer p x).corrected = s.corrected := rfl
@[simp] theorem State.setPeer_ports (s : State) (p : Nat) (x : Peer) : (s.setPeer p x).ports = s.ports := rfl
@[simp] theorem State.setPeer_routes (s : State) (p : Nat) (x : Peer) : (s.setPeer p x).routes = s.routes := rfl
@[simp] theorem State.setPeer_fabFailt (s : State) (p : Nat) (x : Peer) : (s.setPeer p x).fabFailt = s.fabFailt := rfl
@[simp] theorem State.setPeer_fabDlt (s : State) (p : Nat) (x : Peer) : (s.setPeer p x).fabDlt = s.fabDlt := rfl
@[simp] theorem State.setPeer_fetched (s : State) (p : Nat) (x : Peer) : (s.setPeer p x).fetched = s.fetched := rfl
@[simp] theorem State.setPeer_commands (s : State) (p : Nat) (x : Peer) : (s.setPeer p x).commands = s.commands := rfl
@[simp] theorem State.setPeer_nextCommand (s : State) (p : Nat) (x : Peer) : (s.setPeer p x).nextCommand = s.nextCommand := rfl
@[simp] theorem State.setPeer_shares (s : State) (p : Nat) (x : Peer) : (s.setPeer p x).shares = s.shares := rfl
@[simp] theorem State.setPeer_acqs (s : State) (p : Nat) (x : Peer) : (s.setPeer p x).acqs = s.acqs := rfl
@[simp] theorem State.setPeer_barriers (s : State) (p : Nat) (x : Peer) : (s.setPeer p x).barriers = s.barriers := rfl
@[simp] theorem State.setPeer_batches (s : State) (p : Nat) (x : Peer) : (s.setPeer p x).batches = s.batches := rfl
@[simp] theorem State.setPeer_nextBatch (s : State) (p : Nat) (x : Peer) : (s.setPeer p x).nextBatch = s.nextBatch := rfl
@[simp] theorem State.setPeer_pwrCap (s : State) (p : Nat) (x : Peer) : (s.setPeer p x).pwrCap = s.pwrCap := rfl
@[simp] theorem State.setPeer_pwrEst (s : State) (p : Nat) (x : Peer) : (s.setPeer p x).pwrEst = s.pwrEst := rfl
@[simp] theorem State.setPeer_pwrDuty (s : State) (p : Nat) (x : Peer) : (s.setPeer p x).pwrDuty = s.pwrDuty := rfl
@[simp] theorem State.setPeer_dlog (s : State) (p : Nat) (x : Peer) : (s.setPeer p x).dlog = s.dlog := rfl
@[simp] theorem State.setPeer_nextRecord (s : State) (p : Nat) (x : Peer) : (s.setPeer p x).nextRecord = s.nextRecord := rfl
@[simp] theorem State.setPeer_regPages (s : State) (p : Nat) (x : Peer) : (s.setPeer p x).regPages = s.regPages := rfl
@[simp] theorem State.setPeer_posted (s : State) (p : Nat) (x : Peer) : (s.setPeer p x).posted = s.posted := rfl
@[simp] theorem State.setPeer_out (s : State) (p : Nat) (x : Peer) : (s.setPeer p x).out = s.out := rfl
@[simp] theorem State.setPort_agenda (s : State) (n : Nat) (x : Port) : (s.setPort n x).agenda = s.agenda := rfl
@[simp] theorem State.setPort_cur (s : State) (n : Nat) (x : Port) : (s.setPort n x).cur = s.cur := rfl
@[simp] theorem State.setPort_quota (s : State) (n : Nat) (x : Port) : (s.setPort n x).quota = s.quota := rfl
@[simp] theorem State.setPort_now (s : State) (n : Nat) (x : Port) : (s.setPort n x).now = s.now := rfl
@[simp] theorem State.setPort_ticks (s : State) (n : Nat) (x : Port) : (s.setPort n x).ticks = s.ticks := rfl
@[simp] theorem State.setPort_free (s : State) (n : Nat) (x : Port) : (s.setPort n x).free = s.free := rfl
@[simp] theorem State.setPort_powered (s : State) (n : Nat) (x : Port) : (s.setPort n x).powered = s.powered := rfl
@[simp] theorem State.setPort_st (s : State) (n : Nat) (x : Port) : (s.setPort n x).st = s.st := rfl
@[simp] theorem State.setPort_timeBase (s : State) (n : Nat) (x : Port) : (s.setPort n x).timeBase = s.timeBase := rfl
@[simp] theorem State.setPort_early (s : State) (n : Nat) (x : Port) : (s.setPort n x).early = s.early := rfl
@[simp] theorem State.setPort_flash (s : State) (n : Nat) (x : Port) : (s.setPort n x).flash = s.flash := rfl
@[simp] theorem State.setPort_session (s : State) (n : Nat) (x : Port) : (s.setPort n x).session = s.session := rfl
@[simp] theorem State.setPort_secured (s : State) (n : Nat) (x : Port) : (s.setPort n x).secured = s.secured := rfl
@[simp] theorem State.setPort_ideKeys (s : State) (n : Nat) (x : Port) : (s.setPort n x).ideKeys = s.ideKeys := rfl
@[simp] theorem State.setPort_ideActive (s : State) (n : Nat) (x : Port) : (s.setPort n x).ideActive = s.ideActive := rfl
@[simp] theorem State.setPort_measured (s : State) (n : Nat) (x : Port) : (s.setPort n x).measured = s.measured := rfl
@[simp] theorem State.setPort_parts (s : State) (n : Nat) (x : Port) : (s.setPort n x).parts = s.parts := rfl
@[simp] theorem State.setPort_scheds (s : State) (n : Nat) (x : Port) : (s.setPort n x).scheds = s.scheds := rfl
@[simp] theorem State.setPort_cores (s : State) (n : Nat) (x : Port) : (s.setPort n x).cores = s.cores := rfl
@[simp] theorem State.setPort_harts (s : State) (n : Nat) (x : Port) : (s.setPort n x).harts = s.harts := rfl
@[simp] theorem State.setPort_mem (s : State) (n : Nat) (x : Port) : (s.setPort n x).mem = s.mem := rfl
@[simp] theorem State.setPort_tbl (s : State) (n : Nat) (x : Port) : (s.setPort n x).tbl = s.tbl := rfl
@[simp] theorem State.setPort_poisoned (s : State) (n : Nat) (x : Port) : (s.setPort n x).poisoned = s.poisoned := rfl
@[simp] theorem State.setPort_host (s : State) (n : Nat) (x : Port) : (s.setPort n x).host = s.host := rfl
@[simp] theorem State.setPort_busMaster (s : State) (n : Nat) (x : Port) : (s.setPort n x).busMaster = s.busMaster := rfl
@[simp] theorem State.setPort_hostErrors (s : State) (n : Nat) (x : Port) : (s.setPort n x).hostErrors = s.hostErrors := rfl
@[simp] theorem State.setPort_trAnchor (s : State) (n : Nat) (x : Port) : (s.setPort n x).trAnchor = s.trAnchor := rfl
@[simp] theorem State.setPort_trPool (s : State) (n : Nat) (x : Port) : (s.setPort n x).trPool = s.trPool := rfl
@[simp] theorem State.setPort_trCount (s : State) (n : Nat) (x : Port) : (s.setPort n x).trCount = s.trCount := rfl
@[simp] theorem State.setPort_l2 (s : State) (n : Nat) (x : Port) : (s.setPort n x).l2 = s.l2 := rfl
@[simp] theorem State.setPort_copies (s : State) (n : Nat) (x : Port) : (s.setPort n x).copies = s.copies := rfl
@[simp] theorem State.setPort_drops (s : State) (n : Nat) (x : Port) : (s.setPort n x).drops = s.drops := rfl
@[simp] theorem State.setPort_migrations (s : State) (n : Nat) (x : Port) : (s.setPort n x).migrations = s.migrations := rfl
@[simp] theorem State.setPort_chans (s : State) (n : Nat) (x : Port) : (s.setPort n x).chans = s.chans := rfl
@[simp] theorem State.setPort_corrected (s : State) (n : Nat) (x : Port) : (s.setPort n x).corrected = s.corrected := rfl
@[simp] theorem State.setPort_peers (s : State) (n : Nat) (x : Port) : (s.setPort n x).peers = s.peers := rfl
@[simp] theorem State.setPort_routes (s : State) (n : Nat) (x : Port) : (s.setPort n x).routes = s.routes := rfl
@[simp] theorem State.setPort_fabFailt (s : State) (n : Nat) (x : Port) : (s.setPort n x).fabFailt = s.fabFailt := rfl
@[simp] theorem State.setPort_fabDlt (s : State) (n : Nat) (x : Port) : (s.setPort n x).fabDlt = s.fabDlt := rfl
@[simp] theorem State.setPort_fetched (s : State) (n : Nat) (x : Port) : (s.setPort n x).fetched = s.fetched := rfl
@[simp] theorem State.setPort_commands (s : State) (n : Nat) (x : Port) : (s.setPort n x).commands = s.commands := rfl
@[simp] theorem State.setPort_nextCommand (s : State) (n : Nat) (x : Port) : (s.setPort n x).nextCommand = s.nextCommand := rfl
@[simp] theorem State.setPort_shares (s : State) (n : Nat) (x : Port) : (s.setPort n x).shares = s.shares := rfl
@[simp] theorem State.setPort_acqs (s : State) (n : Nat) (x : Port) : (s.setPort n x).acqs = s.acqs := rfl
@[simp] theorem State.setPort_barriers (s : State) (n : Nat) (x : Port) : (s.setPort n x).barriers = s.barriers := rfl
@[simp] theorem State.setPort_batches (s : State) (n : Nat) (x : Port) : (s.setPort n x).batches = s.batches := rfl
@[simp] theorem State.setPort_nextBatch (s : State) (n : Nat) (x : Port) : (s.setPort n x).nextBatch = s.nextBatch := rfl
@[simp] theorem State.setPort_pwrCap (s : State) (n : Nat) (x : Port) : (s.setPort n x).pwrCap = s.pwrCap := rfl
@[simp] theorem State.setPort_pwrEst (s : State) (n : Nat) (x : Port) : (s.setPort n x).pwrEst = s.pwrEst := rfl
@[simp] theorem State.setPort_pwrDuty (s : State) (n : Nat) (x : Port) : (s.setPort n x).pwrDuty = s.pwrDuty := rfl
@[simp] theorem State.setPort_dlog (s : State) (n : Nat) (x : Port) : (s.setPort n x).dlog = s.dlog := rfl
@[simp] theorem State.setPort_nextRecord (s : State) (n : Nat) (x : Port) : (s.setPort n x).nextRecord = s.nextRecord := rfl
@[simp] theorem State.setPort_regPages (s : State) (n : Nat) (x : Port) : (s.setPort n x).regPages = s.regPages := rfl
@[simp] theorem State.setPort_posted (s : State) (n : Nat) (x : Port) : (s.setPort n x).posted = s.posted := rfl
@[simp] theorem State.setPort_out (s : State) (n : Nat) (x : Port) : (s.setPort n x).out = s.out := rfl
@[simp] theorem State.updHart_agenda (s : State) (h : Nat) (g : Hart → Hart) : (s.updHart h g).agenda = s.agenda := rfl
@[simp] theorem State.updHart_cur (s : State) (h : Nat) (g : Hart → Hart) : (s.updHart h g).cur = s.cur := rfl
@[simp] theorem State.updHart_quota (s : State) (h : Nat) (g : Hart → Hart) : (s.updHart h g).quota = s.quota := rfl
@[simp] theorem State.updHart_now (s : State) (h : Nat) (g : Hart → Hart) : (s.updHart h g).now = s.now := rfl
@[simp] theorem State.updHart_ticks (s : State) (h : Nat) (g : Hart → Hart) : (s.updHart h g).ticks = s.ticks := rfl
@[simp] theorem State.updHart_free (s : State) (h : Nat) (g : Hart → Hart) : (s.updHart h g).free = s.free := rfl
@[simp] theorem State.updHart_powered (s : State) (h : Nat) (g : Hart → Hart) : (s.updHart h g).powered = s.powered := rfl
@[simp] theorem State.updHart_st (s : State) (h : Nat) (g : Hart → Hart) : (s.updHart h g).st = s.st := rfl
@[simp] theorem State.updHart_timeBase (s : State) (h : Nat) (g : Hart → Hart) : (s.updHart h g).timeBase = s.timeBase := rfl
@[simp] theorem State.updHart_early (s : State) (h : Nat) (g : Hart → Hart) : (s.updHart h g).early = s.early := rfl
@[simp] theorem State.updHart_flash (s : State) (h : Nat) (g : Hart → Hart) : (s.updHart h g).flash = s.flash := rfl
@[simp] theorem State.updHart_session (s : State) (h : Nat) (g : Hart → Hart) : (s.updHart h g).session = s.session := rfl
@[simp] theorem State.updHart_secured (s : State) (h : Nat) (g : Hart → Hart) : (s.updHart h g).secured = s.secured := rfl
@[simp] theorem State.updHart_ideKeys (s : State) (h : Nat) (g : Hart → Hart) : (s.updHart h g).ideKeys = s.ideKeys := rfl
@[simp] theorem State.updHart_ideActive (s : State) (h : Nat) (g : Hart → Hart) : (s.updHart h g).ideActive = s.ideActive := rfl
@[simp] theorem State.updHart_measured (s : State) (h : Nat) (g : Hart → Hart) : (s.updHart h g).measured = s.measured := rfl
@[simp] theorem State.updHart_parts (s : State) (h : Nat) (g : Hart → Hart) : (s.updHart h g).parts = s.parts := rfl
@[simp] theorem State.updHart_scheds (s : State) (h : Nat) (g : Hart → Hart) : (s.updHart h g).scheds = s.scheds := rfl
@[simp] theorem State.updHart_cores (s : State) (h : Nat) (g : Hart → Hart) : (s.updHart h g).cores = s.cores := rfl
@[simp] theorem State.updHart_mem (s : State) (h : Nat) (g : Hart → Hart) : (s.updHart h g).mem = s.mem := rfl
@[simp] theorem State.updHart_tbl (s : State) (h : Nat) (g : Hart → Hart) : (s.updHart h g).tbl = s.tbl := rfl
@[simp] theorem State.updHart_poisoned (s : State) (h : Nat) (g : Hart → Hart) : (s.updHart h g).poisoned = s.poisoned := rfl
@[simp] theorem State.updHart_host (s : State) (h : Nat) (g : Hart → Hart) : (s.updHart h g).host = s.host := rfl
@[simp] theorem State.updHart_busMaster (s : State) (h : Nat) (g : Hart → Hart) : (s.updHart h g).busMaster = s.busMaster := rfl
@[simp] theorem State.updHart_hostErrors (s : State) (h : Nat) (g : Hart → Hart) : (s.updHart h g).hostErrors = s.hostErrors := rfl
@[simp] theorem State.updHart_trAnchor (s : State) (h : Nat) (g : Hart → Hart) : (s.updHart h g).trAnchor = s.trAnchor := rfl
@[simp] theorem State.updHart_trPool (s : State) (h : Nat) (g : Hart → Hart) : (s.updHart h g).trPool = s.trPool := rfl
@[simp] theorem State.updHart_trCount (s : State) (h : Nat) (g : Hart → Hart) : (s.updHart h g).trCount = s.trCount := rfl
@[simp] theorem State.updHart_l2 (s : State) (h : Nat) (g : Hart → Hart) : (s.updHart h g).l2 = s.l2 := rfl
@[simp] theorem State.updHart_copies (s : State) (h : Nat) (g : Hart → Hart) : (s.updHart h g).copies = s.copies := rfl
@[simp] theorem State.updHart_drops (s : State) (h : Nat) (g : Hart → Hart) : (s.updHart h g).drops = s.drops := rfl
@[simp] theorem State.updHart_migrations (s : State) (h : Nat) (g : Hart → Hart) : (s.updHart h g).migrations = s.migrations := rfl
@[simp] theorem State.updHart_chans (s : State) (h : Nat) (g : Hart → Hart) : (s.updHart h g).chans = s.chans := rfl
@[simp] theorem State.updHart_corrected (s : State) (h : Nat) (g : Hart → Hart) : (s.updHart h g).corrected = s.corrected := rfl
@[simp] theorem State.updHart_peers (s : State) (h : Nat) (g : Hart → Hart) : (s.updHart h g).peers = s.peers := rfl
@[simp] theorem State.updHart_ports (s : State) (h : Nat) (g : Hart → Hart) : (s.updHart h g).ports = s.ports := rfl
@[simp] theorem State.updHart_routes (s : State) (h : Nat) (g : Hart → Hart) : (s.updHart h g).routes = s.routes := rfl
@[simp] theorem State.updHart_fabFailt (s : State) (h : Nat) (g : Hart → Hart) : (s.updHart h g).fabFailt = s.fabFailt := rfl
@[simp] theorem State.updHart_fabDlt (s : State) (h : Nat) (g : Hart → Hart) : (s.updHart h g).fabDlt = s.fabDlt := rfl
@[simp] theorem State.updHart_fetched (s : State) (h : Nat) (g : Hart → Hart) : (s.updHart h g).fetched = s.fetched := rfl
@[simp] theorem State.updHart_commands (s : State) (h : Nat) (g : Hart → Hart) : (s.updHart h g).commands = s.commands := rfl
@[simp] theorem State.updHart_nextCommand (s : State) (h : Nat) (g : Hart → Hart) : (s.updHart h g).nextCommand = s.nextCommand := rfl
@[simp] theorem State.updHart_shares (s : State) (h : Nat) (g : Hart → Hart) : (s.updHart h g).shares = s.shares := rfl
@[simp] theorem State.updHart_acqs (s : State) (h : Nat) (g : Hart → Hart) : (s.updHart h g).acqs = s.acqs := rfl
@[simp] theorem State.updHart_barriers (s : State) (h : Nat) (g : Hart → Hart) : (s.updHart h g).barriers = s.barriers := rfl
@[simp] theorem State.updHart_batches (s : State) (h : Nat) (g : Hart → Hart) : (s.updHart h g).batches = s.batches := rfl
@[simp] theorem State.updHart_nextBatch (s : State) (h : Nat) (g : Hart → Hart) : (s.updHart h g).nextBatch = s.nextBatch := rfl
@[simp] theorem State.updHart_pwrCap (s : State) (h : Nat) (g : Hart → Hart) : (s.updHart h g).pwrCap = s.pwrCap := rfl
@[simp] theorem State.updHart_pwrEst (s : State) (h : Nat) (g : Hart → Hart) : (s.updHart h g).pwrEst = s.pwrEst := rfl
@[simp] theorem State.updHart_pwrDuty (s : State) (h : Nat) (g : Hart → Hart) : (s.updHart h g).pwrDuty = s.pwrDuty := rfl
@[simp] theorem State.updHart_dlog (s : State) (h : Nat) (g : Hart → Hart) : (s.updHart h g).dlog = s.dlog := rfl
@[simp] theorem State.updHart_nextRecord (s : State) (h : Nat) (g : Hart → Hart) : (s.updHart h g).nextRecord = s.nextRecord := rfl
@[simp] theorem State.updHart_regPages (s : State) (h : Nat) (g : Hart → Hart) : (s.updHart h g).regPages = s.regPages := rfl
@[simp] theorem State.updHart_posted (s : State) (h : Nat) (g : Hart → Hart) : (s.updHart h g).posted = s.posted := rfl
@[simp] theorem State.updHart_out (s : State) (h : Nat) (g : Hart → Hart) : (s.updHart h g).out = s.out := rfl
@[simp] theorem State.updCore_agenda (s : State) (c : Nat) (g : Core → Core) : (s.updCore c g).agenda = s.agenda := rfl
@[simp] theorem State.updCore_cur (s : State) (c : Nat) (g : Core → Core) : (s.updCore c g).cur = s.cur := rfl
@[simp] theorem State.updCore_quota (s : State) (c : Nat) (g : Core → Core) : (s.updCore c g).quota = s.quota := rfl
@[simp] theorem State.updCore_now (s : State) (c : Nat) (g : Core → Core) : (s.updCore c g).now = s.now := rfl
@[simp] theorem State.updCore_ticks (s : State) (c : Nat) (g : Core → Core) : (s.updCore c g).ticks = s.ticks := rfl
@[simp] theorem State.updCore_free (s : State) (c : Nat) (g : Core → Core) : (s.updCore c g).free = s.free := rfl
@[simp] theorem State.updCore_powered (s : State) (c : Nat) (g : Core → Core) : (s.updCore c g).powered = s.powered := rfl
@[simp] theorem State.updCore_st (s : State) (c : Nat) (g : Core → Core) : (s.updCore c g).st = s.st := rfl
@[simp] theorem State.updCore_timeBase (s : State) (c : Nat) (g : Core → Core) : (s.updCore c g).timeBase = s.timeBase := rfl
@[simp] theorem State.updCore_early (s : State) (c : Nat) (g : Core → Core) : (s.updCore c g).early = s.early := rfl
@[simp] theorem State.updCore_flash (s : State) (c : Nat) (g : Core → Core) : (s.updCore c g).flash = s.flash := rfl
@[simp] theorem State.updCore_session (s : State) (c : Nat) (g : Core → Core) : (s.updCore c g).session = s.session := rfl
@[simp] theorem State.updCore_secured (s : State) (c : Nat) (g : Core → Core) : (s.updCore c g).secured = s.secured := rfl
@[simp] theorem State.updCore_ideKeys (s : State) (c : Nat) (g : Core → Core) : (s.updCore c g).ideKeys = s.ideKeys := rfl
@[simp] theorem State.updCore_ideActive (s : State) (c : Nat) (g : Core → Core) : (s.updCore c g).ideActive = s.ideActive := rfl
@[simp] theorem State.updCore_measured (s : State) (c : Nat) (g : Core → Core) : (s.updCore c g).measured = s.measured := rfl
@[simp] theorem State.updCore_parts (s : State) (c : Nat) (g : Core → Core) : (s.updCore c g).parts = s.parts := rfl
@[simp] theorem State.updCore_scheds (s : State) (c : Nat) (g : Core → Core) : (s.updCore c g).scheds = s.scheds := rfl
@[simp] theorem State.updCore_harts (s : State) (c : Nat) (g : Core → Core) : (s.updCore c g).harts = s.harts := rfl
@[simp] theorem State.updCore_mem (s : State) (c : Nat) (g : Core → Core) : (s.updCore c g).mem = s.mem := rfl
@[simp] theorem State.updCore_tbl (s : State) (c : Nat) (g : Core → Core) : (s.updCore c g).tbl = s.tbl := rfl
@[simp] theorem State.updCore_poisoned (s : State) (c : Nat) (g : Core → Core) : (s.updCore c g).poisoned = s.poisoned := rfl
@[simp] theorem State.updCore_host (s : State) (c : Nat) (g : Core → Core) : (s.updCore c g).host = s.host := rfl
@[simp] theorem State.updCore_busMaster (s : State) (c : Nat) (g : Core → Core) : (s.updCore c g).busMaster = s.busMaster := rfl
@[simp] theorem State.updCore_hostErrors (s : State) (c : Nat) (g : Core → Core) : (s.updCore c g).hostErrors = s.hostErrors := rfl
@[simp] theorem State.updCore_trAnchor (s : State) (c : Nat) (g : Core → Core) : (s.updCore c g).trAnchor = s.trAnchor := rfl
@[simp] theorem State.updCore_trPool (s : State) (c : Nat) (g : Core → Core) : (s.updCore c g).trPool = s.trPool := rfl
@[simp] theorem State.updCore_trCount (s : State) (c : Nat) (g : Core → Core) : (s.updCore c g).trCount = s.trCount := rfl
@[simp] theorem State.updCore_l2 (s : State) (c : Nat) (g : Core → Core) : (s.updCore c g).l2 = s.l2 := rfl
@[simp] theorem State.updCore_copies (s : State) (c : Nat) (g : Core → Core) : (s.updCore c g).copies = s.copies := rfl
@[simp] theorem State.updCore_drops (s : State) (c : Nat) (g : Core → Core) : (s.updCore c g).drops = s.drops := rfl
@[simp] theorem State.updCore_migrations (s : State) (c : Nat) (g : Core → Core) : (s.updCore c g).migrations = s.migrations := rfl
@[simp] theorem State.updCore_chans (s : State) (c : Nat) (g : Core → Core) : (s.updCore c g).chans = s.chans := rfl
@[simp] theorem State.updCore_corrected (s : State) (c : Nat) (g : Core → Core) : (s.updCore c g).corrected = s.corrected := rfl
@[simp] theorem State.updCore_peers (s : State) (c : Nat) (g : Core → Core) : (s.updCore c g).peers = s.peers := rfl
@[simp] theorem State.updCore_ports (s : State) (c : Nat) (g : Core → Core) : (s.updCore c g).ports = s.ports := rfl
@[simp] theorem State.updCore_routes (s : State) (c : Nat) (g : Core → Core) : (s.updCore c g).routes = s.routes := rfl
@[simp] theorem State.updCore_fabFailt (s : State) (c : Nat) (g : Core → Core) : (s.updCore c g).fabFailt = s.fabFailt := rfl
@[simp] theorem State.updCore_fabDlt (s : State) (c : Nat) (g : Core → Core) : (s.updCore c g).fabDlt = s.fabDlt := rfl
@[simp] theorem State.updCore_fetched (s : State) (c : Nat) (g : Core → Core) : (s.updCore c g).fetched = s.fetched := rfl
@[simp] theorem State.updCore_commands (s : State) (c : Nat) (g : Core → Core) : (s.updCore c g).commands = s.commands := rfl
@[simp] theorem State.updCore_nextCommand (s : State) (c : Nat) (g : Core → Core) : (s.updCore c g).nextCommand = s.nextCommand := rfl
@[simp] theorem State.updCore_shares (s : State) (c : Nat) (g : Core → Core) : (s.updCore c g).shares = s.shares := rfl
@[simp] theorem State.updCore_acqs (s : State) (c : Nat) (g : Core → Core) : (s.updCore c g).acqs = s.acqs := rfl
@[simp] theorem State.updCore_barriers (s : State) (c : Nat) (g : Core → Core) : (s.updCore c g).barriers = s.barriers := rfl
@[simp] theorem State.updCore_batches (s : State) (c : Nat) (g : Core → Core) : (s.updCore c g).batches = s.batches := rfl
@[simp] theorem State.updCore_nextBatch (s : State) (c : Nat) (g : Core → Core) : (s.updCore c g).nextBatch = s.nextBatch := rfl
@[simp] theorem State.updCore_pwrCap (s : State) (c : Nat) (g : Core → Core) : (s.updCore c g).pwrCap = s.pwrCap := rfl
@[simp] theorem State.updCore_pwrEst (s : State) (c : Nat) (g : Core → Core) : (s.updCore c g).pwrEst = s.pwrEst := rfl
@[simp] theorem State.updCore_pwrDuty (s : State) (c : Nat) (g : Core → Core) : (s.updCore c g).pwrDuty = s.pwrDuty := rfl
@[simp] theorem State.updCore_dlog (s : State) (c : Nat) (g : Core → Core) : (s.updCore c g).dlog = s.dlog := rfl
@[simp] theorem State.updCore_nextRecord (s : State) (c : Nat) (g : Core → Core) : (s.updCore c g).nextRecord = s.nextRecord := rfl
@[simp] theorem State.updCore_regPages (s : State) (c : Nat) (g : Core → Core) : (s.updCore c g).regPages = s.regPages := rfl
@[simp] theorem State.updCore_posted (s : State) (c : Nat) (g : Core → Core) : (s.updCore c g).posted = s.posted := rfl
@[simp] theorem State.updCore_out (s : State) (c : Nat) (g : Core → Core) : (s.updCore c g).out = s.out := rfl

@[simp] theorem State.setHart_hart_same (s : State) (h : Nat) (x : Hart) : (s.setHart h x).hart h = x := by
  simp [State.hart, State.setHart]

@[simp] theorem State.setHart_hart_other (s : State) (h j : Nat) (x : Hart) (e : j ≠ h) :
    (s.setHart h x).hart j = s.hart j := by
  simp [State.hart, State.setHart, e]

@[simp] theorem State.updHart_hart_same (s : State) (h : Nat) (g : Hart → Hart) :
    (s.updHart h g).hart h = g (s.hart h) := by
  simp [State.updHart]

@[simp] theorem State.updHart_hart_other (s : State) (h j : Nat) (g : Hart → Hart) (e : j ≠ h) :
    (s.updHart h g).hart j = s.hart j := by
  simp [State.updHart, e]

@[simp] theorem State.setHart_core (s : State) (h c : Nat) (x : Hart) : (s.setHart h x).core c = s.core c := rfl
@[simp] theorem State.updHart_core (s : State) (h c : Nat) (g : Hart → Hart) : (s.updHart h g).core c = s.core c := rfl
@[simp] theorem State.setCore_core_same (s : State) (c : Nat) (x : Core) : (s.setCore c x).core c = x := by
  simp [State.core, State.setCore]
@[simp] theorem State.setCore_core_other (s : State) (c d : Nat) (x : Core) (e : d ≠ c) :
    (s.setCore c x).core d = s.core d := by
  simp [State.core, State.setCore, e]
@[simp] theorem State.setCore_hart (s : State) (c h : Nat) (x : Core) : (s.setCore c x).hart h = s.hart h := rfl
@[simp] theorem State.updCore_hart (s : State) (c h : Nat) (g : Core → Core) : (s.updCore c g).hart h = s.hart h := rfl

/-- An update of a partition leaves every field but the partitions. -/
theorem State.updPart_eq (s : State) (p : Nat) (g : Partition → Partition) :
    ∃ ps, s.updPart p g = { s with parts := ps } := by
  unfold State.updPart
  split
  · exact ⟨_, rfl⟩
  · exact ⟨s.parts, rfl⟩

/-- An update of a node leaves every field but the partitions. -/
theorem State.updNode_eq (s : State) (p k : Nat) (g : Node → Node) :
    ∃ ps, s.updNode p k g = { s with parts := ps } := by
  unfold State.updNode
  split
  · exact s.updPart_eq p _
  · exact ⟨s.parts, rfl⟩

/-- An update of a rank leaves every field but the partitions. -/
theorem State.updRank_eq (s : State) (p k r : Nat) (g : Rank → Rank) :
    ∃ ps, s.updRank p k r g = { s with parts := ps } := s.updNode_eq p k _

/-- An update of the running rank leaves every field but the partitions. -/
theorem State.updCurRank_eq (s : State) (g : Rank → Rank) : ∃ ps, s.updCurRank g = { s with parts := ps } := by
  unfold State.updCurRank
  split
  · exact s.updRank_eq _ _ _ g
  · exact ⟨s.parts, rfl⟩

/-! ## Registers -/

@[simp] theorem Regs.getS_zero (g : Regs) : g.getS 0 = 0 := rfl
@[simp] theorem Regs.setS_zero (g : Regs) (v : Word) : g.setS 0 v = g := rfl

@[simp] theorem Regs.setS_pc (g : Regs) (r : Reg) (v : Word) : (g.setS r v).pc = g.pc := by
  unfold Regs.setS; split <;> rfl
@[simp] theorem Regs.setS_f (g : Regs) (r : Reg) (v : Word) : (g.setS r v).f = g.f := by
  unfold Regs.setS; split <;> rfl
@[simp] theorem Regs.setS_m (g : Regs) (r : Reg) (v : Word) : (g.setS r v).m = g.m := by
  unfold Regs.setS; split <;> rfl
@[simp] theorem Regs.setS_q (g : Regs) (r : Reg) (v : Word) : (g.setS r v).q = g.q := by
  unfold Regs.setS; split <;> rfl
@[simp] theorem Regs.setS_vl (g : Regs) (r : Reg) (v : Word) : (g.setS r v).vl = g.vl := by
  unfold Regs.setS; split <;> rfl
@[simp] theorem Regs.setS_rc (g : Regs) (r : Reg) (v : Word) : (g.setS r v).rc = g.rc := by
  unfold Regs.setS; split <;> rfl
@[simp] theorem Regs.setS_vtype (g : Regs) (r : Reg) (v : Word) : (g.setS r v).vtype = g.vtype := by
  unfold Regs.setS; split <;> rfl
@[simp] theorem Regs.setS_fflags (g : Regs) (r : Reg) (v : Word) : (g.setS r v).fflags = g.fflags := by
  unfold Regs.setS; split <;> rfl
@[simp] theorem Regs.setS_frm (g : Regs) (r : Reg) (v : Word) : (g.setS r v).frm = g.frm := by
  unfold Regs.setS; split <;> rfl
@[simp] theorem Regs.setS_atc (g : Regs) (r : Reg) (v : Word) : (g.setS r v).atc = g.atc := by
  unfold Regs.setS; split <;> rfl
@[simp] theorem Regs.setS_dlen (g : Regs) (r : Reg) (v : Word) : (g.setS r v).dlen = g.dlen := by
  unfold Regs.setS; split <;> rfl
@[simp] theorem Regs.setS_dstep (g : Regs) (r : Reg) (v : Word) : (g.setS r v).dstep = g.dstep := by
  unfold Regs.setS; split <;> rfl
@[simp] theorem Regs.setS_pix (g : Regs) (r : Reg) (v : Word) : (g.setS r v).pix = g.pix := by
  unfold Regs.setS; split <;> rfl
@[simp] theorem Regs.setS_fem (g : Regs) (r : Reg) (v : Word) : (g.setS r v).fem = g.fem := by
  unfold Regs.setS; split <;> rfl
@[simp] theorem Regs.setS_hartid (g : Regs) (r : Reg) (v : Word) : (g.setS r v).hartid = g.hartid := by
  unfold Regs.setS; split <;> rfl
@[simp] theorem Regs.setS_nodeid (g : Regs) (r : Reg) (v : Word) : (g.setS r v).nodeid = g.nodeid := by
  unfold Regs.setS; split <;> rfl
@[simp] theorem Regs.setS_groupid (g : Regs) (r : Reg) (v : Word) : (g.setS r v).groupid = g.groupid := by
  unfold Regs.setS; split <;> rfl
@[simp] theorem Regs.setS_seed (g : Regs) (r : Reg) (v : Word) : (g.setS r v).seed = g.seed := by
  unfold Regs.setS; split <;> rfl
@[simp] theorem Regs.setS_loopcnt (g : Regs) (r : Reg) (v : Word) : (g.setS r v).loopcnt = g.loopcnt := by
  unfold Regs.setS; split <;> rfl
@[simp] theorem Regs.setS_rrb (g : Regs) (r : Reg) (v : Word) : (g.setS r v).rrb = g.rrb := by
  unfold Regs.setS; split <;> rfl
@[simp] theorem Regs.setS_tl (g : Regs) (r : Reg) (v : Word) : (g.setS r v).tl = g.tl := by
  unfold Regs.setS; split <;> rfl
@[simp] theorem Regs.setS_tvec (g : Regs) (r : Reg) (v : Word) : (g.setS r v).tvec = g.tvec := by
  unfold Regs.setS; split <;> rfl
@[simp] theorem Regs.setS_trap1 (g : Regs) (r : Reg) (v : Word) : (g.setS r v).trap1 = g.trap1 := by
  unfold Regs.setS; split <;> rfl
@[simp] theorem Regs.setS_trap2 (g : Regs) (r : Reg) (v : Word) : (g.setS r v).trap2 = g.trap2 := by
  unfold Regs.setS; split <;> rfl
@[simp] theorem Regs.setM_pc (g : Regs) (r : Reg3) (v : Mask) : (g.setM r v).pc = g.pc := by
  unfold Regs.setM; split <;> rfl
@[simp] theorem Regs.setM_s (g : Regs) (r : Reg3) (v : Mask) : (g.setM r v).s = g.s := by
  unfold Regs.setM; split <;> rfl
@[simp] theorem Regs.setM_f (g : Regs) (r : Reg3) (v : Mask) : (g.setM r v).f = g.f := by
  unfold Regs.setM; split <;> rfl
@[simp] theorem Regs.setM_q (g : Regs) (r : Reg3) (v : Mask) : (g.setM r v).q = g.q := by
  unfold Regs.setM; split <;> rfl
@[simp] theorem Regs.setM_vl (g : Regs) (r : Reg3) (v : Mask) : (g.setM r v).vl = g.vl := by
  unfold Regs.setM; split <;> rfl
@[simp] theorem Regs.setM_rc (g : Regs) (r : Reg3) (v : Mask) : (g.setM r v).rc = g.rc := by
  unfold Regs.setM; split <;> rfl
@[simp] theorem Regs.setM_vtype (g : Regs) (r : Reg3) (v : Mask) : (g.setM r v).vtype = g.vtype := by
  unfold Regs.setM; split <;> rfl
@[simp] theorem Regs.setM_fflags (g : Regs) (r : Reg3) (v : Mask) : (g.setM r v).fflags = g.fflags := by
  unfold Regs.setM; split <;> rfl
@[simp] theorem Regs.setM_frm (g : Regs) (r : Reg3) (v : Mask) : (g.setM r v).frm = g.frm := by
  unfold Regs.setM; split <;> rfl
@[simp] theorem Regs.setM_atc (g : Regs) (r : Reg3) (v : Mask) : (g.setM r v).atc = g.atc := by
  unfold Regs.setM; split <;> rfl
@[simp] theorem Regs.setM_dlen (g : Regs) (r : Reg3) (v : Mask) : (g.setM r v).dlen = g.dlen := by
  unfold Regs.setM; split <;> rfl
@[simp] theorem Regs.setM_dstep (g : Regs) (r : Reg3) (v : Mask) : (g.setM r v).dstep = g.dstep := by
  unfold Regs.setM; split <;> rfl
@[simp] theorem Regs.setM_pix (g : Regs) (r : Reg3) (v : Mask) : (g.setM r v).pix = g.pix := by
  unfold Regs.setM; split <;> rfl
@[simp] theorem Regs.setM_fem (g : Regs) (r : Reg3) (v : Mask) : (g.setM r v).fem = g.fem := by
  unfold Regs.setM; split <;> rfl
@[simp] theorem Regs.setM_hartid (g : Regs) (r : Reg3) (v : Mask) : (g.setM r v).hartid = g.hartid := by
  unfold Regs.setM; split <;> rfl
@[simp] theorem Regs.setM_nodeid (g : Regs) (r : Reg3) (v : Mask) : (g.setM r v).nodeid = g.nodeid := by
  unfold Regs.setM; split <;> rfl
@[simp] theorem Regs.setM_groupid (g : Regs) (r : Reg3) (v : Mask) : (g.setM r v).groupid = g.groupid := by
  unfold Regs.setM; split <;> rfl
@[simp] theorem Regs.setM_seed (g : Regs) (r : Reg3) (v : Mask) : (g.setM r v).seed = g.seed := by
  unfold Regs.setM; split <;> rfl
@[simp] theorem Regs.setM_loopcnt (g : Regs) (r : Reg3) (v : Mask) : (g.setM r v).loopcnt = g.loopcnt := by
  unfold Regs.setM; split <;> rfl
@[simp] theorem Regs.setM_rrb (g : Regs) (r : Reg3) (v : Mask) : (g.setM r v).rrb = g.rrb := by
  unfold Regs.setM; split <;> rfl
@[simp] theorem Regs.setM_tl (g : Regs) (r : Reg3) (v : Mask) : (g.setM r v).tl = g.tl := by
  unfold Regs.setM; split <;> rfl
@[simp] theorem Regs.setM_tvec (g : Regs) (r : Reg3) (v : Mask) : (g.setM r v).tvec = g.tvec := by
  unfold Regs.setM; split <;> rfl
@[simp] theorem Regs.setM_trap1 (g : Regs) (r : Reg3) (v : Mask) : (g.setM r v).trap1 = g.trap1 := by
  unfold Regs.setM; split <;> rfl
@[simp] theorem Regs.setM_trap2 (g : Regs) (r : Reg3) (v : Mask) : (g.setM r v).trap2 = g.trap2 := by
  unfold Regs.setM; split <;> rfl
@[simp] theorem Regs.mergeFlags_pc (g : Regs) (x : BitVec 7) : (g.mergeFlags x).pc = g.pc := rfl
@[simp] theorem Regs.mergeFlags_s (g : Regs) (x : BitVec 7) : (g.mergeFlags x).s = g.s := rfl
@[simp] theorem Regs.mergeFlags_f (g : Regs) (x : BitVec 7) : (g.mergeFlags x).f = g.f := rfl
@[simp] theorem Regs.mergeFlags_m (g : Regs) (x : BitVec 7) : (g.mergeFlags x).m = g.m := rfl
@[simp] theorem Regs.mergeFlags_q (g : Regs) (x : BitVec 7) : (g.mergeFlags x).q = g.q := rfl
@[simp] theorem Regs.mergeFlags_vl (g : Regs) (x : BitVec 7) : (g.mergeFlags x).vl = g.vl := rfl
@[simp] theorem Regs.mergeFlags_rc (g : Regs) (x : BitVec 7) : (g.mergeFlags x).rc = g.rc := rfl
@[simp] theorem Regs.mergeFlags_vtype (g : Regs) (x : BitVec 7) : (g.mergeFlags x).vtype = g.vtype := rfl
@[simp] theorem Regs.mergeFlags_frm (g : Regs) (x : BitVec 7) : (g.mergeFlags x).frm = g.frm := rfl
@[simp] theorem Regs.mergeFlags_atc (g : Regs) (x : BitVec 7) : (g.mergeFlags x).atc = g.atc := rfl
@[simp] theorem Regs.mergeFlags_dlen (g : Regs) (x : BitVec 7) : (g.mergeFlags x).dlen = g.dlen := rfl
@[simp] theorem Regs.mergeFlags_dstep (g : Regs) (x : BitVec 7) : (g.mergeFlags x).dstep = g.dstep := rfl
@[simp] theorem Regs.mergeFlags_pix (g : Regs) (x : BitVec 7) : (g.mergeFlags x).pix = g.pix := rfl
@[simp] theorem Regs.mergeFlags_fem (g : Regs) (x : BitVec 7) : (g.mergeFlags x).fem = g.fem := rfl
@[simp] theorem Regs.mergeFlags_hartid (g : Regs) (x : BitVec 7) : (g.mergeFlags x).hartid = g.hartid := rfl
@[simp] theorem Regs.mergeFlags_nodeid (g : Regs) (x : BitVec 7) : (g.mergeFlags x).nodeid = g.nodeid := rfl
@[simp] theorem Regs.mergeFlags_groupid (g : Regs) (x : BitVec 7) : (g.mergeFlags x).groupid = g.groupid := rfl
@[simp] theorem Regs.mergeFlags_seed (g : Regs) (x : BitVec 7) : (g.mergeFlags x).seed = g.seed := rfl
@[simp] theorem Regs.mergeFlags_loopcnt (g : Regs) (x : BitVec 7) : (g.mergeFlags x).loopcnt = g.loopcnt := rfl
@[simp] theorem Regs.mergeFlags_rrb (g : Regs) (x : BitVec 7) : (g.mergeFlags x).rrb = g.rrb := rfl
@[simp] theorem Regs.mergeFlags_tl (g : Regs) (x : BitVec 7) : (g.mergeFlags x).tl = g.tl := rfl
@[simp] theorem Regs.mergeFlags_tvec (g : Regs) (x : BitVec 7) : (g.mergeFlags x).tvec = g.tvec := rfl
@[simp] theorem Regs.mergeFlags_trap1 (g : Regs) (x : BitVec 7) : (g.mergeFlags x).trap1 = g.trap1 := rfl
@[simp] theorem Regs.mergeFlags_trap2 (g : Regs) (x : BitVec 7) : (g.mergeFlags x).trap2 = g.trap2 := rfl
@[simp] theorem Regs.setBank_pc (g : Regs) (l : Nat) (b : TrapBank) : (g.setBank l b).pc = g.pc := by
  unfold Regs.setBank; split <;> rfl
@[simp] theorem Regs.setBank_s (g : Regs) (l : Nat) (b : TrapBank) : (g.setBank l b).s = g.s := by
  unfold Regs.setBank; split <;> rfl
@[simp] theorem Regs.setBank_f (g : Regs) (l : Nat) (b : TrapBank) : (g.setBank l b).f = g.f := by
  unfold Regs.setBank; split <;> rfl
@[simp] theorem Regs.setBank_m (g : Regs) (l : Nat) (b : TrapBank) : (g.setBank l b).m = g.m := by
  unfold Regs.setBank; split <;> rfl
@[simp] theorem Regs.setBank_q (g : Regs) (l : Nat) (b : TrapBank) : (g.setBank l b).q = g.q := by
  unfold Regs.setBank; split <;> rfl
@[simp] theorem Regs.setBank_vl (g : Regs) (l : Nat) (b : TrapBank) : (g.setBank l b).vl = g.vl := by
  unfold Regs.setBank; split <;> rfl
@[simp] theorem Regs.setBank_rc (g : Regs) (l : Nat) (b : TrapBank) : (g.setBank l b).rc = g.rc := by
  unfold Regs.setBank; split <;> rfl
@[simp] theorem Regs.setBank_vtype (g : Regs) (l : Nat) (b : TrapBank) : (g.setBank l b).vtype = g.vtype := by
  unfold Regs.setBank; split <;> rfl
@[simp] theorem Regs.setBank_fflags (g : Regs) (l : Nat) (b : TrapBank) : (g.setBank l b).fflags = g.fflags := by
  unfold Regs.setBank; split <;> rfl
@[simp] theorem Regs.setBank_frm (g : Regs) (l : Nat) (b : TrapBank) : (g.setBank l b).frm = g.frm := by
  unfold Regs.setBank; split <;> rfl
@[simp] theorem Regs.setBank_atc (g : Regs) (l : Nat) (b : TrapBank) : (g.setBank l b).atc = g.atc := by
  unfold Regs.setBank; split <;> rfl
@[simp] theorem Regs.setBank_dlen (g : Regs) (l : Nat) (b : TrapBank) : (g.setBank l b).dlen = g.dlen := by
  unfold Regs.setBank; split <;> rfl
@[simp] theorem Regs.setBank_dstep (g : Regs) (l : Nat) (b : TrapBank) : (g.setBank l b).dstep = g.dstep := by
  unfold Regs.setBank; split <;> rfl
@[simp] theorem Regs.setBank_pix (g : Regs) (l : Nat) (b : TrapBank) : (g.setBank l b).pix = g.pix := by
  unfold Regs.setBank; split <;> rfl
@[simp] theorem Regs.setBank_fem (g : Regs) (l : Nat) (b : TrapBank) : (g.setBank l b).fem = g.fem := by
  unfold Regs.setBank; split <;> rfl
@[simp] theorem Regs.setBank_hartid (g : Regs) (l : Nat) (b : TrapBank) : (g.setBank l b).hartid = g.hartid := by
  unfold Regs.setBank; split <;> rfl
@[simp] theorem Regs.setBank_nodeid (g : Regs) (l : Nat) (b : TrapBank) : (g.setBank l b).nodeid = g.nodeid := by
  unfold Regs.setBank; split <;> rfl
@[simp] theorem Regs.setBank_groupid (g : Regs) (l : Nat) (b : TrapBank) : (g.setBank l b).groupid = g.groupid := by
  unfold Regs.setBank; split <;> rfl
@[simp] theorem Regs.setBank_seed (g : Regs) (l : Nat) (b : TrapBank) : (g.setBank l b).seed = g.seed := by
  unfold Regs.setBank; split <;> rfl
@[simp] theorem Regs.setBank_loopcnt (g : Regs) (l : Nat) (b : TrapBank) : (g.setBank l b).loopcnt = g.loopcnt := by
  unfold Regs.setBank; split <;> rfl
@[simp] theorem Regs.setBank_rrb (g : Regs) (l : Nat) (b : TrapBank) : (g.setBank l b).rrb = g.rrb := by
  unfold Regs.setBank; split <;> rfl
@[simp] theorem Regs.setBank_tl (g : Regs) (l : Nat) (b : TrapBank) : (g.setBank l b).tl = g.tl := by
  unfold Regs.setBank; split <;> rfl
@[simp] theorem Regs.setBank_tvec (g : Regs) (l : Nat) (b : TrapBank) : (g.setBank l b).tvec = g.tvec := by
  unfold Regs.setBank; split <;> rfl

/-! ## Harts -/

@[simp] theorem Hart.advance_node (h : Hart) : h.advance.node = h.node := rfl
@[simp] theorem Hart.advance_blocked (h : Hart) : h.advance.blocked = h.blocked := rfl
@[simp] theorem Hart.advance_convoyStart (h : Hart) : h.advance.convoyStart = h.convoyStart := rfl
@[simp] theorem Hart.advance_fresh (h : Hart) : h.advance.fresh = h.fresh := rfl
@[simp] theorem Hart.advance_retry (h : Hart) : h.advance.retry = h.retry := rfl
@[simp] theorem Hart.advance_queue (h : Hart) : h.advance.queue = h.queue := rfl
@[simp] theorem Hart.advance_running (h : Hart) : h.advance.running = h.running := rfl
@[simp] theorem Hart.advance_stuck (h : Hart) : h.advance.stuck = h.stuck := rfl
@[simp] theorem Hart.advance_partway (h : Hart) : h.advance.partway = h.partway := rfl
@[simp] theorem Hart.advance_limit (h : Hart) : h.advance.limit = h.limit := rfl
@[simp] theorem Hart.advance_iq (h : Hart) : h.advance.iq = h.iq := rfl
@[simp] theorem Hart.advance_sb (h : Hart) : h.advance.sb = h.sb := rfl
@[simp] theorem Hart.advance_heldFrom (h : Hart) : h.advance.heldFrom = h.heldFrom := rfl
@[simp] theorem Hart.advance_probed (h : Hart) : h.advance.probed = h.probed := rfl
@[simp] theorem Hart.advance_uses (h : Hart) : h.advance.uses = h.uses := rfl
@[simp] theorem Hart.advance_unchecked (h : Hart) : h.advance.unchecked = h.unchecked := rfl
@[simp] theorem Hart.advance_esub (h : Hart) : h.advance.esub = h.esub := rfl
@[simp] theorem Hart.advance_regs (h : Hart) : h.advance.regs = { h.regs with pc := h.successor } := rfl
@[simp] theorem Hart.enter_node (h : Hart) (t : Word) : (h.enter t).node = h.node := rfl
@[simp] theorem Hart.enter_blocked (h : Hart) (t : Word) : (h.enter t).blocked = h.blocked := rfl
@[simp] theorem Hart.enter_convoyStart (h : Hart) (t : Word) : (h.enter t).convoyStart = h.convoyStart := rfl
@[simp] theorem Hart.enter_fresh (h : Hart) (t : Word) : (h.enter t).fresh = h.fresh := rfl
@[simp] theorem Hart.enter_retry (h : Hart) (t : Word) : (h.enter t).retry = h.retry := rfl
@[simp] theorem Hart.enter_queue (h : Hart) (t : Word) : (h.enter t).queue = h.queue := rfl
@[simp] theorem Hart.enter_running (h : Hart) (t : Word) : (h.enter t).running = h.running := rfl
@[simp] theorem Hart.enter_stuck (h : Hart) (t : Word) : (h.enter t).stuck = h.stuck := rfl
@[simp] theorem Hart.enter_partway (h : Hart) (t : Word) : (h.enter t).partway = h.partway := rfl
@[simp] theorem Hart.enter_limit (h : Hart) (t : Word) : (h.enter t).limit = h.limit := rfl
@[simp] theorem Hart.enter_iq (h : Hart) (t : Word) : (h.enter t).iq = h.iq := rfl
@[simp] theorem Hart.enter_sb (h : Hart) (t : Word) : (h.enter t).sb = h.sb := rfl
@[simp] theorem Hart.enter_heldFrom (h : Hart) (t : Word) : (h.enter t).heldFrom = h.heldFrom := rfl
@[simp] theorem Hart.enter_probed (h : Hart) (t : Word) : (h.enter t).probed = h.probed := rfl
@[simp] theorem Hart.enter_uses (h : Hart) (t : Word) : (h.enter t).uses = h.uses := rfl
@[simp] theorem Hart.enter_unchecked (h : Hart) (t : Word) : (h.enter t).unchecked = h.unchecked := rfl
@[simp] theorem Hart.enter_esub (h : Hart) (t : Word) : (h.enter t).esub = h.esub := rfl
@[simp] theorem Hart.enter_regs (h : Hart) (t : Word) : (h.enter t).regs = { h.regs with pc := t } := rfl
@[simp] theorem Hart.enter_line (h : Hart) (t : Word) : (h.enter t).line = none := rfl
@[simp] theorem Hart.flagged_node (h : Hart) (x : BitVec 7) : (h.flagged x).node = h.node := by
  unfold Hart.flagged; split <;> rfl
@[simp] theorem Hart.flagged_blocked (h : Hart) (x : BitVec 7) : (h.flagged x).blocked = h.blocked := by
  unfold Hart.flagged; split <;> rfl
@[simp] theorem Hart.flagged_line (h : Hart) (x : BitVec 7) : (h.flagged x).line = h.line := by
  unfold Hart.flagged; split <;> rfl
@[simp] theorem Hart.flagged_convoyStart (h : Hart) (x : BitVec 7) : (h.flagged x).convoyStart = h.convoyStart := by
  unfold Hart.flagged; split <;> rfl
@[simp] theorem Hart.flagged_fresh (h : Hart) (x : BitVec 7) : (h.flagged x).fresh = h.fresh := by
  unfold Hart.flagged; split <;> rfl
@[simp] theorem Hart.flagged_retry (h : Hart) (x : BitVec 7) : (h.flagged x).retry = h.retry := by
  unfold Hart.flagged; split <;> rfl
@[simp] theorem Hart.flagged_running (h : Hart) (x : BitVec 7) : (h.flagged x).running = h.running := by
  unfold Hart.flagged; split <;> rfl
@[simp] theorem Hart.flagged_stuck (h : Hart) (x : BitVec 7) : (h.flagged x).stuck = h.stuck := by
  unfold Hart.flagged; split <;> rfl
@[simp] theorem Hart.flagged_partway (h : Hart) (x : BitVec 7) : (h.flagged x).partway = h.partway := by
  unfold Hart.flagged; split <;> rfl
@[simp] theorem Hart.flagged_limit (h : Hart) (x : BitVec 7) : (h.flagged x).limit = h.limit := by
  unfold Hart.flagged; split <;> rfl
@[simp] theorem Hart.flagged_iq (h : Hart) (x : BitVec 7) : (h.flagged x).iq = h.iq := by
  unfold Hart.flagged; split <;> rfl
@[simp] theorem Hart.flagged_sb (h : Hart) (x : BitVec 7) : (h.flagged x).sb = h.sb := by
  unfold Hart.flagged; split <;> rfl
@[simp] theorem Hart.flagged_heldFrom (h : Hart) (x : BitVec 7) : (h.flagged x).heldFrom = h.heldFrom := by
  unfold Hart.flagged; split <;> rfl
@[simp] theorem Hart.flagged_probed (h : Hart) (x : BitVec 7) : (h.flagged x).probed = h.probed := by
  unfold Hart.flagged; split <;> rfl
@[simp] theorem Hart.flagged_uses (h : Hart) (x : BitVec 7) : (h.flagged x).uses = h.uses := by
  unfold Hart.flagged; split <;> rfl
@[simp] theorem Hart.flagged_unchecked (h : Hart) (x : BitVec 7) : (h.flagged x).unchecked = h.unchecked := by
  unfold Hart.flagged; split <;> rfl
@[simp] theorem Hart.flagged_esub (h : Hart) (x : BitVec 7) : (h.flagged x).esub = h.esub := by
  unfold Hart.flagged; split <;> rfl

/-- Without a queue a scalar instruction's flags are merged at once. -/
theorem Hart.flagged_empty (h : Hart) (x : BitVec 7) (e : h.queue = []) :
    h.flagged x = { h with regs := h.regs.mergeFlags x } := by
  simp [Hart.flagged, e]

end Sys2Proof.Machine
end

