-- ==== Sys2Proof/Laws/Effects.lean ====
section
/-!
SUPPORT. Effects.lean: running effects (bind, register reads and writes, traps), and what running an instruction answers
when its effect ends normally, in a trap, blocked or stalled.
-/

namespace Sys2Proof.Machine

/-! ## Effects step by step -/

@[simp] theorem bind_apply {α β : Type} (x : M α) (f : α → M β) (s : State) :
    (x >>= f) s = match x s with
      | .ok a t => f a t
      | .error e t => .error e t := by
  cases h : x s <;> simp [bind, EStateM.bind, h]

@[simp] theorem pure_apply {α : Type} (a : α) (s : State) : (pure a : M α) s = .ok a s := rfl
@[simp] theorem get_apply (s : State) : (get : M State) s = .ok s s := rfl
@[simp] theorem set_apply (t s : State) : (set t : M Unit) s = .ok ⟨⟩ t := rfl
@[simp] theorem change_apply (f : State → State) (s : State) : change f s = .ok () (f s) := rfl
@[simp] theorem throw_apply {α : Type} (e : Stop) (s : State) : (throw e : M α) s = .error e s := rfl
@[simp] theorem trap_apply {α : Type} (c : Nat) (v : Word) (s : State) :
    (trap c v : M α) s = .error (.trap ⟨c, v, 0, none, none, none⟩) s := rfl
@[simp] theorem block_apply {α : Type} (b : Block) (s : State) : (block b : M α) s = .error (.block b) s := rfl
@[simp] theorem stall_apply {α : Type} (s : State) : (stall : M α) s = .error .stall s := rfl
@[simp] theorem ended_apply {α : Type} (s : State) : (ended : M α) s = .error .ended s := rfl
@[simp] theorem curHart_apply (s : State) : curHart s = .ok (s.hart s.cur) s := rfl
@[simp] theorem curRegs_apply (s : State) : curRegs s = .ok (s.hart s.cur).regs s := rfl
@[simp] theorem readS_apply (r : Reg) (s : State) : readS r s = .ok ((s.hart s.cur).regs.getS r) s := rfl
@[simp] theorem readPc_apply (s : State) : readPc s = .ok (s.hart s.cur).regs.pc s := rfl
@[simp] theorem updHart_apply (f : Hart → Hart) (s : State) : updHart f s = .ok () (s.updHart s.cur f) := rfl
@[simp] theorem updRegs_apply (f : Regs → Regs) (s : State) :
    updRegs f s = .ok () (s.updHart s.cur fun h => { h with regs := f h.regs }) := rfl
@[simp] theorem writeS_apply (r : Reg) (v : Word) (s : State) :
    writeS r v s = .ok () (s.updHart s.cur fun h => { h with regs := h.regs.setS r v }) := rfl
@[simp] theorem advance_apply (s : State) : advance s = .ok () (s.updHart s.cur Hart.advance) := rfl
@[simp] theorem again_apply {α : Type} (s : State) : (again : M α) s = .error .again s := rfl
@[simp] theorem returnAddress_apply (s : State) : returnAddress s = .ok (s.hart s.cur).successor s := rfl

/-- Waiting for the queue passes when it is empty, and else tries again (R110). -/
theorem drainQueue_apply (s : State) :
    drainQueue s = if (s.hart s.cur).queue.isEmpty then .ok () s else .error .again s := by
  simp only [drainQueue, bind_apply, curHart_apply]; split <;> rfl

@[simp] theorem drainQueue_empty (s : State) (h : (s.hart s.cur).queue = []) : drainQueue s = .ok () s := by
  simp [drainQueue_apply, h]

theorem checkTarget_apply (t : Word) (s : State) : checkTarget t s =
    if headTarget t then .ok () s else .error (.trap ⟨cALIGN, t, 0, none, none, none⟩) s := by
  unfold checkTarget; split <;> rfl

theorem require_apply (ok : Bool) (why : Nat) (s : State) : require ok why s =
    if ok then .ok () s
    else .error (.trap ⟨cILLEGAL, (s.hart s.cur).illegalVal why, 0, none, none, none⟩) s := by
  unfold require; split <;> rfl

theorem needVtype_apply (s : State) : needVtype s =
    if (s.hart s.cur).regs.vtype.toNat / 2 ^ 63 = 1 then
      .error (.trap ⟨cVTYPE, (s.hart s.cur).regs.vtype, 0, none, none, none⟩) s
    else .ok () s := by
  simp only [needVtype, bind_apply, curRegs_apply]; split <;> rfl

theorem captured_apply (mask : Reg3) (s : State) (h : (s.hart s.cur).regs.vtype.toNat / 2 ^ 63 ≠ 1) :
    captured mask s = .ok ((s.hart s.cur).regs.capture mask) s := by
  have hv : needVtype s = .ok () s := by rw [needVtype_apply, if_neg h]
  show (needVtype >>= fun _ => curRegs >>= fun g => pure (g.capture mask)) s = _
  rw [bind_apply, hv]; rfl

/-- Disabled conditions do not trap (R134). -/
theorem checkEnabled_off (fs : List (Nat × Nat)) (s : State)
    (h : joinFlags fs &&& (s.hart s.cur).regs.atc.toNat % 128 = 0) : checkEnabled fs s = .ok () s := by
  simp [checkEnabled, h]

/-- Storage that fits does not trap (R79). -/
theorem checkStorage_fits (ws : List TileWrite) (sources : List Nat) (s : State)
    (h : ((s.hart s.cur).regs.storageNeed ws sources).1 ≤ ((s.hart s.cur).regs.storageNeed ws sources).2) :
    checkStorage ws sources s = .ok () s := by
  have h' : ¬ ((s.hart s.cur).regs.storageNeed ws sources).1 > ((s.hart s.cur).regs.storageNeed ws sources).2 := by omega
  simp [checkStorage, h']

@[simp] theorem writeTiles_apply (ws : List TileWrite) (s : State) :
    writeTiles ws s = .ok () (s.updHart s.cur fun h => { h with regs := h.regs.putTiles ws }) := rfl

/-! ## Completing -/

/-- Dropping the requests of an instruction that has none changes nothing. -/
theorem State.dropRequests_none (s : State) (h : s.curRank.requests = []) : s.dropRequests = s := by
  simp [State.dropRequests, h]

/-- Dropping requests leaves every field but the partitions. -/
theorem State.dropRequests_eq (s : State) : ∃ ps, s.dropRequests = { s with parts := ps } := by
  unfold State.dropRequests
  split
  · exact ⟨s.parts, rfl⟩
  · exact s.updCurRank_eq _

/-- An attempt that has noted no access has none to forget. -/
theorem State.dropUses_none (s : State) (h : (s.hart s.cur).uses = []) : s.dropUses = s := by
  simp [State.dropUses, h]

/-- An instruction that has noted no access has none to count. -/
theorem State.settleUses_none (s0 s : State) (h : (s.hart s.cur).uses = []) : s0.settleUses s = s := by
  simp [State.settleUses, State.countUses, State.dropUses_none, h]

/-- An instruction that has put nothing under guarded issue leaves what could be withdrawn as it was. -/
theorem State.noteHeld_none (s : State) (old : Nat) (b : Before) (h : s.heldCount s.cur ≤ old) :
    s.noteHeld old b = s := by
  have h' : ¬ s.heldCount s.cur > old := by omega
  simp [State.noteHeld, h']

/-- What completing does, of an instruction that has noted no access: the hart is at its next instruction, what it holds under
guarded issue is noted, and the partitions may differ. -/
theorem State.completed_eq (s0 s : State) (h : (s.hart s.cur).uses = []) :
    ∃ ps, s0.completed s = { (s.updHart s.cur fun h =>
      h.completed (s0.hart s0.cur).queue.length (s0.beforeOf s0.cur)).noteHeld (s0.heldCount s0.cur) (s0.beforeOf s0.cur) with
        parts := ps } := by
  unfold State.completed
  rw [State.settleUses_none s0 s h]
  exact State.dropRequests_eq _

/-- An instruction that is not the first after a return runs its effect as it stands. -/
theorem instr_conclude (m : M Unit) (s : State) (h : (s.hart s.cur).fresh = false) (hu : (s.hart s.cur).uses = []) :
    instr m s = .next (conclude s (m s)) := by
  simp [instr, Hart.first, h, State.dropUses_none s hu]

/-- An effect that ends normally, of an instruction that is not the first after a return. -/
theorem instr_ok (m : M Unit) (s t : State) (h : (s.hart s.cur).fresh = false) (hu : (s.hart s.cur).uses = [])
    (hm : m s = .ok () t) : instr m s = .next (s.completed t) := by
  simp [instr_conclude m s h hu, hm, conclude]

/-- An effect that blocks the hart. -/
theorem instr_block (m : M Unit) (s t : State) (b : Block) (h : (s.hart s.cur).fresh = false)
    (hu : (s.hart s.cur).uses = []) (hm : m s = .error (.block b) t) : instr m s = .next (s.blockedBy t b) := by
  simp [instr_conclude m s h hu, hm, conclude]

/-- An effect that waits with what it has done. -/
theorem instr_stall (m : M Unit) (s t : State) (h : (s.hart s.cur).fresh = false) (hu : (s.hart s.cur).uses = [])
    (hm : m s = .error .stall t) : instr m s = .next t.waiting := by
  simp [instr_conclude m s h hu, hm, conclude]

/-- An effect that is to be tried again as if it had not begun. -/
theorem instr_again (m : M Unit) (s t : State) (h : (s.hart s.cur).fresh = false) (hu : (s.hart s.cur).uses = [])
    (hm : m s = .error .again t) : instr m s = .next s.awaiting := by
  simp [instr_conclude m s h hu, hm, conclude]

/-- An effect that traps, with nothing queued: the trap is taken. -/
theorem instr_trap (m : M Unit) (s t : State) (r : Trap) (h : (s.hart s.cur).fresh = false)
    (hu : (s.hart s.cur).uses = []) (hq : (s.hart s.cur).queue = []) (hm : m s = .error (.trap r) t) :
    instr m s = .next (s.trapped t r) := by
  simp [instr_conclude m s h hu, hm, conclude, hq]

/-- Every instruction answers a next state. -/
theorem instr_next (m : M Unit) (s : State) : ∃ t, instr m s = .next t := ⟨_, rfl⟩

/-! ## Traps (R404) -/

/-- A trap without a fault batch, taken by a hart with a handler below TL 2: the bank of the level entered is written, TL
rises and PC is head 0 of the handler's line. -/
theorem State.takeTrap_handled (s : State) (h : Nat) (t : Trap) (hb : t.batch = none) (htl : (s.hart h).regs.tl ≠ 2)
    (hv : (s.hart h).regs.vector ≠ 0) :
    s.takeTrap h t = s.updHart h fun x => x.trapTo t (t.epc.getD (s.hart h).regs.pc) := by
  have htl' : ¬ (s.hart h).regs.tl = 2#2 := htl
  have hv' : ¬ (s.hart h).regs.vector = 0#64 := hv
  simp [State.takeTrap, htl', hv', State.trapBatch, hb]

/-! ## The queue (R109, R116) -/

/-- What retiring does: the oldest entry goes with its flags and those behind it, and the units it held may be free. -/
theorem Hart.retireHead_cons (h : Hart) (e : QueueEntry) (rest : List QueueEntry) (hq : h.queue = e :: rest) :
    h.retireHead = ({ h with queue := rest, regs := h.regs.mergeFlags (e.flags ||| e.later) }).drained := by
  simp [Hart.retireHead, hq]

/-- A hart that drains keeps everything but the convoy that ran. -/
theorem Hart.drained_eq (h : Hart) : h.drained = h ∨ h.drained = { h with running := none } := by
  unfold Hart.drained
  split
  · exact .inl rfl
  · dsimp only
    split
    · exact .inr rfl
    · exact .inl rfl

end Sys2Proof.Machine
end

