-- ==== Sys2Proof/Laws/Memory.lean ====
section
/-!
SUPPORT. Memory.lean: the tables of the state, and the canonical form of a byte memory: the one operation that writes
bytes keeps it.
-/

namespace Sys2Proof.Machine

/-! ## Tables -/

theorem tget_mem {α : Type} (t : Table α) (k : Nat) (v : α) (h : tget t k = some v) : (k, v) ∈ t := by
  induction t with
  | nil => simp [tget] at h
  | cons e rest ih =>
    obtain ⟨j, w⟩ := e
    simp only [tget] at h
    split at h
    · next hj => simp_all
    · exact List.mem_cons_of_mem _ (ih h)

/-! ## The canonical form -/

theorem Memory.wfFrom_mono (m : Cells) (lo lo' : Nat) (h : lo' ≤ lo) (hm : Memory.wfFrom lo m = true) :
    Memory.wfFrom lo' m = true := by
  cases m with
  | nil => rfl
  | cons e rest =>
    simp only [Memory.wfFrom, Bool.and_eq_true, decide_eq_true_eq] at hm ⊢
    exact ⟨⟨Nat.le_trans h hm.1.1, hm.1.2⟩, hm.2⟩

theorem Memory.wfFrom_append (xs ys : Cells) (lo mid : Nat) (hx : Memory.wfFrom lo xs = true)
    (hlt : ∀ c ∈ xs, c.1 < mid) (hle : lo ≤ mid) (hy : Memory.wfFrom mid ys = true) :
    Memory.wfFrom lo (xs ++ ys) = true := by
  induction xs generalizing lo with
  | nil => exact Memory.wfFrom_mono ys mid lo hle hy
  | cons e rest ih =>
    simp only [Memory.wfFrom, Bool.and_eq_true, List.cons_append] at hx ⊢
    exact ⟨hx.1, ih _ hx.2 (fun c hc => hlt c (List.mem_cons_of_mem _ hc)) (hlt e (List.mem_cons_self ..))⟩

theorem Memory.wfFrom_cellsOf (bs : List Byte) (a : Nat) : Memory.wfFrom a (cellsOf a bs) = true := by
  induction bs generalizing a with
  | nil => rfl
  | cons b rest ih =>
    simp only [cellsOf]
    split
    · exact Memory.wfFrom_mono _ _ _ (Nat.le_succ a) (ih (a + 1))
    · next hb => simpa [Memory.wfFrom, ih] using hb

theorem cellsOf_lt (bs : List Byte) (a : Nat) : ∀ c ∈ cellsOf a bs, c.1 < a + bs.length := by
  induction bs generalizing a with
  | nil => simp [cellsOf]
  | cons b rest ih =>
    intro c hc
    simp only [cellsOf] at hc
    have step : ∀ d ∈ cellsOf (a + 1) rest, d.1 < a + (b :: rest).length := fun d hd => by
      have := ih (a + 1) d hd
      simp only [List.length_cons]
      omega
    split at hc
    · exact step c hc
    · rcases List.mem_cons.mp hc with rfl | h
      · simp
      · exact step c h

theorem Memory.wfFrom_takeWhile (m : Cells) (lo : Nat) (p : Nat × Byte → Bool) (h : Memory.wfFrom lo m = true) :
    Memory.wfFrom lo (m.takeWhile p) = true := by
  induction m generalizing lo with
  | nil => rfl
  | cons e rest ih =>
    simp only [Memory.wfFrom, Bool.and_eq_true] at h
    simp only [List.takeWhile]
    split
    · simp only [Memory.wfFrom, Bool.and_eq_true]
      exact ⟨h.1, ih _ h.2⟩
    · rfl

theorem Memory.wfFrom_dropWhile (m : Cells) (lo b : Nat) (h : Memory.wfFrom lo m = true) :
    Memory.wfFrom b (m.dropWhile fun c => decide (c.1 < b)) = true := by
  induction m generalizing lo with
  | nil => rfl
  | cons e rest ih =>
    simp only [Memory.wfFrom, Bool.and_eq_true, decide_eq_true_eq] at h
    simp only [List.dropWhile]
    split
    · exact ih _ h.2
    · next hp =>
      simp only [Memory.wfFrom, Bool.and_eq_true, decide_eq_true_eq]
      exact ⟨⟨Nat.le_of_not_lt (by simpa using hp), h.1.2⟩, h.2⟩

/-- The one operation that writes bytes keeps the canonical form. -/
theorem Memory.wf_putBytes (m : Cells) (a : Nat) (bs : List Byte) (h : Memory.wf m = true) :
    Memory.wf (putBytes m a bs) = true := by
  have ht : ∀ c ∈ m.takeWhile (fun c => decide (c.1 < a)), c.1 < a := fun c hc =>
    of_decide_eq_true (List.all_eq_true.mp List.all_takeWhile c hc)
  unfold Memory.wf putBytes
  rw [List.append_assoc]
  exact Memory.wfFrom_append _ _ 0 a (Memory.wfFrom_takeWhile m 0 _ h) ht (Nat.zero_le a)
    (Memory.wfFrom_append _ _ a (a + bs.length) (Memory.wfFrom_cellsOf bs a) (cellsOf_lt bs a) (Nat.le_add_right ..)
      (Memory.wfFrom_dropWhile m 0 _ h))

end Sys2Proof.Machine
end

