-- ==== Sys2Proof/Safety.lean ====
section
/-!
DEFINITION. Safety.lean: what counts as a safe run, in the words of step: no step stops. The one stop of this machine is
the fault of a schedule that gives an encoded instruction as a device event (log 1), so a run is safe whose schedule holds
only proper turns.
-/

namespace Sys2Proof.Machine

/-- A turn that the machine acts on: anything but an event that is an encoded instruction. -/
def Turn.proper : Turn → Bool
  | .event i => isEvent i
  | .own | .hart _ | .part .. | .defer _ | .issue .. | .outside .. | .table .. | .buffer .. | .registers _ | .posted
  | .busMaster _ | .secured _ | .hostErrors _ | .routes .. => true

/-- A step that answers a next state. -/
def Goes (s : State) : Prop := ∃ t, step s = .next t

/-- A run of n steps that does not stop. -/
def SafeFor : Nat → State → Prop
  | 0, _ => True
  | n + 1, s => ∃ t, step s = .next t ∧ SafeFor n t

/-- A run of any length that does not stop. -/
def Safe (s : State) : Prop := ∀ n, SafeFor n s

/-- A state that steps lead to from another. -/
inductive Reaches : State → State → Prop
  | here (s : State) : Reaches s s
  | step {s t u : State} : Reaches s t → Machine.step t = .next u → Reaches s u

end Sys2Proof.Machine
end

