-- ==== Sys2Proof/Tests/Witnesses.lean ====
section
/-!
SUPPORT. Witnesses.lean: for each statement and each of its clauses, a concrete state and operands that meet its
hypotheses together.
-/

namespace Sys2Proof.Tests

open Sys2Proof Sys2Proof.Machine Sys2Proof.Claims

set_option Elab.async false
set_option linter.unusedVariables false

/-! ## States -/

/-- Hart 0 of core 0 running node 1 of partition 0, about to fetch at address 2. -/
def base : State := State.reset.placed [0x1024, 0x0085]

/-- The first byte of the scratchpad window. -/
def window : Word := 0x01FFFFFFFFE00000

/-- With the registers of hart 0 changed. -/
def withRegs (s : State) (f : Regs → Regs) : State := s.updHart 0 fun h => { h with regs := f h.regs }

/-- With hart 0 changed. -/
def withHart (s : State) (f : Hart → Hart) : State := s.updHart 0 f

/-- With core 0 changed. -/
def withCore (s : State) (f : Core → Core) : State := s.updCore 0 f

/-- With scalar registers set. -/
def withS (s : State) (vs : List (Reg × Word)) : State := withRegs s fun g => vs.foldl (fun g v => g.setS v.1 v.2) g

/-- With bytes in the scratchpad. -/
def withPad (s : State) (off : Nat) (bs : List Byte) : State := withCore s fun c => { c with pad := putBytes c.pad off bs }

/-- With bytes in device memory. -/
def withMem (s : State) (key : Nat) (bs : List Byte) : State := { s with mem := putBytes s.mem key bs }

/-- With the running hart's handler at address 64 times 5. -/
def handled (s : State) : State := withRegs s fun g => { g with tvec := 320 }

/-- With a VTYPE, a VL and an RC. -/
def vec (vtype vl rc : Nat) (s : State) : State :=
  withRegs s fun g => { g with vtype := BitVec.ofNat 64 vtype, vl := BitVec.ofNat 64 vl, rc := BitVec.ofNat 64 rc }

/-- With a vector register holding a shape. -/
def withTile (s : State) (n : Fin 32) (tag : Word) : State := withRegs s fun g => { g with f := g.f.set n.val (⟨tag, []⟩ : Tile) }

/-- Two functions of degree 1 in FP32. -/
def functions : State := withTile (withTile (vec 0x448 0 1 base) 5 (funTag 8 1 1 [1])) 6 (funTag 8 1 1 [1])

/-- A pool of granules all in use. -/
def full : State :=
  vec 2 4 1 (withRegs base fun g => { g with f := Vector.ofFn fun i : Fin 32 =>
    if i.val < 6 then ⟨plainTag 0 16 2048, []⟩ else Tile.empty })

/-- A page of self-describing blocks, s5 naming its first byte, and a tile of 62 bytes. -/
def segmentEntry : Entry := { testEntry with sd := true }
def segmentPage : State := vec 0 62 1 (withCore base fun c => { c with tlb := [segmentEntry] })

/-- With a Palette slot of core 0. -/
def withSlot (s : State) (n : Fin 32) (x : Slot) : State := withCore s fun c => { c with slots := c.slots.set n.val x }

/-- Hart 0 owning slot 31, s5 naming the last bytes of the scratchpad window, and a shape of one row of four bytes. -/
def palette (vtype cols rows : Nat) : State :=
  withRegs (withS (vec vtype (cols * rows) 1 (withSlot base 31 ⟨some 0, none, []⟩)) [(5, window + 0x1FFFF8)]) fun g =>
    { g with dlen := #v[BitVec.ofNat 64 cols, BitVec.ofNat 64 rows, 1] }

/-- Compressed sparse rows: one row of two columns, its one entry in column 1. -/
def sparse : State :=
  withPad (withRegs (withS (vec 0 0 1 (withSlot base 31 ⟨some 0, none, []⟩)) [(5, window)]) fun g =>
    { g with dlen := #v[2, 1, 1] }) 0
    (leBytes 8 (window.toNat + 32) ++ leBytes 8 (window.toNat + 40) ++ leBytes 8 (window.toNat + 44) ++ leBytes 8 0 ++
      leBytes 4 0 ++ leBytes 4 1 ++ leBytes 4 1 ++ [7])

/-- Two slots of a product of INT8 matrices. -/
def products : State :=
  withSlot (withSlot (vec 2 1 1 base) 30 ⟨some 0, some ⟨1, 4, 0, none, [[1, 2, 3, 4]]⟩, []⟩) 31
    ⟨some 0, some ⟨4, 1, 0, none, [[1], [2], [3], [4]]⟩, []⟩

/-- A pattern table of one dimension of four INT32 elements. -/
def pattern (store : Bool) : List Word :=
  [window, (if store then 0x0820000000000000 else 0x0020000000000000), 0, 0, 4, 4] ++ List.replicate 30 0

/-- A load stream in register 1 and a store stream in register 2. -/
def streams : State := vec 2 4 1 (withRegs base fun g =>
  { g with q := (g.q.set 1 (some ⟨pattern false, 0, []⟩)).set 2 (some ⟨pattern true, 0, []⟩) })

/-- A pattern table in the scratchpad. -/
def patternTable : State :=
  withPad (withS base [(5, window + 64)]) 64 ((pattern false).flatMap fun w => leBytes 8 w.toNat)

/-- A compressed buffer of two raw blocks at the start of the scratchpad. -/
def compressed : State :=
  withPad (withS base [(5, window + 0x10000), (7, window), (8, 4096)]) 0
    (leBytes 8 0x101 ++ leBytes 8 2 ++ leBytes 8 (window.toNat + 128) ++ List.replicate 40 0 ++ leBytes 4 0x80000000 ++
      leBytes 4 0x80000040)

/-- A transfer of 64 bytes in channel 3. -/
def transferring : State :=
  withPad (withCore base fun c => { c with channels := c.channels.set 3 (⟨0, 64,
    [⟨0, 0, 0x10001, 0, 0, false, window.toNat, window.toNat + 128, 64, 0, [], none, [], none⟩], none⟩ : Channel) }) 0 [1, 2, 3]

/-! Tasks: partitions, nodes, objects, buffers. -/

/-- With partition 0 changed. -/
def withPart (s : State) (f : Partition → Partition) : State := { s with parts := (tget s.parts 0).elim s.parts fun x => tput s.parts 0 (f x) }

/-- With a node in slot k of partition 0. -/
def withNode (s : State) (k : Nat) (n : Node) : State :=
  withPart s fun x => { x with slots := 8, nodes := tput x.nodes k n }

/-- A waiting node, not placed. -/
def node2 : Node := { testNode with state := .held, ranks := [] }

/-- s5 naming an object at address 1024, of zeros. -/
def object : State := withS base [(5, 1024)]

/-- The marker of a hart that holds a synchronisation object: valid, rank 0, its node's handle. -/
def holder0 : Word := 0x8000000000010001

/-- A buffer in slot 3 of partition 0, generation 1, of 64 bytes at key 2048; s5 its handle. -/
def buffer : Buffer := ⟨1, 2048, 64, [(0, 1)], []⟩
def bufferedPart : Partition :=
  { testPart with access := ⟨.memory, .engine, 0xFF⟩ :: testPart.access, buffers := [(3, buffer)] }
def buffered : State := withS (withPart base fun _ => bufferedPart) [(5, 0x30001)]

/-- A command for that buffer. -/
def command : Command := { (default : Command) with slot := 3, gen := 1, op := 1, len := 64, total := 64 }
def commanded (c : Command) : State := { buffered with commands := [(0, c)], nextCommand := 1 }

/-- Eight words of a command in f4. -/
def submitting (w0 handle : Nat) (s : State) : State :=
  vec 3 8 1 (withRegs s fun g => { g with
    f := g.f.set 4 (⟨plainTag 3 1 8, [BitVec.ofNat 16384 (w0 + handle * 2 ^ 128)]⟩ : Tile) })

/-- A node record of one hart at address 1024. -/
def recorded : State := withMem (withNode object 1 testNode) 1024 (leBytes 8 0x2001 ++ leBytes 8 2)

/-- The words of the entry of a large page of pool 0 whose frame has the page's number (R273). -/
def largeEntry (vpn : Nat) : List Byte :=
  leBytes 8 (2 ^ 63 + 2 ^ 62 + vpn) ++ leBytes 8 (511 * 2 ^ 55 + 7 * 2 ^ 50)

/-- The first six megabytes of partition 0 mapped to the same bytes of pool 0 through three entries. -/
def paged : State :=
  { base with
    trPool := [(0, 0x10000)]
    tbl := [(0, leBytes 4 0x80000000), (128, leBytes 4 0x80000020), (256, leBytes 4 0x80000040),
      (0x10000, largeEntry 0), (0x10400, largeEntry 32), (0x10800, largeEntry 64)].foldl
        (fun m e => putBytes m e.1 e.2) [] }

/-- Node 1 with eight save areas, beside a ready node. -/
def yielding : State :=
  withPart (withNode paged 2 { node2 with state := .ready }) fun x => { x with csaSlots := 9 }

/-- With a schedule table. -/
def withSched (s : State) (f : SchedTable → SchedTable) : State :=
  { s with scheds := tput s.scheds 0 (f SchedTable.reset) }


theorem canonical_of (s : State)
    (h : (Memory.wf s.mem && Memory.wf s.tbl && Memory.wf s.host && s.cores.all fun c => Memory.wf c.2.pad) = true) :
    Canonical s := by
  simp only [Bool.and_eq_true, List.all_eq_true] at h
  obtain ⟨⟨⟨h1, h2⟩, h3⟩, h4⟩ := h
  refine ⟨h1, h2, h3, fun c => ?_⟩
  unfold State.core
  cases hc : tget s.cores c with
  | none => rfl
  | some x => exact h4 _ (tget_mem _ _ _ hc)

/-! Device events. -/

/-- A stage of the start in progress. -/
def atStage (n : BitVec 3) : State := { State.reset with st := { Stage.reset with stage := n } }

/-- A partition of core 1 and frame 1 of pool 0, created without a buffer. -/
def grant : Grant := ⟨1, [1], [(0, 1)], [0], [383], 2, [], []⟩

/-- Partition 0 at the last wait of its teardown. -/
def leaving : Partition := { testPart with teardown := .waiting, nodes := [] }

/-- Partition 0 with the host window open. -/
def hostPart : Partition := { testPart with enable := true, access := ⟨.dispatcher, .host, 0xFF⟩ :: testPart.access }

/-- A record at address 1024 inserted through the window. -/
def insertPart : Partition := { hostPart with nodes := [], inserts := [1024] }
def inserting : State := withMem (withPart paged fun _ => insertPart) 1024 (leBytes 8 0x2001 ++ leBytes 8 2)

/-- A ready node, and core 0 without a node. -/
def readyNode : Node := { testNode with state := .ready, ranks := [] }
def readyPart : Partition := { testPart with nodes := [(1, readyNode)] }
def placing : State := withHart (withPart base fun _ => readyPart) fun _ => Hart.reset

/-- A node of a deterministic partition that has ended, with one byte in its shadow. -/
def committingNode : Node := { testNode with state := .commitWait, shadow := [(64, 7)], ranks := [] }
def committingPart : Partition := { testPart with det := true, nodes := [(1, committingNode)] }
def committing : State := withPart paged fun _ => committingPart

/-- Schedule table 0 granted to partition 0. -/
def tablePart : Partition :=
  { testPart with tables := [0], slots := 8, access := ⟨.dispatcher, .host, 0xFF⟩ :: testPart.access }
def tabled (f : SchedTable → SchedTable) : State := withSched (withPart paged fun _ => tablePart) f

/-- A table that loads one entry from address 1024. -/
def loadingTable : State :=
  tabled fun x => { x with state := .loading, latched := [0x40000, 1024, 0, 0, 64], seals := [(0, true, 0), (8, false, 0)] }

/-- A forward entry for a template at address 1024, which awaits nothing, and a backward one that awaits its forward. -/
def firstEntry : SchedEntry := ⟨0x40000FFFFC000000, 1024, 0⟩
def secondEntry : SchedEntry := ⟨0x80000FFFFC000000, 1024, 0⟩
def entering (e : SchedEntry) : State :=
  withMem (tabled fun x => { x with state := .running, entries := [e], latched := [0x40000, 0, 0, 0, 64] }) 1024
    (leBytes 8 0x2001 ++ leBytes 8 2)

/-- What a queued instruction of hart 0 returns to, and such an instruction with one element group: an ADD whose convoy
holds one unit, an instruction of no convoy of its own, and an MCLAIM. -/
def before : Before := ⟨{ Regs.reset with tvec := 320 }, none, 0, none, 0, []⟩
def entry (started written : Bool) (r : Recheck) : QueueEntry :=
  ⟨2, 1, 1, 0, some [1, 5], started, written, false, 1, 1, r, none, before⟩
def claimEntry : QueueEntry := { entry false false .none with cls := 5, claim := some (31, none) }
def queued (q : List QueueEntry) : State := withHart base fun h => { h with queue := q }

/-- Peer 1 as given; port n in service with some retries in a row. -/
def withPeer (x : Peer) : State := { base with peers := [(1, x)] }
def withPort (n inRow : Nat) : State := { base with ports := [(n, ⟨1, 0, 0, 0, inRow⟩)] }

/-- A packet to peer 1 that went through port 3, and one other port. -/
def resending : State :=
  { base with
    ports := [(3, ⟨1, 0, 0, 0, 0⟩), (71, ⟨1, 0, 0, 0, 0⟩)]
    peers := [(1, { Peer.reset with unacked := [⟨5, .read 0 8, .none, 3⟩] })] }

/-- A batch report of one page, page 1 of partition 0. -/
def pageReport : List Word := batchReport 0 1 8 65536 [] [] 0 [65536]

/-- The entry of the first large page. -/
def largeEntry0 : Entry := { testEntry with large := true }

/-- An engine with a command to read the first 64 bytes of memory. -/
def engineReads : State := { withPart paged fun _ => bufferedPart with commands := [(0, command)] }

/-- A page of 64 KiB at frame 0 of pool 0. -/
def smallPage : State :=
  { base with trPool := [(0, 0x10000)], tbl := putBytes [] 0x10000 (leBytes 8 (2 ^ 63) ++ leBytes 8 (511 * 2 ^ 55)) }

/-- Hart 0 with a line of ADD and NOPs read, about to execute its second or its first instruction. -/
def adds : Line := ⟨0, lineBits (wordsLine [0x1024, 0x0085])⟩
def lined (pc : Word) : State := withHart base fun h => { h with regs := { h.regs with pc := pc }, line := some adds }

theorem notDet (s : State) (h : Nat) (hd : (match (s.hart h).node with
      | some (p, _, _) => (s.part p).all fun x => !x.det
      | none => true) = true) : PlainPart s h := by
  intro p k r hn x hx
  simpa [hn, hx] using hd

theorem legal_of (s : State) (h : (s.harts.all fun x => decide (LegalRegs x.2.regs) &&
      x.2.queue.all fun e => decide (LegalRegs e.before.regs)) = true) : LegalHarts s := by
  intro k
  unfold State.hart
  cases hc : tget s.harts k with
  | none => exact ⟨by decide, fun e he => nomatch he⟩
  | some x =>
    have := List.all_eq_true.mp h _ (tget_mem _ _ _ hc)
    simp only [Bool.and_eq_true, decide_eq_true_eq, List.all_eq_true] at this
    exact this

theorem ok_of {i : Instr} (x : Except Reject Instr) (h : x.toOption = some i) : x = .ok i := by
  cases x with
  | error _ => exact nomatch h
  | ok j => exact congrArg _ (Option.some.inj h)

/-- The state after a step. -/
def stepped (s : State) : State := match step s with | .next t => t | _ => s

theorem stepped_of (s : State) (h : (match step s with | .next _ => true | _ => false) = true) :
    step s = .next (stepped s) := by
  unfold stepped
  cases hs : step s <;> simp_all

theorem fault_of (s : State) (h : (match step s with | .fault e => e == .notAnEvent | _ => false) = true) :
    step s = .fault .notAnEvent := by
  cases hs : step s <;> simp_all

theorem stores_of (s : State) (h : (s.harts.all fun x => x.2.sb == [] && x.2.translations == []) = true) :
    ∀ k, (s.hart k).sb = [] ∧ (s.hart k).translations = [] := by
  intro k
  unfold State.hart
  cases hc : tget s.harts k with
  | none => exact ⟨rfl, rfl⟩
  | some x => simpa using List.all_eq_true.mp h _ (tget_mem _ _ _ hc)

theorem clean_pad (s : State) (va n off : Nat) (h : hitRange (s.core (s.cur / 8)).padPoison off n = none) :
    Clean s va n (.pad off) := h

theorem local_group (s : State) (key : Nat)
    (h : (match s.groupCount (me s).part (s.homeWord key) with | .ask .. => false | _ => true) = true) :
    LocalGroup s key := by
  intro q k e
  simp [e] at h

theorem comes_to (s : State) (h cls : Nat) (l : Line) (p k r : Nat) (hl : (s.hart h).line = some l)
    (hu : unitClass (lineOpcode l.bits (((s.hart h).regs.pc.toNat % 64 - 2) / 2)).1
      (lineOpcode l.bits (((s.hart h).regs.pc.toNat % 64 - 2) / 2)).2 = cls)
    (hq : (s.hart h).queue = []) (hb : (s.hart h).blocked = none) (hi : (s.hart h).iq = [])
    (hw : (s.hart h).partway = none)
    (hn : (s.hart h).node = some (p, k, r)) (hr : (s.rank p k r).requests = []) : ComesTo s h cls where
  line := ⟨l, hl, hu⟩
  queue := hq
  runnable := hb
  issued := hi
  whole := hw
  alone _ _ _ e := by cases hn.symm.trans e; exact hr

theorem executes_of (s : State) (h p k r : Nat) (n : Node) (hc : (s.core (h / 8)).quarState ≠ 1)
    (hi : (s.hart h).iq = []) (he : s.heldCount h = 0)
    (hn : (s.hart h).node = some (p, k, r)) (hw : (s.rank p k r).waitBatch = false)
    (hu : (s.rank p k r).unresolved = false) (hk : s.node p k = some n) (hl : n.leaving = none) : Executes s h :=
  ⟨hc, hi, he, p, k, r, hn, hw, hu, fun m e => .inl (by cases hk.symm.trans e; exact hl)⟩

theorem waits_once (s : State) (p : Reg) (h : (slotOf s p).waiting.Nodup) :
    ∀ k, (slotOf s p).waiting.head? = some k → k ∉ (slotOf s p).waiting.tail := by
  intro k e
  cases hw : (slotOf s p).waiting with
  | nil => simp
  | cons a rest => simp_all

theorem no_members (s : State) (q : Nat) (h : s.commands = []) :
    ∀ c ∈ s.commands, c.2.op = 3 → c.2.ended = false → q ∉ c.2.members := by simp [h]

theorem one_port : ∀ m < 72, (resending.port m).state = 1 → m = 71 ∨ m = 3 := by decide +kernel

theorem turn_own (s : State) (ha : s.agenda = []) (hq : (me s).queue = []) (hu : (me s).unchecked = 0) :
    TurnOf s s.cur none := by
  unfold TurnOf
  rw [ha]
  exact ⟨rfl, rfl, .inl ⟨hq, hu⟩⟩

theorem turn_part (s : State) (h n : Nat) (rest : List Turn) (ha : s.agenda = .part h n :: rest) :
    TurnOf s h (some n) := by
  simp [TurnOf, ha]

theorem mem_of_find {x : SysReg} (n : Nat) (h : (sysMap.find? fun e => e.1 == n) = some (n, x)) : (n, x) ∈ sysMap :=
  List.mem_of_find?_eq_some h

/-! ## Scalar instructions, control, system registers, scalar memory -/

theorem witness_ScalarForms :
    ∃ i : Instr, ∃ s : State, ∃ rd : Reg, ∃ v : Word, Later s ∧ aluOf (regs s) i = some (rd, v) := by
  refine ⟨.addi 4 0 0x7FFF, base, 4, 0x7FFF, ?_, ?_⟩ <;>
    decide +kernel

theorem witness_FirstInstructionClears :
    ∃ i : Instr, ∃ s : State, ∃ rd : Reg, ∃ v : Word, (me s).fresh = true ∧ (regs s).tl = 0 ∧ aluOf (regs s) i =
    some (rd, v) := by
  refine ⟨.add 4 6 6, withHart base fun h => { h with fresh := true }, 4, 2, ?_⟩ <;>
    decide +kernel

theorem witness_DivisionResults :
    ∃ i : Instr, ∃ s : State, ∃ rd : Reg, ∃ a : Word, ∃ b : Word, ∃ sg : Bool, ∃ rem : Bool, Later s ∧ divisionOf
    (regs s) i = some (rd, a, b, sg, rem) ∧ (regs s).atc &&& divisionFlag a b sg = 0 := by
  refine ⟨.div 4 6 0, base, 4, 1, 0, true, false, ?_⟩ <;>
    decide +kernel

theorem witness_DivisionTraps :
    ∃ i : Instr, ∃ s : State, ∃ rd : Reg, ∃ a : Word, ∃ b : Word, ∃ sg : Bool, ∃ rem : Bool, Drained s ∧ Handled s ∧
    divisionOf (regs s) i = some (rd, a, b, sg, rem) ∧ (regs s).atc &&& divisionFlag a b sg ≠ 0 := by
  refine ⟨.rem 4 5 7,
    withS (withRegs (handled base) fun g => { g with atc := 0x40 }) [(5, 0x8000000000000000), (7, -1)], 4,
    0x8000000000000000, -1, true, true, ?_⟩ <;>
    decide +kernel

theorem witness_TransfersTaken :
    ∃ i : Instr, ∃ s : State, ∃ c : Prop, ∃ target : Word, ∃ g : Regs, Later s ∧ transferOf s i = some (c, target,
    g) ∧ c ∧ NamesHead target := by
  refine ⟨.jal 1 0, base, True, 2, _, ?_, rfl, trivial, ?_⟩ <;>
    decide +kernel

theorem witness_BranchesNotTaken :
    ∃ i : Instr, ∃ s : State, ∃ c : Prop, ∃ imm : Word, Later s ∧ branchOf (regs s) i = some (c, imm) ∧ (¬ c) := by
  refine ⟨.blt 6 0 64, base, _, 64, ?_, rfl, ?_⟩ <;>
    decide +kernel

theorem witness_MisalignedTransfersTrap :
    ∃ i : Instr, ∃ s : State, ∃ c : Prop, ∃ target : Word, ∃ g : Regs, Drained s ∧ Handled s ∧ transferOf s i = some
    (c, target, g) ∧ c ∧ (¬ NamesHead target) := by
  refine ⟨.jalr 1 0 64, handled base, True, 64, _, ?_, ?_, rfl, trivial, ?_⟩ <;>
    decide +kernel

theorem witness_LoopIterates :
    ∃ s : State, ∃ n : Reg, ∃ imm : Word, Later s ∧ 1 ≤ n.toNat ∧ n.toNat ≤ 4 ∧ NamesHead ((regs s).pc + imm) := by
  refine ⟨base, 4, 0, ?_⟩ <;>
    decide +kernel

theorem witness_MisalignedLoopsTrap :
    ∃ s : State, ∃ n : Reg, ∃ imm : Word, Drained s ∧ Handled s ∧ 1 ≤ n.toNat ∧ n.toNat ≤ 4 ∧ loopStages (regs s) %
    2 ^ n.toNat ≠ 0 ∧ (¬ NamesHead ((regs s).pc + imm)) := by
  refine ⟨withRegs (handled base) fun g => { g with loopcnt := 1 }, 1, 62, ?_⟩ <;>
    decide +kernel

theorem witness_SystemCallsTrap :
    ∃ i : Instr, ∃ s : State, ∃ cause : Word, ∃ epc : Word, ∃ val : Word, Drained s ∧ Handled s ∧ callOf s i = some
    (cause, epc, val) := by
  refine ⟨.brk 31, handled base, 0x21, 2, 31, ?_⟩ <;>
    decide +kernel

theorem witness_ReturnRestores :
    ∃ s : State, Drained s ∧ (regs s).tl ≠ 0 ∧ ((regs s).bank (regs s).tl.toNat).cause.getLsbD 15 = false ∧
    NamesHead ((regs s).bank (regs s).tl.toNat).epc := by
  refine ⟨withRegs base fun g => { g with tl := 1, trap1 := ⟨0x20, 0xFFFFFFFFFFFFFFC2, 0, 0⟩ }, ?_⟩ <;>
    decide +kernel

theorem witness_ReturnWaitsOrTraps_1 :
    ∃ s : State, Drained s ∧ (regs s).tl ≠ 0 ∧ ((regs s).bank (regs s).tl.toNat).cause.getLsbD 15 = true := by
  refine ⟨withRegs base fun g => { g with tl := 2, trap2 := ⟨0x800E, 2, 0, 0⟩ }, ?_⟩ <;>
    decide +kernel

theorem witness_ReturnWaitsOrTraps_2 :
    ∃ s : State, Drained s ∧ (regs s).tl = 0 ∧ (regs s).vector ≠ 0 := by
  refine ⟨handled base, ?_⟩ <;>
    decide +kernel

theorem witness_ReturnWaitsOrTraps_3 :
    ∃ s : State, Drained s ∧ Handled s ∧ (regs s).tl ≠ 0 ∧ ((regs s).bank (regs s).tl.toNat).cause.getLsbD 15 =
    false ∧ (¬ NamesHead ((regs s).bank (regs s).tl.toNat).epc) := by
  refine ⟨withRegs (handled base) fun g => { g with tl := 1, trap1 := ⟨0x20, 64, 0, 0⟩ }, ?_⟩ <;>
    decide +kernel

theorem witness_ConfigurationResults :
    ∃ i : Instr, ∃ s : State, ∃ c : Prop, ∃ g : Regs, Later s ∧ configured s i = some (c, g) ∧ c := by
  refine ⟨.setrc 4 0, base, True, _, ?_, rfl, trivial⟩ <;>
    decide +kernel

theorem witness_SystemRegisterReads :
    ∃ s : State, ∃ rd : Reg, ∃ n : BitVec 12, ∃ r : SysReg, Drained s ∧ (n.toNat, r) ∈ sysMap ∧ r.readFrom ≤ (regs
    s).tl.toNat := by
  refine ⟨base, 4, 0x203, _, ?_, mem_of_find 0x203 rfl, ?_⟩ <;>
    decide +kernel

theorem witness_SystemRegisterWrites :
    ∃ s : State, ∃ ra : Reg, ∃ n : BitVec 12, ∃ r : SysReg, ∃ g : Regs, Drained s ∧ (n.toNat, r) ∈ sysMap ∧
    r.writeFrom ≤ (regs s).tl.toNat ∧ written (regs s) n.toNat ((regs s).getS ra) = some g := by
  refine ⟨base, 6, 0x002, _, _, ?_, mem_of_find 0x002 rfl, ?_, rfl⟩ <;>
    decide +kernel

theorem witness_SystemRegisterProtection_1 :
    ∃ s : State, ∃ r : Reg, ∃ n : BitVec 12, ∃ i : Instr, Drained s ∧ Handled s ∧ (i = .mfsr r n ∨ i = .mtsr r n) ∧
    (∀ x, (n.toNat, x) ∉ sysMap) := by
  refine ⟨handled base, 4, 0xFFF, .mfsr 4 0xFFF, ?_, ?_, .inl rfl, by simp [sysMap]⟩ <;>
    decide +kernel

theorem witness_SystemRegisterProtection_2 :
    ∃ s : State, ∃ r : Reg, ∃ n : BitVec 12, ∃ x : SysReg, Drained s ∧ Handled s ∧ (n.toNat, x) ∈ sysMap ∧ (regs
    s).tl.toNat < x.readFrom := by
  refine ⟨handled base, 4, 0x120, _, ?_, ?_, mem_of_find 0x120 rfl, ?_⟩ <;>
    decide +kernel

theorem witness_SystemRegisterProtection_3 :
    ∃ s : State, ∃ r : Reg, ∃ n : BitVec 12, ∃ x : SysReg, Drained s ∧ Handled s ∧ (n.toNat, x) ∈ sysMap ∧ (regs
    s).tl.toNat < x.writeFrom := by
  refine ⟨handled base, 4, 0x050, _, ?_, ?_, mem_of_find 0x050 rfl, ?_⟩ <;>
    decide +kernel

theorem witness_StoresToScratchpad :
    ∃ i : Instr, ∃ s : State, ∃ n : Nat, ∃ a : Word, ∃ v : Word, Drained s ∧ InOrder s ∧ Canonical s ∧ storeOf (regs
    s) i = some (n, a, v) ∧ a.toNat % n = 0 ∧ inWindow a.toNat = true ∧ inRegisters s a.toNat = false := by
  refine ⟨.stB 6 5 0, withS base [(5, window)], 1, window, 1, ?_, ?_, canonical_of _ ?_, ?_⟩ <;>
    decide +kernel

theorem witness_StoresAreBuffered :
    ∃ i : Instr, ∃ s : State, ∃ n : Nat, ∃ key : Nat, ∃ a : Word, ∃ v : Word, ∃ e : Option Entry, Drained s ∧
    InOrder s ∧ storeOf (regs s) i = some (n, a, v) ∧ a.toNat % n = 0 ∧ placeOf s a.toNat needW = some (.home key,
    e) ∧ s.curSpeculative = false := by
  refine ⟨.stD 6 5 0, withS base [(5, 0xFFF8)], 8, 0xFFF8, 0xFFF8, 1, _, ?_, ?_, ?_, ?_, rfl, ?_⟩ <;>
    decide +kernel

theorem witness_AccessesTrap_1 :
    ∃ i : Instr, ∃ s : State, ∃ n : Nat, ∃ a : Word, ∃ need : Need, ∃ cause : Word, Drained s ∧ Handled s ∧
    inRegisters s a.toNat = false ∧ (me s).probed = [] ∧ accessOf (regs s) i = some (n, a, need, cause) ∧ a.toNat %
    n ≠ 0 := by
  refine ⟨.ldH 4 6 0, handled base, 2, 1, needR, 0x0E, ?_⟩ <;>
    decide +kernel

theorem witness_AccessesTrap_2 :
    ∃ i : Instr, ∃ s : State, ∃ n : Nat, ∃ a : Word, ∃ need : Need, ∃ cause : Word, Drained s ∧ Handled s ∧
    inRegisters s a.toNat = false ∧ (me s).probed = [] ∧ accessOf (regs s) i = some (n, a, need, cause) ∧ a.toNat %
    n = 0 ∧ inWindow a.toNat = false ∧ ∃ e, a.toNat < 2 ^ 57 ∧ (s.core (s.cur / 8)).tlb.find? (·.covers (me s).part
    a.toNat) = some e ∧ s.granted (me s).part .hart e need = false := by
  refine ⟨.stB 6 0 64, handled (withCore base fun c => { c with tlb := c.tlb.map fun e => { e with w := false } }), 1,
    64, needW, 0x0F, ?_, ?_, ?_, ?_, ?_, ?_, ?_, _, ?_, rfl, ?_⟩ <;>
    decide +kernel

theorem witness_AccessesTrap_3 :
    ∃ i : Instr, ∃ s : State, ∃ n : Nat, ∃ a : Word, ∃ need : Need, ∃ cause : Word, Drained s ∧ Handled s ∧
    inRegisters s a.toNat = false ∧ (me s).probed = [] ∧ accessOf (regs s) i = some (n, a, need, cause) ∧ a.toNat %
    n = 0 ∧ inWindow a.toNat = false ∧ 2 ^ 57 ≤ a.toNat := by
  refine ⟨.amoAddD 4 6 5, withS (handled base) [(5, 0x0200000000000000)], 8, 0x0200000000000000, needRW, 0x0F, ?_⟩ <;>
    decide +kernel

theorem witness_ElementwiseResults :
    ∃ i : Instr, ∃ s : State, ∃ l : Lane, Room s ∧ Typed s ∧ laneOf (regs s) i = some l ∧ l.legal = true ∧ Fits s
    (laneWrites (regs s) l) (laneSources (regs s) l) ∧ Quiet s (allFlags (laneResults (regs s) l)) := by
  refine ⟨.vadd 4 5 6 0 0 false, vec 2 4 1 base, _, ?_, ?_, rfl, ?_⟩ <;>
    decide +kernel

theorem witness_ElementMovesResults :
    ∃ i : Instr, ∃ s : State, ∃ l : Lane, Room s ∧ Typed s ∧ moveLane (regs s) i = some l ∧ l.legal = true ∧ Fits s
    (laneWrites (regs s) l) (laneSources (regs s) l) := by
  refine ⟨.vslide 4 5 6 0, vec 2 4 1 base, _, ?_, ?_, rfl, ?_, ?_⟩ <;>
    decide +kernel

theorem witness_CompareResults :
    ∃ i : Instr, ∃ s : State, ∃ md : Reg3, ∃ mask : Reg3, ∃ fa : Reg, ∃ fb : Reg, ∃ cmp : Nat → Nat → Bool × Nat,
    Room s ∧ Typed s ∧ compareOf (regs s) i = some (md, fa, fb, mask, true, cmp) ∧ aligned (vtGroup (regs s).vtype)
    [fa, fb] = true ∧ (
      let c := (regs s).capture mask
      let n := (c.tile fa.toNat).length
      let r := fun k => cmp ((c.tile fa.toNat).getD k 0) ((c.tile fb.toNat).getD k 0)
      let flags := allFlags (((List.range n).filter fun k => c.mask.getLsbD k).map fun k => (0, (r k).2))
      Quiet s flags) := by
  refine ⟨.vcmpEq 1 5 6 0, vec 2 4 1 base, 1, 0, 5, 6, _, ?_, ?_, rfl, ?_, ?_⟩ <;>
    decide +kernel

theorem witness_MaskResults_1 :
    ∃ i : Instr, ∃ s : State, ∃ md : Reg3, ∃ ma : Reg3, ∃ mb : Reg3, ∃ mask : Reg3, ∃ op : Bool → Bool → Bool, Room
    s ∧ Typed s ∧ maskOpOf i = some (md, ma, mb, mask, op) := by
  refine ⟨.vmand 1 2 3 0, vec 2 4 1 base, 1, 2, 3, 0, _, ?_, ?_, rfl⟩ <;>
    decide +kernel

theorem witness_MaskResults_2 :
    ∃ s : State, ∃ rd : Reg, ∃ ma : Reg3, ∃ mask : Reg3, Room s ∧ Typed s := by
  refine ⟨vec 2 4 1 base, 4, 1, 0, ?_, ?_⟩ <;>
    decide +kernel

theorem witness_WideningConversionReductionResults :
    ∃ i : Instr, ∃ s : State, ∃ x : TileForm, Room s ∧ Typed s ∧ tileFormOf (regs s) i = some x ∧ x.legal = true ∧
    Fits s x.writes x.sources ∧ Quiet s x.flags := by
  refine ⟨.vred 0 false false 4 5 0 0, vec 2 4 1 base, _, ?_, ?_, rfl, ?_⟩ <;>
    decide +kernel

theorem witness_FunctionResults :
    ∃ i : Instr, ∃ s : State, ∃ x : FunForm, Room s ∧ Typed s ∧ (funOf (regs s) i = some x) ∧ x.legal = true ∧ (Fits
    s (funWrites (regs s) x) (x.reads.map fun r => (regs s).phys r.toNat)) ∧ (Quiet s (funFlags (regs s) x)) := by
  refine ⟨.fmul 4 5 6 0, functions, _, ?_, ?_, rfl, ?_⟩ <;>
    decide +kernel

theorem witness_VtypeRejectedTraps :
    ∃ i : Instr, ∃ s : State, Drained s ∧ Handled s ∧ 2 ^ 63 ≤ (regs s).vtype.toNat ∧ ((laneOf (regs s) i).isSome =
    true ∨ (moveOf (regs s) i).isSome = true ∨ (compareOf (regs s) i).isSome = true ∨ (maskOpOf i).isSome = true ∨
    (funOf (regs s) i).isSome = true ∨ ∃ rd ra, i = .setvl rd ra) := by
  refine ⟨.setvl 4 6, handled base, ?_, ?_, ?_, .inr (.inr (.inr (.inr (.inr ⟨4, 6, rfl⟩))))⟩ <;>
    decide +kernel

theorem witness_StorageTraps :
    ∃ i : Instr, ∃ s : State, ∃ l : Lane, Drained s ∧ Handled s ∧ Typed s ∧ laneOf (regs s) i = some l ∧ l.legal =
    true ∧ (¬ Fits s (laneWrites (regs s) l) (laneSources (regs s) l)) := by
  refine ⟨.vadd 20 5 6 0 0 false, handled full, _, ?_, ?_, ?_, rfl, ?_, ?_⟩ <;>
    decide +kernel

theorem witness_EnabledConditionsTrap :
    ∃ i : Instr, ∃ s : State, ∃ l : Lane, Drained s ∧ Handled s ∧ Typed s ∧ laneOf (regs s) i = some l ∧ l.legal =
    true ∧ Fits s (laneWrites (regs s) l) (laneSources (regs s) l) ∧ (
      let flags := allFlags (laneResults (regs s) l)
      let on := (regs s).atc.toNat % 128
      let bit := if flags &&& on &&& 0x20 ≠ 0 then 0x20 else if flags &&& on &&& 0x40 ≠ 0 then 0x40 else on &&& 31
      let ks := (List.range (laneResults (regs s) l).length).filter fun k => ((laneResults (regs s) l).getD k (0,
          0)).2 &&& bit != 0
      (¬ Quiet s flags)) := by
  refine ⟨.vdiv 4 5 6 0 0, withRegs (handled (vec 2 4 1 base)) fun g => { g with atc := 0x20 }, _, ?_, ?_, ?_, rfl, ?_,
    ?_, ?_⟩ <;>
    decide +kernel

theorem witness_VectorLoadsFromScratchpad :
    ∃ i : Instr, ∃ s : State, ∃ x : MemForm, ∃ mask : Reg3, Room s ∧ Whole s ∧ Typed s ∧ (me s).retry = false ∧
    vloadOf (regs s) i = some (x, mask) ∧ x.legal = true ∧ Aligned x.accs ∧ InPad s x.accs ∧ Fits s (planeTiles
    (regs s) x (planeValues (regs s) x)) x.sources := by
  refine ⟨.vld 4 5 0 0, vec 2 4 1 (withS base [(5, window + 0x1FFFF0)]), _, 0, ?_, ?_, ?_, ?_, rfl, ?_⟩ <;>
    decide +kernel

theorem witness_VectorStoresToScratchpad :
    ∃ i : Instr, ∃ s : State, ∃ x : MemForm, Drained s ∧ Whole s ∧ Canonical s ∧ Typed s ∧ vstoreOf (regs s) i =
    some x ∧ x.legal = true ∧ Aligned x.accs ∧ InPad s x.accs := by
  refine ⟨.vst 4 5 0 0, vec 2 4 1 (withS base [(5, window + 0x1FFFF0)]), _, ?_, ?_, canonical_of _ ?_, ?_, rfl, ?_⟩ <;>
    decide +kernel

theorem witness_SegmentStores :
    ∃ s : State, ∃ fd : Reg, ∃ ra : Reg, ∃ fb : Reg, ∃ disp : Word, Drained s ∧ Typed s ∧ (gFmt (regs s) = 0 ∨ gFmt
    (regs s) = 4 ∨ gFmt (regs s) = 5 ∨ gFmt (regs s) = 0xA) ∧ aligned (gGroup (regs s)) [fd] = true ∧ (
      let wide4 := gFmt (regs s) == 0xA
      let base := (regs s).getS ra + disp
      let n := ceilDiv (swept s) (if wide4 then 124 else 62)
      let va := fun k : Nat => (base + BitVec.ofNat 64 (64 * k)).toNat
      base.toNat % 64 = 0 ∧ s.curSpeculative = false ∧ (∀ k < n, ∃ e, placeOf s (va k) needW = some (e.place (va k),
        some e) ∧ e.sd = true ∧ e.wcls = wide4)) := by
  refine ⟨segmentPage, 4, 5, 6, 0, ?_, ?_, ?_, ?_, ?_, ?_,
    fun k h => by
    obtain rfl : k = 0 := Nat.lt_one_iff.mp (Nat.lt_of_lt_of_le h (by decide +kernel))
    refine ⟨segmentEntry, ?_⟩
    decide +kernel⟩ <;>
    decide +kernel

theorem witness_ReducingStoresToScratchpad :
    ∃ s : State, ∃ fd : Reg, ∃ ra : Reg, ∃ rb : Reg, ∃ mask : Reg3, ∃ disp : Word, Drained s ∧ InOrder s ∧ Whole s ∧
    Canonical s ∧ Typed s ∧ (gFmt (regs s) = 2 ∨ gFmt (regs s) = 3 ∨ isF (gFmt (regs s)) = true) ∧ (isF (gFmt (regs
    s)) = true ∨ rb = 0) ∧ aligned (gGroup (regs s)) [fd] = true ∧ (
      let accs := unitAccs (regs s) ((regs s).getS ra + disp) (activeBelow (regs s) mask (swept s))
      let vals := ((regs s).capture mask).tile fd.toNat
      Aligned accs ∧ InPad s accs) := by
  refine ⟨vec 8 4 1 (withS base [(5, window + 0x1FFFF0)]), 4, 5, 6, 0, 0, ?_, ?_, ?_, canonical_of _ ?_, ?_, ?_, ?_,
    ?_, ?_, ?_⟩ <;>
    decide +kernel

theorem witness_VectorAtomicsInScratchpad :
    ∃ s : State, ∃ op : BitVec 4, ∃ fd : Reg, ∃ ra : Reg, ∃ fb : Reg, ∃ mask : Reg3, ∃ disp : Word, Drained s ∧
    InOrder s ∧ Whole s ∧ Canonical s ∧ Typed s ∧ (gFmt (regs s) = 2 ∨ gFmt (regs s) = 3) ∧ aligned (gGroup (regs
    s)) [fd] = true ∧ (fb = 0 ∨ indexLegal (regs s) fd fb = true) ∧ (
      let base := (regs s).getS ra + disp
      let ks := activeBelow (regs s) mask (swept s)
      let accs := if fb = 0 then unitAccs (regs s) base ks else indexAccs (regs s) base fb ks
      let x : MemForm := ⟨true, fd, 1, accs, []⟩
      let vals := planeValues (regs s) x
      let r := updates (s.core (s.cur / 8)).pad accs fun a old => (amoValue op.toNat (BitVec.ofNat (gWidth (regs s))
          old) (BitVec.ofNat _ (vals.getD a.k 0))).toNat
      Aligned accs ∧ InPad s accs ∧ (Fits s (planeTiles (regs s) x vals) (groupAt (regs s) fd (gGroup (regs s)) ++ (if
        fb = 0 then [] else groupAt (regs s) fb (indexGroup (regs s)))))) := by
  refine ⟨vec 2 4 1 (withS base [(5, window + 0x1FFFF0)]), 8, 4, 5, 0, 0, 0, ?_, ?_, ?_, canonical_of _ ?_, ?_, ?_, ?_,
    ?_, ?_⟩ <;>
    decide +kernel

theorem witness_FaultMaskMoves_1 :
    ∃ s : State, ∃ md : Reg3, Room s := by
  refine ⟨base, 1, ?_⟩ <;>
    decide +kernel

theorem witness_FaultMaskMoves_2 :
    ∃ s : State, ∃ md : Reg3, Room s := by
  refine ⟨base, 1, ?_⟩ <;>
    decide +kernel

theorem witness_PaletteLoadsFromScratchpad :
    ∃ i : Instr, ∃ s : State, ∃ p : Reg, ∃ form : LoadForm, ∃ rows : Nat, ∃ rowAddr : Nat → Nat, Drained s ∧ Typed s
    ∧ mloadOf (regs s) i = some (p, form, rows, rowAddr) ∧ (slotOf s p).owner = some s.cur ∧ mloadLegal (regs s)
    rows = true ∧ InPad s (mloadAccs (regs s) rows rowAddr) := by
  refine ⟨.mload 31 5 0, palette 0 4 1, 31, .plain, 1, _, ?_, ?_, rfl, ?_⟩ <;>
    decide +kernel

theorem witness_SparseRowsLoad_2 :
    ∃ s : State, ∃ pd : Reg, ∃ ra : Reg, ∃ disp : Word, Drained s ∧ Typed s ∧ (slotOf s pd).owner = some s.cur ∧
    slotFormat (gFmt (regs s)) = true ∧ gFmt (regs s) ≠ 0xA ∧ (
      let hdr := ((regs s).getS ra + disp).toNat
      let cols := (regs s).dlen[0].toNat
      let rows := (regs s).dlen[1].toNat
      let eb := gWidth (regs s) / 8
      rows * cols * gWidth (regs s) / 8 ≤ 32768 ∧ hdr % 8 = 0 ∧ 0 < rows ∧ 0 < cols ∧ CsrInPad s hdr rows cols eb ∧
        padValue s (arrayAt hdr 8 3) 8 = 0 ∧ (
      let flags := if (List.range rows).any (csrBad s hdr cols) then 1 else 0
      Quiet s flags)) := by
  refine ⟨sparse, 31, 5, 0, ?_, ?_, ?_, ?_, ?_, ?_, ?_, ?_, ?_, ⟨?_, ?_, ?_, ?_, ?_⟩, ?_, ?_⟩ <;>
    decide +kernel

theorem witness_PaletteStoresToScratchpad :
    ∃ s : State, ∃ fd : Reg, ∃ ra : Reg, ∃ disp : Word, Drained s ∧ Canonical s ∧ Typed s ∧ gFmt (regs s) ≠ 0xA ∧
    (regs s).dlen[1].toNat * (regs s).dlen[0].toNat = swept s ∧ aligned (gGroup (regs s)) [fd] = true ∧ (
      let cols := (regs s).dlen[0].toNat
      let eb := gWidth (regs s) / 8
      let vals := ((regs s).capture 0).tile fd.toNat
      let accs := (List.range vals.length).map fun k => (⟨k, ((regs s).getS ra + disp + BitVec.ofNat 64 (k / cols) *
          (regs s).dstep[1] + BitVec.ofNat 64 (k % cols * eb)).toNat, eb⟩ : Acc)
      vals.length = swept s ∧ InPad s accs) := by
  refine ⟨palette 0 4 1, 4, 5, 0, ?_, canonical_of _ ?_, ?_, ?_, ?_, ?_, ?_, ?_⟩ <;>
    decide +kernel

theorem witness_MatrixProducts :
    ∃ s : State, ∃ fd : Reg, ∃ pa : Reg, ∃ pb : Reg, ∃ mask : Reg3, ∃ a : Matrix, ∃ b : Matrix, ∃ pr : Pairing, Room
    s ∧ Typed s ∧ (∀ e ∈ (me s).queue, e.claiming s.cur (s.core (s.cur / 8)) = false) ∧ (slotOf s pa).owner = some
    s.cur ∧ (slotOf s pa).content = some a ∧ (slotOf s pb).owner = some s.cur ∧ (slotOf s pb).content = some b ∧
    b.rows = a.cols ∧ swept s = a.rows * b.cols ∧ slotPairing a b (gFmt (regs s)) = some pr ∧ aligned (gGroup (regs
    s)) [fd] = true ∧ (
      let rs := mmaResults (regs s) fd mask a b pr
      let ws := if swept s = 0 then [] else (regs s).groupWrites fd.toNat (gGroup (regs s)) (gFmt (regs s)) (rowsOf
          (regs s).vl.toNat (regs s).rc.toNat (rs.map (·.1))) (regs s).vl.toNat
      Fits s ws (groupAt (regs s) fd (gGroup (regs s))) ∧ Quiet s (allFlags rs)) := by
  refine ⟨products, 4, 30, 31, 0, _, _, _, ?_, ?_, ?_, ?_, rfl, ?_, rfl, ?_, ?_, rfl, ?_, ?_, ?_⟩ <;>
    decide +kernel

theorem witness_ShapesAreSet_1 :
    ∃ s : State, ∃ rd : Reg, ∃ ra : Reg, Room s ∧ (
      let t := (regs s).getS ra
      let d := (regs s).phys rd.toNat
      let x := (regs s).getF rd.toNat
      let y : Tile := ⟨t, (List.range (tagRows t)).map fun j => BitVec.ofNat 16384 (x.row j % 2 ^ (8 * rowBytes t))⟩
      t = 0) := by
  refine ⟨base, 4, 0, ?_, ?_⟩ <;>
    decide +kernel

theorem witness_ShapesAreSet_2 :
    ∃ s : State, ∃ rd : Reg, ∃ ra : Reg, Room s ∧ (
      let t := (regs s).getS ra
      let d := (regs s).phys rd.toNat
      let x := (regs s).getF rd.toNat
      let y : Tile := ⟨t, (List.range (tagRows t)).map fun j => BitVec.ofNat 16384 (x.row j % 2 ^ (8 * rowBytes t))⟩
      t ≠ 0 ∧ tagFits t = true ∧ Fits s [(d, y)] [d]) := by
  refine ⟨withS base [(5, plainTag 0 16 2048)], 4, 5, ?_, ?_⟩ <;>
    decide +kernel

theorem witness_ShapesAreSet_3 :
    ∃ s : State, ∃ rd : Reg, ∃ ra : Reg, Room s ∧ (
      let t := (regs s).getS ra
      let d := (regs s).phys rd.toNat
      let x := (regs s).getF rd.toNat
      let y : Tile := ⟨t, (List.range (tagRows t)).map fun j => BitVec.ofNat 16384 (x.row j % 2 ^ (8 * rowBytes t))⟩
      t ≠ 0 ∧ tagReserved t = true ∧ (me s).queue = [] ∧ Handled s) := by
  refine ⟨withS (handled base) [(5, 0x20)], 4, 5, ?_, ?_⟩ <;>
    decide +kernel

theorem witness_TagResults :
    ∃ i : Instr, ∃ s : State, ∃ ok : Prop, ∃ rd : Reg, ∃ v : Word, ∃ tags : Table Word, ∃ recency : List Nat,
    Drained s ∧ tagOf s i = some (ok, rd, v, tags, recency) ∧ ok := by
  refine ⟨.tins 4 0 6, base, _, 4, _, _, _, ?_, rfl, ?_⟩ <;>
    decide +kernel

theorem witness_StreamPops :
    ∃ s : State, ∃ fd : Reg, ∃ qa : Reg3, ∃ x : Stream, Room s ∧ Typed s ∧ (regs s).getQ qa = some x ∧ PlainStream
    (regs s) x false ∧ aligned (gGroup (regs s)) [fd] = true ∧ Aligned (streamAccs x (swept s)) ∧ InPad s
    (streamAccs x (swept s)) ∧ (
      let f : MemForm := ⟨true, fd, 1, [], []⟩
      let ws := planeTiles (regs s) f (poppedValues s x)
      Fits s ws []) := by
  refine ⟨streams, 4, 1, _, ?_, ?_, rfl, ?_, ?_, ?_, ?_, ?_⟩ <;>
    decide +kernel

theorem witness_StreamPushes :
    ∃ s : State, ∃ fa : Reg, ∃ qd : Reg3, ∃ x : Stream, Drained s ∧ Canonical s ∧ Typed s ∧ (regs s).getQ qd = some
    x ∧ PlainStream (regs s) x true ∧ aligned (gGroup (regs s)) [fa] = true ∧ (
      let vals := ((regs s).capture 0).tile fa.toNat
      vals.length = swept s ∧ Aligned (streamAccs x (swept s)) ∧ InPad s (streamAccs x (swept s))) := by
  refine ⟨streams, 4, 2, _, ?_, canonical_of _ ?_, ?_, rfl, ?_, ?_, ?_⟩ <;>
    decide +kernel

theorem witness_StreamBinding_1 :
    ∃ s : State, ∃ qd : Reg3, ∃ ra : Reg, Drained s ∧ QuietRelease (regs s) qd ∧ ((regs s).getS ra).toNat % 64 = 0 ∧
    InWindow ((regs s).getS ra).toNat 288 ∧ (myCore s).padPoison = [] ∧ (boundTable s ((regs s).getS
    ra).toNat).tableOk = true ∧ (boundTable s ((regs s).getS ra).toNat).packed = false := by
  refine ⟨patternTable, 1, 5, ?_, (fun _ h => nomatch h), ?_⟩ <;>
    decide +kernel

theorem witness_StreamBinding_2 :
    ∃ s : State, ∃ qd : Reg3, Drained s ∧ QuietRelease (regs s) qd := by
  refine ⟨base, 1, ?_, (fun _ h => nomatch h)⟩ <;>
    decide +kernel

theorem witness_CopiesAreQueued_1 :
    ∃ s : State, ∃ rd : Reg, ∃ ra : Reg, ∃ rb : Reg, ∃ rc : Reg, ∃ ch : BitVec 2, Drained s ∧ (
      let dst := (regs s).getS ra
      let src := (regs s).getS rb
      let n := ((regs s).getS rc).toNat
      n < 2 ^ 32 ∧ n = 0) := by
  refine ⟨base, 4, 5, 7, 0, 3, ?_, ?_, ?_⟩ <;>
    decide +kernel

theorem witness_CopiesAreQueued_2 :
    ∃ s : State, ∃ rd : Reg, ∃ ra : Reg, ∃ rb : Reg, ∃ rc : Reg, ∃ ch : BitVec 2, Drained s ∧ (
      let dst := (regs s).getS ra
      let src := (regs s).getS rb
      let n := ((regs s).getS rc).toNat
      n < 2 ^ 32 ∧ 0 < n ∧ InWindow src.toNat n ∧ InWindow dst.toNat n ∧ (me s).sb = [] ∧ (channelOfCore s
        ch).queue.length < 16) := by
  refine ⟨withS base [(5, window), (7, window + 0x1FFF00), (8, 256)], 4, 5, 7, 8, 3, ?_, ?_⟩ <;>
    decide +kernel

theorem witness_ExpandingCopiesAreQueued_2 :
    ∃ s : State, ∃ rd : Reg, ∃ ra : Reg, ∃ rb : Reg, ∃ rc : Reg, ∃ ch : BitVec 2, ∃ offset : Word, Drained s ∧ (
      let dst := (regs s).getS ra
      let hdr := ((regs s).getS rb).toNat
      let n := ((regs s).getS rc).toNat
      let b0 := offset.toNat / 4096
      let known := min (n / 4096) (padValue s (hdr + 8) 8 - min b0 (padValue s (hdr + 8) 8))
      let words := (List.range 8).map fun i => padValue s (hdr + 8 * i) 8
      n < 2 ^ 32 ∧ n % 4096 = 0 ∧ offset.toNat % 4096 = 0 ∧ hdr % 64 = 0 ∧ (myCore s).padPoison = [] ∧ InWindow hdr 64
        ∧ headerOk words = true ∧ bits (words.getD 0 0) 9 8 ≠ 0 ∧ 0 < n ∧ (0 < known → InWindow (hdr + 64 + 4 * b0) (4 *
        known)) ∧ InWindow dst.toNat n ∧ (∀ b ∈ packedBlocks s hdr b0 known, InWindow b.addr (storedSize b)) ∧ (me s).sb
        = [] ∧ (channelOfCore s ch).queue.length < 16) := by
  refine ⟨compressed, 4, 5, 7, 8, 3, 4096, ?_, ?_⟩ <;>
    decide +kernel

theorem witness_CopyWaits_1 :
    ∃ s : State, ∃ rd : Reg, ∃ ra : Reg, ∃ ch : BitVec 2, Drained s ∧ (
      let pos := ((myCore s).channel ch.toNat).pos
      0 ≤ (pos - (regs s).getS ra).toInt) := by
  refine ⟨base, 4, 0, 3, ?_, ?_⟩ <;>
    decide +kernel

theorem witness_CopyWaits_2 :
    ∃ s : State, ∃ rd : Reg, ∃ ra : Reg, ∃ ch : BitVec 2, Drained s ∧ (
      let pos := ((myCore s).channel ch.toNat).pos
      (pos - (regs s).getS ra).toInt < 0) := by
  refine ⟨base, 4, 6, 3, ?_, ?_⟩ <;>
    decide +kernel

theorem witness_CopyChannelsDeliver_1 :
    ∃ s : State, ∃ core : Nat, ∃ ch : Nat, ∃ count : Nat, ∃ x : Transfer, core < 192 ∧ ch < 4 ∧ s.transfer core ch =
    some x ∧ x.sent = none ∧ x.packed = none ∧ x.pages = [] ∧ x.charges = [] ∧ Memory.wf (s.core core).pad = true ∧
    (s.core core).padPoison = [] ∧ 0 < count ∧ x.delivered + count ≤ x.len ∧ (
      let d := (x.dst + x.delivered) % 2 ^ 64
      let a := (x.src + x.delivered) % 2 ^ 64
      d % 64 + count ≤ 64 ∧ a % 64 + count ≤ 64) := by
  refine ⟨transferring, 0, 3, 64, _, ?_, ?_, rfl, ?_, ?_, ?_, ?_, ?_, ?_, ?_, ?_, ?_, ?_⟩ <;>
    decide +kernel

theorem witness_CopyChannelsDeliver_2 :
    ∃ s : State, ∃ core : Nat, ∃ ch : Nat, ∃ m : Word, core < 192 ∧ ch < 4 ∧ ((s.core core).channel ch).mark = some
    m ∧ ((s.core core).channel ch).queue = [] := by
  refine ⟨withCore base fun c => { c with channels := c.channels.map fun x => { x with mark := some 7 } }, 0, 3, 7, ?_⟩ <;>
    decide +kernel

theorem witness_EngineSubmission_1 :
    ∃ s : State, ∃ md : Reg3, ∃ fa : Reg, ∃ mask : Reg3, ∃ p : Nat, ∃ x : Partition, Drained s ∧ Typed s ∧ Certain s
    ∧ gFmt (regs s) = 3 ∧ swept s = 8 ∧ aligned (gGroup (regs s)) [fa] = true ∧ ((regs s).getM mask).getLsbD 0 =
    true ∧ ((commandWords (regs s) fa mask).w).length = 8 ∧ (me s).part = p ∧ s.part p = some x ∧ (
      let c := commandWords (regs s) fa mask
      let old := (regs s).getM md
      c.ok = false) := by
  refine ⟨submitting 0 0 base, 1, 4, 0, 0, testPart, ?_, ?_, ?_, ?_, ?_, ?_, ?_, ?_, ?_, ?_, ?_⟩ <;>
    decide +kernel

theorem witness_EngineSubmission_2 :
    ∃ s : State, ∃ md : Reg3, ∃ fa : Reg, ∃ mask : Reg3, ∃ p : Nat, ∃ x : Partition, Drained s ∧ Typed s ∧ Certain s
    ∧ gFmt (regs s) = 3 ∧ swept s = 8 ∧ aligned (gGroup (regs s)) [fa] = true ∧ ((regs s).getM mask).getLsbD 0 =
    true ∧ ((commandWords (regs s) fa mask).w).length = 8 ∧ (me s).part = p ∧ s.part p = some x ∧ (
      let c := commandWords (regs s) fa mask
      let old := (regs s).getM md
      c.ok = true ∧ c.op ≠ 3 ∧ x.bufferOf c.handle = none) := by
  refine ⟨submitting (2 ^ 56 + 64) 0 base, 1, 4, 0, 0, testPart, ?_, ?_, ?_, ?_, ?_, ?_, ?_, ?_, ?_, ?_, ?_⟩ <;>
    decide +kernel

theorem witness_EngineSubmission_3 :
    ∃ s : State, ∃ md : Reg3, ∃ fa : Reg, ∃ mask : Reg3, ∃ p : Nat, ∃ x : Partition, Drained s ∧ Typed s ∧ Certain s
    ∧ gFmt (regs s) = 3 ∧ swept s = 8 ∧ aligned (gGroup (regs s)) [fa] = true ∧ ((regs s).getM mask).getLsbD 0 =
    true ∧ ((commandWords (regs s) fa mask).w).length = 8 ∧ (me s).part = p ∧ s.part p = some x ∧ (
      let c := commandWords (regs s) fa mask
      let old := (regs s).getM md
      c.ok = true ∧ c.op = 1 ∧ (∃ b, x.bufferOf c.handle = some b) ∧ (s.rights p .memory .engine).getLsbD 1 = true ∧
        s.rangeDenied p c.src c.len = false ∧ (∀ a ∈ rangePages c.src c.len, (s.walk p a).2 = []) ∧ s.curRank.requests =
        []) := by
  refine ⟨submitting (2 ^ 56 + 64) 0x30001 buffered, 1, 4, 0, 0, bufferedPart, ?_, ?_, ?_, ?_, ?_, ?_, ?_, ?_, ?_, ?_,
    ?_, ?_, ⟨(3, buffer), ?_⟩, ?_⟩ <;>
    decide +kernel

theorem witness_ObjectOperations_1 :
    ∃ s : State, ∃ ra : Reg, ∃ key : Nat, Drained s ∧ Canonical s ∧ ObjectAt s ((regs s).getS ra) 64 key ∧ s.syncOk
    key = true ∧ s.objectLost key = false ∧ s.homeWord key = s.holder := by
  refine ⟨withMem object 1024 (leBytes 8 holder0.toNat), 5, 1024, ?_, canonical_of _ ?_,
    ⟨?_, ⟨_, rfl⟩, ?_, ?_, ?_, ?_, ?_, ?_, ?_⟩, ?_⟩ <;>
    decide +kernel

theorem witness_ObjectOperations_2 :
    ∃ s : State, ∃ ra : Reg, ∃ key : Nat, Drained s ∧ Canonical s ∧ ObjectAt s ((regs s).getS ra) 64 key ∧ s.syncOk
    key = true ∧ s.objectLost key = false ∧ s.homeWord key ≠ s.holder ∧ (s.homeWord key).getLsbD 63 = false ∧ (∀ x ∈
    s.acqs, x.1 ≠ key) := by
  refine ⟨object, 5, 1024, ?_, canonical_of _ ?_, ⟨?_, ⟨_, rfl⟩, ?_, ?_, ?_, ?_, ?_, ?_, ?_⟩, ?_⟩ <;>
    decide +kernel

theorem witness_ObjectOperations_3 :
    ∃ s : State, ∃ ra : Reg, ∃ key : Nat, Drained s ∧ Canonical s ∧ ObjectAt s ((regs s).getS ra) 64 key ∧ s.syncOk
    key = true ∧ s.objectLost key = false ∧ s.homeWord key ≠ s.holder ∧ (s.homeWord key).getLsbD 63 = true ∧ (∀ x ∈
    s.acqs, x.1 ≠ key) := by
  refine ⟨withMem object 1024 (leBytes 8 0x8000000000020001), 5, 1024, ?_, canonical_of _ ?_,
    ⟨?_, ⟨_, rfl⟩, ?_, ?_, ?_, ?_, ?_, ?_, ?_⟩, ?_⟩ <;>
    decide +kernel

theorem witness_ObjectOperations_4 :
    ∃ s : State, ∃ ra : Reg, ∃ key : Nat, Drained s ∧ Canonical s ∧ ObjectAt s ((regs s).getS ra) 64 key ∧ s.syncOk
    key = true ∧ (∀ x ∈ (me s).sb, x.tags.contains ((regs s).getS ra).toNat = false) ∧ s.taggedOut ((regs s).getS
    ra).toNat = false := by
  refine ⟨withMem object 1024 (leBytes 8 holder0.toNat), 5, 1024, ?_, canonical_of _ ?_,
    ⟨?_, ⟨_, rfl⟩, ?_, ?_, ?_, ?_, ?_, ?_, ?_⟩, ?_⟩ <;>
    decide +kernel

theorem witness_ObjectOperations_5 :
    ∃ s : State, ∃ ra : Reg, ∃ rb : Reg, ∃ key : Nat, ∃ i : Nat, Drained s ∧ Canonical s ∧ ObjectAt s ((regs s).getS
    ra) 64 key ∧ s.syncOk key = true ∧ ((regs s).getS rb).getLsbD 63 = true ∧ bits ((regs s).getS rb).toNat 62 57 =
    0 ∧ (∀ va ∈ regionPages ((regs s).getS rb), inWindow va = false ∧ va < 2 ^ 57) ∧ i < 4 ∧ (s.homeWord (key + 24 +
    8 * i)).getLsbD 63 = false ∧ (∀ j < i, (s.homeWord (key + 24 + 8 * j)).getLsbD 63 = true) := by
  refine ⟨withS (withMem object 1048 (leBytes 8 0x8000000000000000 ++ leBytes 8 0x8000000000000000 ++ leBytes 8 0x8000000000000000)) [(7, 0x8000000000000000)],
    5, 7, 1024, 3, ?_, canonical_of _ ?_, ⟨?_, ⟨_, rfl⟩, ?_, ?_, ?_, ?_, ?_, ?_, ?_⟩, ?_⟩ <;>
    decide +kernel

theorem witness_WaitingAcquisitionsAreGranted :
    ∃ s : State, ∃ key : Nat, ∃ h : Nat, ∃ va : Nat, ∃ rest : List (Nat × Waiter), Canonical s ∧ s.acqs = (key,
    .hart h va) :: rest ∧ s.syncOk key = true ∧ s.objectLost key = false ∧ (s.homeWord key).getLsbD 63 = false ∧
    s.migrations = [] ∧ s.homeWord key ≠ ({ s with cur := h } : State).holder ∧ (s.hart h).fresh = false ∧ (s.hart
    h).partway = none := by
  refine ⟨{ object with acqs := [(1024, .hart 0 1024)] }, 1024, 0, 1024, [], canonical_of _ ?_, ?_⟩ <;>
    decide +kernel

theorem witness_BarrierArrivals_1 :
    ∃ s : State, ∃ ra : Reg, ∃ rb : Reg, ∃ key : Nat, ∃ k : Nat, ∃ count : Nat, Drained s ∧ Canonical s ∧ ((regs
    s).getS rb).toNat < 16 ∧ MayArrive s ((regs s).getS ra) key ((regs s).getS rb).toNat k count := by
  refine ⟨object, 5, 0, 1024, 1, 1, ?_, canonical_of _ ?_, ?_,
    ⟨⟨?_, ⟨_, rfl⟩, ?_, ?_, ?_, ?_, ?_, ?_, ?_⟩, ?_, ?_, ?_, ?_, .inl ?_, ?_, ?_, ?_⟩⟩ <;>
    decide +kernel

theorem witness_BarrierArrivals_2 :
    ∃ s : State, ∃ ra : Reg, ∃ key : Nat, ∃ k : Nat, ∃ count : Nat, Drained s ∧ Canonical s ∧ MayArrive s ((regs
    s).getS ra) key 0 k count ∧ (
      let r := arrivedWords s key (regs s).groupid 0 count (marked s ((regs s).getS ra) (barPhase (s.homeWord (key +
          8))))
      r.1 = true) := by
  refine ⟨object, 5, 1024, 1, 1, ?_, canonical_of _ ?_,
    ⟨⟨?_, ⟨_, rfl⟩, ?_, ?_, ?_, ?_, ?_, ?_, ?_⟩, ?_, ?_, ?_, ?_, .inl ?_, ?_, ?_, ?_⟩, ?_⟩ <;>
    decide +kernel

theorem witness_BarrierArrivals_3 :
    ∃ s : State, ∃ ra : Reg, ∃ key : Nat, ∃ k : Nat, ∃ count : Nat, Drained s ∧ Canonical s ∧ MayArrive s ((regs
    s).getS ra) key 0 k count ∧ (
      let r := arrivedWords s key (regs s).groupid 0 count (marked s ((regs s).getS ra) (barPhase (s.homeWord (key +
          8))))
      r.1 = false) := by
  refine ⟨withNode object 1 { testNode with gcount := 2 }, 5, 1024, 1, 2, ?_, canonical_of _ ?_,
    ⟨⟨?_, ⟨_, rfl⟩, ?_, ?_, ?_, ?_, ?_, ?_, ?_⟩, ?_, ?_, ?_, ?_, .inl ?_, ?_, ?_, ?_⟩, ?_⟩ <;>
    decide +kernel

theorem witness_GroupsAndCounters_1 :
    ∃ s : State, ∃ rd : Reg, ∃ ra : Reg, ∃ key : Nat, Drained s ∧ Canonical s ∧ ObjectAt s ((regs s).getS ra) 64 key
    ∧ (regs s).groupid ≠ 0 := by
  refine ⟨object, 4, 5, 1024, ?_, canonical_of _ ?_, ⟨?_, ⟨_, rfl⟩, ?_, ?_, ?_, ?_, ?_, ?_, ?_⟩, ?_⟩ <;>
    decide +kernel

theorem witness_GroupsAndCounters_2 :
    ∃ s : State, ∃ rd : Reg, ∃ ra : Reg, ∃ key : Nat, Drained s ∧ Canonical s ∧ ObjectAt s ((regs s).getS ra) 64 key
    ∧ (regs s).groupid = 0 ∧ s.groupOk key = false := by
  refine ⟨withMem (withRegs object fun g => { g with groupid := 0 }) 1040 [1], 4, 5, 1024, ?_, canonical_of _ ?_,
    ⟨?_, ⟨_, rfl⟩, ?_, ?_, ?_, ?_, ?_, ?_, ?_⟩, ?_, ?_⟩ <;>
    decide +kernel

theorem witness_GroupsAndCounters_3 :
    ∃ s : State, ∃ rd : Reg, ∃ ra : Reg, ∃ key : Nat, Drained s ∧ Canonical s ∧ ObjectAt s ((regs s).getS ra) 64 key
    ∧ (regs s).groupid = 0 ∧ s.groupOk key = true := by
  refine ⟨withRegs object fun g => { g with groupid := 0 }, 4, 5, 1024, ?_, canonical_of _ ?_,
    ⟨?_, ⟨_, rfl⟩, ?_, ?_, ?_, ?_, ?_, ?_, ?_⟩, ?_, ?_⟩ <;>
    decide +kernel

theorem witness_GroupsAndCounters_4 :
    ∃ s : State, ∃ rd : Reg, Drained s ∧ Certain s ∧ (regs s).groupid = 0 := by
  refine ⟨withRegs object fun g => { g with groupid := 0 }, 4, ?_⟩ <;>
    decide +kernel

theorem witness_GroupsAndCounters_5 :
    ∃ s : State, ∃ rd : Reg, ∃ p : Nat, ∃ k : Nat, ∃ n : Node, Drained s ∧ Certain s ∧ (regs s).groupid ≠ 0 ∧ (me
    s).part = p ∧ s.privateGroup p (regs s).groupid = some k ∧ s.node p k = some n ∧ s.barriers = [] := by
  refine ⟨base, 4, 0, 1, _, ?_, ?_, ?_, ?_, ?_, rfl, ?_⟩ <;>
    decide +kernel

theorem witness_GroupsAndCounters_6 :
    ∃ s : State, ∃ rd : Reg, ∃ ra : Reg, ∃ rb : Reg, ∃ key : Nat, Drained s ∧ Canonical s ∧ Typed s ∧ ObjectAt s
    ((regs s).getS ra) 16 key := by
  refine ⟨vec 2 4 1 (withMem object 1024 (leBytes 8 1 ++ leBytes 8 2)), 4, 5, 6, 1024, ?_, canonical_of _ ?_, ?_,
    ⟨?_, ⟨_, rfl⟩, ?_, ?_, ?_, ?_, ?_, ?_, ?_⟩⟩ <;>
    decide +kernel

theorem witness_PublishExchanges_1 :
    ∃ s : State, ∃ rd : Reg, ∃ ra : Reg, ∃ p : Nat, ∃ slot : Nat, ∃ x : Partition, ∃ b : Buffer, Drained s ∧
    Canonical s ∧ Certain s ∧ (me s).blocked = none ∧ ((regs s).getS ra).toNat < 2 ^ 32 ∧ (me s).part = p ∧ s.part p
    = some x ∧ x.bufferOf ((regs s).getS ra).toNat = some (slot, b) ∧ s.migrations = [] ∧ (∃ c ∈ acceptedFor s p
    slot, c.ended = false) := by
  refine ⟨commanded command, 4, 5, 0, 3, _, _, ?_, canonical_of _ ?_, ?_, ?_, ?_, ?_, rfl, rfl, ?_, ?_⟩ <;>
    decide +kernel

theorem witness_PublishExchanges_2 :
    ∃ s : State, ∃ rd : Reg, ∃ ra : Reg, ∃ p : Nat, ∃ slot : Nat, ∃ x : Partition, ∃ b : Buffer, Drained s ∧
    Canonical s ∧ Certain s ∧ (me s).blocked = none ∧ ((regs s).getS ra).toNat < 2 ^ 32 ∧ (me s).part = p ∧ s.part p
    = some x ∧ x.bufferOf ((regs s).getS ra).toNat = some (slot, b) ∧ s.migrations = [] ∧ (∀ c ∈ acceptedFor s p
    slot, c.ended = true ∧ c.gen = b.gen ∧ c.unresolved = false) := by
  refine ⟨commanded { command with ended := true }, 4, 5, 0, 3, _, _, ?_, canonical_of _ ?_, ?_, ?_, ?_, ?_, rfl, rfl,
    ?_, ?_⟩ <;>
    decide +kernel

theorem witness_PublishExchanges_3 :
    ∃ s : State, ∃ rd : Reg, ∃ ra : Reg, ∃ p : Nat, ∃ slot : Nat, ∃ x : Partition, ∃ b : Buffer, Drained s ∧
    Canonical s ∧ Certain s ∧ (me s).blocked = none ∧ ((regs s).getS ra).toNat < 2 ^ 32 ∧ (me s).part = p ∧ s.part p
    = some x ∧ x.bufferOf ((regs s).getS ra).toNat = some (slot, b) ∧ s.migrations = [] ∧ (∃ c ∈ acceptedFor s p
    slot, c.gen ≠ b.gen) ∧ (∀ c ∈ acceptedFor s p slot, c.ended = true) := by
  refine ⟨commanded { command with ended := true, gen := 0 }, 4, 5, 0, 3, _, _, ?_, canonical_of _ ?_, ?_, ?_, ?_, ?_,
    rfl, rfl, ?_⟩ <;>
    decide +kernel

theorem witness_PublishExchanges_4 :
    ∃ s : State, ∃ rd : Reg, ∃ ra : Reg, ∃ p : Nat, ∃ slot : Nat, ∃ x : Partition, ∃ b : Buffer, Drained s ∧
    Canonical s ∧ Certain s ∧ (me s).blocked = none ∧ ((regs s).getS ra).toNat < 2 ^ 32 ∧ (me s).part = p ∧ s.part p
    = some x ∧ x.bufferOf ((regs s).getS ra).toNat = some (slot, b) ∧ s.migrations = [] ∧ (∃ c ∈ acceptedFor s p
    slot, c.unresolved = true) ∧ (∀ c ∈ acceptedFor s p slot, c.ended = true ∧ c.gen = b.gen) := by
  refine ⟨commanded { command with ended := true, unresolved := true }, 4, 5, 0, 3, _, _, ?_, canonical_of _ ?_, ?_,
    ?_, ?_, ?_, rfl, rfl, ?_⟩ <;>
    decide +kernel

theorem witness_BlockedPublishExchanges :
    ∃ s : State, ∃ h : Nat, ∃ rd : Reg, ∃ ra : Reg, ∃ p : Nat, ∃ slot : Nat, ∃ x : Partition, ∃ b : Buffer,
    Canonical s ∧ (s.hart h).publishing = some (rd, ra) ∧ (s.hart h).fresh = false ∧ (s.hart h).partway = none ∧
    (s.hart h).queue = [] ∧ ((s.hart h).regs.getS ra).toNat < 2 ^ 32 ∧ ({ s with cur := h } : State).curSpeculative
    = false ∧ (s.hart h).part = p ∧ s.part p = some x ∧ x.bufferOf ((s.hart h).regs.getS ra).toNat = some (slot, b)
    ∧ s.migrations = [] ∧ (∀ c ∈ ({ s with cur := h } : State).commandsFor p slot, c.ended = true ∧ c.gen = b.gen ∧
    c.unresolved = false) := by
  refine ⟨withHart (commanded { command with ended := true }) fun h => { h with
      blocked := some .publish, line := some ⟨0, lineBits (wordsLine (encode true (.publish 4 5)))⟩ },
    0, 4, 5, 0, 3, _, _, canonical_of _ ?_, ?_, ?_, ?_, ?_, ?_, ?_, ?_, rfl, rfl, ?_, ?_⟩ <;>
    decide +kernel

theorem witness_DoneEndsTheRank :
    ∃ s : State, ∃ p : Nat, ∃ k : Nat, ∃ r : Nat, ∃ n : Node, Drained s ∧ (me s).node = some (p, k, r) ∧ s.node p k
    = some n ∧ s.curRank.poison = none ∧ (me s).sb = [] ∧ s.undelivered 15 = 0 ∧ (∀ q, (regs s).getQ q = none) ∧
    (regs s).groupid = 0 ∧ s.curRank.requests = [] := by
  refine ⟨withRegs base fun g => { g with groupid := 0 }, 0, 1, 0, _, ?_, ?_, rfl, ?_⟩ <;>
    decide +kernel

theorem witness_NodeReports_1 :
    ∃ s : State, ∃ rd : Reg, ∃ p : Nat, ∃ k : Nat, ∃ r : Nat, ∃ n : Node, Drained s ∧ (me s).node = some (p, k, r) ∧
    s.node p k = some n := by
  refine ⟨withNode base 1 { testNode with cancel := .pending }, 4, 0, 1, 0, _, ?_, ?_, rfl⟩ <;>
    decide +kernel

theorem witness_NodeReports_2 :
    ∃ s : State, ∃ rd : Reg, Drained s ∧ (me s).node = none := by
  refine ⟨withHart base fun h => { h with node := none }, 4, ?_, ?_⟩ <;>
    decide +kernel

theorem witness_NodeReports_3 :
    ∃ s : State, ∃ rd : Reg, ∃ k : BitVec 2, ∃ n : Node, ∃ e : SchedEntry, ∃ tb : Nat, ∃ i : Nat, ∃ run : Nat,
    Drained s ∧ s.curNode = some n ∧ n.issued = some e ∧ n.sched = some (tb, i, run) := by
  refine ⟨withNode base 1 { testNode with issued := some ⟨1, 2, 3⟩, sched := some (0, 0, 0) }, 4, 3, _, _, 0, 0, 0, ?_,
    rfl, rfl, ?_⟩ <;>
    decide +kernel

theorem witness_NodeReports_4 :
    ∃ s : State, ∃ rd : Reg, ∃ k : BitVec 2, ∃ n : Node, Drained s ∧ s.curNode = some n ∧ n.issued = none := by
  refine ⟨base, 4, 3, _, ?_, rfl, ?_⟩ <;>
    decide +kernel

theorem witness_NodeReports_5 :
    ∃ s : State, ∃ ra : Reg, ∃ gradient : Bool, ∃ n : Node, ∃ e : SchedEntry, ∃ tb : Nat, ∃ i : Nat, ∃ run : Nat, ∃
    slot : Nat, Drained s ∧ Certain s ∧ ((regs s).getS ra).toNat < 4096 ∧ s.curNode = some n ∧ n.issued = some e ∧
    n.sched = some (tb, i, run) ∧ (s.sched tb).run = run ∧ (s.sched tb).state = .running ∧ (me s).sb = [] ∧ (s.sched
    tb).slotOf (!gradient) ((regs s).getS ra).toNat = some slot ∧ ((if gradient then bits e.word0.toNat 34 26 else
    bits e.word0.toNat 43 35) = 511 ∨ s.hartEgress = true) := by
  refine ⟨withSched (withNode base 1 { testNode with issued := some ⟨1, 2, 3⟩, sched := some (0, 0, 0) }) fun x => { x with state := .running, actFilled := [(0, 1)] },
    6, false, _, _, 0, 0, 0, 0, ?_, ?_, ?_, rfl, rfl, ?_⟩ <;>
    decide +kernel

theorem witness_HostWindow_1 :
    ∃ s : State, ∃ p : Nat, ∃ addr : Word, ∃ x : Partition, s.part p = some x ∧ x.teardown = .none ∧ x.enable = true
    ∧ addr.toNat % 128 = 0 ∧ (s.rights p .dispatcher .host).getLsbD 3 = true := by
  refine ⟨withPart base fun _ => hostPart, 0, 0xFFFFFFFFFFFFFF80, hostPart, ?_⟩ <;>
    decide +kernel

theorem witness_HostWindow_2 :
    ∃ s : State, ∃ p : Nat, ∃ addr : Word, ∃ x : Partition, s.part p = some x ∧ x.teardown = .none ∧ (x.enable =
    false ∨ addr.toNat % 128 ≠ 0 ∨ (s.rights p .dispatcher .host).getLsbD 3 = false) := by
  refine ⟨withPart base fun _ => hostPart, 0, 1, hostPart, ?_, ?_, .inr (.inl ?_)⟩ <;>
    decide +kernel

theorem witness_HostWindow_3 :
    ∃ s : State, ∃ p : Nat, ∃ key : Nat, ∃ k : Nat, ∃ addr : Word, ∃ rest : List Word, ∃ x : Partition, s.part p =
    some x ∧ x.teardown = .none ∧ x.inserts = addr :: rest ∧ addr.toNat % 128 = 0 ∧ s.devPlace p addr.toNat needR =
    .ok (.home key) ∧ (s.walk p addr.toNat).2 = [] ∧ s.migrations = [] ∧ x.recordStatus (wordsOf 16 (s.homeBytes key
    128)) = 0 ∧ x.freeNode = some k := by
  refine ⟨inserting, 0, 1024, 1, 1024, [], insertPart, ?_, ?_, ?_, ?_, rfl, ?_⟩ <;>
    decide +kernel

theorem witness_HostWindow_4 :
    ∃ s : State, ∃ p : Nat, ∃ v : Word, ∃ x : Partition, s.part p = some x ∧ x.teardown = .none := by
  refine ⟨base, 0, 1, testPart, ?_, ?_⟩ <;>
    decide +kernel

theorem witness_HostWindow_5 :
    ∃ s : State, ∃ p : Nat, ∃ v : Word, ∃ x : Partition, s.part p = some x ∧ x.teardown = .none := by
  refine ⟨base, 0, 1, testPart, ?_, ?_⟩ <;>
    decide +kernel

theorem witness_NodesArePlaced_1 :
    ∃ s : State, ∃ r : Ready, ∃ rest : List Ready, ∃ x : Partition, ∃ c : Nat, NothingDue s ∧ s.readyPool = r ::
    rest ∧ s.part r.part = some x ∧ x.specOk r.slot = true ∧ s.coreFor x r = some c ∧ r.node.saved = none ∧
    r.node.record.group = 0 ∧ r.node.record.harts ≤ (s.freeHarts c).length := by
  refine ⟨placing, ⟨0, 1, readyNode⟩, [], readyPart, 0, ?_⟩ <;>
    decide +kernel

theorem witness_NodesArePlaced_2 :
    ∃ s : State, (∀ e ∈ s.parts, ∀ n ∈ e.2.nodes, n.2.state ≠ .ready) := by
  refine ⟨base, ?_⟩ <;>
    decide +kernel

theorem witness_NodesArePlaced_3 :
    ∃ s : State, ∃ p : Nat, ∃ k : Nat, ∃ x : Partition, ∃ n : Node, s.part p = some x ∧ tget x.nodes k = some n ∧
    n.state = .ready ∧ 4096 ≤ n.passes ∧ n.level < 7 := by
  refine ⟨withNode base 2 { readyNode with passes := 4096 }, 0, 2, _, { readyNode with passes := 4096 }, rfl, ?_⟩ <;>
    decide +kernel

theorem witness_NodesArePlaced_4 :
    ∃ s : State, ∃ p : Nat, ∃ k : Nat, ∃ x : Partition, ∃ n : Node, s.part p = some x ∧ tget x.nodes k = some n ∧
    n.state = .ready ∧ 4096 ≤ n.passes ∧ n.level = 7 ∧ x.reservation = none := by
  refine ⟨withNode base 2 { readyNode with passes := 4096, level := 7 }, 0, 2, _,
    { readyNode with passes := 4096, level := 7 }, rfl, ?_⟩ <;>
    decide +kernel

theorem witness_NodesArePlaced_5 :
    ∃ s : State, ∃ p : Nat, ∃ k : Nat, ∃ x : Partition, ∃ n : Node, s.part p = some x ∧ x.det = true ∧ x.oldest =
    some (k, n) ∧ tget x.nodes k = some n ∧ n.state = .commitWait := by
  refine ⟨committing, 0, 1, committingPart, committingNode, ?_⟩ <;>
    decide +kernel

theorem witness_NodesArePlaced_6 :
    ∃ s : State, ∃ p : Nat, ∃ k : Nat, ∃ va : Nat, ∃ key : Nat, ∃ b : Byte, ∃ x : Partition, ∃ n : Node, Canonical s
    ∧ s.part p = some x ∧ x.det = true ∧ x.nodes = [(k, n)] ∧ n.state = .commitWait ∧ n.shadow = [(va, b)] ∧
    n.shadowBad = [] ∧ n.saved = none ∧ n.sched = none ∧ n.record.donectr = 0 ∧ s.devPlace p va needW = .ok (.home
    key) ∧ s.migrations = [] := by
  refine ⟨committing, 0, 1, 64, 64, 7, committingPart, committingNode, canonical_of _ ?_, ?_, ?_, ?_, ?_, ?_, ?_, ?_,
    ?_, ?_, rfl, ?_⟩ <;>
    decide +kernel

theorem witness_ScheduleTablesRun_1 :
    ∃ s : State, ∃ p : Nat, ∃ tb : Nat, ∃ v : Word, TableGranted s p tb ∧ ((s.sched tb).state = .idle ∨ (s.sched
    tb).state = .done ∨ (s.sched tb).state = .faulted) ∧ (
      let x := { s.sched tb with ctl := (v ||| 1) &&& 0x00FFFFFFFFFC0700 }
      x.configOk = false) := by
  refine ⟨tabled id, 0, 0, 0, ⟨tablePart, ?_, ?_, ?_, ?_⟩, ?_, ?_⟩ <;>
    decide +kernel

theorem witness_ScheduleTablesRun_2 :
    ∃ s : State, ∃ p : Nat, ∃ tb : Nat, ∃ v : Word, TableGranted s p tb ∧ ((s.sched tb).state = .idle ∨ (s.sched
    tb).state = .done ∨ (s.sched tb).state = .faulted) ∧ (
      let x := { s.sched tb with ctl := (v ||| 1) &&& 0x00FFFFFFFFFC0700 }
      x.configOk = true ∧ (∀ y, s.part p = some y → y.det = true)) := by
  refine ⟨withPart (tabled fun x => { x with slotBytes := 64 }) fun x => { x with det := true }, 0, 0, 0x810040000,
    ⟨{ tablePart with det := true }, ?_, ?_, ?_, ?_⟩, ?_, ?_,
    (fun y h => by
    obtain rfl : _ = y := Option.some.inj h
    rfl)⟩ <;>
    decide +kernel

theorem witness_ScheduleTablesRun_3 :
    ∃ s : State, ∃ p : Nat, ∃ tb : Nat, ∃ v : Word, TableGranted s p tb ∧ ((s.sched tb).state = .idle ∨ (s.sched
    tb).state = .done ∨ (s.sched tb).state = .faulted) ∧ (
      let x := { s.sched tb with ctl := (v ||| 1) &&& 0x00FFFFFFFFFC0700 }
      x.configOk = true ∧ (∀ y, s.part p = some y → y.det = false)) := by
  refine ⟨tabled fun x => { x with slotBytes := 64 }, 0, 0, 0x810040000, ⟨tablePart, ?_, ?_, ?_, ?_⟩, ?_, ?_,
    (fun y h => by
    obtain rfl : _ = y := Option.some.inj h
    rfl)⟩ <;>
    decide +kernel

theorem witness_ScheduleTablesRun_4 :
    ∃ s : State, ∃ p : Nat, ∃ tb : Nat, ∃ v : Word, TableGranted s p tb ∧ (s.sched tb).state = .loading := by
  refine ⟨tabled fun x => { x with state := .loading }, 0, 0, 2, ⟨tablePart, ?_, ?_, ?_, ?_⟩, ?_⟩ <;>
    decide +kernel

theorem witness_ScheduleTablesRun_5 :
    ∃ s : State, ∃ p : Nat, ∃ tb : Nat, ∃ v : Word, TableGranted s p tb ∧ (s.sched tb).state = .running ∧
    s.tableOwner tb = some p := by
  refine ⟨tabled fun x => { x with state := .running }, 0, 0, 2, ⟨tablePart, ?_, ?_, ?_, ?_⟩, ?_, ?_⟩ <;>
    decide +kernel

theorem witness_ScheduleTablesRun_6 :
    ∃ s : State, ∃ p : Nat, ∃ tb : Nat, ∃ key : Nat, s.tableOwner tb = some p ∧ (s.sched tb).state = .loading ∧ (
      let x := s.sched tb
      let base := (x.latched.getD 1 0).toNat
      0 < x.len ∧ base % 65536 + 32 * x.len ≤ 65536 ∧ s.devPlace p base needR = .ok (.home key) ∧ s.migrations = [] ∧
        (entriesOf x.len (s.homeBytes key (32 * x.len))).2 = true ∧ x.actSlots + x.gradSlots ≤ x.seals.length) := by
  refine ⟨loadingTable, 0, 0, 1024, ?_, ?_, ?_, ?_, rfl, ?_⟩ <;>
    decide +kernel

theorem witness_ScheduleTablesRun_7 :
    ∃ s : State, ∃ p : Nat, ∃ tb : Nat, ∃ key : Nat, s.tableOwner tb = some p ∧ (s.sched tb).state = .loading ∧ (
      let x := s.sched tb
      let base := (x.latched.getD 1 0).toNat
      0 < x.len ∧ base % 65536 + 32 * x.len ≤ 65536 ∧ s.devPlace p base needR = .ok (.home key) ∧ s.migrations = [] ∧
        (entriesOf x.len (s.homeBytes key (32 * x.len))).2 = false) := by
  refine ⟨withMem loadingTable 1024 [1], 0, 0, 1024, ?_, ?_, ?_, ?_, rfl, ?_, ?_⟩ <;>
    decide +kernel

theorem witness_ScheduleTablesRun_8 :
    ∃ s : State, ∃ p : Nat, ∃ tb : Nat, ∃ e : SchedEntry, s.tableOwner tb = some p ∧ (s.sched tb).state = .running ∧
    (s.sched tb).entries[(s.sched tb).head]? = some e ∧ (
      let x := s.sched tb
      e.kind = 0) := by
  refine ⟨entering ⟨0, 0, 0⟩, 0, 0, ⟨0, 0, 0⟩, ?_, ?_, ?_, ?_⟩ <;>
    decide +kernel

theorem witness_ScheduleTablesRun_9 :
    ∃ s : State, ∃ p : Nat, ∃ tb : Nat, ∃ e : SchedEntry, s.tableOwner tb = some p ∧ (s.sched tb).state = .running ∧
    (s.sched tb).entries[(s.sched tb).head]? = some e ∧ (
      let x := s.sched tb
      ∃ h, ∃ u, e.kind ≠ 0 ∧ x.conditions e = (true, true, true) ∧ s.makeNode p e.template.toNat (some ⟨tb, x.head,
        x.run, bits x.latchedCtl 10 8, e⟩) = (.made 0 h, u)) := by
  refine ⟨entering firstEntry, 0, 0, firstEntry, ?_, ?_, ?_, 0x20001, _, ?_, ?_, Prod.ext ?_ rfl⟩ <;>
    decide +kernel

theorem witness_ScheduleTablesRun_10 :
    ∃ s : State, ∃ p : Nat, ∃ tb : Nat, ∃ e : SchedEntry, s.tableOwner tb = some p ∧ (s.sched tb).state = .running ∧
    (s.sched tb).entries[(s.sched tb).head]? = some e ∧ (
      let x := s.sched tb
      x.conditions e ≠ (true, true, true) ∧ (∀ y, s.part p = some y → ∀ n ∈ y.nodes, n.2.state ≠ .running) ∧ x.head <
        x.len) := by
  refine ⟨withPart (entering secondEntry) fun x => { x with nodes := [] }, 0, 0, secondEntry, ?_, ?_, ?_, ?_,
    (fun y h => by
    obtain rfl : _ = y := Option.some.inj h
    decide +kernel), ?_⟩ <;>
    decide +kernel

theorem witness_ScheduleTablesRun_11 :
    ∃ s : State, ∃ tb : Nat, ∃ act : Bool, tb < 16 ∧ (s.sched tb).state ≠ .running := by
  refine ⟨base, 15, true, ?_, ?_⟩ <;>
    decide +kernel

theorem witness_ScheduleTablesRun_12 :
    ∃ s : State, ∃ tb : Nat, ∃ act : Bool, tb < 16 ∧ (s.sched tb).state = .running ∧ ((if act then (s.sched
    tb).fscDown else (s.sched tb).fscUp) < 64) := by
  refine ⟨tabled fun x => { x with state := .running, fscDown := 63 }, 0, true, ?_⟩ <;>
    decide +kernel

theorem witness_ScheduleTablesRun_13 :
    ∃ s : State, ∃ tb : Nat, ∃ act : Bool, tb < 16 ∧ (s.sched tb).state = .running ∧ (64 ≤ (if act then (s.sched
    tb).fscDown else (s.sched tb).fscUp)) := by
  refine ⟨tabled fun x => { x with state := .running, fscUp := 64 }, 0, false, ?_⟩ <;>
    decide +kernel

theorem witness_MemoryUpkeep_1 :
    ∃ s : State, ∃ c : Nat, ∃ d : Nat, c < 296 := by
  refine ⟨base, 295, 1, ?_⟩ <;>
    decide +kernel

theorem witness_MemoryUpkeep_2 :
    ∃ s : State, ∃ frame : Nat, ∃ n : Nat, Canonical s ∧ frameExists (homePool frame) (homeFrame frame) = true ∧
    homeOff frame = 0 ∧ n < 1024 ∧ s.migrations = [] ∧ s.frameOwner (homePool frame) (homeFrame frame) = none := by
  refine ⟨base, 65536, 1023, canonical_of _ ?_, ?_⟩ <;>
    decide +kernel

theorem witness_EncodeDecodeRoundTrip :
    ∃ c : Bool, ∃ i : Instr, i.wf = true ∧ (toRaw i).isSome = true := by
  refine ⟨true, .addi 31 31 0xFFFFFFFFFFFF8000, ?_, ?_⟩ <;>
    decide +kernel

theorem witness_MemoryStaysCanonical :
    ∃ s : State, ∃ t : State, Canonical s ∧ step s = .next t := by
  refine ⟨base, stepped base, canonical_of _ ?_, stepped_of _ ?_⟩ <;>
    decide +kernel

theorem witness_TrapLevelsStayLegal :
    ∃ s : State, ∃ t : State, LegalHarts s ∧ step s = .next t := by
  refine ⟨base, stepped base, legal_of _ ?_, stepped_of _ ?_⟩ <;>
    decide +kernel

theorem witness_BytesReadBack :
    ∃ m : Cells, ∃ a : Nat, ∃ bs : List Byte, Memory.wf m = true := by
  refine ⟨[(3, 1)], 3, [0, 2], ?_⟩ <;>
    decide +kernel

theorem witness_NopAndIdle_1 :
    ∃ s, Later s := by
  refine ⟨base, ?_⟩ <;>
    decide +kernel

theorem witness_NopAndIdle_2 :
    ∃ s, Drained s ∧ (s.cancelPending = true ∨ s.curRank.idled = true) := by
  refine ⟨base.updRank 0 1 0 fun r => { r with idled := true }, ?_, .inr ?_⟩ <;>
    decide +kernel

theorem witness_NopAndIdle_3 :
    ∃ s, Drained s ∧ s.cancelPending = false ∧ s.curRank.idled = false := by
  refine ⟨base, ?_⟩ <;>
    decide +kernel

theorem witness_TlbInvalidates :
    ∃ i : Instr, ∃ s : State, ∃ va : Option Nat, Drained s ∧ (i = .tlbiAll ∧ va = none ∨ ∃ ra, i = .tlbiVa ra ∧ va =
    some ((regs s).getS ra).toNat) ∧ (regs s).tl ≠ 0 ∧ (∀ h, (s.hart h).sb = []) ∧ (∀ c ∈ s.cores, ∀ n : Fin 4,
    c.2.channels[n].queue = []) ∧ s.commands = [] ∧ s.packetsOut (me s).part va = false ∧ (∀ h, h ≠ s.cur → (s.hart
    h).translations = []) := by
  refine ⟨.tlbiVa 6, withRegs base fun g => { g with tl := 1 }, some 1, ?_, .inr ⟨6, rfl, ?_⟩, ?_,
    fun h => (stores_of _ ?_ h).1, ?_, ?_, ?_, (fun h _ => (stores_of _ ?_ h).2)⟩ <;>
    decide +kernel

theorem witness_LoadsRead :
    ∃ i : Instr, ∃ s : State, ∃ n : Nat, ∃ sg : Bool, ∃ rd : Reg, ∃ a : Word, ∃ pl : Place, ∃ e : Option Entry,
    Later s ∧ InOrder s ∧ loadOf (regs s) i = some (n, sg, rd, a) ∧ a.toNat % n = 0 ∧ placeOf s a.toNat needR = some
    (pl, e) ∧ Clean s a.toNat n pl := by
  refine ⟨.ldD 4 5 0, withS base [(5, window + 0x1FFFF8)], 8, true, 4, 0x01FFFFFFFFFFFFF8, .pad 0x1FFFF8, none, ?_, ?_,
    ?_, ?_, ?_, clean_pad _ _ _ _ ?_⟩ <;>
    decide +kernel

theorem witness_AtomicsUpdate :
    ∃ i : Instr, ∃ s : State, ∃ n : Nat, ∃ rd : Reg, ∃ a : Word, ∃ f : Nat → Option Nat, ∃ pl : Place, ∃ e : Option
    Entry, Drained s ∧ InOrder s ∧ Canonical s ∧ atomicOf (regs s) i = some (n, rd, a, f) ∧ a.toNat % n = 0 ∧
    placeOf s a.toNat needRW = some (pl, e) ∧ Clean s a.toNat n pl ∧ s.curSpeculative = false ∧ (∀ key, pl = .home
    key → ∀ x ∈ (me s).sb, x.meets none key n = false) := by
  refine ⟨.casW 4 6 6 5, withS base [(5, window + 0x1FFFFC)], 4, 4, window + 0x1FFFFC, _, .pad 0x1FFFFC, none, ?_, ?_,
    canonical_of _ ?_, rfl, ?_, ?_, clean_pad _ _ _ _ ?_, ?_, (fun _ h => nomatch h)⟩ <;>
    decide +kernel

theorem witness_BarrierWaits_1 :
    ∃ s : State, ∃ ra : Reg, ∃ key : Nat, Drained s ∧ Canonical s ∧ ObjectAt s ((regs s).getS ra) 64 key ∧ s.barOk
    key = true ∧ LocalGroup s key ∧ (
      let w := s.homeWord (key + 8)
      marked s ((regs s).getS ra) (barPhase w) = true) := by
  refine ⟨object.updRank 0 1 0 fun r => { r with mark := some (1024, 0) }, 5, 1024, ?_, canonical_of _ ?_,
    ⟨?_, ⟨_, rfl⟩, ?_, ?_, ?_, ?_, ?_, ?_, ?_⟩, ?_, local_group _ _ ?_, ?_⟩ <;>
    decide +kernel

theorem witness_BarrierWaits_2 :
    ∃ s : State, ∃ ra : Reg, ∃ key : Nat, Drained s ∧ Canonical s ∧ ObjectAt s ((regs s).getS ra) 64 key ∧ s.barOk
    key = true ∧ LocalGroup s key ∧ (
      let w := s.homeWord (key + 8)
      marked s ((regs s).getS ra) (barPhase w) = false ∧ barPending w ≠ 0) := by
  refine ⟨withMem object 1032 (leBytes 8 0x1000000), 5, 1024, ?_, canonical_of _ ?_,
    ⟨?_, ⟨_, rfl⟩, ?_, ?_, ?_, ?_, ?_, ?_, ?_⟩, ?_, local_group _ _ ?_, ?_, ?_⟩ <;>
    decide +kernel

theorem witness_BarrierWaits_3 :
    ∃ s : State, ∃ ra : Reg, ∃ key : Nat, Drained s ∧ Canonical s ∧ ObjectAt s ((regs s).getS ra) 64 key ∧ s.barOk
    key = true ∧ LocalGroup s key ∧ (
      let w := s.homeWord (key + 8)
      marked s ((regs s).getS ra) (barPhase w) = false ∧ barPending w = 0) := by
  refine ⟨object, 5, 1024, ?_, canonical_of _ ?_, ⟨?_, ⟨_, rfl⟩, ?_, ?_, ?_, ?_, ?_, ?_, ?_⟩, ?_, local_group _ _ ?_,
    ?_, ?_⟩ <;>
    decide +kernel

theorem witness_YieldPreemptsOrContinues_1 :
    ∃ s : State, Drained s ∧ ((me s).node = none ∨ ∃ p k r, (me s).node = some (p, k, r) ∧ s.yieldSlot p k = none) := by
  refine ⟨withHart base fun h => { h with node := none }, ?_, .inl ?_⟩ <;>
    decide +kernel

theorem witness_YieldPreemptsOrContinues_2 :
    ∃ s : State, ∃ p : Nat, ∃ k : Nat, ∃ r : Nat, ∃ slot : Nat, ∃ n : Node, Drained s ∧ NoPush s ∧ (me s).node =
    some (p, k, r) ∧ s.node p k = some n ∧ (∃ r', (r', s.cur) ∈ n.placed) ∧ s.yieldSlot p k = some slot ∧ s.settled
    p k = true := by
  refine ⟨yielding, 0, 1, 0, _, _, ?_, ?_, ?_, rfl, ⟨0, ?_⟩, rfl, ?_⟩ <;>
    decide +kernel

theorem witness_YieldPreemptsOrContinues_3 :
    ∃ s : State, ∃ p : Nat, ∃ k : Nat, ∃ r : Nat, ∃ slot : Nat, Drained s ∧ NoPush s ∧ (me s).node = some (p, k, r)
    ∧ s.yieldSlot p k = some slot ∧ s.settled p k = false := by
  refine ⟨withHart yielding fun h => { h with unchecked := 1 }, 0, 1, 0, _, ?_, ?_, ?_, rfl, ?_⟩ <;>
    decide +kernel

theorem witness_PaletteClaims_1 :
    ∃ s : State, ∃ p : Reg, Room s := by
  refine ⟨base, 31, ?_⟩ <;>
    decide +kernel

theorem witness_PaletteClaims_2 :
    ∃ s : State, ∃ p : Reg, Drained s ∧ (slotOf s p).owner = some s.cur ∧ (∀ h, (slotOf s p).waiting.head? = some h
    → h ∉ (slotOf s p).waiting.tail) := by
  refine ⟨withSlot base 31 ⟨some 0, none, [1, 2]⟩, 31, ?_, ?_, waits_once _ _ ?_⟩ <;>
    decide +kernel

theorem witness_PaletteClaims_3 :
    ∃ s : State, ∃ p : Reg, Drained s ∧ (slotOf s p).owner ≠ some s.cur := by
  refine ⟨base, 31, ?_, ?_⟩ <;>
    decide +kernel

theorem witness_FurtherClaims :
    ∃ s : State, ∃ p : Reg, ∃ h : Nat, ∃ rest : List Nat, Drained s ∧ (slotOf s p).owner = some s.cur ∧ (slotOf s
    p).waiting = h :: rest := by
  refine ⟨withSlot base 31 ⟨some 0, none, [1, 2, 1]⟩, 31, 1, [2, 1], ?_⟩ <;>
    decide +kernel

theorem witness_CoprocessorResults_1 :
    ∃ s : State, ∃ rd : Reg, ∃ ra : Reg, ∃ rb : Reg, Drained s ∧ Certain s := by
  refine ⟨base, 4, 5, 0, ?_, ?_⟩ <;>
    decide +kernel

theorem witness_CoprocessorResults_2 :
    ∃ s : State, ∃ rd : Reg, ∃ ra : Reg, ∃ rb : Reg, Drained s ∧ Certain s := by
  refine ⟨base, 4, 5, 0, ?_, ?_⟩ <;>
    decide +kernel

theorem witness_CoprocessorResults_3 :
    ∃ s : State, ∃ rd : Reg, ∃ ra : Reg, ∃ rb : Reg, Drained s ∧ Certain s ∧ ((regs s).getS ra).toNat < 8 := by
  refine ⟨withS base [(5, 7)], 4, 5, 0, ?_⟩ <;>
    decide +kernel

theorem witness_CoprocessorResults_4 :
    ∃ s : State, ∃ rd : Reg, ∃ ra : Reg, ∃ rb : Reg, Drained s ∧ Certain s ∧ ((regs s).getS ra).toNat < 8 := by
  refine ⟨withS base [(5, 7)], 4, 5, 0, ?_⟩ <;>
    decide +kernel

theorem witness_CoprocessorResults_5 :
    ∃ s : State, ∃ rd : Reg, ∃ ra : Reg, ∃ rb : Reg, Drained s ∧ Certain s ∧ (regs s).tl ≠ 0 := by
  refine ⟨withRegs base fun g => { g with tl := 1 }, 4, 5, 0, ?_⟩ <;>
    decide +kernel

theorem witness_CoprocessorResults_6 :
    ∃ s : State, ∃ rd : Reg, ∃ ra : Reg, ∃ rb : Reg, Drained s ∧ Certain s ∧ (regs s).tl ≠ 0 := by
  refine ⟨withRegs base fun g => { g with tl := 1 }, 4, 5, 0, ?_⟩ <;>
    decide +kernel

theorem witness_CoprocessorResults_7 :
    ∃ s : State, ∃ rd : Reg, ∃ ra : Reg, ∃ rb : Reg, Drained s ∧ Certain s ∧ (regs s).tl ≠ 0 := by
  refine ⟨withRegs base fun g => { g with tl := 1 }, 4, 5, 0, ?_⟩ <;>
    decide +kernel

theorem witness_CoprocessorResults_8 :
    ∃ s : State, ∃ rd : Reg, ∃ ra : Reg, ∃ rb : Reg, Drained s ∧ Certain s ∧ (regs s).tl = 0 ∧ (regs s).vector ≠ 0 ∧
    ∃ i : Instr, (i = .xcopMarginSet ra rb ∨ i = .xcopReplayLimit ra rb ∨ i = .xcopReplayCountClear ra rb) := by
  refine ⟨handled base, 4, 5, 0, ?_, ?_, ?_, ?_, .xcopMarginSet 5 0, .inl rfl⟩ <;>
    decide +kernel

theorem witness_FencesComplete_1 :
    ∃ s : State, ∃ scope : Reg3, ∃ rd : Reg, Drained s ∧ scope.toNat ≤ 1 := by
  refine ⟨base, 1, 4, ?_, ?_⟩ <;>
    decide +kernel

theorem witness_FencesComplete_2 :
    ∃ s : State, ∃ scope : Reg3, ∃ rd : Reg, Drained s ∧ NoPush s ∧ (scope = 2 ∨ scope = 3) := by
  refine ⟨base, 3, 4, ?_⟩ <;>
    decide +kernel

theorem witness_FencesComplete_3 :
    ∃ s : State, ∃ scope : Reg3, ∃ rd : Reg, Drained s ∧ NoPush s ∧ (scope = 4 ∨ scope = 5) ∧ (∀ e ∈ (me s).sb,
    e.peer = none) ∧ s.migrations = [] ∧ s.effectsOut = false ∧ (∀ x ∈ s.posted, x.hart ≠ s.cur) := by
  refine ⟨base, 5, 4, ?_⟩ <;>
    decide +kernel

theorem witness_FencesComplete_4 :
    ∃ s : State, ∃ scope : Reg3, ∃ rd : Reg, Drained s ∧ Handled s ∧ 5 < scope.toNat := by
  refine ⟨handled base, 31, 4, ?_⟩ <;>
    decide +kernel

theorem witness_FencesComplete_5 :
    ∃ s : State, ∃ scope : Reg3, ∃ rd : Reg, Drained s ∧ (scope = 4 ∨ scope = 5) ∧ s.effectsOut = true := by
  refine ⟨{ base with peers := [(1, { Peer.reset with unacked := [⟨5, .write [(0, [1])] true [], .rank 0 0x10001 0 [] [] false, 0⟩] })] },
    4, 4, ?_⟩ <;>
    decide +kernel

theorem witness_FencesComplete_6 :
    ∃ s : State, ∃ rd : Reg, Drained s ∧ NoPush s ∧ s.curRank.poison = none ∧ (me s).unchecked = 0 := by
  refine ⟨withHart base fun h => { h with sb := [⟨none, [⟨64, 64, [1]⟩], [], false, true, false, false⟩] }, 4, ?_⟩ <;>
    decide +kernel

theorem witness_FencesComplete_7 :
    ∃ s : State, ∃ rd : Reg, Drained s ∧ (me s).unchecked ≠ 0 := by
  refine ⟨withHart base fun h => { h with unchecked := 1 }, 4, ?_, ?_⟩ <;>
    decide +kernel

theorem witness_FencesComplete_8 :
    ∃ s : State, ∃ rd : Reg, ∃ va : Nat, Drained s ∧ Handled s ∧ (me s).sb = [] ∧ (me s).unchecked = 0 ∧
    s.curRank.poison = some va := by
  refine ⟨handled (base.updRank 0 1 0 fun r => { r with poison := some 64 }), 4, 64, ?_⟩ <;>
    decide +kernel

theorem witness_NodesAreCreated_1 :
    ∃ s : State, ∃ rd : Reg, ∃ ra : Reg, Drained s ∧ s.hartRight 3 = false := by
  refine ⟨withPart base fun x => { x with access := [] }, 4, 5, ?_, ?_⟩ <;>
    decide +kernel

theorem witness_NodesAreCreated_2 :
    ∃ s : State, ∃ rd : Reg, ∃ ra : Reg, ∃ key : Nat, ∃ p : Nat, ∃ k : Nat, ∃ x : Partition, Drained s ∧ Canonical s
    ∧ s.hartRight 3 = true ∧ ObjectAt s ((regs s).getS ra) 128 key ∧ (me s).part = p ∧ s.part p = some x ∧
    x.freeNode = some k ∧ x.recordStatus (wordsOf 16 (s.homeBytes key 128)) = 0 := by
  refine ⟨recorded, 4, 5, 1024, 0, 2, _, ?_, canonical_of _ ?_, ?_, ⟨?_, ⟨_, rfl⟩, ?_, ?_, ?_, ?_, ?_, ?_, ?_⟩, ?_,
    rfl, ?_, ?_⟩ <;>
    decide +kernel

theorem witness_NodesAreCreated_3 :
    ∃ s : State, ∃ rd : Reg, ∃ ra : Reg, ∃ key : Nat, Drained s ∧ s.hartRight 3 = true ∧ ObjectAt s ((regs s).getS
    ra) 128 key := by
  refine ⟨recorded, 4, 5, 1024, ?_, ?_, ⟨?_, ⟨_, rfl⟩, ?_, ?_, ?_, ?_, ?_, ?_, ?_⟩⟩ <;>
    decide +kernel

theorem witness_EdgesOrderNodes_1 :
    ∃ s : State, ∃ rd : Reg, ∃ ra : Reg, ∃ rb : Reg, Drained s ∧ (s.hartRight 3 = true → Certain s) ∧ ((regs s).getS
    ra).toNat < 2 ^ 32 ∧ ((regs s).getS rb).toNat < 2 ^ 32 := by
  refine ⟨base, 4, 5, 7, ?_, (fun _ => ?_), ?_, ?_⟩ <;>
    decide +kernel

theorem witness_EdgesOrderNodes_2 :
    ∃ s : State, ∃ rd : Reg, ∃ ra : Reg, ∃ rb : Reg, ∃ p : Nat, ∃ j : Nat, ∃ x : Partition, ∃ n : Node, Drained s ∧
    Certain s ∧ s.hartRight 3 = true ∧ ((regs s).getS ra).toNat < 2 ^ 32 ∧ ((regs s).getS rb).toNat < 2 ^ 32 ∧ (me
    s).part = p ∧ s.part p = some x ∧ x.slotOf ((regs s).getS rb).toNat = some j ∧ tget x.nodes j = some n ∧ n.state
    ≠ .held := by
  refine ⟨withS (withNode base 2 { node2 with state := .ready }) [(7, 0x20001)], 4, 5, 7, 0, 2, _, _, ?_, ?_, ?_, ?_,
    ?_, ?_, rfl, ?_, rfl, ?_⟩ <;>
    decide +kernel

theorem witness_EdgesOrderNodes_3 :
    ∃ s : State, ∃ rd : Reg, ∃ ra : Reg, ∃ rb : Reg, ∃ p : Nat, ∃ j : Nat, ∃ x : Partition, ∃ n : Node, Drained s ∧
    Certain s ∧ s.hartRight 3 = true ∧ ((regs s).getS ra).toNat < 2 ^ 32 ∧ ((regs s).getS rb).toNat < 2 ^ 32 ∧ (me
    s).part = p ∧ s.part p = some x ∧ x.slotOf ((regs s).getS rb).toNat = some j ∧ tget x.nodes j = some n ∧ n.state
    = .held ∧ (regs s).getS ra = 0 := by
  refine ⟨withS (withNode base 2 node2) [(7, 0x20001)], 4, 5, 7, 0, 2, _, _, ?_, ?_, ?_, ?_, ?_, ?_, rfl, ?_, rfl, ?_,
    ?_⟩ <;>
    decide +kernel

theorem witness_EdgesOrderNodes_4 :
    ∃ s : State, ∃ rd : Reg, ∃ ra : Reg, ∃ rb : Reg, ∃ p : Nat, ∃ j : Nat, ∃ x : Partition, ∃ n : Node, Drained s ∧
    Certain s ∧ s.hartRight 3 = true ∧ ((regs s).getS ra).toNat < 2 ^ 32 ∧ ((regs s).getS rb).toNat < 2 ^ 32 ∧ (me
    s).part = p ∧ s.part p = some x ∧ x.slotOf ((regs s).getS rb).toNat = some j ∧ tget x.nodes j = some n ∧ ∃ i :
    Nat, n.state = .held ∧ (regs s).getS ra ≠ 0 ∧ (regs s).getS ra ≠ (regs s).getS rb ∧ x.slotOf ((regs s).getS
    ra).toNat = some i ∧ n.preds < 65535 ∧ x.links.length < 4 * x.slots := by
  refine ⟨withS (withNode base 2 node2) [(5, 0x10001), (7, 0x20001)], 4, 5, 7, 0, 2, _, _, ?_, ?_, ?_, ?_, ?_, ?_, rfl,
    ?_, rfl, 1, ?_⟩ <;>
    decide +kernel

theorem witness_CancelOutcomes_1 :
    ∃ s : State, ∃ rd : Reg, ∃ ra : Reg, Drained s ∧ ((regs s).getS ra).toNat < 2 ^ 32 ∧ s.curRank.cancelling = none
    ∧ s.hartRight 4 = false := by
  refine ⟨withPart base fun x => { x with access := [] }, 4, 6, ?_⟩ <;>
    decide +kernel

theorem witness_CancelOutcomes_2 :
    ∃ s : State, ∃ rd : Reg, ∃ ra : Reg, Drained s ∧ Certain s ∧ ((regs s).getS ra).toNat < 2 ^ 32 ∧
    s.curRank.cancelling = none ∧ s.hartRight 4 = true ∧ s.slotOf (me s).part ((regs s).getS ra).toNat = none := by
  refine ⟨base, 4, 6, ?_⟩ <;>
    decide +kernel

theorem witness_CancelOutcomes_3 :
    ∃ s : State, ∃ rd : Reg, ∃ ra : Reg, ∃ p : Nat, ∃ k : Nat, ∃ j : Nat, ∃ r : Nat, ∃ n : Node, Drained s ∧ Certain
    s ∧ ((regs s).getS ra).toNat < 2 ^ 32 ∧ s.curRank.cancelling = none ∧ s.hartRight 4 = true ∧ (me s).node = some
    (p, j, r) ∧ s.slotOf p ((regs s).getS ra).toNat = some k ∧ s.node p k = some n ∧ k ≠ j ∧ (n.state = .held ∨
    n.state = .waiting ∨ (n.state = .ready ∧ n.cancel ≠ .pending)) := by
  refine ⟨withS (withNode base 2 node2) [(5, 0x20001)], 4, 5, 0, 2, 1, 0, _, ?_, ?_, ?_, ?_, ?_, ?_, ?_, rfl, ?_, ?_⟩ <;>
    decide +kernel

theorem witness_CancelOutcomes_4 :
    ∃ s : State, ∃ rd : Reg, ∃ ra : Reg, ∃ p : Nat, ∃ k : Nat, ∃ j : Nat, ∃ r : Nat, ∃ n : Node, Drained s ∧ Certain
    s ∧ ((regs s).getS ra).toNat < 2 ^ 32 ∧ s.curRank.cancelling = none ∧ s.hartRight 4 = true ∧ (me s).node = some
    (p, j, r) ∧ s.slotOf p ((regs s).getS ra).toNat = some k ∧ s.node p k = some n ∧ k ≠ j ∧ n.state = .running ∧
    n.cancel = .delivered := by
  refine ⟨withS (withNode base 2 { node2 with state := .running, cancel := .delivered }) [(5, 0x20001)], 4, 5, 0, 2, 1,
    0, _, ?_, ?_, ?_, ?_, ?_, ?_, ?_, rfl, ?_⟩ <;>
    decide +kernel

theorem witness_CancelOutcomes_5 :
    ∃ s : State, ∃ rd : Reg, ∃ ra : Reg, ∃ p : Nat, ∃ k : Nat, ∃ j : Nat, ∃ r : Nat, ∃ n : Node, Drained s ∧ Certain
    s ∧ ((regs s).getS ra).toNat < 2 ^ 32 ∧ s.curRank.cancelling = none ∧ s.hartRight 4 = true ∧ (me s).node = some
    (p, j, r) ∧ s.slotOf p ((regs s).getS ra).toNat = some k ∧ s.node p k = some n ∧ k ≠ j ∧ n.state = .commitWait := by
  refine ⟨withS (withNode base 2 { node2 with state := .commitWait }) [(5, 0x20001)], 4, 5, 0, 2, 1, 0, _, ?_, ?_, ?_,
    ?_, ?_, ?_, ?_, rfl, ?_, ?_⟩ <;>
    decide +kernel

theorem witness_CancelOutcomes_6 :
    ∃ s : State, ∃ rd : Reg, ∃ ra : Reg, ∃ p : Nat, ∃ k : Nat, ∃ j : Nat, ∃ r : Nat, ∃ n : Node, Drained s ∧ Certain
    s ∧ ((regs s).getS ra).toNat < 2 ^ 32 ∧ s.curRank.cancelling = none ∧ s.hartRight 4 = true ∧ (me s).node = some
    (p, j, r) ∧ s.slotOf p ((regs s).getS ra).toNat = some k ∧ s.node p k = some n ∧ k ≠ j ∧ n.state = .running ∧
    n.cancel ≠ .delivered := by
  refine ⟨withS (withNode base 2 { node2 with state := .running }) [(5, 0x20001)], 4, 5, 0, 2, 1, 0, _, ?_, ?_, ?_, ?_,
    ?_, ?_, ?_, rfl, ?_⟩ <;>
    decide +kernel

theorem witness_StagesEnd_1 :
    ∃ s : State, AtStage s 0 ∧ (∀ i ∈ s.flash, i.firstStage = true → i.signatureOk = true ∧ Config.minimumVersion ≤
    i.version) := by
  refine ⟨State.reset, ?_, ?_⟩ <;>
    decide +kernel

theorem witness_StagesEnd_2 :
    ∃ s : State, AtStage s 0 ∧ ∃ ok, (ok = false ∨ (∃ i ∈ s.flash, i.firstStage = true ∧ ¬ (i.signatureOk = true ∧
    Config.minimumVersion ≤ i.version))) := by
  refine ⟨{ State.reset with flash := [⟨true, false, 0, 0⟩] }, ?_, true, ?_⟩ <;>
    decide +kernel

theorem witness_StagesEnd_3 :
    ∃ s : State, ∃ hbm : BitVec 8, ∃ lp : Bool, AtStage s 1 ∧ hbm = 0xFF ∧ lp = true := by
  refine ⟨atStage 1, 0xFF, true, ?_⟩ <;>
    decide +kernel

theorem witness_StagesEnd_4 :
    ∃ s : State, ∃ hbm : BitVec 8, ∃ lp : Bool, AtStage s 1 ∧ (hbm ≠ 0xFF ∨ lp = false) := by
  refine ⟨atStage 1, 0xFE, true, ?_, ?_⟩ <;>
    decide +kernel

theorem witness_StagesEnd_5 :
    ∃ s : State, ∃ badCores : List Nat, ∃ badPorts : List Nat, ∃ floors : List Nat, AtStage s 2 := by
  refine ⟨atStage 2, [191], [71], [41], ?_⟩ <;>
    decide +kernel

theorem witness_StagesEnd_6 :
    ∃ s : State, s.st.stage ≠ 3 ∧ s.st.busy = true ∧ s.st.fail = false := by
  refine ⟨State.reset, ?_⟩ <;>
    decide +kernel

theorem witness_FirmwareAndSessions_1 :
    ∃ s : State, ∃ i : FirmwareImage, (i.signatureOk = true ∧ Config.minimumVersion ≤ i.version) := by
  refine ⟨base, ⟨true, true, Config.minimumVersion, 0⟩, ⟨?_, Nat.le_refl _⟩⟩ <;>
    decide +kernel

theorem witness_FirmwareAndSessions_2 :
    ∃ s : State, ∃ i : FirmwareImage, (¬ (i.signatureOk = true ∧ Config.minimumVersion ≤ i.version)) ∧ (¬ AtStage s
    0) := by
  refine ⟨base, ⟨true, false, 0, 0⟩, ?_, ?_⟩ <;>
    decide +kernel

theorem witness_FirmwareAndSessions_3 :
    ∃ s : State, ∃ i : FirmwareImage, (¬ (i.signatureOk = true ∧ Config.minimumVersion ≤ i.version)) ∧ AtStage s 0 := by
  refine ⟨State.reset, ⟨false, false, 0, 0⟩, ?_, ?_⟩ <;>
    decide +kernel

theorem witness_FirmwareAndSessions_11 :
    ∃ s : State, s.secured = false := by
  refine ⟨base, ?_⟩ <;>
    decide +kernel

theorem witness_FirmwareAndSessions_12 :
    ∃ s : State, s.secured = true := by
  refine ⟨{ base with secured := true }, ?_⟩ <;>
    decide +kernel

theorem witness_FirmwareAndSessions_13 :
    ∃ s : State, ∃ k, s.session = some ⟨false, k⟩ :=
  ⟨{ base with session := some ⟨false, 0⟩ }, 0, rfl⟩

theorem witness_FirmwareAndSessions_14 :
    ∃ s : State, (∀ k, s.session ≠ some ⟨false, k⟩) :=
  ⟨base, (fun _ h => nomatch h)⟩

theorem witness_FirmwareAndSessions_15 :
    ∃ s : State, ∃ k, s.secured = true ∧ s.session = some ⟨true, k⟩ := by
  refine ⟨{ base with secured := true, session := some ⟨true, 0⟩, ideKeys := [(1, 7)] }, 0, ?_, rfl⟩ <;>
    decide +kernel

theorem witness_FirmwareAndSessions_16 :
    ∃ s : State, ∃ k, s.secured = true ∧ s.session = some ⟨true, k⟩ := by
  refine ⟨{ base with secured := true, session := some ⟨true, 0⟩, ideKeys := [(1, 7)] }, 0, ?_, rfl⟩ <;>
    decide +kernel

theorem witness_FirmwareAndSessions_17 :
    ∃ s : State, ∃ k, s.secured = true ∧ s.session = some ⟨true, k⟩ := by
  refine ⟨{ base with secured := true, session := some ⟨true, 0⟩, ideKeys := [(1, 7)] }, 0, ?_, rfl⟩ <;>
    decide +kernel

theorem witness_FirmwareAndSessions_18 :
    ∃ s : State, ∃ k, s.secured = true ∧ s.session = some ⟨true, k⟩ := by
  refine ⟨{ base with secured := true, session := some ⟨true, 0⟩, ideKeys := [(1, 7)] }, 0, ?_, rfl⟩ <;>
    decide +kernel

theorem witness_FirmwareAndSessions_19 :
    ∃ s : State, ∃ k, s.secured = true ∧ s.session = some ⟨true, k⟩ := by
  refine ⟨{ base with secured := true, session := some ⟨true, 0⟩, ideKeys := [(1, 7)] }, 0, ?_, rfl⟩ <;>
    decide +kernel

theorem witness_FirmwareAndSessions_20 :
    ∃ s : State, ∃ k, s.secured = true ∧ s.session = some ⟨true, k⟩ := by
  refine ⟨{ base with secured := true, session := some ⟨true, 0⟩, ideKeys := [(1, 7)] }, 0, ?_, rfl⟩ <;>
    decide +kernel

theorem witness_FirmwareAndSessions_21 :
    ∃ s : State, ∃ k, s.secured = true ∧ s.session = some ⟨true, k⟩ := by
  refine ⟨{ base with secured := true, session := some ⟨true, 0⟩, ideKeys := [(1, 7)] }, 0, ?_, rfl⟩ <;>
    decide +kernel

theorem witness_FirmwareAndSessions_22 :
    ∃ s : State, (s.secured = false ∨ (∀ k, s.session ≠ some ⟨true, k⟩)) ∧ ∃ i : Instr, (i = .keyUpdate ∨ i =
    .heartbeat ∨ i = .endSession ∨ i = .query ∨ (∃ n key, i = .keyProg n key) ∨ (∃ n, i = .kSetGo n) ∨ (∃ n, i =
    .kSetStop n)) :=
  ⟨base, (.inl rfl), .query, .inr (.inr (.inr (.inl rfl)))⟩

theorem witness_PartitionsComeAndGo_1 :
    ∃ s : State, ∃ g : Grant, s.st.stage ≠ 3 := by
  refine ⟨State.reset, grant, ?_⟩ <;>
    decide +kernel

theorem witness_PartitionsComeAndGo_2 :
    ∃ s : State, ∃ g : Grant, s.st.stage = 3 ∧ s.grantOk g = true := by
  refine ⟨base, grant, ?_, ?_⟩ <;>
    decide +kernel

theorem witness_PartitionsComeAndGo_3 :
    ∃ s : State, ∃ g : Grant, s.st.stage = 3 ∧ s.grantOk g = false := by
  refine ⟨base, { grant with part := 0 }, ?_, ?_⟩ <;>
    decide +kernel

theorem witness_PartitionsComeAndGo_4 :
    ∃ s : State, ∃ p : Nat, ∃ x : Partition, s.part p = some x ∧ x.teardown = .none := by
  refine ⟨base, 0, testPart, ?_, ?_⟩ <;>
    decide +kernel

theorem witness_PartitionsComeAndGo_5 :
    ∃ s : State, ∃ p : Nat, (∀ x, s.part p = some x → x.teardown = .waiting) :=
  ⟨base, 63, (fun _ h => nomatch h)⟩

theorem witness_PartitionsComeAndGo_6 :
    ∃ s : State, ∃ p : Nat, ∃ x : Partition, ∃ i : Instr, s.part p = some x ∧ x.teardown = .waiting ∧ (i =
    .teardownWaitExpiry p ∨ (i = .teardownNodesEnded p ∧ ∀ e ∈ x.nodes, e.2.state ≠ .running)) := by
  refine ⟨withPart base fun _ => leaving, 0, leaving, .teardownNodesEnded 0, ?_, ?_, .inr ⟨rfl, ?_⟩⟩ <;>
    decide +kernel

theorem witness_QueueRuns_1 :
    ∃ s : State, ∃ core : Nat, ∃ i : Nat, ∃ pre : List QueueEntry, ∃ mid : List QueueEntry, ∃ post : List
    QueueEntry, ∃ e : QueueEntry, ∃ v : List Nat, i < 8 ∧ (s.core core).settling = false ∧ rechecks s core < 32 ∧
    ((((List.range 8).map fun j => ((s.core core).served + 1 + j) % 8).find? (canStart s core)) = some i) ∧ (s.hart
    (8 * core + i)).queue = pre ++ e :: (mid ++ post) ∧ (∀ x ∈ pre, x.started = true) ∧ e.started = false ∧ e.convoy
    = some v ∧ (∀ x ∈ mid, x.started = false ∧ x.convoy = none ∧ x.claim = none) ∧ (∀ x ∈ post.head?, x.started =
    false ∧ x.convoy ≠ none) := by
  refine ⟨queued [entry true false .none, entry false false .none, { entry false false .none with convoy := none }], 0,
    0, [entry true false .none], [{ entry false false .none with convoy := none }], [], entry false false .none,
    [1, 5], ?_⟩ <;>
    decide +kernel

theorem witness_QueueRuns_2 :
    ∃ s : State, ∃ core : Nat, ((s.core core).settling = true ∨ 32 ≤ rechecks s core ∨ (∀ i < 8, canStart s core i =
    false)) := by
  refine ⟨base, 0, .inr (.inr ?_)⟩ <;>
    decide +kernel

theorem witness_QueueRuns_3 :
    ∃ s : State, ∃ h : Nat, ∃ e : QueueEntry, ∃ rest : List QueueEntry, oldestWritten s h (s.hart h).queue = e ::
    rest := by
  refine ⟨queued [entry true false .none], 0, entry true true .none, [], ?_⟩ <;>
    decide +kernel

theorem witness_QueueRuns_4 :
    ∃ s : State, ∃ h : Nat, ∃ outcome : RecheckOutcome, (s.core (h / 8)).settling = true := by
  refine ⟨withCore base fun c => { c with settling := true }, 0, .agree, ?_⟩ <;>
    decide +kernel

theorem witness_QueueRuns_5 :
    ∃ s : State, ∃ h : Nat, ∃ e : QueueEntry, ∃ pre : List QueueEntry, ∃ rest : List QueueEntry, (s.core (h /
    8)).settling = false ∧ (s.hart h).queue = pre ++ e :: rest ∧ (∀ x ∈ pre, (x.written && x.recheck == .due) =
    false) ∧ e.written = true ∧ e.recheck = .due := by
  refine ⟨queued [entry true true .due], 0, entry true true .due, [], [], ?_⟩ <;>
    decide +kernel

theorem witness_QueueRuns_6 :
    ∃ s : State, ∃ h : Nat, ∃ e : QueueEntry, ∃ pre : List QueueEntry, ∃ rest : List QueueEntry, (s.core (h /
    8)).settling = false ∧ (s.hart h).queue = pre ++ e :: rest ∧ (∀ x ∈ pre, (x.written && x.recheck == .due) =
    false) ∧ e.written = true ∧ e.recheck = .due := by
  refine ⟨queued [entry true true .due], 0, entry true true .due, [], [], ?_⟩ <;>
    decide +kernel

theorem witness_QueueRuns_7 :
    ∃ s : State, ∃ h : Nat, ∃ e : QueueEntry, ∃ pre : List QueueEntry, ∃ rest : List QueueEntry, (s.core (h /
    8)).settling = false ∧ (s.hart h).queue = pre ++ e :: rest ∧ (∀ x ∈ pre, (x.written && x.recheck == .due) =
    false) ∧ e.written = true ∧ e.recheck = .due ∧ ∃ element : Nat, ∃ lane : Nat, pre = [] ∧ (s.hart h).iq = [] ∧
    HandledBy (s.hart h) e.before.regs := by
  refine ⟨queued [entry true true .due], 0, entry true true .due, [], [], ?_, ?_, ?_, ?_, ?_, 0, 0, ?_⟩ <;>
    decide +kernel

theorem witness_MarginEvents_1 :
    ∃ s : State, ∃ c : Nat, c < 192 ∧ (
      let x := s.core c
      min (x.wincnt + 1) 65535 ≤ x.limit) := by
  refine ⟨withCore base fun c => { c with limit := 65535, wincnt := 65535 }, 0, ?_, ?_⟩ <;>
    decide +kernel

theorem witness_MarginEvents_2 :
    ∃ s : State, ∃ c : Nat, c < 192 ∧ (
      let x := s.core c
      x.limit < min (x.wincnt + 1) 65535 ∧ x.esc ≠ 2 ∧ x.stepPoint ≠ 0) := by
  refine ⟨withCore base fun c => { c with limit := 64, wincnt := 64, stepPoint := 1 }, 0, ?_, ?_⟩ <;>
    decide +kernel

theorem witness_MarginEvents_3 :
    ∃ s : State, ∃ c : Nat, c < 192 ∧ (
      let x := s.core c
      x.limit < min (x.wincnt + 1) 65535 ∧ (x.esc = 2 ∨ x.stepPoint = 0) ∧ x.quarState = 0) := by
  refine ⟨withCore base fun c => { c with limit := 64, wincnt := 64 }, 0, ?_, ?_, .inr ?_, ?_⟩ <;>
    decide +kernel

theorem witness_MarginEvents_4 :
    ∃ s : State, ∃ c : Nat, c < 192 := by
  refine ⟨base, 191, ?_⟩ <;>
    decide +kernel

theorem witness_MarginEvents_5 :
    ∃ s : State, ∃ c : Nat, c < 192 := by
  refine ⟨base, 191, ?_⟩ <;>
    decide +kernel

theorem witness_MarginEvents_6 :
    ∃ s : State, ∃ h : Nat, ∃ element : Nat, ∃ lane : Nat, HandledBy (s.hart h) (s.hart h).regs ∧ ComesTo s h 0 := by
  refine ⟨handled (lined 2), 0, 0, 0, ?_, comes_to _ _ _ _ 0 1 0 rfl ?_ ?_ ?_ ?_ ?_ ?_ ?_⟩ <;>
    decide +kernel

theorem witness_MarginEvents_7 :
    ∃ s : State, ∃ h : Nat, ∃ element : Nat, ∃ lane : Nat, ∃ k : Nat, HandledBy (s.hart h) (s.hart h).regs ∧ ComesTo
    s h k ∧ k ≠ 0 := by
  refine ⟨handled (withHart base fun h => { h with line := some ⟨0, lineBits (wordsLine (encode true (.vadd 4 5 6 0 0 false)))⟩ }),
    0, 0, 0, 1, ?_, comes_to _ _ _ _ 0 1 0 rfl ?_ ?_ ?_ ?_ ?_ ?_ ?_, ?_⟩ <;>
    decide +kernel

theorem witness_MarginEvents_8 :
    ∃ s : State, ∃ h : Nat, ∃ element : Nat, ∃ lane : Nat, ∃ e : QueueEntry, ∃ rest : List QueueEntry, (s.hart
    h).queue = e :: rest ∧ (s.hart h).iq = [] ∧ HandledBy (s.hart h) e.before.regs ∧ e.started = true ∧ e.written =
    false ∧ e.final = false := by
  refine ⟨queued [entry true false .none], 0, 0, 0, entry true false .none, [], ?_⟩ <;>
    decide +kernel

theorem witness_MarginEvents_9 :
    ∃ s : State, ∃ c : Nat, (s.core c).quarState = 1 ∧ (∀ i < 8, (s.hart (8 * c + i)).node = none) := by
  refine ⟨base.updCore 191 fun c => { c with quarState := 1 }, 191, ?_, ?_⟩ <;>
    decide +kernel

theorem witness_StoresDrainAndChecksEnd_1 :
    ∃ s : State, ∃ h : Nat, ∃ key : Nat, ∃ a : Word, ∃ bs : List Byte, ∃ tags : List Nat, ∃ fills : Bool, ∃ vec :
    Bool, ∃ ordered : Bool, ∃ rest : List StoreEntry, Canonical s ∧ (s.hart h).sb = ⟨none, [⟨a.toNat, key, bs⟩],
    tags, false, fills, vec, ordered⟩ :: rest ∧ s.pushWaits h ⟨none, [⟨a.toNat, key, bs⟩], tags, false, fills, vec,
    ordered⟩ = false ∧ (fills = true → bs.length ≠ 8) ∧ s.migrations = [] ∧ PlainPart s h := by
  refine ⟨withHart base fun h => { h with sb := [⟨none, [⟨64, 64, [1]⟩], [], false, true, false, false⟩] }, 0, 64, 64,
    [1], [], true, false, false, [], canonical_of _ ?_, ?_, ?_, ?_, ?_, notDet _ _ ?_⟩ <;>
    decide +kernel

theorem witness_StoresDrainAndChecksEnd_2 :
    ∃ s : State, ∃ h : Nat, ∃ e : StoreEntry, ∃ rest : List StoreEntry, (s.hart h).sb = e :: rest ∧ (e.held = true ∨
    s.pushWaits h e = true) := by
  refine ⟨withHart base fun h => { h with sb := [⟨none, [⟨64, 64, [1]⟩], [], true, true, false, false⟩] }, 0,
    ⟨none, [⟨64, 64, [1]⟩], [], true, true, false, false⟩, [], ?_, .inl ?_⟩ <;>
    decide +kernel

theorem witness_StoresDrainAndChecksEnd_3 :
    ∃ s : State, ∃ h : Nat, ∃ i : Nat, ∃ e : StoreEntry, (s.hart h).sb.findIdx? (·.held) = some i ∧ (s.hart
    h).sb[i]? = some e ∧ PlainPart s h := by
  refine ⟨withHart base fun h => { h with sb := [⟨none, [⟨64, 64, [1]⟩], [], true, true, false, false⟩] }, 0, 0, _, ?_,
    rfl, notDet _ _ ?_⟩ <;>
    decide +kernel

theorem witness_StoresDrainAndChecksEnd_4 :
    ∃ s : State, ∃ h : Nat, ∃ pre : List Posted, ∃ rest : List Posted, ∃ x : Posted, (∀ e ∈ (s.hart h).sb, e.held =
    false) ∧ s.posted = pre ++ x :: rest ∧ (∀ y ∈ pre, y.hart ≠ h ∨ y.held = false) ∧ x.hart = h ∧ x.held = true ∧
    PlainPart s h := by
  refine ⟨{ base with posted := [⟨1, .management 0, 0, 8, 1, true⟩, ⟨0, .management 0, 0, 8, 1, true⟩] }, 0,
    [⟨1, .management 0, 0, 8, 1, true⟩], [], ⟨0, .management 0, 0, 8, 1, true⟩, ?_, ?_, ?_, ?_, ?_,
    notDet _ _ ?_⟩ <;>
    decide +kernel

theorem witness_StoresDrainAndChecksEnd_5 :
    ∃ s : State, ∃ h : Nat, 0 < (s.hart h).unchecked := by
  refine ⟨withHart base fun h => { h with unchecked := 1 }, 0, ?_⟩ <;>
    decide +kernel

theorem witness_StoresDrainAndChecksEnd_6 :
    ∃ s : State, ∃ h : Nat, ∃ p : Nat, ∃ k : Nat, ∃ r : Nat, ∃ a : Word, ∃ x : Partition, ∃ n : Node, (s.hart
    h).node = some (p, k, r) ∧ s.part p = some x ∧ tget x.nodes k = some n ∧ 0 < (s.hart h).unchecked ∧ x.det =
    false := by
  refine ⟨withHart base fun h => { h with unchecked := 1 }, 0, 0, 1, 0, 64, testPart, testNode, ?_⟩ <;>
    decide +kernel

theorem witness_PacketsArrive_1 :
    ∃ s : State, ∃ q : Nat, ∃ seq : Nat, ∃ loc : Nat, ∃ bs : List Byte, ∃ fills : Bool, InTurn s q seq (.write
    [(loc, bs)] fills []) ∧ (fills = true → bs.length ≠ 8) := by
  refine ⟨paged, 383, 0, 64, [1], true,
    ⟨?_, ?_, ?_, fun a h => ⟨largeEntry0, by revert a; decide +kernel⟩, ?_, canonical_of _ ?_⟩, ?_⟩ <;>
    decide +kernel

theorem witness_PacketsArrive_2 :
    ∃ s : State, ∃ q : Nat, ∃ seq : Nat, ∃ loc : Nat, ∃ n : Nat, InTurn s q seq (.read loc n) := by
  refine ⟨paged, 383, 0, 64, 8,
    ⟨?_, ?_, ?_, fun a h => ⟨largeEntry0, by revert a; decide +kernel⟩, ?_, canonical_of _ ?_⟩⟩ <;>
    decide +kernel

theorem witness_PacketsArrive_3 :
    ∃ s : State, ∃ q : Nat, ∃ seq : Nat, ∃ loc : Nat, ∃ v : Word, InTurn s q seq (.amo 0 8 loc v) := by
  refine ⟨paged, 383, 0, 64, 1,
    ⟨?_, ?_, ?_, fun a h => ⟨largeEntry0, by revert a; decide +kernel⟩, ?_, canonical_of _ ?_⟩⟩ <;>
    decide +kernel

theorem witness_PacketsArrive_4 :
    ∃ s : State, ∃ q : Nat, ∃ seq : Nat, ∃ p : Packet, (s.peer q).failed = false ∧ (∀ w l cs, p ≠ .merged w l cs) ∧
    1 ≤ (seq % 65536 + 65536 - (s.peer q).expect % 65536) % 65536 ∧ (seq % 65536 + 65536 - (s.peer q).expect %
    65536) % 65536 ≤ 255 ∧ (∀ h ∈ (s.peer q).held, h.1 ≠ seq % 65536 ∧ h.1 ≠ (s.peer q).expect) := by
  refine ⟨base, 383, 255, .read 0 8, ?_, (fun _ _ _ h => nomatch h), ?_⟩ <;>
    decide +kernel

theorem witness_PacketsArrive_5 :
    ∃ s : State, ∃ q : Nat, ∃ seq : Nat, ∃ p : Packet, (s.peer q).failed = true ∧ (∀ w l cs, p ≠ .merged w l cs) := by
  refine ⟨withPeer { Peer.reset with failed := true }, 1, 0, .read 0 8, ?_, (fun _ _ _ h => nomatch h)⟩ <;>
    decide +kernel

theorem witness_AnswersAndLosses_1 :
    ∃ s : State, ∃ q : Nat, ∃ ack : Nat, ∃ u : Sent, (s.peer q).failed = false ∧ (s.peer q).unacked = [u] ∧ (s.peer
    q).waiting = [] ∧ hasReply u.packet = false ∧ u.origin = .none ∧ (ack % 65536 + 65536 - u.seq % 65536) % 65536 <
    32768 ∧ ack < 65536 := by
  refine ⟨withPeer { Peer.reset with unacked := [⟨5, .write [(0, [1])] true [], .none, 0⟩] }, 1, 5,
    ⟨5, .write [(0, [1])] true [], .none, 0⟩, ?_⟩ <;>
    decide +kernel

theorem witness_AnswersAndLosses_2 :
    ∃ s : State, ∃ q : Nat, ∃ seq : Nat, ∃ p : Nat, ∃ k : Nat, ∃ r : Nat, ∃ u : Sent, ∃ x : Request, ∃ n : Node, ∃ a
    : Reply, (s.peer q).failed = false ∧ (s.peer q).unacked = [u] ∧ (s.peer q).waiting = [] ∧ u.seq = seq ∧ hasReply
    u.packet = true ∧ a ≠ Reply.lost ∧ s.node p k = some n ∧ (tget n.ranks r).isSome = true ∧ (∃ tags pages vec,
    u.origin = .rank p (s.handle p k) r tags pages vec) ∧ s.slotOf p (s.handle p k) = some k ∧ requestOf s p k r q
    seq = some x := by
  refine ⟨(withPeer { Peer.reset with unacked := [⟨5, .read 0 8, .rank 0 0x10001 0 [] [] false, 0⟩] }).updRank 0 1 0 fun r =>
    { r with requests := [⟨0, 1, 5, false, 0, none⟩] },
    1, 5, 0, 1, 0, ⟨5, .read 0 8, .rank 0 0x10001 0 [] [] false, 0⟩, ⟨0, 1, 5, false, 0, none⟩, _,
    ⟨[], [], false⟩, ?_, ?_, ?_, ?_, ?_, ?_, rfl, ?_, ⟨[], [], false, ?_⟩, ?_, ?_⟩ <;>
    decide +kernel

theorem witness_AnswersAndLosses_3 :
    ∃ s : State, ∃ n : Nat, ∃ same : Bool, n < 72 ∧ (s.port n).state = 1 ∧ (
      let row := if same then (s.port n).inRow + 1 else 1
      row < 16) := by
  refine ⟨withPort 71 14, 71, true, ?_, ?_, ?_⟩ <;>
    decide +kernel

theorem witness_AnswersAndLosses_4 :
    ∃ s : State, ∃ n : Nat, ∃ same : Bool, n < 72 ∧ (s.port n).state = 1 ∧ (
      let row := if same then (s.port n).inRow + 1 else 1
      16 ≤ row) := by
  refine ⟨withPort 71 15, 71, true, ?_, ?_, ?_⟩ <;>
    decide +kernel

theorem witness_AnswersAndLosses_5 :
    ∃ s : State, ∃ n : Nat, ∃ same : Bool, n < 72 ∧ (s.port n).state = 1 := by
  refine ⟨withPort 71 0, 71, true, ?_, ?_⟩ <;>
    decide +kernel

theorem witness_AnswersAndLosses_6 :
    ∃ s : State, ∃ q : Nat, ∃ seq : Nat, ∃ n : Nat, ∃ u : Sent, (s.peer q).unacked = [u] ∧ u.seq = seq ∧ Open s q n
    ∧ n ≠ u.port ∧ (∀ m, Open s q m → m = n ∨ m = u.port) := by
  refine ⟨resending, 1, 5, 71, ⟨5, .read 0 8, .none, 3⟩, ?_, ?_, ?_, ?_, (fun m h => one_port m h.1 h.2.1)⟩ <;>
    decide +kernel

theorem witness_AnswersAndLosses_7 :
    ∃ s : State, ∃ q : Nat, ∃ i : Instr, (i = .peerFailDeclare q ∨ i = .peerRestartReport q) ∧ q < 384 ∧ (s.peer
    q).failed = false := by
  refine ⟨base, 383, .peerFailDeclare 383, .inl rfl, ?_, ?_⟩ <;>
    decide +kernel

theorem witness_AnswersAndLosses_8 :
    ∃ s : State, ∃ i : Nat, ∃ k : Nat, ∃ v : Word, k < 64 ∧ 64 * i + k < 384 ∧ v.getLsbD k = true ∧ (s.peer (64 * i
    + k)).failed = true ∧ s.st.stage = 3 := by
  refine ⟨withPeer { Peer.reset with failed := true }, 0, 1, 2, ?_⟩ <;>
    decide +kernel

theorem witness_AnswersAndLosses_9 :
    ∃ s : State, ∃ i : Nat, ∃ v : Word, s.st.stage ≠ 3 := by
  refine ⟨State.reset, 5, 1, ?_⟩ <;>
    decide +kernel

theorem witness_AnswersAndLosses_10 :
    ∃ s : State, ∃ q : Nat, q < 384 ∧ (s.peer q).unacked = [] ∧ (s.peer q).waiting = [] ∧ (∀ c ∈ s.commands, c.2.op
    = 3 → c.2.ended = false → q ∉ c.2.members) := by
  refine ⟨base, 383, ?_, ?_, ?_, no_members _ _ ?_⟩ <;>
    decide +kernel

theorem witness_AnswersAndLosses_11 :
    ∃ s : State, ∃ die : Nat, ∃ q : Nat, ∃ line : Nat, ∃ bs : List Byte, bs.length = 64 ∧ die < 4 ∧ (s.peer
    q).failed = false ∧ s.writesTo q line = true := by
  refine ⟨withPeer { Peer.reset with unacked := [⟨5, .write [(0, [1])] true [], .none, 0⟩] }, 3, 1, 0,
    List.replicate 64 1, ?_⟩ <;>
    decide +kernel

theorem witness_AnswersAndLosses_12 :
    ∃ s : State, ∃ die : Nat, ∃ q : Nat, ∃ line : Nat, ∃ bs : List Byte, bs.length = 64 ∧ die < 4 ∧ (s.peer
    q).failed = false ∧ s.writesTo q line = false := by
  refine ⟨base, 3, 383, 0, List.replicate 64 1, ?_⟩ <;>
    decide +kernel

theorem witness_AnswersAndLosses_13 :
    ∃ s : State, ∃ die : Nat, ∃ q : Nat, ∃ line : Nat, ∃ bs : List Byte, bs.length = 64 ∧ die < 4 ∧ (s.peer
    q).failed = false := by
  refine ⟨base, 3, 383, 0, List.replicate 64 1, ?_⟩ <;>
    decide +kernel

theorem witness_EnginesWrite :
    ∃ s : State, ∃ c : Nat, ∃ n : Nat, ∃ va : Nat, ∃ key : Nat, ∃ x : Command, ∃ y : Partition, ∃ b : Buffer, ∃ e :
    Entry, tget s.commands c = some x ∧ CopyReads s x n va key e ∧ s.part x.part = some y ∧ tget y.buffers x.slot =
    some b ∧ Memory.wf b.shadow = true ∧ x.offset + x.written + n ≤ b.size ∧ b.size < 2 ^ 57 := by
  refine ⟨engineReads, 0, 64, 0, 0, command, bufferedPart, buffer, largeEntry0, ?_, ⟨?_, ?_, ?_, ?_, ?_⟩, ?_⟩ <;>
    decide +kernel

theorem witness_PagerReplies_1 :
    ∃ s : State, ∃ id : Nat, ∃ p : Nat, ∃ k : Nat, ∃ r : Nat, ∃ level : Nat, ∃ h : Nat, ∃ b : Batch, ∃ unres : Bool,
    ∃ un : List Nat, tget s.batches id = some b ∧ b.owner = .rank p (s.handle p k) r level ∧ s.slotOf p (s.handle p
    k) = some k ∧ (s.rank p k r).saved = false ∧ (s.rank p k r).hart = some h ∧ (unres = true ↔ Absent s b) ∧ (level
    = 1 ∨ level = 2) := by
  refine ⟨{ (base.updRank 0 1 0 fun r => { r with waitBatch := true }) with batches := [(3, ⟨.rank 0 0x10001 0 2, pageReport⟩)] },
    3, 0, 1, 0, 2, 0, ⟨.rank 0 0x10001 0 2, pageReport⟩, true, [], ?_, ?_, ?_, ?_, ?_, ?_, .inr rfl⟩ <;>
    decide +kernel

theorem witness_PagerReplies_2 :
    ∃ s : State, ∃ id : Nat, ∃ p : Nat, ∃ k : Nat, ∃ r : Nat, ∃ level : Nat, ∃ h : Nat, ∃ b : Batch, ∃ unres : Bool,
    ∃ un : List Nat, tget s.batches id = some b ∧ b.owner = .rank p (s.handle p k) r level ∧ s.slotOf p (s.handle p
    k) = some k ∧ (s.rank p k r).saved = false ∧ (s.rank p k r).hart = some h ∧ (unres = true ↔ Absent s b) ∧ level
    = 0 ∧ unres = false ∧ (s.rank p k r).waitBatch = true := by
  refine ⟨{ (base.updRank 0 1 0 fun r => { r with waitBatch := true }) with batches := [(3, ⟨.rank 0 0x10001 0 0, []⟩)] },
    3, 0, 1, 0, 0, 0, ⟨.rank 0 0x10001 0 0, []⟩, false, [], ?_⟩ <;>
    decide +kernel

theorem witness_PagerReplies_3 :
    ∃ s : State, ∃ id : Nat, ∃ b : Batch, ∃ maps : List PageMap, ∃ un : List Nat, tget s.batches id = some b ∧ (∀ x
    ∈ maps, (∃ g ∈ un, InMap x g) ∨ ∀ g ∈ reportPages b.report, ¬ InMap x g) := by
  refine ⟨{ (base.updRank 0 1 0 fun r => { r with waitBatch := true }) with batches := [(3, ⟨.rank 0 0x10001 0 2, pageReport⟩)] },
    3, ⟨.rank 0 0x10001 0 2, pageReport⟩, [⟨131072, false, 0, 1, 511, 0, true, true, true, false, false, 0, 0⟩],
    [2], ?_, ?_⟩ <;>
    decide +kernel

theorem witness_PagerReplies_4 :
    ∃ s : State, ∃ die : Nat, ∃ p : Nat, ∃ vpn : Nat, ∃ e : Entry, s.inL2 die p (vpn * 2 ^ 16) = some e ∧ e.mode = 3
    ∧ e.migreq = false ∧ 2 ^ e.thr ≤ e.acnt := by
  refine ⟨{ base with l2 := [(0, [{ testEntry with mode := 3, pool := 8, acnt := 1 }])] }, 0, 0, 0, _, rfl, ?_⟩ <;>
    decide +kernel

theorem witness_PagerReplies_6 :
    ∃ s : State, ∃ a : Nat, ∃ b : Nat, ∃ peer : Nat, ∃ rframe : Nat, ∃ e : Entry, ∃ n : Nat, MayMove s a b e n := by
  refine ⟨smallPage, 0, 65536, 0, 0, _, _, ⟨⟨rfl, ?_⟩, ?_, ?_, ?_, ?_, ?_⟩⟩ <;>
    decide +kernel

theorem witness_PagerReplies_7 :
    ∃ s : State, ∃ m : Migration, Canonical s ∧ s.migrations = [m] ∧ m.copied < 1023 ∧ homePool m.source ≠ 15 ∧
    homePool m.target ≠ 15 := by
  refine ⟨{ base with migrations := [⟨0, 65536, 1022, false, 0, 0⟩] }, ⟨0, 65536, 1022, false, 0, 0⟩,
    canonical_of _ ?_, ?_⟩ <;>
    decide +kernel

theorem witness_PagerReplies_8 :
    ∃ s : State, ∃ m : Migration, s.migrations = [m] ∧ m.copied = 1024 ∧ s.usesFrame m = false := by
  refine ⟨{ base with migrations := [⟨0, 65536, 1024, false, 0, 0⟩] }, ⟨0, 65536, 1024, false, 0, 0⟩, ?_⟩ <;>
    decide +kernel

theorem witness_DeviceRegisters_1 :
    ∃ s : State, ∃ v : Word, s.st.stage = 3 ∧ ∃ i : Instr, (i = .pwrCapWrite v ∨ i = .registerWrite (.silven none)
    ⟨0x40000, 8⟩ v) := by
  refine ⟨base, 0, ?_, .pwrCapWrite 0, .inl rfl⟩ <;>
    decide +kernel

theorem witness_DeviceRegisters_2 :
    ∃ s : State, ∃ v : Word, s.st.stage = 3 ∧ ∃ p : Nat, s.alive p = true ∧ (s.rights p .silven .host).getLsbD 7 =
    true := by
  refine ⟨withPart base fun x => { x with access := [⟨.silven, .host, 0x80⟩] }, 0, ?_, 0, ?_, ?_⟩ <;>
    decide +kernel

theorem witness_DeviceRegisters_3 :
    ∃ s : State, ∃ v : Word, s.st.stage = 3 ∧ ∃ p : Nat, ∃ offset : Nat, (s.rights p .silven .host).getLsbD 7 =
    false := by
  refine ⟨withPart base fun x => { x with access := [⟨.silven, .host, 0x7F⟩] }, 0, ?_, 0, 0x40000, ?_⟩ <;>
    decide +kernel

theorem witness_DeviceRegisters_4 :
    ∃ s : State, ∃ v : Word, s.st.stage = 3 ∧ ∃ i : Instr, (i = .fabCtlWrite v ∨ i = .registerWrite (.silven none)
    ⟨0x20400, 8⟩ v) := by
  refine ⟨base, 0, ?_, .fabCtlWrite 0, .inl rfl⟩ <;>
    decide +kernel

theorem witness_DeviceRegisters_5 :
    ∃ s : State, ∃ v : Word, s.st.stage = 3 ∧ s.parts ≠ [] := by
  refine ⟨base, 0, ?_, ?_⟩ <;>
    decide +kernel

theorem witness_DeviceRegisters_6 :
    ∃ s : State, ∃ v : Word, s.st.stage = 3 ∧ s.parts = [] ∧ 10 ≤ bits v.toNat 4 0 ∧ bits v.toNat 4 0 ≤ 26 := by
  refine ⟨{ base with parts := [] }, 26, ?_⟩ <;>
    decide +kernel

theorem witness_DeviceRegisters_7 :
    ∃ s : State, ∃ v : Word, s.st.stage = 3 ∧ s.parts = [] := by
  refine ⟨{ base with parts := [] }, 26, ?_, ?_⟩ <;>
    decide +kernel

theorem witness_DeviceRegisters_8 :
    ∃ s : State, ∃ p : Nat, ∃ v : Word, ∃ x : Partition, s.part p = some x ∧ x.teardown = .none ∧ x.nodes ≠ [] := by
  refine ⟨base, 0, 0, testPart, ?_⟩ <;>
    decide +kernel

theorem witness_DeviceRegisters_9 :
    ∃ s : State, ∃ p : Nat, ∃ v : Word, ∃ x : Partition, s.part p = some x ∧ x.teardown = .none ∧ x.nodes = [] := by
  refine ⟨withPart base fun _ => { testPart with nodes := [] }, 0, 0, { testPart with nodes := [] }, ?_⟩ <;>
    decide +kernel

theorem witness_DeviceRegisters_10 :
    ∃ s : State, ∃ p : Nat, ∃ v : Word, ∃ x : Partition, s.part p = some x ∧ x.teardown = .none ∧ x.nodes = [] := by
  refine ⟨withPart base fun _ => { testPart with nodes := [] }, 0, 0, { testPart with nodes := [] }, ?_⟩ <;>
    decide +kernel

theorem witness_DeviceRegisters_11 :
    ∃ s : State, ∃ p : Nat, ∃ v : Word, ∃ x : Partition, s.part p = some x ∧ x.teardown = .none := by
  refine ⟨base, 0, 3, testPart, ?_, ?_⟩ <;>
    decide +kernel

theorem witness_DeviceRegisters_12 :
    ∃ s : State, ∃ p : Nat, ∃ v : Word, ∃ x : Partition, s.part p = some x ∧ x.teardown = .none := by
  refine ⟨base, 0, 3, testPart, ?_, ?_⟩ <;>
    decide +kernel

theorem witness_DeviceRegisters_13 :
    ∃ s : State, ∃ p : Nat, ∃ v : Word, ∃ offset : Nat, ∃ width : Nat, s.alive p = false := by
  refine ⟨base, 63, 0, 0x50, 8, ?_⟩ <;>
    decide +kernel

theorem witness_DeviceRegisters_14 :
    ∃ s : State, ∃ p : Nat, ∃ v : Word, ∃ offset : Nat, ∃ width : Nat, s.alive p = false := by
  refine ⟨base, 63, 0, 0x50, 8, ?_⟩ <;>
    decide +kernel

theorem witness_DeviceRegisters_15 :
    ∃ s : State, ∃ space : RegSpace, ∃ v : Word, ∃ offset : Nat, ∃ width : Nat, (offset % 8 ≠ 0 ∨ width ≠ 8) := by
  refine ⟨base, .management 0, 0, 0x50, 4, ?_⟩ <;>
    decide +kernel

theorem witness_DeviceRegisters_16 :
    ∃ s : State, ∃ v : Word, ∃ offset : Nat, ∃ width : Nat, s.st.stage ≠ 3 ∧ offset ≠ 0x000 ∧ offset ≠ 0x008 ∧
    (offset < 0x50000 ∨ 0x50018 < offset) := by
  refine ⟨State.reset, 0, 0x40000, 8, ?_⟩ <;>
    decide +kernel

theorem witness_StepRunsDecoded_1 :
    ∃ s : State, ∃ h : Nat, ∃ quota : Option Nat, ∃ l : Line, ∃ i : Instr, s.powered = true ∧ TurnOf s h quota ∧
    Executes s h ∧ (s.hart h).partway = none ∧ (s.hart h).line = some l ∧ decodeAt l.bits (headIndex (s.hart
    h).regs.pc) = .ok i ∧ startsConvoy l.bits 32 (headIndex (s.hart h).regs.pc) = false := by
  refine ⟨lined 4, 0, none, adds, .nop, ?_, turn_own _ ?_ ?_ ?_,
    executes_of _ _ 0 1 0 testNode ?_ ?_ ?_ ?_ ?_ ?_ ?_ ?_, ?_, ?_, ok_of _ ?_, ?_⟩ <;>
    decide +kernel

theorem witness_StepRunsDecoded_2 :
    ∃ s : State, ∃ h : Nat, ∃ quota : Option Nat, ∃ l : Line, ∃ i : Instr, s.powered = true ∧ TurnOf s h quota ∧
    Executes s h ∧ (s.hart h).partway = none ∧ (s.hart h).line = some l ∧ decodeAt l.bits (headIndex (s.hart
    h).regs.pc) = .ok i ∧ startsConvoy l.bits 32 (headIndex (s.hart h).regs.pc) = true ∧ convoyConflict (isFC (h /
    8)) l.bits (headIndex (s.hart h).regs.pc) = none := by
  refine ⟨{ lined 2 with agenda := [.part 0 3] }, 0, some 3, adds, .add 4 4 5, ?_, turn_part _ _ _ [] ?_,
    executes_of _ _ 0 1 0 testNode ?_ ?_ ?_ ?_ ?_ ?_ ?_ ?_, ?_, ?_, ok_of _ ?_, ?_, ?_⟩ <;>
    decide +kernel

theorem witness_StepRunsDecoded_3 :
    ∃ s : State, ∃ h : Nat, ∃ key : Nat, ∃ quota : Option Nat, ∃ e : Entry, ∃ i : Instr, s.powered = true ∧ TurnOf s
    h quota ∧ Executes s h ∧ (s.hart h).partway = none ∧ (s.hart h).line = none ∧ NamesHead (s.hart h).regs.pc ∧ (
      let a := lineAddr (s.hart h).regs.pc
      let bits := lineBits (getBytes s.mem key 64)
      let n := headIndex (s.hart h).regs.pc
      inWindow a = false ∧ a < 2 ^ 57 ∧ (s.core (h / 8)).tlb.find? (·.covers (s.hart h).part a) = some e ∧ s.granted
        (s.hart h).part .hart e needX = true ∧ e.mode ≠ 3 ∧ e.place a = .home key ∧ s.migrations = [] ∧ s.poisonIn key
        64 = none ∧ lineFault bits n = none ∧ convoyConflict (isFC (h / 8)) bits n = none ∧ decodeAt bits n = .ok i) := by
  refine ⟨base, 0, 0, none, testEntry, .add 4 4 5, ?_, turn_own _ ?_ ?_ ?_,
    executes_of _ _ 0 1 0 testNode ?_ ?_ ?_ ?_ ?_ ?_ ?_ ?_, ?_, ?_, ?_, ?_, ?_, ?_, ?_, ?_, ?_, ?_, ?_, ?_, ?_,
    ok_of _ ?_⟩ <;>
    decide +kernel

theorem witness_StepRunsDecoded_4 :
    ∃ s : State, ∃ e : QueueEntry, ∃ rest : List QueueEntry, s.powered = true ∧ s.agenda = [] ∧ (me s).iq = [] ∧ (me
    s).queue = e :: rest ∧ (e.started = true ∨ (me s).convoyReady = true) := by
  refine ⟨queued [entry true false .none], entry true false .none, [], ?_⟩ <;>
    decide +kernel

theorem witness_StepRunsDecoded_5 :
    ∃ s : State, s.powered = true ∧ s.agenda = [] ∧ (me s).iq = [] ∧ (me s).queue = [] ∧ (me s).unchecked ≠ 0 := by
  refine ⟨withHart base fun h => { h with unchecked := 1 }, ?_⟩ <;>
    decide +kernel

theorem witness_StepRunsDecoded_6 :
    ∃ s : State, ∃ i : Instr, s.agenda.headD .own = .event i ∧ toRaw i = none ∧ s.powered = true := by
  refine ⟨{ base with agenda := [.event .powerUp] }, .powerUp, ?_⟩ <;>
    decide +kernel

theorem witness_StepRunsDecoded_7 :
    ∃ s : State, ∃ i : Instr, s.agenda.headD .own = .event i ∧ toRaw i ≠ none := by
  refine ⟨{ base with agenda := [.event .nop] }, .nop, ?_, ?_⟩ <;>
    decide +kernel

theorem witness_StepRunsDecoded_8 :
    ∃ s : State, ∃ e : Fault, step s = .fault e := by
  refine ⟨{ base with agenda := [.event .nop] }, .notAnEvent, fault_of _ ?_⟩ <;>
    decide +kernel

theorem witness_QueueWaits_1 :
    ∃ i : Instr, ∃ s : State, waitsForQueue i = true ∧ (me s).queue ≠ [] := by
  refine ⟨.done, queued [entry false false .none], ?_, ?_⟩ <;>
    decide +kernel

theorem witness_QueueWaits_2 :
    ∃ i : Instr, ∃ s : State, ((laneOf (regs s) i).isSome = true ∨ (compareOf (regs s) i).isSome = true ∨ (maskOpOf
    i).isSome = true ∨ (moveOf (regs s) i).isSome = true) ∧ 64 ≤ (me s).queue.length := by
  refine ⟨.vadd 4 5 6 0 0 false, queued (List.replicate 64 (entry false false .none)), .inl ?_, ?_⟩ <;>
    decide +kernel

theorem witness_QueueWaits_3 :
    ∃ i : Instr, ∃ s : State, ∃ rd : Reg, ∃ a : Word, ∃ b : Word, ∃ sg : Bool, ∃ rem : Bool, divisionOf (regs s) i =
    some (rd, a, b, sg, rem) ∧ (regs s).atc &&& divisionFlag a b sg ≠ 0 ∧ (me s).queue ≠ [] := by
  refine ⟨.div 4 6 0, withRegs (queued [entry false false .none]) fun g => { g with atc := 0x20 }, 4, 1, 0, true,
    false, ?_⟩ <;>
    decide +kernel

theorem witness_QueueWaits_4 :
    ∃ i : Instr, ∃ s : State, ∃ c : Prop, ∃ target : Word, ∃ g : Regs, transferOf s i = some (c, target, g) ∧ c ∧ (¬
    NamesHead target) ∧ (me s).queue ≠ [] := by
  refine ⟨.jalr 1 0 64, queued [entry false false .none], True, 64, _, rfl, trivial, ?_, ?_⟩ <;>
    decide +kernel

theorem witness_QueueWaits_5 :
    ∃ s : State, ∃ rd : Reg, ∃ ra : Reg, (∃ e ∈ (me s).queue, tileAt e.before.regs ((regs s).phys ra.toNat) ≠ tileAt
    (regs s) ((regs s).phys ra.toNat)) := by
  refine ⟨queued [{ entry false false .none with before := { before with regs := regs (withTile base 5 0x10001) } }],
    4, 5, ⟨_, .head _, ?_⟩⟩ <;>
    decide +kernel

theorem witness_ExpandingCopiesAreQueued_1 :
    ∃ s : State, ∃ rd : Reg, ∃ ra : Reg, ∃ rb : Reg, ∃ rc : Reg, ∃ ch : BitVec 2, ∃ offset : Word, Drained s ∧ (
      let dst := (regs s).getS ra
      let hdr := ((regs s).getS rb).toNat
      let n := ((regs s).getS rc).toNat
      let b0 := offset.toNat / 4096
      let known := min (n / 4096) (padValue s (hdr + 8) 8 - min b0 (padValue s (hdr + 8) 8))
      let words := (List.range 8).map fun i => padValue s (hdr + 8 * i) 8
      n < 2 ^ 32 ∧ n % 4096 = 0 ∧ offset.toNat % 4096 = 0 ∧ hdr % 64 = 0 ∧ (myCore s).padPoison = [] ∧ InWindow hdr 64
        ∧ headerOk words = true ∧ bits (words.getD 0 0) 9 8 ≠ 0 ∧ n = 0) := by
  refine ⟨withS compressed [(8, 0)], 4, 5, 7, 8, 3, 4096, ?_, ?_⟩ <;>
    decide +kernel

theorem witness_SparseRowsLoad_1 :
    ∃ s : State, ∃ pd : Reg, ∃ ra : Reg, ∃ disp : Word, Drained s ∧ Typed s ∧ (slotOf s pd).owner = some s.cur ∧
    slotFormat (gFmt (regs s)) = true ∧ gFmt (regs s) ≠ 0xA ∧ (
      let hdr := ((regs s).getS ra + disp).toNat
      let cols := (regs s).dlen[0].toNat
      let rows := (regs s).dlen[1].toNat
      let eb := gWidth (regs s) / 8
      rows * cols * gWidth (regs s) / 8 ≤ 32768 ∧ hdr % 8 = 0 ∧ (rows = 0 ∨ cols = 0)) := by
  refine ⟨palette 0 4 0, 31, 5, 0, ?_, ?_, ?_, ?_, ?_, ?_, ?_, .inl ?_⟩ <;>
    decide +kernel


end Sys2Proof.Tests
end

