-- ==== Sys2Proof/Tests/Slice0.lean ====
section
/-!
SUPPORT. Slice0.lean: tests of the well-formedness checks, of decoding against words written out from the spec, and of
single steps against the spec's worked examples or hand calculation.
-/

namespace Sys2Proof.Tests

open Sys2Proof Sys2Proof.Machine

set_option Elab.async false

/-! ## Well-formedness: each check refuses an ill-formed term -/

/-- R181: LOOP takes 1 to 4 stages. -/
theorem test_wf_loop : Instr.wf (.loop 0 0) = false ∧ Instr.wf (.loop 5 0) = false ∧ Instr.wf (.loop 4 0) = true := by decide

/-- R204: there are three dimensions. -/
theorem test_wf_setdim : Instr.wf (.setdim 3 1 2) = false ∧ Instr.wf (.setdim 2 1 2) = true := by decide

/-- R169: rounding code 7 is not defined. -/
theorem test_wf_rounding : Instr.wf (.vadd 1 2 3 0 7 false) = false ∧ Instr.wf (.vsub 1 2 3 0 7 false) = false ∧
    Instr.wf (.vmul 1 2 3 0 7) = false ∧ Instr.wf (.vdiv 1 2 3 0 7) = false ∧ Instr.wf (.vsqrt 1 2 0 7) = false ∧
    Instr.wf (.vmadd 1 2 3 4 0 7) = false ∧ Instr.wf (.vmsub 1 2 3 4 0 7) = false ∧
    Instr.wf (.vnmadd 1 2 3 4 0 7) = false ∧ Instr.wf (.vwmac 1 2 3 4 0 7) = false ∧
    Instr.wf (.vcvt 8 1 2 0 7) = false := by decide

/-- R214: format codes end at 0xA. -/
theorem test_wf_vcvt : Instr.wf (.vcvt 11 1 2 0 0) = false ∧ Instr.wf (.vcvt 10 1 2 0 0) = true := by decide

/-- R302: nine operations. -/
theorem test_wf_vamo : Instr.wf (.vamo 9 1 2 0 0 0) = false ∧ Instr.wf (.vamo 8 1 2 0 0 0) = true := by decide

/-- R337: six scopes. -/
theorem test_wf_fence : Instr.wf (.fence 6 1) = false ∧ Instr.wf (.fence 5 1) = true := by decide

/-- R13, R17, R55, R31: cores, harts, ports, peers, partitions, tables and channels that the part has. -/
theorem test_wf_events : Instr.wf (.convoyStart 192) = false ∧ Instr.wf (.instructionRetire 1536) = false ∧
    Instr.wf (.portDown 72) = false ∧ Instr.wf (.peerFailDeclare 384) = false ∧ Instr.wf (.partTeardown 64) = false ∧
    Instr.wf (.schedCycle 16) = false ∧ Instr.wf (.copyChannelDeliver 0 4 1) = false ∧ Instr.wf (.refresh 296 1) = false ∧
    Instr.wf (.cacheFill 4 0 0 []) = false ∧ Instr.wf (.peerFailClear 6 0) = false ∧ Instr.wf (.ackArrive 0 65536) = false ∧
    Instr.wf (.stage2Complete [192] [] []) = false ∧ Instr.wf (.partitionCreate { grant with slots := 1 }) = false := by
  decide

/-! ## Decoding: words the spec writes out, or that follow from its encoding tables bit by bit -/

/-- An instruction's words decode to it. -/
abbrev reads (head : BitVec 16) (tail : List (BitVec 16)) (i : Instr) : Prop := (decode head tail).toOption = some i

/-- R90's line, and the encodings listed in file 10. -/
theorem test_decode_scalar : reads 0x1145 [0, 0x1000] (.addi 5 0 4096) ∧ reads 0x1024 [0x0085] (.add 4 4 5) ∧
    reads 0x102A [0x40A2] (.mul 10 5 2) ∧ reads 0x1828 [0x0C20] (.ldD 8 1 0) ∧
    reads 0x1440 [0x0440, 0xFFF8] (.bne 2 0 (-8)) ∧ reads 0x1A29 [0x0067] (.amoAddD 9 7 3) := by decide +kernel

/-- Files 22 and 25. -/
theorem test_decode_immediates : reads 0x1170 [0, 0x0000, 0x0030] (.addi 16 0 0x300000) ∧
    reads 0x194D [0x0E00, 0x0038] (.stD 13 16 56) ∧ reads 0x1869 [0x0C00, 0x0000, 0x000D] (.ldD 9 0 0xD0000) ∧
    reads 0x19A9 [0x0C00, 0x0100, 0xFFE0, 0xFFFF, 0x01FF] (.stD 9 0 0x01FFFFFFFFE00100) := by decide +kernel

/-- R182, R186; file 25. -/
theorem test_decode_system : reads 0x0300 [] .tret ∧ reads 0x052A [0] (.mfsr 10 0) ∧
    reads 0x0640 [0x0120, 0x0111] (.mtsr 9 0x111) ∧ reads 0x021F [] (.trap 31) ∧ reads 0x0000 [] .nop ∧
    reads 0x0720 [0x04C0] (.tlbiVa 6) := by decide +kernel

/-- R180, R181, R177: major, TSZ, d; minor, a, b; immediate or c. -/
theorem test_decode_control : reads 0x153F [0] (.jal 31 0) ∧ reads 0x1640 [0x03E0, 0x0004] (.jalr 0 31 4) ∧
    reads 0x1742 [0, 0xFFF0] (.loop 2 (-16)) ∧ reads 0x1B45 [0x04C7, 0x4000] (.casW 5 7 8 6) := by decide +kernel

/-- R203, R206; file 16. -/
theorem test_decode_configuration : reads 0x2040 [0x0800, 0x0008] (.setvt 0 8) ∧ reads 0x2021 [0x1560] (.setshape 1 11) ∧
    reads 0x2022 [0x0CC7] (.setdim 2 6 7) := by decide +kernel

/-- Files 05, 16, 17, 25. -/
theorem test_decode_elementwise : reads 0xA841 [0x4043, 0x2000] (.vmadd 1 2 3 4 0 0) ∧
    reads 0xA825 [0x0483] (.vsub 5 4 3 0 0 false) ∧ reads 0x2847 [0x04A6, 0x0010] (.vsub 7 5 6 0 0 true) ∧
    reads 0x2823 [0x0C22] (.vdiv 3 1 2 0 0) ∧ reads 0x2843 [0x0C22, 0x0700] (.vdiv 3 1 2 7 0) ∧
    reads 0xA843 [0x5474, 0x3800] (.vsel 3 3 20 7 0) ∧ reads 0x2845 [0x4422, 0x2000] (.vmsub 5 1 2 4 0 0) ∧
    reads 0x3842 [0x0020, 0x0080] (.vmvPop 2 1) := by decide +kernel

/-- Files 17, 20, 25. -/
theorem test_decode_compare_convert : reads 0x2A27 [0x0454] (.vcmpNe 7 2 20 0) ∧ reads 0x2924 [0x0820] (.vcvt 2 4 1 0 0) ∧
    reads 0x292A [0x1880] (.vcvt 6 10 4 0 0) ∧ reads 0x2D23 [0x0022] (.vred 0 false false 3 1 2 0) ∧
    reads 0x2D46 [0x0080, 0x0001] (.vred 0 false true 6 4 0 0) ∧ reads 0x2D28 [0x0C89] (.vslide 8 4 9 0) := by
  decide +kernel

/-- Files 12 and 16. -/
theorem test_decode_functions : reads 0x3024 [0x0022] (.fmul 4 1 2 0) ∧ reads 0x3045 [0x0880, 0x0020] (.fintAll 5 4 0 0) ∧
    reads 0x3026 [0x0C69] (.fproj 6 3 9 0) ∧ reads 0x3025 [0x1023] (.ftrace 5 1 3 0) ∧
    reads 0x3047 [0x1443, 0x0100] (.feval 7 2 3 1) ∧ reads 0xB023 [0x1021] (.ftrace 3 1 1 0) := by decide +kernel

/-- File 20. -/
theorem test_decode_palette : reads 0xB420 [0x0A20] (.mload 0 17 0) ∧ reads 0x3441 [0x0A40, 0x0001] (.mloadT 1 18 0) ∧
    reads 0x342C [0x0C01] (.mma 12 0 1 0) := by decide +kernel

/-- Files 15, 17, 22. -/
theorem test_decode_vector_memory : reads 0x3821 [0x0040] (.vld 1 2 0 0) ∧ reads 0x3821 [0x1040] (.vldFf 1 2 0 0) ∧
    reads 0x3821 [0x1440] (.vldD 1 2 0 0) ∧ reads 0x3824 [0x0843] (.vldx 4 2 3 0 0) ∧
    reads 0x3841 [0x0440, 0x0110] (.vstD 1 2 1 0) ∧ reads 0x3845 [0x2043, 0x0005] (.vamo 5 5 2 3 0 0) ∧
    reads 0x38E6 [0x0460, 0, 0, 0, 8, 0, 0, 0] (.vst 6 3 0 8) ∧
    reads 0x38E6 [0x1C20, 0, 0, 0, 0x150, 0, 0, 0] (.vstred 6 1 0 0 0x150) := by decide +kernel

/-- R303-R315: major, TSZ, d; minor, a, b; X. -/
theorem test_decode_streams_engines : reads 0x3A25 [0x00C0] (.tlook 5 6) ∧ reads 0x3A25 [0x04C7] (.tins 5 6 7) ∧
    reads 0x3B49 [0x014B, 0x6001] (.cpy 9 10 11 12 1) ∧ reads 0x3B45 [0x0C80, 0x0001] (.cwait 5 4 1) ∧
    reads 0x3C21 [0x0085] (.esub 1 4 5 0) ∧ reads 0x3D45 [0x04C7, 0x0010] (.xcopCounterRead 5 6 7) := by decide +kernel

/-- Files 19, 20, 22. -/
theorem test_decode_tasks : reads 0x4020 [0x0140] (.acq 10) ∧ reads 0x4020 [0x0540] (.rel 10) ∧
    reads 0x402C [0x0C00] (.fence 0 12) ∧ reads 0x404C [0x0C00, 0x0004] (.fence 4 12) ∧
    reads 0x4020 [0x19CD] (.arrive 14 13) ∧ reads 0x4020 [0x1DC0] (.wait 14) ∧ reads 0x4020 [0x15C0] (.bar 14) ∧
    reads 0x4027 [0x2828] (.claim 7 1 8) ∧ reads 0x4027 [0x2D80] (.publish 7 12) ∧ reads 0x4420 [0x0800] .done ∧
    reads 0x4427 [0x056C] (.edge 7 11 12) ∧ reads 0x4427 [0x1802] (.snext 7 2) ∧
    reads 0x4420 [0x1D20] (.slotfree 9 false) ∧ reads 0x4420 [0x1D01] (.slotfree 8 true) := by decide +kernel

/-- R107: a refusal of each kind. -/
theorem test_decode_refuses : (decode 0x7F00 [] matches .error .reservedMajor) ∧ (decode 0x1100 [] matches .error .kindTsz) ∧
    (decode 0x1024 [0xFC85] matches .error .reservedMinor) ∧ (decode 0x2A28 [0x0454] matches .error .registerField) ∧
    (decode 0x0301 [] matches .error .unusedField) ∧ (decode 0x2847 [0x04A6, 0x0007] matches .error .modifier) := by
  decide +kernel

/-- R100: code 7 on a major without W makes R90's line malformed with reason 4, and head 3 of a line of three with reason 5. -/
def lineOf (bs : List (Nat × Byte)) : BitVec 512 :=
  lineBits ((List.range 64).map fun i => ((bs.find? fun b => b.1 == i).map fun b => b.2).getD 0)
def spelled (b2 : Byte) : BitVec 512 :=
  lineOf [(1, 0x18), (2, b2), (3, 0x11), (4, 0x24), (5, 0x10), (6, 0x41), (7, 0xA8), (54, 0x43), (55, 0x40), (56, 0),
    (57, 0x20), (58, 0x85), (63, 0x10)]
theorem test_line : (decodeAt (spelled 0x45) 0).toOption = some (.addi 5 0 4096) ∧
    (decodeAt (spelled 0x45) 1).toOption = some (.add 4 4 5) ∧
    (decodeAt (spelled 0x45) 2).toOption = some (.vmadd 1 2 3 4 0 0) ∧ lineFault (spelled 0x45) 2 = none ∧
    lineFault (spelled 0xE5) 0 = some 4 ∧ lineFault (spelled 0x45) 3 = some 5 := by decide +kernel

/-! ## Single steps -/

/-- The state after an instruction. -/
def ran (i : Instr) (s : State) : State := match exec i s with
  | .next t => t
  | _ => State.reset

/-- Registers of hart 0 after an instruction, with the flags that its queue will merge (R116). -/
def out (i : Instr) (s : State) : Regs :=
  let h := (ran i s).hart 0
  { h.regs with fflags := h.queue.foldl (fun f e => f ||| (e.flags ||| e.later).setWidth 64) h.regs.fflags }

/-- With a plain tile of one row in a register. -/
def withF (s : State) (n : Fin 32) (fmt w : Nat) (xs : List Nat) : State :=
  withRegs s fun g => { g with f := g.f.set n.val (⟨plainTag fmt 1 xs.length, [packRow w xs]⟩ : Tile) }

/-- Elements of row 0 of a register. -/
def row (g : Regs) (n w len : Nat) : List Nat := g.tile n 1 w 1 len

theorem test_add_wraps : (out (.add 4 5 6) (withS base [(5, -1), (6, 1)])).getS 4 = 0 := by decide +kernel
theorem test_sub_wraps : (out (.sub 5 6 5) (withS base [(5, 3), (6, 1)])).getS 5 = -2 := by decide +kernel
theorem test_sll_count : (out (.sll 4 5 6) (withS base [(5, 1), (6, 65)])).getS 4 = 2 := by decide +kernel
theorem test_sra_sign : (out (.srai 4 5 4) (withS base [(5, 0x8000000000000000)])).getS 4 = 0xF800000000000000 := by
  decide +kernel
theorem test_sltiu_extends : (out (.sltiu 4 5 (-1)) (withS base [(5, 5)])).getS 4 = 1 := by decide +kernel
theorem test_mulh : (out (.mulh 4 5 5) (withS base [(5, -1)])).getS 4 = 0 ∧
    (out (.mulhu 4 5 5) (withS base [(5, -1)])).getS 4 = 0xFFFFFFFFFFFFFFFE := by decide +kernel
theorem test_smin_umin : (out (.smin 4 5 6) (withS base [(5, -1), (6, 1)])).getS 4 = -1 ∧
    (out (.umin 4 5 6) (withS base [(5, -1), (6, 1)])).getS 4 = 1 := by decide +kernel

/-- R136: INT_MIN / -1 gives INT_MIN and IOV; a remainder takes the dividend's sign. -/
theorem test_div_overflow : (out (.div 4 5 6) (withS base [(5, 0x8000000000000000), (6, -1)])).getS 4 = 0x8000000000000000 ∧
    (out (.div 4 5 6) (withS base [(5, 0x8000000000000000), (6, -1)])).fflags = 0x40 ∧
    (out (.rem 4 5 6) (withS base [(5, -9), (6, 4)])).getS 4 = -1 := by decide +kernel

theorem test_bge_equal : (out (.bge 5 6 64) (withS base [(5, 7), (6, 7)])).pc = 66 := by decide +kernel
theorem test_bltu_unsigned : (out (.bltu 5 6 64) (withS base [(5, -1), (6, 7)])).pc = 4 := by decide +kernel
theorem test_jalr_reads_first : (out (.jalr 5 5 2) (withS base [(5, 128)])).pc = 130 ∧
    (out (.jalr 5 5 2) (withS base [(5, 128)])).getS 5 = 4 := by decide +kernel

/-- R119's example for S = 2 and N = 2: pass 1. -/
theorem test_loop_first_pass :
    let g := out (.loop 2 0) (withRegs base fun g => { g with loopcnt := 1, rrb := 0x10 })
    g.loopcnt = 0 ∧ bits g.rrb.toNat 7 4 = 3 ∧ bits g.rrb.toNat 3 0 = 15 ∧ g.pc = 2 ∧ g.m[5] = BitVec.allOnes 32768 ∧
      g.m[6] = 0 := by decide +kernel

/-- R182: TEPC of TRAP is the return address, and the handler's head 0 is at line 64 times 5. -/
theorem test_trap_returns_after : (out (.trap 9) (handled base)).trap1 = ⟨0x20, 4, 9, 0⟩ ∧ (out (.trap 9) (handled base)).pc = 322 := by
  decide +kernel
theorem test_brk_returns_to : (out (.brk 9) (handled base)).trap1 = ⟨0x21, 2, 9, 0⟩ := by decide +kernel

theorem test_ldb_signed : (out (.ldB 4 5 1) (withPad (withS base [(5, window)]) 1 [0x80])).getS 4 = 0xFFFFFFFFFFFFFF80 := by
  decide +kernel
theorem test_sth_little_endian :
    getBytes ((ran (.stH 6 5 2) (withS base [(5, window), (6, 0x123456)])).core 0).pad 0 6 = [0, 0, 0x56, 0x34, 0, 0] := by
  decide +kernel
theorem test_amo_w_extends : (out (.amoUminW 4 6 5) (withPad (withS base [(5, window), (6, 1)]) 0 [255, 255, 255, 255])).getS 4 = -1 := by
  decide +kernel
theorem test_cas_fails :
    getBytes ((ran (.casW 4 6 7 5) (withPad (withS base [(5, window), (6, 1), (7, 9)]) 0 [2])).core 0).pad 0 4 = [2, 0, 0, 0] := by
  decide +kernel

/-- R203: FP32 with grouping 1 gives VLMAX 512; format 0xB is rejected and keeps its low 16 bits. -/
theorem test_setvt : (out (.setvt 7 8) base).getS 7 = 512 ∧ (out (.setvt 7 0xB) base).vtype = 0x800000000000000B := by
  decide +kernel
theorem test_setrc_trims : (out (.setrc 4 5) (withRegs (withS base [(5, 99)]) fun g => { g with vl := 4000 })).vl = 2048 := by
  decide +kernel

/-- R136's example in INT32. -/
theorem test_vdiv_example :
    let s := withF (withF (vec 2 4 1 base) 1 2 32 [7, 0x80000000, 5, 0xFFFFFFF7]) 2 2 32 [0, 0xFFFFFFFF, 2, 0]
    row (out (.vdiv 3 1 2 0 0) s) 3 32 4 = [0xFFFFFFFF, 0x80000000, 2, 0xFFFFFFFF] ∧
    (out (.vdiv 3 1 2 0 0) s).fflags = 0x60 ∧ row (out (.vrem 3 1 2 0) s) 3 32 4 = [7, 0, 1, 0xFFFFFFF7] := by decide +kernel

/-- R134's example: with IOV enabled only, TLANE names element 1. -/
theorem test_vdiv_traps :
    let s := withRegs (withF (withF (vec 2 4 1 (handled base)) 1 2 32 [7, 0x80000000, 5, 0xFFFFFFF7]) 2 2 32
      [0, 0xFFFFFFFF, 2, 0]) fun g => { g with atc := 0x40 }
    (out (.vdiv 3 1 2 0 0) s).trap1 = ⟨0x06, 2, 0x60, 0x0000000100010001⟩ ∧ (out (.vdiv 3 1 2 0 0) s).fflags = 0 := by
  decide +kernel

/-- 1 + 2^-24 rounds to even, inexact. -/
theorem test_vadd_ties_even :
    let g := out (.vadd 3 1 2 0 0 false) (withF (withF (vec 8 1 1 base) 1 8 32 [0x3F800000]) 2 8 32 [0x33800000])
    row g 3 32 1 = [0x3F800000] ∧ g.fflags = 16 := by decide +kernel
/-- Rounding up gives the next number. -/
theorem test_vadd_rounds_up :
    row (out (.vadd 3 1 2 0 3 false) (withF (withF (vec 8 1 1 base) 1 8 32 [0x3F800000]) 2 8 32 [0x33800000])) 3 32 1 =
      [0x3F800001] := by decide +kernel
/-- R135: -0 lies below +0. -/
theorem test_vmin_zeros :
    row (out (.vmin 3 1 2 0 false) (withF (withF (vec 8 1 1 base) 1 8 32 [0]) 2 8 32 [0x80000000])) 3 32 1 = [0x80000000] := by
  decide +kernel
/-- 2.5 to INT32 under round to nearest even. -/
theorem test_vcvt_rounds : row (out (.vcvt 2 3 1 0 0) (withF (vec 8 1 1 base) 1 8 32 [0x40200000])) 3 32 1 = [2] := by
  decide +kernel
/-- Inactive elements keep their values, and bits above the sweep clear. -/
theorem test_masked : row (out (.vand 3 1 2 1) (withRegs (withF (withF (withF (vec 0 2 1 base) 1 0 8 [7, 7]) 2 0 8 [3, 5]) 3 0 8
    [9, 9]) fun g => { g with m := g.m.set 1 2 })) 3 8 2 = [9, 5] ∧
    (out (.vcmpLtu 2 1 1 0) (withRegs (withF (vec 0 2 1 base) 1 0 8 [7, 7]) fun g => { g with m := g.m.set 2 255 })).m[2] = 0 := by
  decide +kernel
theorem test_vperm_beyond : row (out (.vperm 3 1 2 0) (withF (withF (vec 0 3 1 base) 1 0 8 [5, 6, 7]) 2 0 8 [2, 3, 0])) 3 8 3 =
    [7, 0, 5] := by decide +kernel
theorem test_vslide_back : row (out (.vslide 3 1 5 0) (withS (withF (vec 0 3 1 base) 1 0 8 [5, 6, 7]) [(5, -1)])) 3 8 3 = [6, 7, 0] := by
  decide +kernel
theorem test_vcompress : let g := out (.vcompress 3 1 2 0) (withF (vec 2 4 1 base) 1 2 32 [0, 6, 0, 7])
    row g 3 32 2 = [6, 7] ∧ row g 2 32 2 = [1, 3] ∧ g.vl = 2 := by decide +kernel
/-- The scan of INT8 maxima. -/
theorem test_vscan : row (out (.vscan 2 false false 3 1 0 0) (withF (vec 0 3 1 base) 1 0 8 [1, 0xFF, 5])) 3 8 3 = [1, 1, 5] := by
  decide +kernel

/-- d/dx of 1 + 2 φ_1: in the orthonormal basis φ_1' is √3 φ_0, so the result is 2√3 rounded to FP32. -/
theorem test_fdiff : let g := out (.fdiff 3 1 0 0) (withRegs (vec 0x448 1 1 base) fun g =>
      { g with f := g.f.set 1 (⟨funTag 8 1 1 [1], [packRow 32 [0x3F800000, 0x40000000]]⟩ : Tile) })
    (g.getF 3).coeffRow 0 = [0x405DB3D7] := by decide +kernel

/-- A row by a column of INT8: 1·1 + 2·2 + 3·3 + 4·4. -/
theorem test_mma_int8 : row (out (.mma 12 30 31 0) products) 12 32 1 = [30] := by decide +kernel
theorem test_vld_reads : row (out (.vld 3 5 0 0) (withPad (withS (vec 2 1 1 base) [(5, window + 8)]) 8 [1, 2, 3, 4])) 3 32 1 =
    [0x04030201] := by decide +kernel
/-- R303: a lookup that misses an empty set suggests way 0 of set (A17:10 xor A25:18). -/
theorem test_tlook_miss : (out (.tlook 4 5) (withS base [(5, 0x40400)])).getS 4 = 0 := by decide +kernel
theorem test_tins_hits : ((ran (.tins 4 5 6) (withS base [(5, 0x400), (6, 9)])).core 0).tagAt 9 = 0x8000000000000400 := by
  decide +kernel
/-- R86: the grant is cut at END. -/
theorem test_claim : let s := withMem (vec 2 0 1 (withS base [(5, 1024), (6, 100)])) 1024 (leBytes 8 30 ++ leBytes 8 50)
    (out (.claim 4 5 6) s).getS 4 = 30 ∧ (out (.claim 4 5 6) s).vl = 20 ∧
      getBytes (ran (.claim 4 5 6) s).mem 1024 8 = leBytes 8 50 := by decide +kernel
theorem test_acq_owner : getBytes (ran (.acq 5) object).mem 1024 8 = leBytes 8 holder0.toNat := by decide +kernel
theorem test_chkc_none : (out (.chkc 4) base).getS 4 = 0 := by decide +kernel

/-- R22, R24: a restart from stage 1 counts an attempt and keeps FAIL_CODE. -/
theorem test_restart : (ran .restart { State.reset with st := { Stage.reset with stage := 1, failCode := 5 } }).st =
    { Stage.reset with attempt := 1, failCode := 5 } := by decide +kernel
/-- R422: PWR_CAP is clamped. -/
theorem test_power_cap : (ran (.pwrCapWrite 9999) { State.reset with st := { Stage.reset with stage := 3, busy := false } }).pwrCap = 2800 := by
  decide +kernel

/-- A step from reset with R90's `add` placed as the one head of its line runs it, and falls through to the next line (R99). -/
theorem test_step_runs_placed : (match step (State.reset.withFetchWord 32 0x10240085) with
    | .next t => (t.hart 0).regs.pc
    | _ => 0) = 66 := by decide +kernel

end Sys2Proof.Tests
end

section
/-!
PROOFS. The device family: starts and restarts (R18, R24), the stages (R19-R23), the registers of Silven and of the
management regions (R275, R379, R394, R410, R422), and reset (R22).
-/

namespace Sys2Proof.Machine

open Sys2Proof.Claims

/-! ## The device events, each as what it leaves -/

theorem exec_powerUp (s : State) : exec .powerUp s = .next (if s.powered then s else s.cold) := rfl
theorem exec_powerLoss (s : State) : exec .powerLoss s = .next { s.cold with powered := false } := rfl
theorem exec_fundamentalReset (s : State) :
    exec .fundamentalReset s = .next { s.cold with st := { Stage.reset with attempt := s.st.attempt } } := rfl
theorem exec_restart (s : State) : exec .restart s = .next s.writeRestart := rfl
theorem exec_stage0Complete (ok : Bool) (s : State) : exec (.stage0Complete ok) s = execStage0Complete ok s := rfl
theorem exec_stage1Complete (hbm : BitVec 8) (lp : Bool) (s : State) :
    exec (.stage1Complete hbm lp) s = execStage1Complete hbm lp s := rfl
theorem exec_stage2Complete (badCores badPorts floors : List Nat) (s : State) :
    exec (.stage2Complete badCores badPorts floors) s = execStage2Complete badCores badPorts floors s := rfl
theorem exec_stageWatchdogExpiry (s : State) : exec .stageWatchdogExpiry s = execStageWatchdogExpiry s := rfl
theorem exec_registerWrite (space : RegSpace) (offset width : Nat) (v : Word) (s : State) :
    exec (.registerWrite space ⟨offset, width⟩ v) s = .next (s.writeRegister .host space offset width v) := rfl
theorem exec_tableRegisterWrite (offset : Nat) (v : Word) (s : State) :
    exec (.tableRegisterWrite offset v) s = .next (if s.silvenAnswers offset then s.writeTableReg offset v else s) := rfl
theorem exec_csaWrite (p offset : Nat) (v : Word) (s : State) :
    exec (.csaWrite p offset v) s = .next (if s.alive p then s.updPart p (·.writeCsa offset v) else s) := rfl
theorem exec_pwrCapWrite (v : Word) (s : State) :
    exec (.pwrCapWrite v) s = .next (if s.silvenAnswers 0x40000 then s.writePwrCap v else s) := rfl
theorem exec_fabCtlWrite (v : Word) (s : State) :
    exec (.fabCtlWrite v) s = .next (if s.silvenAnswers 0x20400 then s.writeFabCtl v else s) := rfl

/-! ## Tables and partitions -/

/-- A table made of one entry for each key of a list gives, under such a key, the entry made for it. -/
theorem tget_map_key {α : Type} (f : Nat → α) (keys : List Nat) (k : Nat) (h : k ∈ keys) :
    tget (keys.map fun i => (i, f i)) k = some (f k) := by
  induction keys with
  | nil => cases h
  | cons j rest ih =>
    by_cases hj : j = k
    · simp [tget, hj]
    · have hk : k ∈ rest := (List.mem_cons.mp h).resolve_left fun e => hj e.symm
      simp [tget, hj, ih hk]

/-- A partition that exists, after it has been changed. -/
theorem State.updPart_part_same (s : State) (p : Nat) (x : Partition) (g : Partition → Partition)
    (h : s.part p = some x) : (s.updPart p g).part p = some (g x) := by
  simp only [State.updPart, h]
  exact tget_tput_same ..

/-- A partition that is not torn down answers its virtual function (R425). -/
theorem State.alive_of_part (s : State) (p : Nat) (x : Partition) (h : s.part p = some x) (ht : x.teardown = .none) :
    s.alive p = true := by
  simp [State.alive, h, ht]

/-- An update of a partition leaves every hart. -/
theorem State.updPart_hart (s : State) (p : Nat) (g : Partition → Partition) (h : Nat) :
    (s.updPart p g).hart h = s.hart h := by
  obtain ⟨ps, e⟩ := s.updPart_eq p g
  rw [e]
  rfl

/-! ## Events in the device log (R420, R421) -/

/-- A device event changes only the device log, the host memory it lies in, and what leaves the device. -/
theorem State.deviceEvent_eq (s : State) (event number : Nat) :
    ∃ host dlog out, s.deviceEvent event number = { s with host := host, dlog := dlog, out := out } := by
  simp only [State.deviceEvent, State.deviceRecord]
  split
  · exact ⟨s.host, _, s.out, rfl⟩
  · exact ⟨_, _, _, rfl⟩

/-- One device event for each number of a list changes no more than one of them does. -/
theorem State.deviceEvents_eq (event : Nat) (numbers : List Nat) (s : State) :
    ∃ host dlog out, numbers.foldl (fun s n => s.deviceEvent event n) s =
      { s with host := host, dlog := dlog, out := out } := by
  induction numbers generalizing s with
  | nil => exact ⟨s.host, s.dlog, s.out, rfl⟩
  | cons n rest ih =>
    obtain ⟨_, _, _, e⟩ := s.deviceEvent_eq event n
    obtain ⟨host, dlog, out, e'⟩ := ih (s.deviceEvent event n)
    exact ⟨host, dlog, out, by rw [List.foldl_cons, e', e]⟩

/-! ## The stages end (R19-R23) -/

/-- A failure of a stage sets FAIL and its code, clears BUSY, and beyond that changes only the device log. -/
theorem State.failStage_eq (s : State) (code : BitVec 8) : ∃ host dlog out, s.failStage code =
    { s with st := { s.st with fail := true, busy := false, failCode := code }, host := host, dlog := dlog, out := out } :=
  State.deviceEvent_eq { s with st := { s.st with fail := true, busy := false, failCode := code } } 1 0

/-- A stage fails after it has recorded what it found in STAGE_STATUS. -/
theorem State.failStage_fails (s : State) (st : Stage) (code : BitVec 8) :
    StageFails s ({ s with st := st }.failStage code) st code := by
  obtain ⟨_, _, _, e⟩ := State.failStage_eq { s with st := st } code
  rw [e]
  exact ⟨rfl, fun _ => rfl, rfl⟩

/-- A stage whose work is in progress takes its end. -/
theorem AtStage_running {s : State} {n : BitVec 3} (h : AtStage s n) : s.st.running n = true := by
  obtain ⟨hstage, hbusy, hfail⟩ := h
  simp [Stage.running, hstage, hbusy, hfail]

/-- What stage 0 verifies: the signature it is told of, and every first-stage image in flash (R19, R423). -/
theorem stage0_check_iff (s : State) (ok : Bool) : (ok && (s.flash.filter (·.firstStage)).all imageOk) = true ↔
    ok = true ∧ ∀ i ∈ s.flash, i.firstStage = true → i.signatureOk = true ∧ Config.minimumVersion ≤ i.version := by
  simp only [Bool.and_eq_true, List.all_eq_true, List.mem_filter, and_imp, imageOk, decide_eq_true_eq]

theorem stage0_ends (s : State) (h : AtStage s 0) :
    ((∀ i ∈ s.flash, i.firstStage = true → i.signatureOk = true ∧ Config.minimumVersion ≤ i.version) →
      exec (.stage0Complete true) s = .next { s with st := { s.st with stage := 1 } }) ∧
    (∀ ok, ok = false ∨ (∃ i ∈ s.flash, i.firstStage = true ∧ ¬ (i.signatureOk = true ∧ Config.minimumVersion ≤ i.version)) →
      ∃ t, exec (.stage0Complete ok) s = .next t ∧ StageFails s t s.st 0x01) := by
  have hexec : ∀ ok, exec (.stage0Complete ok) s = .next (
      if ok && (s.flash.filter (·.firstStage)).all imageOk then { s with st := { s.st with stage := 1 } }
      else s.failStage 0x01) := fun ok => by
    rw [exec_stage0Complete, execStage0Complete, AtStage_running h]
    rfl
  constructor
  · intro hgood
    rw [hexec, if_pos ((stage0_check_iff s true).mpr ⟨rfl, hgood⟩)]
  · intro ok hbad
    refine ⟨s.failStage 0x01, ?_, s.failStage_fails s.st 0x01⟩
    rw [hexec, if_neg]
    rw [stage0_check_iff]
    rintro ⟨hok, hall⟩
    obtain hno | ⟨i, hi, hfirst, hi'⟩ := hbad
    · rw [hno] at hok; cases hok
    · exact hi' (hall i hi hfirst)

theorem stage1_ends (s : State) (hbm : BitVec 8) (lp : Bool) (h : AtStage s 1) :
    (hbm = 0xFF → lp = true →
      exec (.stage1Complete hbm lp) s = .next { s with st := { s.st with hbmOk := hbm, lpOk := lp, stage := 2 } }) ∧
    (hbm ≠ 0xFF ∨ lp = false → ∃ t, exec (.stage1Complete hbm lp) s = .next t ∧
      StageFails s t { s.st with hbmOk := hbm, lpOk := lp } (if hbm ≠ 0xFF then 0x02 else 0x03)) := by
  have hexec : exec (.stage1Complete hbm lp) s = .next (
      if hbm ≠ 0xFF then { s with st := { s.st with hbmOk := hbm, lpOk := lp } }.failStage 0x02
      else if !lp then { s with st := { s.st with hbmOk := hbm, lpOk := lp } }.failStage 0x03
      else { s with st := { s.st with hbmOk := hbm, lpOk := lp, stage := 2 } }) := by
    rw [exec_stage1Complete, execStage1Complete, AtStage_running h]
    rfl
  rw [hexec]
  constructor
  · rintro rfl rfl
    rfl
  · intro hbad
    refine ⟨_, rfl, ?_⟩
    by_cases hm : hbm ≠ 0xFF
    · rw [if_pos hm, if_pos hm]
      exact s.failStage_fails _ 0x02
    · have hlp : lp = false := hbad.resolve_left hm
      rw [if_neg hm, if_neg hm, hlp]
      exact s.failStage_fails _ 0x03

theorem stageWatchdog_fails (s : State) (hstage : s.st.stage ≠ 3) (hbusy : s.st.busy = true) (hfail : s.st.fail = false) :
    ∃ t, exec .stageWatchdogExpiry s = .next t ∧ StageFails s t s.st 0x05 := by
  refine ⟨s.failStage 0x05, ?_, s.failStage_fails s.st 0x05⟩
  rw [exec_stageWatchdogExpiry, execStageWatchdogExpiry, if_pos ⟨hstage, hbusy, by rw [hfail]; rfl⟩]

/-! ## Stage 2 -/

/-- The device once stage 2 has recorded what it found: every core and port calibrated or out of service, and the counts
(R20). -/
def State.tested (s : State) (badCores badPorts floors : List Nat) : State :=
  { s with
    ports := (List.range Config.ports).map fun n => (n, { s.port n with
      state := if badPorts.contains n then 2 else 1, dcause := if badPorts.contains n then 1 else 0, inRow := 0 })
    cores := (List.range Config.cores).map fun c => (c, (s.core c).calibrated (badCores.contains c) (floors.getD c 0))
    st := { s.st with
      portsIn := BitVec.ofNat 7 (goodOf Config.ports badPorts).length
      coresIn := BitVec.ofNat 8 (goodOf Config.cores badCores).length } }

/-- Where a stage 2 leads with the good cores it has left: to stage 3, or to a failure with code 0x04 (R20, R22). -/
def State.decided (s : State) (good : List Nat) : State :=
  if good.any isFC && good.any fun c => !isFC c then
    { s with st := { s.st with stage := 3, busy := false }, timeBase := s.now, early := false }
  else s.failStage 0x04

/-- A stage 2 records what it found, logs the bad ports, and decides. -/
theorem exec_stage2Complete_eq (s : State) (badCores badPorts floors : List Nat) (h : AtStage s 2) :
    ∃ host dlog out, exec (.stage2Complete badCores badPorts floors) s = .next
      (State.decided { s.tested badCores badPorts floors with host := host, dlog := dlog, out := out }
        (goodOf 192 badCores)) := by
  obtain ⟨host, dlog, out, e⟩ := State.deviceEvents_eq 2 ((List.range Config.ports).filter fun n => badPorts.contains n)
    (s.tested badCores badPorts floors)
  refine ⟨host, dlog, out, ?_⟩
  rw [← e, exec_stage2Complete, execStage2Complete, AtStage_running h]
  rfl

/-- The decision is about STAGE_STATUS, time and the device log alone. -/
theorem State.decided_eq (s : State) (good : List Nat) :
    ∃ stage busy fail failCode timeBase early host dlog out, s.decided good = { s with
      st := { s.st with stage := stage, busy := busy, fail := fail, failCode := failCode }
      timeBase := timeBase, early := early, host := host, dlog := dlog, out := out } := by
  unfold State.decided
  split
  · exact ⟨_, _, _, _, _, _, _, _, _, rfl⟩
  · obtain ⟨_, _, _, e⟩ := s.failStage_eq 0x04
    exact ⟨_, _, _, _, _, _, _, _, _, e⟩

/-- With a core of each class left, stage 3 follows. -/
theorem State.decided_passes (s : State) (good : List Nat) (hfail : s.st.fail = false)
    (hfc : ∃ c ∈ good, isFC c = true) (hmc : ∃ c ∈ good, isFC c = false) :
    (s.decided good).st.stage = 3 ∧ (s.decided good).st.busy = false ∧ (s.decided good).st.fail = false := by
  have hboth : (good.any isFC && good.any fun c => !isFC c) = true := by
    simp only [Bool.and_eq_true, List.any_eq_true, Bool.not_eq_true']
    exact ⟨hfc, hmc⟩
  rw [State.decided, if_pos hboth]
  exact ⟨rfl, rfl, hfail⟩

/-- With the cores of a class all bad, stage 2 fails. -/
theorem State.decided_fails (s : State) (good : List Nat)
    (hnone : (∀ c ∈ good, isFC c = false) ∨ ∀ c ∈ good, isFC c = true) :
    (s.decided good).st = { s.st with fail := true, busy := false, failCode := 0x04 } := by
  have hnot : ¬ (good.any isFC && good.any fun c => !isFC c) = true := by
    simp only [Bool.and_eq_true, List.any_eq_true, Bool.not_eq_true']
    rintro ⟨⟨c, hc, hfc⟩, d, hd, hmc⟩
    obtain hno | hno := hnone
    · rw [hno c hc] at hfc; cases hfc
    · rw [hno d hd] at hmc; cases hmc
  obtain ⟨_, _, _, e⟩ := s.failStage_eq 0x04
  rw [State.decided, if_neg hnot, e]

/-- No more are good than there are. -/
theorem goodOf_length_le (n : Nat) (bad : List Nat) : (goodOf n bad).length ≤ n :=
  Nat.le_trans (List.length_filter_le ..) (Nat.le_of_eq List.length_range)

/-- Core c after a stage 2: quarantined or in service, at its floor. -/
theorem State.tested_core (s : State) (badCores badPorts floors : List Nat) (c : Nat) (h : c < Config.cores) :
    (s.tested badCores badPorts floors).core c = (s.core c).calibrated (badCores.contains c) (floors.getD c 0) := by
  rw [State.core, State.tested, tget_map_key _ _ c (List.mem_range.mpr h)]
  rfl

/-- Port n after a stage 2: down or up. -/
theorem State.tested_port (s : State) (badCores badPorts floors : List Nat) (n : Nat) (h : n < Config.ports) :
    ((s.tested badCores badPorts floors).port n).state = if badPorts.contains n then 2 else 1 := by
  rw [State.port, State.tested, tget_map_key _ _ n (List.mem_range.mpr h)]
  rfl

theorem stage2_ends (s : State) (badCores badPorts floors : List Nat) (h : AtStage s 2) :
    ∃ t, exec (.stage2Complete badCores badPorts floors) s = .next t ∧ HartsKept s t ∧
      t.st.coresIn.toNat = (goodOf 192 badCores).length ∧ t.st.portsIn.toNat = (goodOf 72 badPorts).length ∧
      (∀ c < 192, (t.core c).quarState = (if badCores.contains c then 2 else 0) ∧
        (t.core c).quarCause = (if badCores.contains c then 1 else 0) ∧ (t.core c).floor = min (floors.getD c 0) 40 ∧
        (t.core c).stepPoint = min (floors.getD c 0) 40) ∧
      (∀ n < 72, (t.port n).state = if badPorts.contains n then 2 else 1) ∧
      ((∃ c ∈ goodOf 192 badCores, isFC c = true) → (∃ c ∈ goodOf 192 badCores, isFC c = false) →
        t.st.stage = 3 ∧ t.st.busy = false ∧ t.st.fail = false) ∧
      (((∀ c ∈ goodOf 192 badCores, isFC c = false) ∨ (∀ c ∈ goodOf 192 badCores, isFC c = true)) →
        t.st.stage = 2 ∧ t.st.busy = false ∧ t.st.fail = true ∧ t.st.failCode = 0x04) := by
  have ⟨hstage, _, hfail⟩ := h
  obtain ⟨host, dlog, out, hexec⟩ := exec_stage2Complete_eq s badCores badPorts floors h
  have hpasses := State.decided_passes { s.tested badCores badPorts floors with host := host, dlog := dlog, out := out }
    (goodOf 192 badCores) hfail
  have hfails := State.decided_fails { s.tested badCores badPorts floors with host := host, dlog := dlog, out := out }
    (goodOf 192 badCores)
  obtain ⟨_, _, _, _, _, _, _, _, _, hframe⟩ :=
    State.decided_eq { s.tested badCores badPorts floors with host := host, dlog := dlog, out := out } (goodOf 192 badCores)
  refine ⟨_, hexec, ?harts, ?coresIn, ?portsIn, ?cores, ?ports, hpasses, fun hnone => ?failed⟩
  case failed =>
    rw [hfails hnone]
    exact ⟨hstage, rfl, rfl, rfl⟩
  all_goals rw [hframe]
  case harts => exact fun _ => rfl
  case coresIn => exact Nat.mod_eq_of_lt (Nat.lt_of_le_of_lt (goodOf_length_le 192 badCores) (by decide))
  case portsIn => exact Nat.mod_eq_of_lt (Nat.lt_of_le_of_lt (goodOf_length_le 72 badPorts) (by decide))
  case cores =>
    intro c hc
    have hcore := s.tested_core badCores badPorts floors c hc
    exact ⟨congrArg Core.quarState hcore, congrArg Core.quarCause hcore, congrArg Core.floor hcore,
      congrArg Core.stepPoint hcore⟩
  case ports => exact fun n hn => s.tested_port badCores badPorts floors n hn

/-- Settles O40: each stage's end by what it records and decides; a failure is the one operation that sets FAIL. -/
theorem stagesEnd : Obligations.StagesEnd :=
  ⟨stage0_ends, stage1_ends, stage2_ends, stageWatchdog_fails⟩

/-! ## Starts and restarts (R18, R24) -/

/-- A restart is ignored at stage 3 while a partition exists, and else leaves what it names. -/
theorem State.writeRestart_eq (s : State) : s.writeRestart = if s.st.stage = 3 ∧ s.parts ≠ [] then s else
    { s with
      st := { Stage.reset with
        attempt := if s.st.attempt = 255 then 255 else s.st.attempt + 1
        failCode := s.st.failCode }
      timeBase := s.now
      early := true
      peers := s.peers.map fun e => (e.1, { Peer.reset with failed := e.2.failed })
      ports := s.ports.map fun e => (e.1, { e.2 with state := if e.2.state = 1 then 0 else e.2.state, inRow := 0 })
      fetched := []
      acqs := [] } := by
  have hparts : (!s.parts.isEmpty) = true ↔ s.parts ≠ [] := by
    rw [Bool.not_eq_true', List.isEmpty_eq_false_iff]
  simp only [State.writeRestart, hparts]
  rfl

/-! ## Registers: who is let in (R19, R38, R39, R40) -/

/-- At stage 3 the whole Silven block answers (R19). -/
theorem State.silvenAnswers_stage3 (s : State) (offset : Nat) (h : s.st.stage = 3) : s.silvenAnswers offset = true := by
  simp [State.silvenAnswers, h]

/-- Before stage 3 only STAGE_STATUS, STAGE_CMD and the device log answer (R19). -/
theorem State.silvenAnswers_early (s : State) (offset : Nat) (hstage : s.st.stage ≠ 3) (h0 : offset ≠ 0x000)
    (h8 : offset ≠ 0x008) (hlog : offset < 0x50000 ∨ 0x50018 < offset) : s.silvenAnswers offset = false := by
  have hout : (decide (0x50000 ≤ offset) && decide (offset ≤ 0x50018)) = false := by
    rw [← Bool.decide_and, decide_eq_false_iff_not]
    omega
  simp only [State.silvenAnswers, beq_false_of_ne hstage, beq_false_of_ne h0, beq_false_of_ne h8, hout, Bool.or_self]

/-- An access of other than 8 aligned bytes writes nothing. -/
theorem State.writeRegister_shape (s : State) (u : AccUnit) (space : RegSpace) (offset width : Nat) (v : Word)
    (h : offset % 8 ≠ 0 ∨ width ≠ 8) : s.writeRegister u space offset width v = s := by
  unfold State.writeRegister
  rw [if_pos h]

/-- A virtual function whose partition does not exist or is torn down writes nothing (R425). -/
theorem State.writeRegister_dead (s : State) (p offset width : Nat) (v : Word) (h : s.alive p = false) :
    s.writeRegister .host (.management p) offset width v = s ∧
      s.writeRegister .host (.silven (some p)) offset width v = s := by
  simp [State.writeRegister, State.writeManagement, State.dropsHost, h]

/-- The physical function writes the Silven block. -/
theorem State.writeRegister_physical (s : State) (offset : Nat) (v : Word) (h : offset % 8 = 0) :
    s.writeRegister .host (.silven none) offset 8 v = s.writeSilven offset v := by
  simp [State.writeRegister, h, State.dropsHost, State.silvenGrants]

/-- A partition with the SILV right writes the Silven block (R38). -/
theorem State.writeRegister_granted (s : State) (p offset : Nat) (v : Word) (h : offset % 8 = 0) (ha : s.alive p = true)
    (hr : (s.rights p .silven .host).getLsbD 7 = true) :
    s.writeRegister .host (.silven (some p)) offset 8 v = s.writeSilven offset v := by
  simp [State.writeRegister, h, State.dropsHost, State.silvenGrants, ha, hr]

/-- A partition without the SILV right writes nothing; at most its attempt is recorded (R39). -/
theorem State.writeRegister_denied (s : State) (p offset : Nat) (v : Word)
    (hr : (s.rights p .silven .host).getLsbD 7 = false) :
    s.writeRegister .host (.silven (some p)) offset 8 v = s ∨
      s.writeRegister .host (.silven (some p)) offset 8 v = s.hostDenied p offset .silven := by
  unfold State.writeRegister
  split
  · exact .inl rfl
  · simp only [State.dropsHost, State.silvenGrants, hr, Bool.false_eq_true, if_false]
    split
    · exact .inl rfl
    · split
      · exact .inr rfl
      · exact .inl rfl

/-- A host write to the management region of a partition that answers, at a register of the partition alone, changes the
partition. -/
theorem State.writeRegister_management (s : State) (p offset : Nat) (v : Word) (h : offset % 8 = 0) (ha : s.alive p = true)
    (hoff : 0x048 ≤ offset ∧ offset < 0x1000) :
    s.writeRegister .host (.management p) offset 8 v = s.updPart p (·.writeReg offset v) := by
  have hsched : ¬ (0x1000 ≤ offset ∧ offset < 0x2000) := by omega
  simp only [State.writeRegister, State.writeManagement, h, ha, ne_eq, not_true_eq_false, or_self, if_false, Bool.not_true,
    Bool.false_eq_true, hsched]
  split
  · omega
  · omega
  · omega
  · rfl

/-! ## Registers: what a write changes -/

theorem State.writeSilven_silent (s : State) (offset : Nat) (v : Word) (h : s.silvenAnswers offset = false) :
    s.writeSilven offset v = s := by
  simp [State.writeSilven, h]

/-- STAGE_CMD (R24). -/
theorem State.writeSilven_stageCmd (s : State) (v : Word) :
    s.writeSilven 0x008 v = if v.getLsbD 0 then s.writeRestart else s := by
  simp [State.writeSilven, State.silvenAnswers]

theorem State.writeSilven_pwrCap (s : State) (v : Word) (h : s.st.stage = 3) :
    s.writeSilven 0x40000 v = s.writePwrCap v := by
  simp [State.writeSilven, s.silvenAnswers_stage3 _ h]

theorem State.writeSilven_fabCtl (s : State) (v : Word) (h : s.st.stage = 3) :
    s.writeSilven 0x20400 v = s.writeFabCtl v := by
  simp [State.writeSilven, s.silvenAnswers_stage3 _ h]

/-- The low five bits of a word, as a word. -/
theorem ofNat_bits_low (v : Word) : BitVec.ofNat 64 (bits v.toNat 4 0) = v &&& 0x1F#64 := by
  apply BitVec.eq_of_toNat_eq
  rw [BitVec.toNat_ofNat, BitVec.toNat_and, bits, Nat.pow_zero, Nat.div_one]
  calc v.toNat % 2 ^ 5 % 2 ^ 64 = v.toNat % 2 ^ 5 := Nat.mod_mod_of_dvd' (by decide)
    _ = v.toNat &&& 2 ^ 5 - 1 := (Nat.and_two_pow_sub_one_eq_mod ..).symm

/-- TR_ANCHOR with a legal number of index bits takes its field map (R275). -/
theorem State.writeTableReg_anchor (s : State) (v : Word) (hp : s.parts = []) (h10 : 10 ≤ bits v.toNat 4 0)
    (h26 : bits v.toNat 4 0 ≤ 26) :
    s.writeTableReg 0x100 v = { s with trAnchor := v &&& 0x01FFFFFFFFFFFFDF } := by
  have hfields : v &&& 0x01FFFFFFFFFFFFC0#64 ||| BitVec.ofNat 64 (bits v.toNat 4 0) = v &&& 0x01FFFFFFFFFFFFDF#64 := by
    rw [ofNat_bits_low, ← BitVec.and_or_distrib_left]
    rfl
  simp [State.writeTableReg, hp, h10, h26, hfields]

theorem State.writeTableReg_count (s : State) (v : Word) (hp : s.parts = []) :
    s.writeTableReg 0x1C0 v = { s with trCount := v &&& 0x1FFFFFF } := by
  simp [State.writeTableReg, hp]

/-- No table register changes while a partition exists (R275). -/
theorem State.writeTableReg_ignored (s : State) (offset : Nat) (v : Word) (hp : s.parts ≠ []) :
    s.writeTableReg offset v = s := by
  simp [State.writeTableReg, hp]

/-- The save area's registers stand while the node table holds a node (R410). -/
theorem Partition.writeCsa_ignored (x : Partition) (offset : Nat) (v : Word) (h : x.nodes ≠ []) :
    x.writeCsa offset v = x := by
  simp [Partition.writeCsa, h]

theorem Partition.writeCsa_base (x : Partition) (v : Word) (h : x.nodes = []) :
    x.writeCsa 0x070 v = { x with csaBase := v &&& 0x01FFFFFFFFF00000 } := by
  simp [Partition.writeCsa, h]

theorem Partition.writeCsa_slots (x : Partition) (v : Word) (h : x.nodes = []) :
    x.writeCsa 0x078 v = { x with csaSlots := bits v.toNat 15 0 } := by
  simp [Partition.writeCsa, h]

/-- K of PART_RELY. -/
theorem Partition.writeRely_k (x : Partition) (v : Word) : (x.writeRely v).relyK.toNat = bits v.toNat 31 16 :=
  Nat.mod_eq_of_lt (Nat.mod_lt _ (by decide))

/-- MODE of PART_RELY, which keeps its value when the reserved one is written. -/
theorem Partition.writeRely_mode (x : Partition) (v : Word) : (x.writeRely v).relyMode.toNat =
    if bits v.toNat 1 0 = 3 then x.relyMode.toNat else bits v.toNat 1 0 := by
  simp only [Partition.writeRely]
  split
  · rfl
  · exact Nat.mod_eq_of_lt (Nat.mod_lt _ (by decide))

/-! ## What a record of an error log leaves as it was (R420) -/

/-- Two states that agree in everything a record of a partition's log cannot touch. What it can touch: the logs themselves,
memory with its poison, its counters and the free values they use, the packets to peers with the copies they drop, and
what leaves the device. -/
def State.AgreesOffLogs (s t : State) : Prop :=
  { t with
    parts := s.parts, mem := s.mem, poisoned := s.poisoned, chans := s.chans, free := s.free, copies := s.copies
    drops := s.drops, peers := s.peers, nextRecord := s.nextRecord, out := s.out } = s

namespace State.AgreesOffLogs

theorem refl (s : State) : s.AgreesOffLogs s := rfl

theorem trans {s t u : State} (hst : s.AgreesOffLogs t) (htu : t.AgreesOffLogs u) : s.AgreesOffLogs u := by
  unfold State.AgreesOffLogs at hst
  rw [← htu] at hst
  exact hst

theorem harts {s t : State} (h : s.AgreesOffLogs t) : HartsKept s t := fun j => congrArg (fun u => u.hart j) h
theorem pwrCap {s t : State} (h : s.AgreesOffLogs t) : t.pwrCap = s.pwrCap := congrArg (·.pwrCap) h
theorem fabFailt {s t : State} (h : s.AgreesOffLogs t) : t.fabFailt = s.fabFailt := congrArg (·.fabFailt) h
theorem fabDlt {s t : State} (h : s.AgreesOffLogs t) : t.fabDlt = s.fabDlt := congrArg (·.fabDlt) h
theorem trAnchor {s t : State} (h : s.AgreesOffLogs t) : t.trAnchor = s.trAnchor := congrArg (·.trAnchor) h
theorem trPool {s t : State} (h : s.AgreesOffLogs t) : t.trPool = s.trPool := congrArg (·.trPool) h
theorem trCount {s t : State} (h : s.AgreesOffLogs t) : t.trCount = s.trCount := congrArg (·.trCount) h
theorem ports {s t : State} (h : s.AgreesOffLogs t) : t.ports = s.ports := congrArg (·.ports) h
theorem st {s t : State} (h : s.AgreesOffLogs t) : t.st = s.st := congrArg (·.st) h

end State.AgreesOffLogs

theorem State.updPart_agrees (s : State) (p : Nat) (g : Partition → Partition) : s.AgreesOffLogs (s.updPart p g) := by
  obtain ⟨ps, e⟩ := s.updPart_eq p g
  rw [e]
  rfl

theorem State.putHome_agrees (s : State) (key : Nat) (bs : List Byte) : s.AgreesOffLogs (s.putHome key bs) := by
  unfold State.putHome
  split
  · rfl
  · exact List.foldlRecOn _ _ (State.AgreesOffLogs.refl s) fun _ ht _ _ => ht.trans rfl

theorem State.countLines_agrees (s : State) (key n : Nat) (write : Bool) : s.AgreesOffLogs (s.countLines key n write) :=
  List.foldlRecOn _ _ (State.AgreesOffLogs.refl s) fun _ ht _ _ => ht.trans rfl

theorem State.sendOrWait_agrees (s : State) (peer : Nat) (p : Packet) (o : Origin) :
    s.AgreesOffLogs (s.sendOrWait peer p o) := by
  unfold State.sendOrWait State.send State.dropWritten
  split
  · dsimp only
    split <;> rfl
  · rfl

theorem State.advanceLog_agrees (s : State) (p : Nat) : s.AgreesOffLogs (s.advanceLog p) :=
  (s.updPart_agrees p _).trans rfl

theorem State.writeRecords_agrees (p fuel : Nat) (s : State) : s.AgreesOffLogs (s.writeRecords p fuel) := by
  induction fuel generalizing s with
  | zero => rfl
  | succ fuel ih =>
    have hlost : s.AgreesOffLogs ((s.updLog p Ring.lose).writeRecords p fuel) := (s.updPart_agrees p _).trans (ih _)
    unfold State.writeRecords
    split
    · next r record bs _ =>
      split
      · exact hlost
      · split
        · next key _ =>
          exact (((s.putHome_agrees key bs).trans (State.countLines_agrees _ key 64 true)).trans
            (State.advanceLog_agrees _ p)).trans (ih _)
        · split
          · exact hlost
          · exact (s.updPart_agrees p _).trans (State.sendOrWait_agrees ..)
        · exact hlost
    · rfl

/-- A record of a partition's log changes the logs and what carries their records to their homes, and nothing else. -/
theorem State.record_agrees (s : State) (kind p : Nat) (w : Who) (details : List Nat) :
    s.AgreesOffLogs (s.record kind p w details) := by
  unfold State.record
  split
  · rfl
  · split
    · exact s.updPart_agrees p _
    · have hnumber : s.AgreesOffLogs { s with nextRecord := s.nextRecord + 1 } := rfl
      exact (hnumber.trans (State.updPart_agrees _ p _)).trans (State.writeRecords_agrees ..)

/-! ## The obligations of the device family -/

/-- Settles O39: each event is the model's own equation; a write to STAGE_CMD reaches the restart through the Silven block. -/
theorem startsAndRestarts : Obligations.StartsAndRestarts := by
  intro s
  refine ⟨exec_powerUp s, exec_powerLoss s, exec_fundamentalReset s, ?_, fun v => ?_⟩
  · rw [exec_restart, State.writeRestart_eq]
  · rw [exec_registerWrite, State.writeRegister_physical s _ v rfl, State.writeSilven_stageCmd, exec_restart]
    split <;> rfl

/-- PWR_CAP as the physical function, or a partition with the SILV right, writes it (R422, R38). -/
theorem pwrCap_writes (s : State) (v : Word) (h : s.st.stage = 3) :
    (∀ i, i = .pwrCapWrite v ∨ i = .registerWrite (.silven none) ⟨0x40000, 8⟩ v →
      exec i s = .next { s with pwrCap := max 600 (min 2800 (bits v.toNat 15 0)) }) ∧
    (∀ p, s.alive p = true → (s.rights p .silven .host).getLsbD 7 = true →
      exec (.registerWrite (.silven (some p)) ⟨0x40000, 8⟩ v) s =
        .next { s with pwrCap := max 600 (min 2800 (bits v.toNat 15 0)) }) := by
  constructor
  · rintro i (rfl | rfl)
    · rw [exec_pwrCapWrite, if_pos (s.silvenAnswers_stage3 _ h)]
      rfl
    · rw [exec_registerWrite, State.writeRegister_physical s _ v rfl, State.writeSilven_pwrCap s v h]
      rfl
  · intro p ha hr
    rw [exec_registerWrite, State.writeRegister_granted s p _ v rfl ha hr, State.writeSilven_pwrCap s v h]
    rfl

/-- A partition without the SILV right changes no register of Silven (R38, R39). -/
theorem silven_denied_keeps (s : State) (v : Word) (p offset : Nat) (hr : (s.rights p .silven .host).getLsbD 7 = false) :
    ∃ t, exec (.registerWrite (.silven (some p)) ⟨offset, 8⟩ v) s = .next t ∧ HartsKept s t ∧ t.pwrCap = s.pwrCap ∧
      t.fabFailt = s.fabFailt ∧ t.fabDlt = s.fabDlt ∧ t.trAnchor = s.trAnchor ∧ t.trPool = s.trPool ∧
      t.trCount = s.trCount ∧ t.ports = s.ports ∧ t.st = s.st := by
  refine ⟨_, exec_registerWrite .., ?_⟩
  have hagree : s.AgreesOffLogs (s.writeRegister .host (.silven (some p)) offset 8 v) := by
    obtain e | e := s.writeRegister_denied p offset v hr
    · rw [e]; rfl
    · rw [e]; exact s.record_agrees ..
  exact ⟨hagree.harts, hagree.pwrCap, hagree.fabFailt, hagree.fabDlt, hagree.trAnchor, hagree.trPool, hagree.trCount,
    hagree.ports, hagree.st⟩

/-- FAB_CTL keeps a field that is written as 0 (R379). -/
theorem fabCtl_writes (s : State) (v : Word) (h : s.st.stage = 3) :
    ∀ i, i = .fabCtlWrite v ∨ i = .registerWrite (.silven none) ⟨0x20400, 8⟩ v →
      exec i s = .next { s with
        fabFailt := if bits v.toNat 27 16 = 0 then s.fabFailt else bits v.toNat 27 16
        fabDlt := if bits v.toNat 11 0 = 0 then s.fabDlt else bits v.toNat 11 0 } := by
  rintro i (rfl | rfl)
  · rw [exec_fabCtlWrite, if_pos (s.silvenAnswers_stage3 _ h)]
    rfl
  · rw [exec_registerWrite, State.writeRegister_physical s _ v rfl, State.writeSilven_fabCtl s v h]
    rfl

/-- The translation table's registers change only while no partition exists (R275). -/
theorem tableRegister_writes (s : State) (v : Word) (h : s.st.stage = 3) :
    (s.parts ≠ [] → exec (.tableRegisterWrite 0x100 v) s = .next s) ∧
    (s.parts = [] → 10 ≤ bits v.toNat 4 0 → bits v.toNat 4 0 ≤ 26 →
      exec (.tableRegisterWrite 0x100 v) s = .next { s with trAnchor := v &&& 0x01FFFFFFFFFFFFDF }) ∧
    (s.parts = [] → exec (.tableRegisterWrite 0x1C0 v) s = .next { s with trCount := v &&& 0x1FFFFFF }) := by
  simp only [exec_tableRegisterWrite, s.silvenAnswers_stage3 _ h, if_true]
  exact ⟨fun hp => by rw [s.writeTableReg_ignored _ v hp], fun hp h10 h26 => by rw [s.writeTableReg_anchor v hp h10 h26],
    fun hp => by rw [s.writeTableReg_count v hp]⟩

/-- The registers of a partition's management region (R394, R410, R419). -/
theorem partitionRegister_writes (s : State) (p : Nat) (v : Word) (x : Partition) (hx : s.part p = some x)
    (ht : x.teardown = .none) :
    (x.nodes ≠ [] → ∃ t, exec (.csaWrite p 0x070 v) s = .next t ∧ t.part p = some x ∧ HartsKept s t) ∧
    (x.nodes = [] →
      (∃ t, exec (.csaWrite p 0x070 v) s = .next t ∧ t.part p = some { x with csaBase := v &&& 0x01FFFFFFFFF00000 }) ∧
      (∃ t, exec (.csaWrite p 0x078 v) s = .next t ∧ t.part p = some { x with csaSlots := bits v.toNat 15 0 })) ∧
    (∃ t, exec (.registerWrite (.management p) ⟨0x0A0, 8⟩ v) s = .next t ∧
      t.part p = some { x with acctRet := x.acctRet &&& ~~~v }) ∧
    (∃ t y, exec (.registerWrite (.management p) ⟨0x050, 8⟩ v) s = .next t ∧ t.part p = some y ∧
      y.relyK.toNat = bits v.toNat 31 16 ∧
      y.relyMode.toNat = (if bits v.toNat 1 0 = 3 then x.relyMode.toNat else bits v.toNat 1 0)) := by
  have ha := s.alive_of_part p x hx ht
  have hpart := s.updPart_part_same p x
  simp only [exec_csaWrite, exec_registerWrite, ha, if_true]
  refine ⟨fun hn => ⟨_, rfl, ?_, s.updPart_hart p _⟩, fun hn => ⟨⟨_, rfl, ?_⟩, _, rfl, ?_⟩, ⟨_, rfl, ?_⟩,
    _, x.writeRely v, rfl, ?_, x.writeRely_k v, x.writeRely_mode v⟩
  · rw [hpart _ hx, x.writeCsa_ignored _ v hn]
  · rw [hpart _ hx, x.writeCsa_base v hn]
  · rw [hpart _ hx, x.writeCsa_slots v hn]
  · rw [s.writeRegister_management p _ v rfl ha (by decide), hpart _ hx]
    rfl
  · rw [s.writeRegister_management p _ v rfl ha (by decide), hpart _ hx]
    rfl

/-- Settles O52: who is let in to a register first, then what the write changes; a denied write is at most recorded, and a
record changes no register. -/
theorem deviceRegisters : Obligations.DeviceRegisters := by
  refine ⟨fun s v h => ?_, fabCtl_writes, tableRegister_writes, partitionRegister_writes, fun s p v offset width ha => ?_,
    fun s space v offset width hshape => ?_, fun s v offset width hstage h0 h8 hlog => ?_⟩
  · obtain ⟨hphysical, hgranted⟩ := pwrCap_writes s v h
    exact ⟨hphysical, hgranted, silven_denied_keeps s v⟩
  · obtain ⟨hmanagement, hsilven⟩ := s.writeRegister_dead p offset width v ha
    exact ⟨by rw [exec_registerWrite, hmanagement], by rw [exec_registerWrite, hsilven]⟩
  · rw [exec_registerWrite, s.writeRegister_shape _ _ _ _ v hshape]
  · rw [exec_registerWrite]
    by_cases hshape : offset % 8 ≠ 0 ∨ width ≠ 8
    · rw [s.writeRegister_shape _ _ _ _ v hshape]
    · obtain ⟨haligned, rfl⟩ : offset % 8 = 0 ∧ width = 8 := by omega
      rw [s.writeRegister_physical offset v haligned,
        s.writeSilven_silent offset v (s.silvenAnswers_early offset hstage h0 h8 hlog)]

/-- Nothing is listed at reset, so every hart is the one that runs nothing. -/
theorem State.reset_hart (h : Nat) : State.reset.hart h = Hart.reset := rfl

theorem State.reset_core (c : Nat) : State.reset.core c = Core.reset := rfl

theorem State.reset_peer (p : Nat) : State.reset.peer p = Peer.reset := rfl

theorem canonical_reset : Canonical State.reset := ⟨rfl, rfl, rfl, fun c => by rw [State.reset_core]; rfl⟩

theorem legalHarts_reset : LegalHarts State.reset := by
  intro h
  rw [State.reset_hart]
  exact ⟨by decide, fun e he => absurd he List.not_mem_nil⟩

theorem Core.reset_channel (n : Fin 4) : Core.reset.channels[n] = Channel.reset := by
  simp [Core.reset]

/-- Settles O60: the reset state lists no hart, core or peer, so each is at its own reset values. -/
theorem resetLeaves : Obligations.ResetLeaves := by
  refine ⟨rfl, rfl, rfl, rfl, rfl, rfl, rfl, rfl, rfl, rfl, canonical_reset, legalHarts_reset, fun c h p => ?_⟩
  simp only [State.reset_hart, State.reset_core, State.reset_peer, Core.reset_channel]
  exact ⟨rfl, rfl, fun _ => rfl, rfl, rfl, rfl, rfl, rfl, rfl, rfl, rfl⟩

end Sys2Proof.Machine
end

section
/-!
PROOFS. The Viaduct schedule tables: START and STOP (R58, R61-R63), the load (R61, R62), the cycle of a running table with
what it issues and what it is charged to (R67-R71), and the slot messages (R66).
-/

namespace Sys2Proof.Machine

open Sys2Proof.Claims

/-! ## A table after it is written -/

@[simp] theorem State.setSched_sched_same (s : State) (t : Nat) (x : SchedTable) : (s.setSched t x).sched t = x := by
  simp [State.sched, State.setSched]

theorem State.setSched_hartsKept (s : State) (t : Nat) (x : SchedTable) : HartsKept s (s.setSched t x) := fun _ => rfl

theorem State.AgreesOffLogs.scheds {s t : State} (h : s.AgreesOffLogs t) : t.scheds = s.scheds := congrArg (·.scheds) h

/-- States with the same tables give the same under each number. -/
theorem State.sched_congr {s t : State} (h : t.scheds = s.scheds) (n : Nat) : t.sched n = s.sched n := by
  simp only [State.sched, h]

/-- What a fault leaves of its table: the record it writes touches no table (R63). -/
theorem State.schedFault_sched (s : State) (t err : Nat) : (s.schedFault t err).sched t = { s.sched t with
    state := .faulted, err := err, stall := 7
    dropEntries := if (s.sched t).state = .running
      then (s.sched t).dropEntries + BitVec.ofNat 32 ((s.sched t).len - (s.sched t).head) else (s.sched t).dropEntries } := by
  unfold State.schedFault
  dsimp only
  split
  · rw [State.sched_congr (State.record_agrees ..).scheds, State.setSched_sched_same]
  · exact State.setSched_sched_same ..

/-! ## A table's nodes and its last node's end (R61, R62) -/

/-- The nodes of a run are those of the node table that it issued. -/
theorem Partition.mem_tableNodes (x : Partition) (t run : Nat) (n : Node) :
    n ∈ x.tableNodes t run ↔ ∃ k i, (k, n) ∈ x.nodes ∧ n.sched = some (t, i, run) := by
  unfold Partition.tableNodes
  rw [List.mem_filter, List.mem_map]
  constructor
  · rintro ⟨⟨⟨k, _⟩, hk, rfl⟩, hof⟩
    split at hof
    · next a i b hi =>
      obtain ⟨rfl, rfl⟩ : a = t ∧ b = run := by simpa using hof
      exact ⟨k, i, hk, hi⟩
    · cases hof
  · rintro ⟨k, i, hk, hi⟩
    exact ⟨⟨(k, n), hk, rfl⟩, by simp [hi]⟩

/-- Settling is about STATE and STALL of the table alone. -/
theorem State.schedSettle_cases (s : State) (t : Nat) : s.schedSettle t = s ∨
    ∃ state, s.schedSettle t = s.setSched t { s.sched t with state := state, stall := 7 } := by
  rw [State.schedSettle]
  dsimp only
  by_cases hstop : (s.sched t).state = .stopping
  · rw [if_pos hstop]
    exact (Decidable.em _).elim (fun h => .inl (if_pos h)) fun h => .inr ⟨_, if_neg h⟩
  · rw [if_neg hstop]
    by_cases hdone : (s.sched t).state = .running ∧ (s.sched t).head ≥ (s.sched t).len
    · rw [if_pos hdone]
      exact (Decidable.em _).elim (fun h => .inl (if_pos h)) fun h => .inr ⟨_, if_neg h⟩
    · rw [if_neg hdone, ite_self]
      exact .inl rfl

theorem State.schedSettle_sched (s : State) (t : Nat) :
    ∃ state stall, (s.schedSettle t).sched t = { s.sched t with state := state, stall := stall } := by
  obtain e | ⟨state, e⟩ := s.schedSettle_cases t
  · exact ⟨_, _, by rw [e]⟩
  · exact ⟨state, 7, by rw [e, State.setSched_sched_same]⟩

theorem State.schedSettle_hartsKept (s : State) (t : Nat) : HartsKept s (s.schedSettle t) := by
  obtain e | ⟨_, e⟩ := s.schedSettle_cases t
  · rw [e]; exact fun _ => rfl
  · rw [e]; exact s.setSched_hartsKept _ _

/-- A running table with entries to issue does not end. -/
theorem State.schedSettle_issuing (s : State) (t : Nat) (h : (s.sched t).state = .running)
    (hlt : (s.sched t).head < (s.sched t).len) : s.schedSettle t = s := by
  simp [State.schedSettle, h, Nat.not_le.mpr hlt]

/-- A table with a node of its run does not end. -/
theorem State.schedSettle_live (s : State) (t p : Nat) (y : Partition) (n : Node) (ho : s.tableOwner t = some p)
    (hy : s.part p = some y) (hn : n ∈ y.tableNodes t (s.sched t).run) : s.schedSettle t = s := by
  simp [State.schedSettle, ho, hy, List.ne_nil_of_mem hn]

/-- A stopping table without a node of its run is IDLE. -/
theorem State.schedSettle_stopped (s : State) (t p : Nat) (h : (s.sched t).state = .stopping) (ho : s.tableOwner t = some p)
    (hnone : ∀ y, s.part p = some y → y.tableNodes t (s.sched t).run = []) :
    s.schedSettle t = s.setSched t { s.sched t with state := .idle, stall := 7 } := by
  cases hp : s.part p with
  | none => simp [State.schedSettle, h, ho, hp]
  | some y => simp [State.schedSettle, h, ho, hp, hnone y hp]

/-! ## START and STOP (R57, R58, R61-R63) -/

/-- A granted access is made (R57). -/
theorem State.schedAccess_granted (s : State) (p t offset : Nat) (f : State → State) (h : TableGranted s p t) :
    s.schedAccess p t offset f = f s := by
  obtain ⟨x, hx, hteardown, htable, hright⟩ := h
  simp only [State.schedAccess, hx, hteardown, htable, hright, ne_eq, not_true_eq_false, if_false, Bool.and_self, if_true]

theorem exec_schedStart_granted (s : State) (p t : Nat) (v : Word) (h : TableGranted s p t) :
    exec (.schedStart p t v) s = .next (s.writeSchedCtl p t (v ||| 1)) :=
  congrArg Host.Outcome.next (s.schedAccess_granted p t _ _ h)

theorem exec_schedStop_granted (s : State) (p t : Nat) (v : Word) (h : TableGranted s p t) :
    exec (.schedStop p t v) s = .next (s.writeSchedCtl p t (v ||| 2)) :=
  congrArg Host.Outcome.next (s.schedAccess_granted p t _ _ h)

/-- A write with START of a table that has stopped takes the fields of the word and starts (R58). -/
theorem State.writeSchedCtl_start (s : State) (p t : Nat) (v : Word)
    (h : (s.sched t).state = .idle ∨ (s.sched t).state = .done ∨ (s.sched t).state = .faulted) :
    s.writeSchedCtl p t (v ||| 1) =
      (s.setSched t { s.sched t with ctl := (v ||| 1) &&& schedCtlMask }).schedStart p t := by
  have hstart : (v ||| 1).getLsbD 0 = true := by simp
  obtain h | h | h := h <;> simp only [State.writeSchedCtl, h, hstart, if_true]

/-- A write with STOP of a table that loads or runs stops it (R58). -/
theorem State.writeSchedCtl_stop (s : State) (p t : Nat) (v : Word)
    (h : (s.sched t).state = .loading ∨ (s.sched t).state = .running) :
    s.writeSchedCtl p t (v ||| 2) = s.schedStop t := by
  have hstop : (v ||| 2).getLsbD 1 = true := by simp
  obtain h | h := h <;> simp only [State.writeSchedCtl, h, hstop, if_true]

theorem State.schedStart_misconfigured (s : State) (p t : Nat) (h : (s.sched t).configOk = false) :
    s.schedStart p t = s.setSched t { s.sched t with err := 0x08 } := by
  simp [State.schedStart, h]

theorem State.schedStart_det (s : State) (p t : Nat) (x : Partition) (h : (s.sched t).configOk = true)
    (hx : s.part p = some x) (hdet : x.det = true) : s.schedStart p t = s.setSched t { s.sched t with err := 0x03 } := by
  simp [State.schedStart, h, hx, hdet]

theorem State.schedStart_loads (s : State) (p t : Nat) (x : Partition) (h : (s.sched t).configOk = true)
    (hx : s.part p = some x) (hdet : x.det = false) : s.schedStart p t =
      s.setSched t { (s.sched t).begin with seals := s.sealHomes p (s.sched t).begin } := by
  simp [State.schedStart, h, hx, hdet]

theorem State.schedStop_loading (s : State) (t : Nat) (h : (s.sched t).state = .loading) :
    s.schedStop t = s.setSched t { s.sched t with state := .idle, stall := 7 } := by
  simp only [State.schedStop, h]

/-- A running table as STOP leaves it, before its end is looked for: the entries left are dropped and counted (R63). -/
def SchedTable.halted (x : SchedTable) : SchedTable :=
  { x with state := .stopping, stall := 7, dropEntries := x.dropEntries + BitVec.ofNat 32 (x.len - x.head) }

theorem State.schedStop_running (s : State) (t : Nat) (h : (s.sched t).state = .running) :
    s.schedStop t = (s.setSched t (s.sched t).halted).schedSettle t := by
  simp only [State.schedStop, h]
  rfl

theorem schedStart_settles (s : State) (p tb : Nat) (v : Word) (hgrant : TableGranted s p tb)
    (hstate : (s.sched tb).state = .idle ∨ (s.sched tb).state = .done ∨ (s.sched tb).state = .faulted) :
    let x := { s.sched tb with ctl := (v ||| 1) &&& 0x00FFFFFFFFFC0700 }
    (x.configOk = false → ∃ t, exec (.schedStart p tb v) s = .next t ∧ t.sched tb = { x with err := 0x08 }) ∧
    (x.configOk = true → (∀ y, s.part p = some y → y.det = true) →
      ∃ t, exec (.schedStart p tb v) s = .next t ∧ t.sched tb = { x with err := 0x03 }) ∧
    (x.configOk = true → (∀ y, s.part p = some y → y.det = false) →
      ∃ t, exec (.schedStart p tb v) s = .next t ∧ (t.sched tb).state = .loading ∧ (t.sched tb).err = 0 ∧
        (t.sched tb).stall = 7 ∧ (t.sched tb).head = 0 ∧ (t.sched tb).fscUp = bits x.ctl.toNat 55 49 ∧
        (t.sched tb).fscDown = bits x.ctl.toNat 48 42 ∧ (t.sched tb).stash = [] ∧ (t.sched tb).actFilled = [] ∧
        (t.sched tb).gradFilled = [] ∧ (t.sched tb).latched = [x.ctl, x.base, x.actBase, x.gradBase, x.slotBytes] ∧
        (t.sched tb).bub = Vector.replicate 7 0 ∧ HartsKept s t) := by
  intro x
  have ⟨part, hpart, _⟩ := hgrant
  have hexec : exec (.schedStart p tb v) s = .next ((s.setSched tb x).schedStart p tb) := by
    rw [exec_schedStart_granted s p tb v hgrant, s.writeSchedCtl_start p tb v hstate]
    rfl
  have hx : (s.setSched tb x).sched tb = x := State.setSched_sched_same ..
  refine ⟨fun hbad => ⟨_, hexec, ?_⟩, fun hok hdet => ⟨_, hexec, ?_⟩, fun hok hdet => ⟨_, hexec, ?_⟩⟩
  · rw [State.schedStart_misconfigured (s.setSched tb x) p tb (by rw [hx, hbad]), State.setSched_sched_same, hx]
  · rw [State.schedStart_det (s.setSched tb x) p tb part (by rw [hx, hok]) hpart (hdet part hpart),
      State.setSched_sched_same, hx]
  · rw [State.schedStart_loads (s.setSched tb x) p tb part (by rw [hx, hok]) hpart (hdet part hpart),
      State.setSched_sched_same, hx]
    exact ⟨rfl, rfl, rfl, rfl, rfl, rfl, rfl, rfl, rfl, rfl, rfl, fun _ => rfl⟩

theorem schedStop_settles (s : State) (p tb : Nat) (v : Word) (hgrant : TableGranted s p tb) :
    ((s.sched tb).state = .loading → ∃ t, exec (.schedStop p tb v) s = .next t ∧ (t.sched tb).state = .idle) ∧
    ((s.sched tb).state = .running → s.tableOwner tb = some p →
      ∃ t, exec (.schedStop p tb v) s = .next t ∧
        (t.sched tb).dropEntries = (s.sched tb).dropEntries + BitVec.ofNat 32 ((s.sched tb).len - (s.sched tb).head) ∧
        ((∀ y, s.part p = some y → ∀ e ∈ y.nodes, e.2.sched = none) → (t.sched tb).state = .idle) ∧
        ((∃ y, s.part p = some y ∧ ∃ e ∈ y.nodes, ∃ i, e.2.sched = some (tb, i, (s.sched tb).run)) →
          (t.sched tb).state = .stopping)) := by
  rw [exec_schedStop_granted s p tb v hgrant]
  constructor
  · intro hloading
    refine ⟨_, rfl, ?_⟩
    rw [s.writeSchedCtl_stop p tb v (.inl hloading), s.schedStop_loading tb hloading, State.setSched_sched_same]
  · intro hrunning howner
    have hhalted : (s.setSched tb (s.sched tb).halted).sched tb = (s.sched tb).halted := State.setSched_sched_same ..
    rw [s.writeSchedCtl_stop p tb v (.inr hrunning), s.schedStop_running tb hrunning]
    refine ⟨_, rfl, ?dropped, fun hnone => ?idle, fun hlive => ?stopping⟩
    case dropped =>
      obtain ⟨_, _, e⟩ := State.schedSettle_sched (s.setSched tb (s.sched tb).halted) tb
      rw [e, hhalted]
      rfl
    case idle =>
      have hends : ∀ y, s.part p = some y → y.tableNodes tb (s.sched tb).run = [] := by
        intro y hy
        rw [List.eq_nil_iff_forall_not_mem]
        intro n hn
        obtain ⟨k, i, hk, hi⟩ := (y.mem_tableNodes ..).mp hn
        cases hi.symm.trans (hnone y hy (k, n) hk)
      rw [State.schedSettle_stopped (s.setSched tb (s.sched tb).halted) tb p (by rw [hhalted]; rfl) howner
        (by rw [hhalted]; exact hends), State.setSched_sched_same]
    case stopping =>
      obtain ⟨y, hy, ⟨k, n⟩, hk, i, hi⟩ := hlive
      have hn : n ∈ y.tableNodes tb (s.sched tb).run := (y.mem_tableNodes ..).mpr ⟨k, i, hk, hi⟩
      rw [State.schedSettle_live (s.setSched tb (s.sched tb).halted) tb p y n howner hy (by rw [hhalted]; exact hn), hhalted]
      rfl

/-! ## Reading a range that lies in one page of local memory -/

/-- A range within a page is one piece. -/
theorem cutPages_within (fuel off va n : Nat) (hn : 0 < n) (hpage : va % 65536 + n ≤ 65536) :
    cutPages (fuel + 1) off va n = [(off, va, n)] := by
  have hmin : min n (65536 - va % 65536) = n := by omega
  have hrest : ∀ off va, cutPages fuel off va 0 = [] := fun _ _ => by cases fuel <;> rfl
  simp only [cutPages, Nat.ne_of_gt hn, if_false, hmin, Nat.sub_self, hrest]

theorem State.devPlaces_home (s : State) (p va n key : Nat) (h : s.devPlace p va needR = .ok (.home key))
    (hm : s.migrations = []) : s.devPlaces p va n = .ok [(.home key, n)] := by
  have hcuts : s.cuts va n = [(va, n)] := by simp [State.cuts, hm]
  unfold State.devPlace at h
  unfold State.devPlaces
  cases he : s.devEntry p va needR with
  | error _ => rw [he] at h; cases h
  | ok e =>
    rw [he] at h
    have hplace : s.placeOf e va = .home key := Except.ok.inj h
    simp [Except.map, hcuts, hplace]

theorem State.fetchAll_nil (s : State) : s.fetchAll [] = (some [], s) := by
  have hkept : (s.fetched.filter fun f => !([] : List (Nat × Packet)).any fun p => f.peer == p.1 && f.packet == p.2) =
      s.fetched := List.filter_eq_self.mpr fun _ _ => rfl
  simp only [State.fetchAll, List.foldl_nil, List.filterMap_nil, hkept]
  exact if_pos rfl

theorem State.readRanges_home (s : State) (p va n key : Nat) (hn : 0 < n) (hpage : va % 65536 + n ≤ 65536)
    (h : s.devPlace p va needR = .ok (.home key)) (hm : s.migrations = []) :
    ∃ u, s.readRanges p [(va, n)] = (.ready [s.homeBytes key n], u) := by
  have hparts : s.rangeParts p va n = some [(.home key, n)] := by
    simp [State.rangeParts, cutPages_within _ 0 va n hn hpage, s.devPlaces_home p va n key h hm, cutAccess]
  refine ⟨(s.recordRanges p [(va, n)]).countReads [(.home key, n)], ?_⟩
  simp [State.readRanges, hparts, peerReads, s.fetchAll_nil, State.joinRanges, State.joinReads]

theorem schedLoad_settles (s : State) (p tb key : Nat) (howner : s.tableOwner tb = some p)
    (hloading : (s.sched tb).state = .loading) :
    let x := s.sched tb
    let base := (x.latched.getD 1 0).toNat
    0 < x.len → base % 65536 + 32 * x.len ≤ 65536 → s.devPlace p base needR = .ok (.home key) → s.migrations = [] →
    ((entriesOf x.len (s.homeBytes key (32 * x.len))).2 = true → x.actSlots + x.gradSlots ≤ x.seals.length →
      ∃ t, exec (.schedLoadComplete tb) s = .next t ∧
        t.sched tb = { x with state := .running, entries := (entriesOf x.len (s.homeBytes key (32 * x.len))).1 }) ∧
    ((entriesOf x.len (s.homeBytes key (32 * x.len))).2 = false →
      ∃ t, exec (.schedLoadComplete tb) s = .next t ∧ (t.sched tb).state = .faulted ∧ (t.sched tb).err = 0x02) := by
  intro x base hlen hpage hplace hmig
  obtain ⟨u, hread⟩ := s.readRanges_home p base (32 * x.len) key (by omega) hpage hplace hmig
  have hexec : exec (.schedLoadComplete tb) s = .next (
      if !(entriesOf x.len (s.homeBytes key (32 * x.len))).2 then u.schedFault tb 0x02
      else if x.seals.length < x.actSlots + x.gradSlots then u.schedFault tb 0x09
      else u.setSched tb
        { x with state := .running, entries := (entriesOf x.len (s.homeBytes key (32 * x.len))).1 }) := by
    show execSchedLoadComplete tb s = _
    simp only [execSchedLoadComplete, howner, hloading, ne_eq, not_true_eq_false, if_false]
    rw [hread]
    simp only [List.flatten_cons, List.flatten_nil, List.append_nil]
    rfl
  rw [hexec]
  constructor
  · intro hok hseals
    refine ⟨_, rfl, ?_⟩
    rw [hok, if_neg (by simp), if_neg (Nat.not_lt.mpr hseals), State.setSched_sched_same]
  · intro hbad
    refine ⟨_, rfl, ?_⟩
    rw [hbad, if_pos (by rfl), State.schedFault_sched]
    exact ⟨rfl, rfl⟩

/-! ## Making a node changes no table (R25-R30) -/

theorem State.send_agrees (s : State) (peer : Nat) (pk : Packet) (o : Origin) : s.AgreesOffLogs (s.send peer pk o) := by
  unfold State.send State.dropWritten
  dsimp only
  split <;> rfl

theorem State.startFetch_scheds (s : State) (peer : Nat) (pk : Packet) : (s.startFetch peer pk).scheds = s.scheds := by
  unfold State.startFetch
  split
  · rfl
  · exact (s.send_agrees peer pk .fetch).scheds

theorem State.fetchAll_scheds (s : State) (ps : List (Nat × Packet)) : (s.fetchAll ps).2.scheds = s.scheds := by
  have hstart : (ps.foldl (fun s p => s.startFetch p.1 p.2) s).scheds = s.scheds :=
    List.foldlRecOn (motive := fun t : State => t.scheds = s.scheds) ps _ rfl
      fun t ht p _ => (t.startFetch_scheds p.1 p.2).trans ht
  unfold State.fetchAll
  dsimp only
  split <;> exact hstart

theorem State.recordWalk_agrees (s : State) (p va : Nat) (w : Who) (bad : List Nat) :
    s.AgreesOffLogs (s.recordWalk p va w bad) :=
  List.foldrRecOn bad _ (State.AgreesOffLogs.refl s) fun t ht _ _ => ht.trans (t.record_agrees ..)

theorem State.countReads_agrees (s : State) (xs : List (Place × Nat)) : s.AgreesOffLogs (s.countReads xs) := by
  refine List.foldlRecOn xs _ (State.AgreesOffLogs.refl s) fun t ht x _ => ht.trans ?_
  split
  · exact t.countLines_agrees ..
  · exact State.AgreesOffLogs.refl t

theorem State.devRead_scheds (s : State) (p va n : Nat) : (s.devRead p va n).2.scheds = s.scheds := by
  unfold State.devRead
  dsimp only
  split
  · exact (s.recordWalk_agrees ..).scheds
  · next xs _ =>
    have hfetch := s.fetchAll_scheds (peerReads xs)
    split
    · next hnone => rw [hnone] at hfetch; exact hfetch
    · next u hsome =>
      rw [hsome] at hfetch
      have hnoted := u.recordWalk_agrees p va Who.none (u.walk p va).2
      split
      · exact hnoted.scheds.trans hfetch
      · exact (hnoted.trans (State.countReads_agrees ..)).scheds.trans hfetch

/-- A packet that is on no one's behalf is sent, or is lost without a trace. -/
theorem State.emit_none_agrees (s : State) (peer : Nat) (pk : Packet) : s.AgreesOffLogs (s.emit peer pk .none) := by
  unfold State.emit
  split
  · rfl
  · exact s.sendOrWait_agrees ..

/-- The device's own write fills no receive slot (R65). -/
theorem State.devWrite_agrees (s : State) (p va : Nat) (bs : List Byte) : s.AgreesOffLogs (s.devWrite p va bs).2 := by
  have hwalk := s.recordWalk_agrees p va Who.none (s.walk p va).2
  unfold State.devWrite State.devAccess
  dsimp only
  split
  · exact hwalk.trans ((State.putHome_agrees ..).trans (State.countLines_agrees ..))
  · exact hwalk.trans (State.emit_none_agrees ..)
  · exact hwalk

theorem State.failCreate_agrees (s : State) (p addr status : Nat) : s.AgreesOffLogs (s.failCreate p addr status).2 := by
  unfold State.failCreate
  split
  · rfl
  · split
    · exact s.record_agrees ..
    · exact (s.updPart_agrees ..).trans (State.record_agrees ..)

theorem State.create_agrees (s : State) (p addr : Nat) (ws : List Nat) (t : Option Issued) :
    s.AgreesOffLogs (s.create p addr ws t).2.2 := by
  unfold State.create
  split
  · rfl
  · dsimp only
    split
    · exact s.failCreate_agrees ..
    · split
      · rfl
      · exact s.updPart_agrees ..

theorem State.makeNode_scheds (s : State) (p addr : Nat) (t : Option Issued) :
    (s.makeNode p addr t).2.scheds = s.scheds := by
  unfold State.makeNode
  split
  · exact (s.failCreate_agrees ..).scheds
  · have hread := s.devRead_scheds p addr 128
    split
    · next h => rw [h] at hread; exact hread
    · next u h => rw [h] at hread; exact (u.failCreate_agrees ..).scheds.trans hread
    · next bs u h =>
      rw [h] at hread
      exact ((u.create_agrees ..).trans (State.devWrite_agrees ..)).scheds.trans hread

/-! ## The cycle of a running table (R67-R71) -/

/-- The counter a cycle is charged to: BUSY with a node of the run RUNNING, and else the given one (R71). -/
def State.cycleCharge (s : State) (p t k : Nat) : Nat :=
  if (((s.part p).map fun z => z.tableNodes t (s.sched t).run).getD []).any fun n => n.state == .running then 0 else k

theorem State.cycleCharge_idle (s : State) (p t k : Nat)
    (h : ∀ y, s.part p = some y → ∀ n ∈ y.nodes, n.2.state ≠ .running) : s.cycleCharge p t k = k := by
  unfold State.cycleCharge
  cases hp : s.part p with
  | none => rfl
  | some y =>
    refine if_neg ?_
    simp only [Option.map_some, Option.getD_some, List.any_eq_true, beq_iff_eq]
    rintro ⟨n, hn, hrun⟩
    obtain ⟨k, _, hk, _⟩ := (y.mem_tableNodes ..).mp hn
    exact h y hp (k, n) hk hrun

/-- The charge of a cycle to a counter, and then the end of the table (R61, R70, R71). -/
def State.charged (s : State) (t k : Nat) : State := (s.setSched t ((s.sched t).charge k)).schedSettle t

/-- A cycle whose HEAD is an entry: the issue check, then, of a table that still runs, the charge and the end. -/
theorem exec_schedCycle_charges (s u : State) (p tb : Nat) (e : SchedEntry) (howner : s.tableOwner tb = some p)
    (hrunning : (s.sched tb).state = .running) (hentry : (s.sched tb).entries[(s.sched tb).head]? = some e)
    (hu : (if (s.sched tb).conditions e = (true, true, true) then s.schedIssue p tb e else s) = u)
    (hstill : (u.sched tb).state = .running) :
    exec (.schedCycle tb) s = .next (u.charged tb
      (u.cycleCharge p tb ((s.sched tb).stallOf ((s.sched tb).conditions e)))) := by
  show execSchedCycle tb s = _
  simp only [execSchedCycle, howner, hrunning, hentry, Option.map_some, Option.getD_some, hu, hstill, ne_eq,
    not_true_eq_false, if_false]
  rfl

/-- The charge and the end of a cycle are about the counters, STALL and STATE. -/
theorem State.charged_sched (s : State) (t k : Nat) : ∃ state stall bub,
    (s.charged t k).sched t = { s.sched t with state := state, stall := stall, bub := bub } := by
  obtain ⟨state, stall, e⟩ := State.schedSettle_sched (s.setSched t ((s.sched t).charge k)) t
  rw [State.setSched_sched_same] at e
  exact ⟨state, stall, _, e⟩

theorem State.charged_hartsKept (s : State) (t k : Nat) : HartsKept s (s.charged t k) :=
  State.schedSettle_hartsKept (s.setSched t ((s.sched t).charge k)) t

/-- With entries to issue a cycle ends with its charge. -/
theorem State.charged_issuing (s : State) (t k : Nat) (h : (s.sched t).state = .running)
    (hlt : (s.sched t).head < (s.sched t).len) : s.charged t k = s.setSched t ((s.sched t).charge k) :=
  State.schedSettle_issuing _ t (by rw [State.setSched_sched_same]; exact h) (by rw [State.setSched_sched_same]; exact hlt)

/-- An entry of kind 0 has no conditions. -/
theorem SchedTable.conditions_nop (x : SchedTable) (e : SchedEntry) (h : e.kind = 0) :
    x.conditions e = (true, true, true) := by
  simp only [SchedTable.conditions, h]

theorem SchedTable.issue_nop (x : SchedTable) (e : SchedEntry) (h : e.kind = 0) :
    x.issue e = { x with head := x.head + 1 } := by
  simp only [SchedTable.issue, h]

/-- What issuing an entry changes, by its kind (R68). -/
theorem SchedTable.issue_eq (x : SchedTable) (e : SchedEntry) : x.issue e = { x with
    head := x.head + 1
    stash := if e.kind = 1 then tput x.stash e.stash e.mb else x.stash
    fscDown := if e.kind = 1 ∧ e.down ≠ 511 then x.fscDown - 1 else x.fscDown
    fscUp := if e.kind = 2 ∧ e.up ≠ 511 then x.fscUp - 1 else x.fscUp } := by
  unfold SchedTable.issue
  dsimp only
  split
  · next h => by_cases hdown : e.down = 511 <;> simp [h, hdown]
  · next h => by_cases hup : e.up = 511 <;> simp [h, hup]
  · next h1 h2 => simp only [show ¬ e.kind = 1 from h1, show ¬ e.kind = 2 from h2, false_and, if_false]

theorem State.schedIssue_nop (s : State) (p t : Nat) (e : SchedEntry) (h : e.kind = 0) :
    s.schedIssue p t e = s.setSched t ((s.sched t).issue e) := by
  simp only [State.schedIssue, h, if_true]

/-- An entry whose node is made issues from the table as it was: making the node touches no table. -/
theorem State.schedIssue_made (s u : State) (p t h : Nat) (e : SchedEntry) (hkind : e.kind ≠ 0)
    (hmade : s.makeNode p e.template.toNat
      (some ⟨t, (s.sched t).head, (s.sched t).run, bits (s.sched t).latchedCtl 10 8, e⟩) = (.made 0 h, u)) : s.schedIssue p t e = u.setSched t ((s.sched t).issue e) := by
  have hkept : u.sched t = s.sched t := State.sched_congr (by rw [← s.makeNode_scheds p e.template.toNat _, hmade]) t
  simp only [State.schedIssue, hkind, if_false, hmade, if_true, hkept]

/-- A cycle that issues leaves the table issued, but for the counters, STALL and STATE. -/
theorem exec_schedCycle_issues (s u : State) (p tb : Nat) (e : SchedEntry) (howner : s.tableOwner tb = some p)
    (hrunning : (s.sched tb).state = .running) (hentry : (s.sched tb).entries[(s.sched tb).head]? = some e)
    (hconds : (s.sched tb).conditions e = (true, true, true))
    (hissue : s.schedIssue p tb e = u.setSched tb ((s.sched tb).issue e)) :
    ∃ t state stall bub, exec (.schedCycle tb) s = .next t ∧ HartsKept u t ∧
      t.sched tb = { (s.sched tb).issue e with state := state, stall := stall, bub := bub } := by
  have hstill : ((u.setSched tb ((s.sched tb).issue e)).sched tb).state = .running := by
    rw [State.setSched_sched_same, SchedTable.issue_eq, hrunning]
  have hexec := exec_schedCycle_charges s _ p tb e howner hrunning hentry ((if_pos hconds).trans hissue) hstill
  obtain ⟨state, stall, bub, hsched⟩ := State.charged_sched (u.setSched tb ((s.sched tb).issue e)) tb _
  rw [State.setSched_sched_same] at hsched
  exact ⟨_, state, stall, bub, hexec, State.charged_hartsKept (u.setSched tb ((s.sched tb).issue e)) tb _, hsched⟩

theorem schedCycle_settles (s : State) (p tb : Nat) (e : SchedEntry) (howner : s.tableOwner tb = some p)
    (hrunning : (s.sched tb).state = .running) (hentry : (s.sched tb).entries[(s.sched tb).head]? = some e) :
    let x := s.sched tb
    (e.kind = 0 → ∃ t, exec (.schedCycle tb) s = .next t ∧ (t.sched tb).head = x.head + 1 ∧
      (t.sched tb).stash = x.stash ∧ HartsKept s t) ∧
    (∀ h u, e.kind ≠ 0 → x.conditions e = (true, true, true) →
      s.makeNode p e.template.toNat (some ⟨tb, x.head, x.run, bits x.latchedCtl 10 8, e⟩) = (.made 0 h, u) →
      ∃ t, exec (.schedCycle tb) s = .next t ∧ (t.sched tb).head = x.head + 1 ∧
        (t.sched tb).stash = (if e.kind = 1 then tput x.stash e.stash e.mb else x.stash) ∧
        (t.sched tb).fscDown = (if e.kind = 1 ∧ e.down ≠ 511 then x.fscDown - 1 else x.fscDown) ∧
        (t.sched tb).fscUp = (if e.kind = 2 ∧ e.up ≠ 511 then x.fscUp - 1 else x.fscUp)) ∧
    (x.conditions e ≠ (true, true, true) → (∀ y, s.part p = some y → ∀ n ∈ y.nodes, n.2.state ≠ .running) →
      x.head < x.len →
      ∃ t, exec (.schedCycle tb) s = .next t ∧ (t.sched tb).head = x.head ∧ (t.sched tb).state = .running ∧
        (t.sched tb).stall = x.stallOf (x.conditions e) ∧ HartsKept s t) := by
  intro x
  refine ⟨fun hkind => ?_, fun h u hkind hconds hmade => ?_, fun hfails hidle hlt => ?_⟩
  · obtain ⟨t, _, _, _, hexec, hharts, hsched⟩ := exec_schedCycle_issues s s p tb e howner hrunning hentry
      (x.conditions_nop e hkind) (s.schedIssue_nop p tb e hkind)
    rw [SchedTable.issue_nop _ e hkind] at hsched
    refine ⟨t, hexec, ?_⟩
    rw [hsched]
    exact ⟨rfl, rfl, hharts⟩
  · obtain ⟨t, _, _, _, hexec, _, hsched⟩ := exec_schedCycle_issues s u p tb e howner hrunning hentry hconds
      (s.schedIssue_made u p tb h e hkind hmade)
    rw [SchedTable.issue_eq] at hsched
    refine ⟨t, hexec, ?_⟩
    rw [hsched]
    exact ⟨rfl, rfl, rfl, rfl⟩
  · have hexec := exec_schedCycle_charges s s p tb e howner hrunning hentry (if_neg hfails) hrunning
    have hcharge : s.cycleCharge p tb (x.stallOf (x.conditions e)) = x.stallOf (x.conditions e) :=
      s.cycleCharge_idle p tb _ hidle
    refine ⟨_, hexec, ?_⟩
    rw [hcharge, s.charged_issuing tb _ hrunning hlt, State.setSched_sched_same]
    exact ⟨rfl, hrunning, rfl, s.setSched_hartsKept _ _⟩

/-! ## Slot messages (R66) -/

theorem exec_slotMessage_arrives (s : State) (tb : Nat) (act : Bool) (h : tb < 16) :
    exec (.slotMessage tb act) s = .next (s.slotArrive tb act) :=
  congrArg Host.Outcome.next (if_pos h)

theorem slotMessage_settles (s : State) (tb : Nat) (act : Bool) (htb : tb < 16) :
    ((s.sched tb).state ≠ .running → ∃ t, exec (.slotMessage tb act) s = .next t ∧
      t.sched tb = { s.sched tb with dropMsgs := (s.sched tb).dropMsgs + 1 }) ∧
    ((s.sched tb).state = .running → (if act then (s.sched tb).fscDown else (s.sched tb).fscUp) < 64 →
      ∃ t, exec (.slotMessage tb act) s = .next t ∧
        t.sched tb = if act then { s.sched tb with fscDown := (s.sched tb).fscDown + 1 }
          else { s.sched tb with fscUp := (s.sched tb).fscUp + 1 }) ∧
    ((s.sched tb).state = .running → 64 ≤ (if act then (s.sched tb).fscDown else (s.sched tb).fscUp) →
      ∃ t, exec (.slotMessage tb act) s = .next t ∧ (t.sched tb).state = .faulted ∧ (t.sched tb).err = 0x07) := by
  rw [exec_slotMessage_arrives s tb act htb]
  refine ⟨fun hstate => ⟨_, rfl, ?_⟩, fun hrunning hroom => ⟨_, rfl, ?_⟩, fun hrunning hfull => ⟨_, rfl, ?_⟩⟩
  all_goals unfold State.slotArrive; dsimp only
  · rw [if_pos hstate, State.setSched_sched_same]
  · rw [if_neg (not_not_intro hrunning), if_neg (by omega), State.setSched_sched_same]
    cases act <;> rfl
  · rw [if_neg (not_not_intro hrunning), if_pos (by omega), State.schedFault_sched]
    exact ⟨rfl, rfl⟩

/-- Settles O45, table event by table event: each leaves its table as one equation says, and what goes with it (a record, the
making of a node, the end of a run) touches no other field of a table. -/
theorem scheduleTablesRun : Obligations.ScheduleTablesRun :=
  ⟨schedStart_settles, schedStop_settles, schedLoad_settles, schedCycle_settles, slotMessage_settles⟩

end Sys2Proof.Machine
end

section
/-!
PROOFS. Transfers of control: what an instruction that changes no hart but its own leaves, how it completes and how it traps
(R99, R112, R404), and branches, JAL, JALR and LOOP (R119, R178-R181).
-/

namespace Sys2Proof.Machine

open Sys2Proof.Claims

/-! ## States that agree but for the hart that runs -/

/-- A state that differs from another in the hart that runs, and in no other hart, core or byte. -/
structure KeepsOthers (s t : State) : Prop where
  cur : t.cur = s.cur
  others : ∀ h, h ≠ s.cur → t.hart h = s.hart h
  cores : t.cores = s.cores
  mem : t.mem = s.mem
  tbl : t.tbl = s.tbl
  host : t.host = s.host

namespace KeepsOthers

theorem refl (s : State) : KeepsOthers s s := ⟨rfl, fun _ _ => rfl, rfl, rfl, rfl, rfl⟩

theorem trans {s t u : State} (hst : KeepsOthers s t) (htu : KeepsOthers t u) : KeepsOthers s u where
  cur := htu.cur.trans hst.cur
  others h hne := (htu.others h (hst.cur ▸ hne)).trans (hst.others h hne)
  cores := htu.cores.trans hst.cores
  mem := htu.mem.trans hst.mem
  tbl := htu.tbl.trans hst.tbl
  host := htu.host.trans hst.host

theorem sameBytes {s t : State} (h : KeepsOthers s t) : SameBytes s t where
  mem a := by rw [h.mem]
  tbl a := by rw [h.tbl]
  host a := by rw [h.host]
  pads c a := by rw [State.core, State.core, h.cores]

theorem updHart (s : State) (f : Hart → Hart) : KeepsOthers s (s.updHart s.cur f) where
  cur := rfl
  others h hne := State.updHart_hart_other s s.cur h f hne
  cores := rfl
  mem := rfl
  tbl := rfl
  host := rfl

theorem dropUses (s : State) : KeepsOthers s s.dropUses := by
  unfold State.dropUses
  split
  · exact refl s
  · exact updHart s _

theorem noteHeld (s : State) (old : Nat) (b : Before) : KeepsOthers s (s.noteHeld old b) := by
  unfold State.noteHeld
  dsimp only
  split
  · exact updHart s _
  · exact refl s

theorem dropRequests (s : State) : KeepsOthers s s.dropRequests := by
  obtain ⟨ps, e⟩ := s.dropRequests_eq
  rw [e]
  exact ⟨rfl, fun _ _ => rfl, rfl, rfl, rfl, rfl⟩

end KeepsOthers

@[simp] theorem State.dropUses_cur (s : State) : s.dropUses.cur = s.cur := (KeepsOthers.dropUses s).cur

/-- An attempt begins with no access noted, and with its hart else as it was. -/
@[simp] theorem State.dropUses_hart_cur (s : State) : s.dropUses.hart s.cur = { me s with uses := [] } := by
  unfold State.dropUses
  split
  · next h => rw [← List.isEmpty_iff.mp h]; rfl
  · exact State.updHart_hart_same ..

theorem State.dropUses_regs (s : State) : (s.dropUses.hart s.dropUses.cur).regs = regs s := by
  rw [State.dropUses_cur, State.dropUses_hart_cur]; rfl

theorem State.dropUses_successor (s : State) : (s.dropUses.hart s.dropUses.cur).successor = (me s).successor := by
  rw [State.dropUses_cur, State.dropUses_hart_cur]; rfl

theorem State.dropRequests_hart (s : State) (h : Nat) : s.dropRequests.hart h = s.hart h := by
  obtain ⟨ps, e⟩ := s.dropRequests_eq
  rw [e]
  rfl

/-- Noting what is under guarded issue changes no more of the hart that runs than what it could withdraw. -/
theorem State.noteHeld_hart_cur (s : State) (old : Nat) (b : Before) :
    ∃ held, (s.noteHeld old b).hart s.cur = { s.hart s.cur with heldFrom := held } := by
  unfold State.noteHeld
  dsimp only
  split
  · exact ⟨_, State.updHart_hart_same ..⟩
  · exact ⟨(s.hart s.cur).heldFrom, rfl⟩

/-! ## An instruction that moves its own hart -/

/-- An instruction that is not the first after a return runs its effect with no access noted. -/
theorem instr_eq_conclude (m : M Unit) (s : State) (h : (me s).fresh = false) :
    instr m s = .next (conclude s (m s.dropUses)) := by
  have hfirst : (s.hart s.cur).first = false := by simp [Hart.first, show (s.hart s.cur).fresh = false from h]
  simp [instr, hfirst]

/-- The hart that runs has completed an instruction of which all that its context shows is the registers `g` and the line
`line`. -/
structure Moved (s t : State) (g : Regs) (line : Option Line) : Prop where
  keeps : KeepsOthers s t
  registers : (t.hart s.cur).regs = g
  line : (t.hart s.cur).line = line
  runnable : (t.hart s.cur).blocked = none
  node : (t.hart s.cur).node = (me s).node
  stores : (t.hart s.cur).sb = (me s).sb
  queue : (t.hart s.cur).queue = (me s).queue

theorem Moved.went {s t : State} {g : Regs} {target : Word} (h : Moved s t { g with pc := target } none) :
    Went s t g target :=
  ⟨h.registers, h.line, h.runnable, h.node, h.stores, h.keeps.others, h.keeps.sameBytes⟩

theorem Moved.ran {s t : State} {g : Regs} {line : Option Line}
    (h : Moved s t { g with pc := (me s).successor } line) : Ran s t g :=
  ⟨h.registers, h.runnable, h.node, h.stores, h.keeps.others, h.keeps.sameBytes⟩

/-- Completing changes the hart that runs alone, when no access is to be counted. -/
theorem State.completed_keepsOthers (s u : State) (h : (u.hart u.cur).uses = []) : KeepsOthers u (s.completed u) := by
  rw [State.completed, State.settleUses_none s u h]
  exact ((KeepsOthers.updHart u _).trans (KeepsOthers.noteHeld ..)).trans (KeepsOthers.dropRequests _)

/-- The hart that runs, after completing: what is withdrawn with its effects under guarded issue apart, it is as the model's
completion of a hart has it. -/
theorem State.completed_hart_cur (s u : State) (h : (u.hart u.cur).uses = []) :
    ∃ held, (s.completed u).hart u.cur =
      { (u.hart u.cur).completed (me s).queue.length (s.beforeOf s.cur) with heldFrom := held } := by
  rw [State.completed, State.settleUses_none s u h, State.dropRequests_hart]
  obtain ⟨held, hheld⟩ := (u.updHart u.cur fun x =>
    x.completed (s.hart s.cur).queue.length (s.beforeOf s.cur)).noteHeld_hart_cur (s.heldCount s.cur) (s.beforeOf s.cur)
  rw [State.updHart_cur, State.updHart_hart_same] at hheld
  exact ⟨held, hheld⟩

/-- A queue that has not grown is left as it was when an instruction completes. -/
theorem markBefore_same (q : List QueueEntry) (b : Before) : markBefore q q.length b = q := by simp [markBefore]

/-- An effect that gives its own hart registers and a line completes with them. -/
theorem instr_moves (m : M Unit) (s u : State) (g : Regs) (line : Option Line) (hl : Later s)
    (hm : m s.dropUses = .ok () u) (hu : KeepsOthers s.dropUses u)
    (hh : u.hart s.cur = { me s with regs := g, line := line, uses := [] }) :
    ∃ t, instr m s = .next t ∧ Moved s t g line := by
  obtain ⟨hfresh, hpart⟩ := hl
  have hkeeps : KeepsOthers s u := (KeepsOthers.dropUses s).trans hu
  have huses : (u.hart u.cur).uses = [] := by rw [hkeeps.cur, hh]
  obtain ⟨held, hdone⟩ := s.completed_hart_cur u huses
  rw [hkeeps.cur, hh] at hdone
  refine ⟨s.completed u, by rw [instr_eq_conclude m s hfresh, hm]; rfl,
    hkeeps.trans (s.completed_keepsOthers u huses), ?_, ?_, ?_, ?_, ?_, ?_⟩
  all_goals rw [hdone]
  case refine_1 => simp [Hart.completed, Hart.first, hfresh, hpart]
  case refine_6 => exact markBefore_same ..
  all_goals rfl

/-- A trap of an instruction that has used nothing of PIX and noted no access, taken by the hart's own handler. -/
theorem State.trapped_handled (s u : State) (t : Trap) (hl : Later s) (huses : (u.hart u.cur).uses = [])
    (hbatch : t.batch = none) (hpix : t.pix = none) (htl : (u.hart u.cur).regs.tl ≠ 2)
    (hvector : (u.hart u.cur).regs.vector ≠ 0) :
    s.trapped u t = u.dropRequests.updHart u.cur fun x => x.trapTo t (t.epc.getD (u.hart u.cur).regs.pc) := by
  obtain ⟨hfresh, hpart⟩ := hl
  have hused : ((s.hart s.cur).first || (s.hart s.cur).partway.isSome) = false := by
    simp [Hart.first, show (s.hart s.cur).fresh = false from hfresh, show (s.hart s.cur).partway = none from hpart]
  simp only [State.trapped, State.settleUses_none s u huses, hpix, hused]
  rw [← State.dropRequests_hart] at htl hvector ⊢
  exact State.takeTrap_handled _ _ t hbatch htl hvector

/-- An effect that traps before it has changed anything, its queue empty, enters its own hart's handler (R112, R404). -/
theorem instr_enters_handler (m : M Unit) (s : State) (cause : Nat) (val lane : Word) (hd : Drained s) (hh : Handled s)
    (hm : m s.dropUses = .error (.trap ⟨cause, val, lane, none, none, none⟩) s.dropUses) :
    ∃ t, instr m s = .next t ∧ Entered s t (regs s) (BitVec.ofNat 64 cause) (regs s).pc val lane := by
  obtain ⟨hlater, hqueue⟩ := hd
  obtain ⟨htl, hvector⟩ := hh
  have hstart : s.dropUses.hart s.dropUses.cur = { me s with uses := [] } := by
    rw [State.dropUses_cur, State.dropUses_hart_cur]
  have hnext : instr m s = .next (s.trapped s.dropUses ⟨cause, val, lane, none, none, none⟩) := by
    obtain ⟨hfresh, -⟩ := hlater
    rw [instr_eq_conclude m s hfresh, hm, conclude, show (s.hart s.cur).queue = [] from hqueue]
    rfl
  rw [State.trapped_handled s s.dropUses _ hlater (by rw [hstart]) rfl rfl (by rw [hstart]; exact htl)
    (by rw [hstart]; exact hvector), hstart, State.dropUses_cur] at hnext
  have hkeeps : KeepsOthers s s.dropUses.dropRequests := (KeepsOthers.dropUses s).trans (KeepsOthers.dropRequests _)
  refine ⟨_, hnext, ?_, ?_, ?_, ?_, ?_, ?_⟩
  case refine_5 => exact (hkeeps.trans (hkeeps.cur ▸ KeepsOthers.updHart ..)).others
  case refine_6 => exact (hkeeps.trans (hkeeps.cur ▸ KeepsOthers.updHart ..)).sameBytes
  all_goals rw [State.updHart_hart_same, State.dropRequests_hart, State.dropUses_hart_cur]; rfl

/-! ## Effects that transfer -/

/-- The model's check of a target is R99's. -/
theorem headTarget_iff (t : Word) : headTarget t = true ↔ NamesHead t := by
  simp only [headTarget, NamesHead, Bool.and_eq_true, beq_iff_eq, bne_iff_ne, ne_eq]
  omega

/-- From a state, an effect goes to a target with registers `g`, its line not yet read, when the target names a head; and else
it traps ALIGNMENT with the target, having changed nothing (R178). -/
structure TransfersTo (m : M Unit) (v : State) (target : Word) (g : Regs) : Prop where
  goes : NamesHead target → ∃ u, m v = .ok () u ∧ KeepsOthers v u ∧
    u.hart v.cur = { v.hart v.cur with regs := { g with pc := target }, line := none }
  refuses : ¬ NamesHead target → m v = .error (.trap ⟨cALIGN, target, 0, none, none, none⟩) v

theorem TransfersTo.of_eq {m m' : M Unit} {v : State} {target : Word} {g : Regs} (h : TransfersTo m' v target g)
    (e : m v = m' v) : TransfersTo m v target g :=
  ⟨by rw [e]; exact h.goes, by rw [e]; exact h.refuses⟩

/-- The rule for every transfer: it checks its target first, and what it does then changes its own hart alone. -/
theorem TransfersTo.of_checkTarget {m rest : M Unit} {v u : State} {target : Word} {g : Regs}
    (hm : m v = (checkTarget target >>= fun _ => rest) v) (hrest : rest v = .ok () u) (hu : KeepsOthers v u)
    (hh : u.hart v.cur = { v.hart v.cur with regs := { g with pc := target }, line := none }) :
    TransfersTo m v target g where
  goes hhead := ⟨u, by simp [hm, checkTarget_apply, (headTarget_iff target).mpr hhead, hrest], hu, hh⟩
  refuses hhead := by simp [hm, checkTarget_apply, mt (headTarget_iff target).mp hhead]

/-- An effect that transfers to a head completes there. -/
theorem TransfersTo.went {m : M Unit} {s : State} {target : Word} {g : Regs} (h : TransfersTo m s.dropUses target g)
    (hl : Later s) (hhead : NamesHead target) : ∃ t, instr m s = .next t ∧ Went s t g target := by
  obtain ⟨u, hm, hu, hh⟩ := h.goes hhead
  rw [State.dropUses_cur, State.dropUses_hart_cur] at hh
  obtain ⟨t, hnext, hmoved⟩ := instr_moves m s u _ _ hl hm hu hh
  exact ⟨t, hnext, hmoved.went⟩

/-- An effect that would transfer to what is no head traps ALIGNMENT. -/
theorem TransfersTo.entered {m : M Unit} {s : State} {target : Word} {g : Regs} (h : TransfersTo m s.dropUses target g)
    (hd : Drained s) (hh : Handled s) (hhead : ¬ NamesHead target) :
    ∃ t, instr m s = .next t ∧ Entered s t (regs s) 0x12 (regs s).pc target 0 :=
  instr_enters_handler m s cALIGN target 0 hd hh (h.refuses hhead)

theorem jump_transfersTo (target : Word) (v : State) :
    TransfersTo (jump target) v target (v.hart v.cur).regs :=
  .of_checkTarget rfl (updHart_apply ..) (KeepsOthers.updHart ..) (State.updHart_hart_same ..)

/-- A transfer that writes registers of its hart between the check of its target and entering it. -/
theorem TransfersTo.of_write {m : M Unit} {v : State} {target : Word} (f : Regs → Regs)
    (hm : m v = (do checkTarget target; updRegs f; updHart (·.enter target)) v) :
    TransfersTo m v target (f (v.hart v.cur).regs) :=
  .of_checkTarget hm (bind_apply ..) ((KeepsOthers.updHart v _).trans (KeepsOthers.updHart ..))
    ((State.updHart_hart_same ..).trans (congrArg (Hart.enter · target) (State.updHart_hart_same ..)))

/-- JAL and JALR link once their target is checked (R180). -/
theorem linkTo_transfersTo (rd : Reg) (target : Word) (v : State) :
    TransfersTo (linkTo rd target) v target ((v.hart v.cur).regs.setS rd (v.hart v.cur).successor) :=
  .of_write (·.setS rd (v.hart v.cur).successor) (by
    cases h : headTarget target <;> simp [linkTo, checkTarget_apply, h])

/-! ## Branches, JAL and JALR (R179, R180) -/

theorem branch_taken (cond : Word → Word → Bool) (ra rb : Reg) (imm : Word) (v : State)
    (h : cond ((v.hart v.cur).regs.getS ra) ((v.hart v.cur).regs.getS rb) = true) :
    branch cond ra rb imm v = jump ((v.hart v.cur).regs.pc + imm) v := by
  simp [branch, h]

theorem branch_notTaken (cond : Word → Word → Bool) (ra rb : Reg) (imm : Word) (v : State)
    (h : cond ((v.hart v.cur).regs.getS ra) ((v.hart v.cur).regs.getS rb) = false) :
    branch cond ra rb imm v = advance v := by
  simp [branch, h]

/-- Each branch is the model's one effect of branches, with its own condition (R179). -/
theorem exec_branchOf (i : Instr) (s : State) (c : Prop) (imm : Word) (h : branchOf (regs s) i = some (c, imm)) :
    ∃ cond ra rb, exec i s = instr (branch cond ra rb imm) s ∧
      (cond ((regs s).getS ra) ((regs s).getS rb) = true ↔ c) := by
  unfold branchOf at h
  split at h
  case h_7 => cases h
  all_goals
    obtain ⟨rfl, rfl⟩ := Prod.mk.inj (Option.some.inj h)
    exact ⟨_, _, _, rfl, by simp⟩

/-- A branch transfers, its condition holding, from the state its attempt begins in. -/
theorem branch_transfersTo (cond : Word → Word → Bool) (ra rb : Reg) (imm : Word) (s : State)
    (h : cond ((regs s).getS ra) ((regs s).getS rb) = true) :
    TransfersTo (branch cond ra rb imm) s.dropUses ((regs s).pc + imm) (regs s) := by
  rw [← State.dropUses_regs] at h ⊢
  exact (jump_transfersTo _ _).of_eq (branch_taken cond ra rb imm _ h)

/-- Every branch whose condition holds, JAL and JALR transfer from the state their attempt begins in. -/
theorem exec_transferOf (i : Instr) (s : State) (c : Prop) (target : Word) (g : Regs)
    (h : transferOf s i = some (c, target, g)) (hc : c) :
    ∃ m, exec i s = instr m s ∧ TransfersTo m s.dropUses target g := by
  unfold transferOf at h
  split at h
  case h_1 rd imm =>
    cases h
    rw [← State.dropUses_regs, ← State.dropUses_successor]
    exact ⟨_, rfl, (linkTo_transfersTo ..).of_eq rfl⟩
  case h_2 rd ra imm =>
    cases h
    rw [← State.dropUses_regs, ← State.dropUses_successor]
    exact ⟨_, rfl, (linkTo_transfersTo ..).of_eq rfl⟩
  case h_3 =>
    obtain ⟨⟨_, imm⟩, hbranch, heq⟩ := Option.map_eq_some_iff.mp h
    cases heq
    obtain ⟨cond, ra, rb, hexec, hcond⟩ := exec_branchOf _ s _ imm hbranch
    exact ⟨_, hexec, branch_transfersTo cond ra rb imm s (hcond.mpr hc)⟩

/-- Where a hart falls through to hangs on its program counter and its line alone (R99). -/
theorem Hart.successor_of_pc (h : Hart) (g : Regs) (us : List Use) (e : g.pc = h.regs.pc) :
    Hart.successor { h with regs := g, uses := us } = h.successor := by
  simp [Hart.successor, e]

/-- An effect that writes registers other than the program counter and falls through completes at the next head (R99). -/
theorem instr_falls_through (m : M Unit) (s u : State) (g : Regs) (hl : Later s) (hm : m s.dropUses = .ok () u)
    (hu : KeepsOthers s.dropUses u) (hpc : g.pc = (regs s).pc)
    (hh : u.hart s.dropUses.cur = Hart.advance { s.dropUses.hart s.dropUses.cur with regs := g }) :
    ∃ t, instr m s = .next t ∧ Ran s t g := by
  rw [State.dropUses_cur, State.dropUses_hart_cur] at hh
  have hsuccessor := Hart.successor_of_pc (me s) g [] hpc
  obtain ⟨t, hnext, hmoved⟩ := instr_moves m s u { g with pc := (me s).successor } _ hl hm hu
    (by rw [hh, Hart.advance, hsuccessor])
  exact ⟨t, hnext, hmoved.ran⟩

/-- A branch whose condition fails falls through (R179). -/
theorem branch_falls_through (cond : Word → Word → Bool) (ra rb : Reg) (imm : Word) (s : State) (hl : Later s)
    (h : cond ((regs s).getS ra) ((regs s).getS rb) = false) :
    ∃ t, instr (branch cond ra rb imm) s = .next t ∧ Ran s t (regs s) := by
  rw [← State.dropUses_regs] at h
  refine instr_falls_through _ s _ (regs s) hl (branch_notTaken cond ra rb imm _ h) (KeepsOthers.updHart ..) rfl ?_
  rw [← State.dropUses_regs]
  exact State.updHart_hart_same ..

/-! ## LOOP (R119, R181) -/

/-- The stage bits LOOP tests are those it has just shifted. -/
theorem loopStep_stages (g : Regs) : bits g.loopStep.rrb.toNat 7 4 = loopStages g := by
  simp only [Regs.loopStep, loopStages, bits, BitVec.toNat_ofNat]
  omega

/-- Driving the stage masks writes m4 to m7 and no other register (R118). -/
theorem Regs.stageMasks_eq (g : Regs) (stv : Nat) : g.stageMasks stv = { g with
    m := (((g.m.set 4 (maskOf (stv.testBit 0))).set 5 (maskOf (stv.testBit 1))).set 6 (maskOf (stv.testBit 2))).set 7
      (maskOf (stv.testBit 3)) } := rfl

/-- Stage bit k drives mask register 4 + k. -/
theorem Regs.stageMasks_stage (g : Regs) (stv k : Nat) (hk : k < 4) :
    (g.stageMasks stv).m[4 + k] = maskOf (stv.testBit k) := by
  rw [Regs.stageMasks_eq]
  match k, hk with
  | 3, _ => rw [Vector.getElem_set_self]
  | 2, _ => rw [Vector.getElem_set_ne _ _ (by decide), Vector.getElem_set_self]
  | 1, _ => rw [Vector.getElem_set_ne _ _ (by decide), Vector.getElem_set_ne _ _ (by decide), Vector.getElem_set_self]
  | 0, _ =>
    rw [Vector.getElem_set_ne _ _ (by decide), Vector.getElem_set_ne _ _ (by decide),
      Vector.getElem_set_ne _ _ (by decide), Vector.getElem_set_self]

/-- The mask registers below 4 are no stage masks. -/
theorem Regs.stageMasks_low (g : Regs) (stv k : Nat) (hk : k < 4) : (g.stageMasks stv).m[k] = g.m[k] := by
  rw [Regs.stageMasks_eq, Vector.getElem_set_ne _ _ (by omega), Vector.getElem_set_ne _ _ (by omega),
    Vector.getElem_set_ne _ _ (by omega), Vector.getElem_set_ne _ _ (by omega)]

/-- The model's loop step is R119's. -/
theorem looped_loopStep (g : Regs) : Looped g g.loopStep := by
  have hstages : (g.rrb.toNat / 16 % 16 * 2 + if g.loopcnt = 0 then 0 else 1) % 16 = loopStages g := rfl
  rw [Regs.loopStep, hstages]
  refine ⟨by simp [bits], rfl, fun n => ?_, rfl, fun n => ?_⟩
  · exact Regs.stageMasks_stage g (loopStages g) n.val n.isLt
  · exact Regs.stageMasks_low g (loopStages g) n.val n.isLt

theorem Regs.loopStep_pc (g : Regs) : g.loopStep.pc = g.pc := rfl

/-- LOOP's two cases, S being 1 to 4: one of the low S stage bits is set, or none is. -/
theorem exec_loop (s : State) (n : Reg) (imm : Word) (h1 : 1 ≤ n.toNat) (h4 : n.toNat ≤ 4) :
    ∃ m, exec (.loop n imm) s = instr m s ∧
      m s.dropUses = (if loopStages (regs s) % 2 ^ n.toNat ≠ 0 then do
          checkTarget ((regs s).pc + imm)
          updRegs fun _ => (regs s).loopStep
          updHart (·.enter ((regs s).pc + imm))
        else do
          updRegs fun _ => (regs s).loopStep
          advance : M Unit) s.dropUses := by
  have hrequire : require (1 ≤ n.toNat && n.toNat ≤ 4) 4 s.dropUses = .ok () s.dropUses := by
    simp [require_apply, h1, h4]
  refine ⟨_, rfl, ?_⟩
  rw [bind_apply, hrequire]
  simp only [bind_apply, curRegs_apply, State.dropUses_regs, loopStep_stages]

/-- A LOOP that is taken transfers, with the loop state advanced, from the state its attempt begins in. -/
theorem exec_loop_taken (s : State) (n : Reg) (imm : Word) (h1 : 1 ≤ n.toNat) (h4 : n.toNat ≤ 4)
    (htaken : loopStages (regs s) % 2 ^ n.toNat ≠ 0) :
    ∃ m, exec (.loop n imm) s = instr m s ∧
      TransfersTo m s.dropUses ((regs s).pc + imm) (regs s).loopStep := by
  obtain ⟨m, hexec, hm⟩ := exec_loop s n imm h1 h4
  rw [if_pos htaken] at hm
  exact ⟨m, hexec, .of_write (fun _ => (regs s).loopStep) hm⟩

/-- A LOOP that is not taken falls through with the loop state advanced. -/
theorem exec_loop_notTaken (s : State) (n : Reg) (imm : Word) (hl : Later s) (h1 : 1 ≤ n.toNat) (h4 : n.toNat ≤ 4)
    (hnot : ¬ loopStages (regs s) % 2 ^ n.toNat ≠ 0) :
    ∃ t, exec (.loop n imm) s = .next t ∧ Ran s t (regs s).loopStep := by
  obtain ⟨m, hexec, hm⟩ := exec_loop s n imm h1 h4
  rw [if_neg hnot] at hm
  rw [hexec]
  refine instr_falls_through m s _ _ hl (hm.trans (bind_apply ..))
    ((KeepsOthers.updHart s.dropUses _).trans (KeepsOthers.updHart ..)) (regs s).loopStep_pc ?_
  exact (State.updHart_hart_same ..).trans (congrArg Hart.advance (State.updHart_hart_same ..))

/-! ## The obligation -/

theorem transfersTaken_holds : TransfersTaken := by
  intro i s c target g hl h hc hhead
  obtain ⟨m, hexec, hm⟩ := exec_transferOf i s c target g h hc
  rw [hexec]
  exact hm.went hl hhead

theorem branchesNotTaken_holds : BranchesNotTaken := by
  intro i s c imm hl h hc
  obtain ⟨cond, ra, rb, hexec, hcond⟩ := exec_branchOf i s c imm h
  rw [hexec]
  exact branch_falls_through cond ra rb imm s hl (Bool.eq_false_iff.mpr (mt hcond.mp hc))

theorem misalignedTransfersTrap_holds : MisalignedTransfersTrap := by
  intro i s c target g hd hh h hc hhead
  obtain ⟨m, hexec, hm⟩ := exec_transferOf i s c target g h hc
  rw [hexec]
  exact hm.entered hd hh hhead

theorem loopIterates_holds : LoopIterates := by
  intro s n imm hl h1 h4 hhead
  by_cases htaken : loopStages (regs s) % 2 ^ n.toNat ≠ 0
  · obtain ⟨m, hexec, hm⟩ := exec_loop_taken s n imm h1 h4 htaken
    obtain ⟨t, hnext, hwent⟩ := hm.went hl hhead
    exact ⟨t, _, hexec.trans hnext, looped_loopStep (regs s), by rwa [if_pos htaken]⟩
  · obtain ⟨t, hnext, hran⟩ := exec_loop_notTaken s n imm hl h1 h4 htaken
    exact ⟨t, _, hnext, looped_loopStep (regs s), by rwa [if_neg htaken]⟩

theorem misalignedLoopsTrap_holds : MisalignedLoopsTrap := by
  intro s n imm hd hh h1 h4 htaken hhead
  obtain ⟨m, hexec, hm⟩ := exec_loop_taken s n imm h1 h4 htaken
  rw [hexec]
  exact hm.entered hd hh hhead

/-- Settles O3: every transfer checks its target first and then changes its own hart alone, so it either completes at the
target or traps with nothing done; the rest falls through. -/
theorem transfers : Obligations.Transfers :=
  ⟨transfersTaken_holds, branchesNotTaken_holds, misalignedTransfersTrap_holds, loopIterates_holds,
    misalignedLoopsTrap_holds⟩

end Sys2Proof.Machine
end
